-- ==== Sys2Proof/Word.lean ====
section
/-! DEFINITION. The number types of the WX3064 manual (00_scope.md section 4.1) and indexed update of a
fixed-size register file. -/

namespace Sys2Proof

/-- A byte of packet data or of an operand payload. -/
abbrev Byte := BitVec 8
/-- A 48-bit address, on either side of the part (00_scope.md section 4.1). -/
abbrev Addr := BitVec 48
/-- A wrapping 32-bit counter or sequence number (R145, R150, R183). -/
abbrev Word32 := BitVec 32
/-- The upstream Tag of a request, 0–255. -/
abbrev Tag := BitVec 8
/-- The Sequence of a management command, 0–65535. -/
abbrev CmdSeq := BitVec 16
/-- A bank generation, 0–255, wrapping (R116). -/
abbrev Generation := BitVec 8
/-- A requester number, 0–31. -/
abbrev ReqNum := Fin 32
/-- A slot number of the outstanding request table, 0–127 (R43). -/
abbrev SlotNum := Fin 128
/-- The index of a window entry in a bank, 0–63 (R1). -/
abbrev WinIndex := Fin 64
/-- A physical bank of the window store, 0, 1 or 2 (R114). -/
abbrev BankNum := Fin 3
/-- The index of a piece in its request, 0 or 1 (R9). -/
abbrev PieceIndex := Fin 2
/-- The incarnation of a slot, 0–3, wrapping (R46). -/
abbrev Incarnation := Fin 4

/-- The exclusive end of the 48-bit address space, 2^48. -/
abbrev addrEnd : Nat := 2 ^ 48

/-- Entry `i` of a file of like things. -/
def pick {α : Type} {n : Nat} (v : Vector α n) (i : Fin n) : α := v.get i

/-- A file of like things with entry `i` replaced. -/
def put {α : Type} {n : Nat} (v : Vector α n) (i : Fin n) (x : α) : Vector α n :=
  v.set i.val x i.isLt

theorem pick_put {α : Type} {n : Nat} (v : Vector α n) (i j : Fin n) (x : α) :
    pick (put v i x) j = if j = i then x else pick v j := by
  by_cases h : j = i
  · subst h; simp [pick, put, Vector.get_eq_getElem]
  · have hv : i.val ≠ j.val := fun e => h (Fin.ext e.symm)
    simp [pick, put, Vector.get_eq_getElem, h, hv]

@[simp] theorem pick_put_same {α : Type} {n : Nat} (v : Vector α n) (i : Fin n) (x : α) :
    pick (put v i x) i = x := by
  simp [pick_put]

theorem pick_put_other {α : Type} {n : Nat} (v : Vector α n) {i j : Fin n} (x : α) (h : j ≠ i) :
    pick (put v i x) j = pick v j := by
  simp [pick_put, h]

@[simp] theorem pick_replicate {α : Type} {n : Nat} (x : α) (i : Fin n) :
    pick (Vector.replicate n x) i = x := by
  simp [pick, Vector.get_eq_getElem]

theorem pick_ext {α : Type} {n : Nat} {v w : Vector α n} (h : ∀ i, pick v i = pick w i) : v = w := by
  ext i hi
  simpa [pick, Vector.get_eq_getElem] using h ⟨i, hi⟩

@[simp] theorem put_pick {α : Type} {n : Nat} (v : Vector α n) (i : Fin n) :
    put v i (pick v i) = v := by
  apply pick_ext
  intro j
  by_cases h : j = i
  · subst h; simp
  · simp [pick_put_other _ _ h]

/-- The files of like things, each entry mapped by its number. -/
def mapAll {α : Type} {n : Nat} (f : Fin n → α → α) (v : Vector α n) : Vector α n :=
  Vector.ofFn fun i => f i (pick v i)

@[simp] theorem pick_mapAll {α : Type} {n : Nat} (f : Fin n → α → α) (v : Vector α n) (i : Fin n) :
    pick (mapAll f v) i = f i (pick v i) := by
  simp [pick, mapAll, Vector.get_eq_getElem]

end Sys2Proof
end

