-- ==== Sys2Proof/Syntax.lean ====
section
/-! DEFINITION. The commands of the WX3064: one constructor of `Instr` for every row of spec/opcode_table.json,
with what the row's event brings from outside (a packet, a port, the pins). A row that brings nothing
from outside has no operands: a management command row takes the command that stands at the head of
the management queue (R168), whose operands came with its packet. -/

namespace Sys2Proof

/-- The two link ports (00_scope.md section 1.2). -/
inductive PortId where
  | up
  | down
  deriving DecidableEq, Repr

/-- The kinds of an upstream memory request. -/
inductive ReqKind where
  | rdreq
  | wrreq
  | pwreq
  deriving DecidableEq, Repr

/-- An upstream memory request as the port received it. Length is the two header bytes as they came, and
data the payload as the layer below delivered it (R193), so that check 1 of R27 can find them wrong. -/
structure Request where
  kind : ReqKind
  requester : ReqNum
  tag : Tag
  address : Addr
  length : BitVec 16
  data : List Byte
  deriving DecidableEq, Repr

/-- A management command packet as a port received it (R167, R194). -/
structure Mcmd where
  requester : ReqNum
  sequence : CmdSeq
  command : Byte
  payload : List Byte
  deriving DecidableEq, Repr

/-- The packets that join the intake queue (R22). -/
inductive IntakePacket where
  | request (q : Request)
  | mcmd (m : Mcmd)
  deriving DecidableEq, Repr

/-- The packet kinds not received upstream (R24, R192). -/
inductive StrayUp where
  | rdrsp
  | wrrsp
  | errsp
  | mresp
  | note
  | unassigned (code : BitVec 4)
  deriving DecidableEq, Repr

/-- The Class of a CRET (Table 11-4). -/
inductive CreditClass where
  | none
  | intake
  | request
  | posted
  deriving DecidableEq, Repr

/-- The two classes of a CRET that the downstream port takes (R192). -/
inductive PoolClass where
  | request
  | posted
  deriving DecidableEq, Repr

/-- The packets the downstream port discards without a record (R192). -/
inductive StrayDown where
  | cret (cls : CreditClass) (count : BitVec 16)
  | rdreq
  | wrreq
  | pwreq
  | mresp
  | note
  | unassigned (code : BitVec 4)
  deriving DecidableEq, Repr

/-- The downstream tag of a non-posted piece: slot, piece index and incarnation (R71, Table 11-4). -/
structure DTag where
  slot : SlotNum
  piece : PieceIndex
  incarnation : Incarnation
  deriving DecidableEq, Repr

/-- What the pool's response carries besides its tag (R80). -/
inductive ResponseBody where
  | rdrsp (length : BitVec 16) (data : List Byte)
  | wrrsp
  | errsp (poolCode : Byte)
  deriving DecidableEq, Repr

/-- A response of the pool (R80). -/
structure Response where
  tag : DTag
  body : ResponseBody
  deriving DecidableEq, Repr

/-- The counts of an INIT as received; the upstream port does not read them (R188). -/
structure InitCounts where
  request : BitVec 16
  posted : BitVec 16
  deriving DecidableEq, Repr

/-- The strap pins as they stand at the release of RESET_N (R195). -/
structure Straps where
  mgrId : ReqNum
  dmgEn : Bool
  deriving DecidableEq, Repr

/-- The part's operations and events, in the order of spec/opcode_table.json. -/
inductive Instr where
  | upstreamPacketArrival (p : IntakePacket)
  | upstreamStrayPacket (kind : StrayUp) (requester : ReqNum)
  | upstreamCretDiscard (cls : CreditClass) (count : BitVec 16)
  | headExamination
  | mcmdAtHead
  | grant
  | responseArrival (r : Response)
  | downstreamCret (cls : PoolClass) (count : BitVec 16)
  | downstreamStrayPacket (kind : StrayDown)
  | downstreamMcmdArrival (m : Mcmd)
  | deadlineExpiry (slot : SlotNum)
  | reclaimExpiry (slot : SlotNum)
  | drainEnd
  | fillStep
  | fillCompletion
  | resendExpiry
  | leaseTimerExpiry
  | identify
  | status
  | claim
  | renew
  | release
  | rqRead
  | ortRead
  | flogRead
  | flogPop
  | wtRead
  | wtWrite
  | wtClear
  | commit
  | commitCancel
  | rqWrite
  | reinstate
  | noteAck
  | configRead
  | configWrite
  | countersRead
  | partReset
  | peerDetect (port : PortId)
  | initReceived (port : PortId) (counts : InitCounts)
  | initWhileUp (port : PortId)
  | trainingTimerExpiry (port : PortId)
  | holdOffExpiry (port : PortId)
  | lossOfSignal (port : PortId)
  | errorBurst (port : PortId)
  | resetNAssert
  | resetNRelease (straps : Straps)
  | powerUp (straps : Straps) (resetNHigh : Bool)
  | unknownCommand
  deriving DecidableEq, Repr

end Sys2Proof
end

