-- ==== Sys2Proof/Machine/Records.lean ====
section
/-! DEFINITION. The records of the part's blocks, field by field as the manual's tables give them, and the
packets the part sends. -/

namespace Sys2Proof.Machine

/-! ## Window store (01_address_windows_and_lookup.md) -/

/-- A set of requester numbers; bit `r` stands for requester `r` (R194). -/
abbrev RequesterSet := BitVec 32

/-- The kinds of request a window grants (Table 1-1). -/
structure Rights where
  read : Bool
  write : Bool
  posted : Bool
  deriving DecidableEq, Repr

/-- An action on a requester: a window's Violation action or a requester's Miss action. -/
inductive Action where
  | reject
  | strike
  | quarantine
  deriving DecidableEq, Repr

/-- A deadline class (R99). -/
inductive DeadlineClass where
  | t0
  | t1
  | t2
  | t3
  deriving DecidableEq, Repr

/-- Downstream error handling (Table 1-1). -/
inductive ErrorHandling where
  | pass
  | log
  deriving DecidableEq, Repr

/-- A window entry, Table 1-1. -/
structure WindowEntry where
  valid : Bool
  requesters : RequesterSet
  base : Addr
  limit : Nat
  target : Addr
  rights : Rights
  violation : Action
  logViolations : Bool
  deadlineClass : DeadlineClass
  errorHandling : ErrorHandling
  deriving DecidableEq, Repr

/-- A bank of the window store (R1). -/
abbrev Bank := Vector WindowEntry 64

/-! ## Outstanding request table (03_the_outstanding_request_table.md) -/

/-- A slot's Failure, and the Code of a FAILED piece (Tables 3-1 and 3-2). -/
inductive Failure where
  | aborted
  | timeout
  | linkDown
  | downstream (poolCode : Byte)
  deriving DecidableEq, Repr

/-- The State of a piece; a FAILED piece carries its Code (Table 3-2). -/
inductive PieceState where
  | queued
  | issued
  | done
  | failed (code : Failure)
  deriving DecidableEq, Repr

/-- A piece record, Table 3-2. -/
structure Piece where
  index : PieceIndex
  window : WinIndex
  address : Addr
  length : Nat
  offset : Nat
  state : PieceState
  deriving DecidableEq, Repr

/-- The Kind of a tracked request (Table 3-1). -/
inductive TrackedKind where
  | read
  | write
  deriving DecidableEq, Repr

/-- What an OPEN or STALE slot holds besides State and Incarnation (Table 3-1). -/
structure Tracked where
  requester : ReqNum
  tag : Tag
  kind : TrackedKind
  address : Addr
  length : Nat
  generation : Generation
  deadlineClass : DeadlineClass
  failure : Option Failure
  pieces : List Piece
  deriving DecidableEq, Repr

/-- The State of a slot with the fields that State has (R43, R44). -/
inductive Occupancy where
  | free
  | opened (t : Tracked)
  | stale (t : Tracked)
  deriving DecidableEq, Repr

/-- A slot of the outstanding request table (R44). -/
structure Slot where
  incarnation : Incarnation
  occ : Occupancy
  deriving DecidableEq, Repr

/-- A slot's timer (R101). 0 says that the expiry is due, at which Remaining would reach 0, and not taken yet
(log entry 3). -/
inductive SlotTimer where
  | none
  | deadline (remaining : Nat)
  | reclaim (remaining : Nat)
  deriving DecidableEq, Repr

/-! ## Error codes and statuses (Table 11-4) -/

/-- The Code of an upstream ERRSP and of a fault record. -/
inductive ErrCode where
  | malformed
  | dupTag
  | disabled
  | quarantined
  | linkDown
  | overLimit
  | noWindow
  | noRight
  | timeout
  | downstream (poolCode : Byte)
  | aborted
  deriving DecidableEq, Repr

/-- The Status of an MRESP (Table 10-1). -/
inductive Status where
  | ok
  | busy
  | noLease
  | notPermitted
  | badArg
  | tooEarly
  | qfull
  | nothing
  deriving DecidableEq, Repr

/-! ## Issue unit (04_downstream_issue.md) -/

/-- An issue FIFO entry, Table 4-1: a non-posted piece named by its slot, or a posted piece. -/
inductive FifoEntry where
  | tracked (slot : SlotNum) (piece : PieceIndex) (data : Option (List Byte))
  | posted (piece : PieceIndex) (address : Addr) (length : Nat) (data : List Byte)
  deriving DecidableEq, Repr

/-- A downstream credit pool (R67). -/
structure CreditPool where
  maximum : Nat
  available : Nat
  deriving DecidableEq, Repr

/-- The arbiter mode (R70). -/
inductive ArbiterMode where
  | fixed
  | rotate
  deriving DecidableEq, Repr

/-- The issue unit's state (Table 2-1 of 00_scope.md, R64, R67, R70). -/
structure IssueUnit where
  fifos : Vector (List FifoEntry) 32
  requestPool : CreditPool
  postedPool : CreditPool
  lastGranted : ReqNum
  sendPathBusy : Bool
  deriving DecidableEq, Repr

/-! ## Response handler (05_responses_and_completion.md) -/

/-- The response handler's two counters (R97). -/
structure ResponseCounters where
  unmatched : Word32
  excessCredits : Word32
  deriving DecidableEq, Repr

/-! ## Commit unit (07_bank_generations_and_commit.md) -/

/-- The staged condition (Table 7-1). -/
inductive StagedCondition where
  | writable
  | filling
  | frozen
  deriving DecidableEq, Repr

/-- The commit unit's record, Table 7-1, with the model's mark that a µs has passed since the last fill step
(R124, log entry 13). -/
structure CommitUnit where
  liveBank : BankNum
  stagedBank : BankNum
  drainingBank : Option BankNum
  freeBank : Option BankNum
  liveGeneration : Generation
  condition : StagedCondition
  heldCommit : Bool
  fillProgress : Nat
  liveOpen : Nat
  drainingOpen : Nat
  fillStepDue : Bool
  deriving DecidableEq, Repr

/-- The roles a bank is named by in WT_READ (R17). -/
inductive BankRole where
  | live
  | staged
  | draining
  deriving DecidableEq, Repr

/-! ## Requester table (08_requesters_strikes_and_quarantine.md) -/

/-- A requester's State (R134). -/
inductive RequesterState where
  | disabled
  | active
  | quarantined
  deriving DecidableEq, Repr

/-- The stored fields of a requester entry, Table 8-1. -/
structure RequesterEntry where
  state : RequesterState
  openLimit : Nat
  strikes : Nat
  strikeLimit : Nat
  missAction : Action
  mayManage : Bool
  accepted : Word32
  refused : Word32
  deriving DecidableEq, Repr

/-! ## Fault log and notice unit (09_fault_log_and_notices.md) -/

/-- The fault kinds of Table 9-2. -/
inductive FaultKind where
  | violation
  | malformed
  | dupTag
  | overLimit
  | quarantineEntered
  | timeout
  | staleReclaimed
  | unmatchedResponse
  | downstreamError
  | creditExcess
  | leaseLapsed
  | leaseRevoked
  | linkChange
  | warmReset
  deriving DecidableEq, Repr

/-- The fields of a fault record that the appending block gives (Table 9-1, R150). -/
structure FaultReport where
  kind : FaultKind
  port : PortId
  requester : Option ReqNum := none
  tag : Option Tag := none
  address : Option Addr := none
  window : Option WinIndex := none
  generation : Option Generation := none
  code : Option ErrCode := none
  deriving DecidableEq, Repr

/-- A record of the fault log, Table 9-1. -/
structure FaultRecord where
  sequence : Word32
  report : FaultReport
  droppedAfter : Nat
  deriving DecidableEq, Repr

/-- The fault log: its records, oldest first, and the next Sequence (R149). -/
structure FaultLog where
  records : List FaultRecord
  nextSequence : Word32
  deriving DecidableEq, Repr

/-- The event classes (Table 9-4). -/
inductive EventClass where
  | fault
  | logFull
  | stagedReady
  | quarantine
  | exhaust
  | link
  deriving DecidableEq, Repr

/-- A set of event classes, with the bits of the NOTE's Reported classes (Table 11-3). -/
abbrev ClassSet := BitVec 6

/-- The notice unit's state, Table 9-3; mask and resend period stand in the configuration. -/
structure NoticeUnit where
  pending : ClassSet
  reported : ClassSet
  outstanding : Option Byte
  nextNumber : Byte
  resendTimer : Option Nat
  deriving DecidableEq, Repr

/-! ## Management engine (10_management_sessions_and_commands.md) -/

/-- A manager: a port with a requester number (R168, R173). -/
structure Party where
  port : PortId
  requester : ReqNum
  deriving DecidableEq, Repr

/-- A command of the management queue (R167). -/
structure QueuedCommand where
  sender : Party
  sequence : CmdSeq
  command : Byte
  payload : List Byte
  deriving DecidableEq, Repr

/-- The lease of a present holder (R173): the lease timer's remaining µs, the time of the last accepted CLAIM
or RENEW, and the Early count. With no holder the four items are absent together, so the engine holds
an Option of this record. -/
structure Lease where
  holder : Party
  timer : Nat
  lastRenewal : Nat
  earlyCount : Fin 2
  deriving DecidableEq, Repr

/-- The global configuration, Table 10-3. -/
structure GlobalConfig where
  t0 : Nat
  t1 : Nat
  t2 : Nat
  t3 : Nat
  reclaimPeriod : Nat
  leasePeriod : Nat
  minimumSpacing : Nat
  resendPeriod : Nat
  classMask : ClassSet
  arbiterMode : ArbiterMode
  downstreamManagement : Bool
  deriving DecidableEq, Repr

/-- The management engine's state (R167, R173, R181, R183). -/
structure ManagementEngine where
  queue : List QueuedCommand
  lease : Option Lease
  config : GlobalConfig
  postedDiscards : Word32
  earlyRenewals : Word32
  deriving DecidableEq, Repr

/-! ## Intake (02_request_intake.md) -/

/-- The stall condition with the stalled request's requester (R34). -/
inductive StallCondition where
  | none
  | slot (requester : ReqNum)
  | fifo (requester : ReqNum)
  | slotAndFifo (requester : ReqNum)
  deriving DecidableEq, Repr

/-- Intake's state (R22, R29, R34), with the marks that EXHAUST was raised in this stall episode (R34) and
that an examination of the head is due (R25, log entry 13). -/
structure Intake where
  queue : List IntakePacket
  stall : StallCondition
  exhaustRaised : Bool
  linkDownLogged : Bool
  examDue : Bool
  deriving DecidableEq, Repr

/-! ## What management responses carry -/

/-- The roles the bank that left LIVE can take at a swap (R120). -/
inductive LeftRole where
  | draining
  | free
  deriving DecidableEq, Repr

/-- The capacities of IDENTIFY (R179). -/
structure Identity where
  vendor : BitVec 16
  part : BitVec 16
  revision : Nat
  entriesPerBank : Nat
  banks : Nat
  slots : Nat
  requesters : Nat
  faultRecords : Nat
  fifoEntries : Nat
  intakePlaces : Nat
  managementPlaces : Nat
  deriving DecidableEq, Repr

/-- RQ_READ's answer (R144). -/
structure RequesterView where
  requester : ReqNum
  entry : RequesterEntry
  openCount : Nat
  queuedPieces : Nat
  deriving DecidableEq, Repr

/-- ORT_READ's answer: the slot as it stands and, for OPEN and STALE, its timer's remaining time (R63). -/
structure SlotView where
  number : SlotNum
  slot : Slot
  remaining : Option Nat
  deriving DecidableEq, Repr

/-- A port's link state (R187). -/
inductive LinkState where
  | down
  | training
  | up
  deriving DecidableEq, Repr

/-- The lease as STATUS shows it: holder, remaining µs, Early count (R180). -/
structure LeaseView where
  holder : Party
  remaining : Nat
  earlyCount : Fin 2
  deriving DecidableEq, Repr

/-- The commit unit record as STATUS shows it (R132). -/
structure CommitView where
  liveBank : BankNum
  stagedBank : BankNum
  drainingBank : Option BankNum
  freeBank : Option BankNum
  liveGeneration : Generation
  drainingGeneration : Option Generation
  condition : StagedCondition
  heldCommit : Bool
  fillProgress : Nat
  liveOpen : Nat
  drainingOpen : Nat
  deriving DecidableEq, Repr

/-- STATUS's answer (R180). -/
structure StatusView where
  lease : Option LeaseView
  commit : CommitView
  freeSlots : Nat
  openSlots : Nat
  staleSlots : Nat
  logCount : Nat
  nextSequence : Word32
  upLink : LinkState
  downLink : LinkState
  requestPool : CreditPool
  postedPool : CreditPool
  stall : StallCondition
  queued : Nat
  waiting : Nat
  deriving DecidableEq, Repr

/-- COUNTERS_READ's answer (R183): each requester's Accepted and Refused, then the four global counters. -/
structure CountersView where
  requesters : List (Word32 × Word32)
  unmatched : Word32
  excessCredits : Word32
  postedDiscards : Word32
  earlyRenewals : Word32
  deriving DecidableEq, Repr

/-- The Results of an MRESP, one form for each rule that names some (R169). -/
inductive Results where
  | none
  | windowEntry (bank : BankNum) (generation : Option Generation) (condition : Option StagedCondition)
      (index : WinIndex) (entry : WindowEntry)
  | windowWritten (index : WinIndex) (stagedBank : BankNum)
  | stagedBank (bank : BankNum)
  | commitHeld (live : Generation) (draining : Generation) (drainingOpen : Nat)
  | commitSwapped (live : Generation) (liveBank : BankNum) (stagedBank : BankNum) (leftBank : BankNum)
      (role : LeftRole)
  | requester (v : RequesterView)
  | slot (v : SlotView)
  | faultHead (count : Nat) (record : FaultRecord)
  | faultCount (count : Nat)
  | faultsRemoved (removed : Nat) (count : Nat)
  | newNotice (number : Option Byte)
  | identity (v : Identity)
  | status (v : StatusView)
  | leaseGranted (holder : Party) (leasePeriod : Nat) (minimumSpacing : Nat)
  | leaseHolder (holder : Party)
  | leasePeriod (ms : Nat)
  | spacingRemaining (us : Nat)
  | config (c : GlobalConfig)
  | counters (v : CountersView)
  deriving DecidableEq, Repr

/-! ## The packets the part sends -/

/-- A packet the part hands to one of its ports (R88, R71, R72, R169, R159, R188, R191). -/
inductive OutPacket where
  | rdrsp (requester : ReqNum) (tag : Tag) (offset : Nat) (length : Nat) (data : List Byte) (final : Bool)
  | wrrsp (requester : ReqNum) (tag : Tag)
  | errsp (requester : ReqNum) (tag : Tag) (code : ErrCode)
  | mresp (requester : ReqNum) (sequence : CmdSeq) (status : Status) (results : Results)
  | note (requester : ReqNum) (number : Byte) (classes : ClassSet) (logCount : Nat)
      (liveGeneration : Generation)
  | cret (count : Nat)
  | init (cls : CreditClass) (count : Nat) (posted : Nat)
  | rdreq (tag : DTag) (address : Addr) (length : Nat)
  | wrreq (tag : DTag) (address : Addr) (length : Nat) (data : List Byte)
  | pwreq (address : Addr) (length : Nat) (data : List Byte)
  deriving DecidableEq, Repr

/-- A link port: its link state and timers (R187), the peer's signal as the layer below reports it (log entry
7), the packets handed to it and not yet sent, and those it has sent (log entry 8). -/
structure Port where
  link : LinkState
  trainingTimer : Option Nat
  holdOffTimer : Option Nat
  signal : Bool
  tx : List OutPacket
  sent : List OutPacket
  deriving DecidableEq, Repr

end Sys2Proof.Machine
end

