-- ==== Sys2Proof/Config.lean ====
section
/-! DEFINITION. What is fixed for the part: its capacities and times, the configuration after cold reset, and the
free values that the manual leaves open. -/

namespace Sys2Proof.Config

open Sys2Proof.Machine

/-- Places of the intake queue (R22). -/
abbrev intakePlaces : Nat := 32
/-- Places of the management queue (R167). -/
abbrev managementPlaces : Nat := 16
/-- Entries of an issue FIFO (R64). -/
abbrev fifoPlaces : Nat := 8
/-- Records of the fault log (R149). -/
abbrev logPlaces : Nat := 32
/-- The training timer's start, in µs (R187). -/
abbrev trainingTime : Nat := 10000
/-- The hold-off timer's start, in µs (R187). -/
abbrev holdOffTime : Nat := 1000
/-- µs in a ms, the unit of lease period, minimum spacing and resend period (Table 10-3). -/
abbrev usPerMs : Nat := 1000

/-- The global configuration after cold reset (Table 10-3), before the DMG_EN strap is sampled (log entry
6). -/
def coldConfig : GlobalConfig where
  t0 := 1000
  t1 := 4000
  t2 := 16000
  t3 := 64000
  reclaimPeriod := 50000
  leasePeriod := 1000
  minimumSpacing := 100
  resendPeriod := 10
  classMask := 0x3F#6
  arbiterMode := .rotate
  downstreamManagement := false

/-- What IDENTIFY returns (R179). -/
def identity : Identity where
  vendor := 0x5A17#16
  part := 0x3064#16
  revision := 2
  entriesPerBank := 64
  banks := 3
  slots := 128
  requesters := 32
  faultRecords := 32
  fifoEntries := 8
  intakePlaces := 32
  managementPlaces := 16

/-- DESIGN CHOICE, a free value (log entry 5): at a fall of the downstream link that both lapses the lease and
brings the Draining open count to 0, R128 lets the commit unit take either first. True: the drain end
comes first. The argument is the count of free values drawn before. -/
opaque drainEndFirst : Nat → Bool

/-- DESIGN CHOICE, a free value (log entry 14): the bytes that carry an MRESP's Results. R169 names the Results and
R193 lays out the header; no rule lays out the Results. -/
opaque resultBytes : Results → List Byte

/-- The payload of an MRESP: empty without Results, and at most 1024 bytes (R169, Table 11-3). -/
def resultPayload : Results → List Byte
  | .none => []
  | r => (resultBytes r).take 1024

end Sys2Proof.Config
end

