-- ==== Sys2Proof/Machine/State.lean ====
section
/-! DEFINITION. The state of the WX3064: one field for each block of Table 2-1, the pins and the timebase, and the
model's own queue of waiting commands. Plain data. -/

namespace Sys2Proof.Machine

/-- Nothing raises a fault: the manual gives the block no event at which it stops (safe: no claim rests on a
stop). -/
inductive Fault where
  deriving DecidableEq, Repr

/-- The reasons for which a command has no meaning in the model. -/
inductive Refusal where
  /-- Raised by `exec` for a command that has no meaning yet; no command is left without one, so nothing raises it
  (safe). -/
  | notModelled (mnemonic : String)
  deriving DecidableEq, Repr

/-- The part. -/
structure State where
  /-- RESET_N is low, or has not been released since power-up (R195). -/
  resetHeld : Bool
  /-- The timebase in µs (00_scope.md section 4.1). -/
  now : Nat
  up : Port
  down : Port
  intake : Intake
  banks : Vector Bank 3
  commit : CommitUnit
  ort : Vector Slot 128
  timers : Vector SlotTimer 128
  issue : IssueUnit
  responses : ResponseCounters
  requesters : Vector RequesterEntry 32
  flog : FaultLog
  notice : NoticeUnit
  mgmt : ManagementEngine
  /-- How many free values have been drawn (the model's own). -/
  freeCount : Nat
  /-- The commands that wait, first in, first out (the model's own). -/
  pending : List Instr
  deriving DecidableEq, Repr

/-- A port at cold reset: DOWN with both timers stopped (R187). -/
def coldPort : Port where
  link := .down
  trainingTimer := none
  holdOffTimer := none
  signal := false
  tx := []
  sent := []

/-- The cleared entry (R3). -/
def clearedEntry : WindowEntry where
  valid := false
  requesters := 0#32
  base := 0#48
  limit := 0
  target := 0#48
  rights := ⟨false, false, false⟩
  violation := .reject
  logViolations := false
  deadlineClass := .t0
  errorHandling := .pass

/-- A bank of cleared entries (R20, R21). -/
def clearedBank : Bank := Vector.replicate 64 clearedEntry

/-- A requester entry at cold reset, before the MGR_ID straps are sampled (Table 8-1, log entry 6). -/
def coldRequester : RequesterEntry where
  state := .disabled
  openLimit := 8
  strikes := 0
  strikeLimit := 3
  missAction := .reject
  mayManage := false
  accepted := 0#32
  refused := 0#32

/-- The commit unit at cold reset (R130). -/
def coldCommit : CommitUnit where
  liveBank := 0
  stagedBank := 1
  drainingBank := none
  freeBank := some 2
  liveGeneration := 0#8
  condition := .writable
  heldCommit := false
  fillProgress := 64
  liveOpen := 0
  drainingOpen := 0
  fillStepDue := false

/-- Intake at cold reset (R42). -/
def coldIntake : Intake where
  queue := []
  stall := .none
  exhaustRaised := false
  linkDownLogged := false
  examDue := false

/-- The issue unit at cold reset (R79). -/
def coldIssue : IssueUnit where
  fifos := Vector.replicate 32 []
  requestPool := ⟨0, 0⟩
  postedPool := ⟨0, 0⟩
  lastGranted := 31
  sendPathBusy := false

/-- The notice unit at cold reset (Table 9-3). -/
def coldNotice : NoticeUnit where
  pending := 0#6
  reported := 0#6
  outstanding := none
  nextNumber := 0#8
  resendTimer := none

/-- The management engine at cold reset (R173, R185). -/
def coldManagement : ManagementEngine where
  queue := []
  lease := none
  config := Config.coldConfig
  postedDiscards := 0#32
  earlyRenewals := 0#32

/-- The part while RESET_N is held low: every block at its cold reset values (R195). -/
def State.reset : State where
  resetHeld := true
  now := 0
  up := coldPort
  down := coldPort
  intake := coldIntake
  banks := Vector.replicate 3 clearedBank
  commit := coldCommit
  ort := Vector.replicate 128 ⟨0, .free⟩
  timers := Vector.replicate 128 .none
  issue := coldIssue
  responses := ⟨0#32, 0#32⟩
  requesters := Vector.replicate 32 coldRequester
  flog := ⟨[], 0#32⟩
  notice := coldNotice
  mgmt := coldManagement
  freeCount := 0
  pending := []

end Sys2Proof.Machine
end

