-- ==== Sys2Proof/Machine/Ops.lean ====
section
/-! DEFINITION. The shared operations: ports and the packets handed to them, event classes and notices, appends to
the fault log, slots and generation holds, the issue FIFOs and credit pools, intake's head. -/

namespace Sys2Proof.Machine

/-! ## Ports -/

/-- A port of the part. -/
def State.port (s : State) : PortId → Port
  | .up => s.up
  | .down => s.down

/-- The part with one port replaced. -/
def State.setPort (s : State) (p : PortId) (x : Port) : State :=
  match p with
  | .up => { s with up := x }
  | .down => { s with down := x }

/-- A packet is handed to a port: sent in the order produced (R89), and discarded at a port that is not UP (R90,
R169, R159). -/
def produce (p : PortId) (k : OutPacket) (s : State) : State :=
  if (s.port p).link = .up then s.setPort p { s.port p with tx := (s.port p).tx ++ [k] } else s

/-! ## Time -/

/-- A port after it has sent every packet handed to it, in order (R89). -/
def Port.sendAll (x : Port) : Port := { x with tx := [], sent := x.sent ++ x.tx }

/-- The downstream port has taken the piece of the previous grant: what it was handed is sent, and the send path
is free (R70, log entry 9). -/
def takePiece (s : State) : State :=
  if s.issue.sendPathBusy then
    { s with down := s.down.sendAll, issue := { s.issue with sendPathBusy := false } }
  else s

/-- A timer after `n` µs: 0 is a timer that has run out. -/
def fallTimer (n : Nat) (t : Option Nat) : Option Nat := t.map fun m => m - n

/-- A slot's timer after `n` µs (R101). -/
def SlotTimer.fall (n : Nat) : SlotTimer → SlotTimer
  | .none => .none
  | .deadline m => .deadline (m - n)
  | .reclaim m => .reclaim (m - n)

/-- A port's timers after `n` µs (R187). -/
def Port.fall (n : Nat) (x : Port) : Port :=
  { x with trainingTimer := fallTimer n x.trainingTimer, holdOffTimer := fallTimer n x.holdOffTimer }

/-- `n` µs of the timebase pass: every running timer falls, and a fill in progress may copy an entry (R101,
R124). `n` is 1 while a fill is in progress (`untilNext`). -/
def passTime (n : Nat) (s : State) : State :=
  { s with
    now := s.now + n
    up := s.up.fall n
    down := s.down.fall n
    timers := s.timers.map (SlotTimer.fall n)
    notice := { s.notice with resendTimer := fallTimer n s.notice.resendTimer }
    mgmt := { s.mgmt with lease := s.mgmt.lease.map fun l => { l with timer := l.timer - n } }
    commit := { s.commit with fillStepDue := s.commit.condition == .filling } }

/-- Both ports have sent what they held, and the send path is free. -/
def sendHeld (s : State) : State :=
  { s with up := s.up.sendAll, down := s.down.sendAll, issue := { s.issue with sendPathBusy := false } }

/-! ## Event classes and notices -/

/-- The bit of an event class (Table 11-3). -/
def EventClass.bit : EventClass → ClassSet
  | .fault => 0x01#6
  | .logFull => 0x02#6
  | .stagedReady => 0x04#6
  | .quarantine => 0x08#6
  | .exhaust => 0x10#6
  | .link => 0x20#6

/-- Membership of an event class in a set. -/
def ClassSet.has (m : ClassSet) (c : EventClass) : Bool := m &&& c.bit != 0#6

/-- A NOTE toward the holder, with the classes it reports and the counts of this event (Table 9-5). -/
def notePacket (h : Party) (number : Byte) (classes : ClassSet) (s : State) : OutPacket :=
  .note h.requester number classes s.flog.records.length s.commit.liveGeneration

/-- A notice is sent to the holder (R159, steps 1 to 4). -/
def sendNotice (h : Party) (s : State) : State :=
  let s1 := produce h.port (notePacket h s.notice.nextNumber s.notice.pending s) s
  { s1 with notice :=
      { pending := 0#6
        reported := s.notice.pending
        outstanding := some s.notice.nextNumber
        nextNumber := s.notice.nextNumber + 1
        resendTimer := some (s.mgmt.config.resendPeriod * Config.usPerMs) } }

/-- The send condition of R159 is tested, and a notice is sent when it holds. -/
def testSend (s : State) : State :=
  match s.mgmt.lease with
  | none => s
  | some l => if s.notice.outstanding = none ∧ s.notice.pending ≠ 0#6 then sendNotice l.holder s else s

/-- A class is raised at the notice unit (R158). -/
def raiseClass (c : EventClass) (s : State) : State :=
  if s.mgmt.config.classMask.has c then
    testSend { s with notice := { s.notice with pending := s.notice.pending ||| c.bit } }
  else s

/-- The end of the lease at the notice unit (R164). -/
def noticeLeaseEnd (s : State) : State :=
  { s with notice :=
      { s.notice with
        pending := s.notice.pending ||| s.notice.reported
        reported := 0#6
        outstanding := none
        resendTimer := none } }

/-! ## The fault log -/

/-- The newest record's Dropped after rises by one, saturating at 65,535 (R151). -/
def bumpNewest : List FaultRecord → List FaultRecord
  | [] => []
  | [r] => [{ r with droppedAfter := min 65535 (r.droppedAfter + 1) }]
  | r :: r' :: rs => r :: bumpNewest (r' :: rs)

/-- The record joins the tail of a log that has room (R150). -/
def keepRecord (r : FaultReport) (s : State) : State :=
  { s with flog :=
      { records := s.flog.records ++ [⟨s.flog.nextSequence, r, 0⟩]
        nextSequence := s.flog.nextSequence + 1 } }

/-- An append to the fault log: kept with its raises (R150), or an overflow (R151). -/
def appendFault (r : FaultReport) (s : State) : State :=
  if s.flog.records.length < Config.logPlaces then
    let s1 := raiseClass .fault (keepRecord r s)
    if s.flog.records.length + 1 = Config.logPlaces then raiseClass .logFull s1 else s1
  else
    { s with flog := { s.flog with records := bumpNewest s.flog.records } }

/-! ## Intake's head -/

/-- The requester of the stalled head request, if one is stalled (R34). -/
def StallCondition.requester : StallCondition → Option ReqNum
  | .none => Option.none
  | .slot r | .fifo r | .slotAndFifo r => some r

/-- One of the events of R25 at which intake examines a stalled head anew, whatever its requester. -/
def notifyHead (s : State) : State :=
  if s.intake.stall = .none then s else { s with intake := { s.intake with examDue := true } }

/-- One of the events of R25 at which intake examines a stalled head of requester `r` anew. -/
def notifyHeadOf (r : ReqNum) (s : State) : State :=
  if s.intake.stall.requester = some r then { s with intake := { s.intake with examDue := true } } else s

/-- The head packet leaves the intake queue: any stall ends, the packet behind it becomes the head (R22, R25,
R34), and one intake credit is returned (R23, R191). -/
def leaveQueue (s : State) : State :=
  produce .up (.cret 1)
    { s with intake :=
        { s.intake with
          queue := s.intake.queue.tail
          stall := .none
          exhaustRaised := false
          examDue := !s.intake.queue.tail.isEmpty } }

/-! ## Slots, open counts and generation holds -/

/-- What an OPEN slot holds. -/
def Occupancy.openRecord : Occupancy → Option Tracked
  | .opened t => some t
  | .free | .stale _ => none

/-- What an OPEN or STALE slot holds. -/
def Occupancy.record : Occupancy → Option Tracked
  | .opened t | .stale t => some t
  | .free => none

/-- The OPEN slot `i`'s record, if it is OPEN. -/
def openAt (s : State) (i : SlotNum) : Option Tracked := (pick s.ort i).occ.openRecord

/-- The STALE slot `i`'s record, if it is STALE. -/
def staleAt (s : State) (i : SlotNum) : Option Tracked :=
  match (pick s.ort i).occ with
  | .stale t => some t
  | .free | .opened _ => none

/-- The number of slots that satisfy a test. -/
def countSlots (f : Slot → Bool) (s : State) : Nat :=
  (List.finRange 128).countP fun i => f (pick s.ort i)

/-- Whether a slot is OPEN with a record that satisfies a test. -/
def Slot.openWith (f : Tracked → Bool) (x : Slot) : Bool :=
  match x.occ with
  | .opened t => f t
  | .free | .stale _ => false

/-- A requester's Open count, derived from the table (R50). -/
def openCount (s : State) (r : ReqNum) : Nat :=
  countSlots (Slot.openWith fun t => t.requester = r) s

/-- The part with a slot's occupancy replaced; its Incarnation stays. -/
def setOcc (i : SlotNum) (o : Occupancy) (s : State) : State :=
  { s with ort := put s.ort i { pick s.ort i with occ := o } }

/-- The part with a slot's timer replaced. -/
def setTimer (i : SlotNum) (x : SlotTimer) (s : State) : State :=
  { s with timers := put s.timers i x }

/-- A slot becomes FREE: its fields are discarded, its Incarnation advances, its timer is in Mode NONE, and intake
is told (R43, R44, R46, R103). -/
def freeSlot (i : SlotNum) (s : State) : State :=
  notifyHead
    { s with
      ort := put s.ort i ⟨(pick s.ort i).incarnation + 1, .free⟩
      timers := put s.timers i .none }

/-- Hold taken, with the generation of a slot that has become OPEN (R117). -/
def holdTaken (s : State) : State :=
  { s with commit := { s.commit with liveOpen := s.commit.liveOpen + 1 } }

/-- The draining generation, when a bank is DRAINING (R116). -/
def CommitUnit.drainingGeneration (c : CommitUnit) : Option Generation :=
  c.drainingBank.map fun _ => c.liveGeneration - 1

/-- Hold released, with the generation of a slot that has left OPEN (R117). -/
def holdReleased (g : Generation) (s : State) : State :=
  if g = s.commit.liveGeneration then
    { s with commit := { s.commit with liveOpen := s.commit.liveOpen - 1 } }
  else if s.commit.drainingGeneration = some g then
    { s with commit := { s.commit with drainingOpen := s.commit.drainingOpen - 1 } }
  else s

/-- The drain has ended: a bank is DRAINING and its open count is 0 (R118). -/
def drainDue (s : State) : Bool := s.commit.drainingBank.isSome && s.commit.drainingOpen == 0

/-- A resolved piece is DONE or FAILED (R45). -/
def PieceState.resolved : PieceState → Bool
  | .queued | .issued => false
  | .done | .failed _ => true

/-- Every piece is DONE or FAILED (R54). -/
def Tracked.resolved (t : Tracked) : Bool := t.pieces.all fun p => p.state.resolved

/-- Some piece is ISSUED. -/
def Tracked.hasIssued (t : Tracked) : Bool := t.pieces.any fun p => p.state == .issued

/-- The piece of an index, if the request has it. -/
def Tracked.piece (t : Tracked) (i : PieceIndex) : Option Piece :=
  t.pieces.find? fun p => p.index == i

/-- The record with the State of one piece replaced. -/
def Tracked.setPiece (t : Tracked) (i : PieceIndex) (x : PieceState) : Tracked :=
  { t with pieces := t.pieces.map fun p => if p.index = i then { p with state := x } else p }

/-- The Failure is set by the first failure and keeps its value (R53). -/
def Tracked.fail (t : Tracked) (f : Failure) : Tracked :=
  { t with failure := some (t.failure.getD f) }

/-- The upstream error code of a Failure (R88). -/
def Failure.code : Failure → ErrCode
  | .aborted => .aborted
  | .timeout => .timeout
  | .linkDown => .linkDown
  | .downstream c => .downstream c

/-- The upstream address of a piece: the slot's Address plus the piece's Offset (R86). -/
def Tracked.pieceAddress (t : Tracked) (p : Piece) : Addr := t.address + BitVec.ofNat 48 p.offset

/-- The closing packet that the ORT itself produces (R55, step 1): an ERRSP with the Failure, or a WRRSP for a
write without one. A read without a Failure is closed by the RDRSP that the response handler
forwards. -/
def closingPacket (t : Tracked) : Option OutPacket :=
  match t.failure, t.kind with
  | some f, _ => some (.errsp t.requester t.tag f.code)
  | none, .write => some (.wrrsp t.requester t.tag)
  | none, .read => none

/-- A resolved OPEN slot closes (R55). -/
def closeSlot (i : SlotNum) (t : Tracked) (s : State) : State :=
  let s1 := match closingPacket t with
    | some k => produce .up k s
    | none => s
  freeSlot i (holdReleased t.generation s1)

/-- Work done slot by slot, in ascending slot number. -/
def forSlots (f : SlotNum → State → State) (s : State) : State :=
  (List.finRange 128).foldl (fun x i => f i x) s

/-! ## Issue FIFOs, credits and counters -/

/-- A requester's issue FIFO. -/
def fifoOf (s : State) (r : ReqNum) : List FifoEntry := pick s.issue.fifos r

/-- The part with a requester's issue FIFO replaced. -/
def setFifo (r : ReqNum) (q : List FifoEntry) (s : State) : State :=
  { s with issue := { s.issue with fifos := put s.issue.fifos r q } }

/-- Whether an entry is of the posted kind (Table 4-1). -/
def FifoEntry.isPosted : FifoEntry → Bool
  | .posted _ _ _ _ => true
  | .tracked _ _ _ => false

/-- Whether an entry names a slot. -/
def FifoEntry.names (i : SlotNum) : FifoEntry → Bool
  | .tracked j _ _ => j == i
  | .posted _ _ _ _ => false

/-- Whether an entry names a piece of a slot. -/
def FifoEntry.namesPiece (i : SlotNum) (p : PieceIndex) : FifoEntry → Bool
  | .tracked j q _ => j == i && q == p
  | .posted _ _ _ _ => false

/-- The posted-discard counter rises, wrapping (R183). -/
def discardPosted (n : Nat) (s : State) : State :=
  { s with mgmt := { s.mgmt with postedDiscards := s.mgmt.postedDiscards + BitVec.ofNat 32 n } }

/-- A pool after a return of `n` credits, capped at its maximum (R68). -/
def CreditPool.returned (p : CreditPool) (n : Nat) : CreditPool :=
  { p with available := min p.maximum (p.available + n) }

/-- The credits a return of `n` drops at the cap (R68). -/
def CreditPool.dropped (p : CreditPool) (n : Nat) : Nat := p.available + n - p.maximum

/-- Dropped credits are counted, and one or more append one CREDIT_EXCESS record with the window and generation
the returning event gives (R68, R95). -/
def creditExcess (n : Nat) (window : Option WinIndex) (generation : Option Generation) (s : State) : State :=
  if n = 0 then s
  else
    appendFault { kind := .creditExcess, port := .down, window := window, generation := generation }
      { s with responses :=
          { s.responses with excessCredits := s.responses.excessCredits + BitVec.ofNat 32 n } }

/-- A return of `n` request credits, as one return (R68). -/
def returnRequest (n : Nat) (window : Option WinIndex) (generation : Option Generation) (s : State) : State :=
  creditExcess (s.issue.requestPool.dropped n) window generation
    { s with issue := { s.issue with requestPool := s.issue.requestPool.returned n } }

/-- A return of `n` posted credits, as one return (R68). -/
def returnPosted (n : Nat) (s : State) : State :=
  creditExcess (s.issue.postedPool.dropped n) none none
    { s with issue := { s.issue with postedPool := s.issue.postedPool.returned n } }

/-! ## Requester entries -/

/-- A requester's entry. -/
def entryOf (s : State) (r : ReqNum) : RequesterEntry := pick s.requesters r

/-- The part with a requester's entry replaced. -/
def setEntry (r : ReqNum) (e : RequesterEntry) (s : State) : State :=
  { s with requesters := put s.requesters r e }

/-! ## Commands outside reset -/

/-- While RESET_N is held low no block takes an event (R195): the command leaves the part as it is. Otherwise
the command has its effect. -/
def whenRunning (f : State → State) (s : State) : Host.Outcome State Fault Refusal :=
  .next (if s.resetHeld then s else f s)

end Sys2Proof.Machine
end

