-- ==== Sys2Proof/Machine/Window.lean ====
section
/-! DEFINITION. The window store and the window check of a request: lookup (R6), split (R8, R9), rights, code,
action and record (R10 to R13), translation (R15), and the resolution of a bank by role and by
generation (R4, R5). -/

namespace Sys2Proof.Machine

/-! ## Banks and entries -/

/-- A physical bank. -/
def bankOf (s : State) (b : BankNum) : Bank := pick s.banks b

/-- The LIVE bank (R4). -/
def liveBank (s : State) : Bank := bankOf s s.commit.liveBank

/-- The part with one physical bank replaced. -/
def setBank (b : BankNum) (x : Bank) (s : State) : State := { s with banks := put s.banks b x }

/-- The bank that a generation names: the LIVE bank, the DRAINING bank when there is one, or none (R5). -/
def bankOfGeneration (s : State) (g : Generation) : Option BankNum :=
  if g = s.commit.liveGeneration then some s.commit.liveBank
  else if s.commit.drainingGeneration = some g then s.commit.drainingBank
  else none

/-- The conditions of R2 on an entry's bounds. -/
def WindowEntry.bounded (e : WindowEntry) : Bool :=
  e.base.toNat % 256 == 0 && e.limit % 256 == 0 && e.base.toNat < e.limit && e.limit ≤ addrEnd
    && e.target.toNat % 256 == 0 && e.target.toNat + (e.limit - e.base.toNat) ≤ addrEnd

/-- Membership in an entry's Requester set. -/
def WindowEntry.serves (e : WindowEntry) (r : ReqNum) : Bool := e.requesters.getLsbD r.val

/-- An entry matches a byte address for a requester (R6). -/
def WindowEntry.covers (e : WindowEntry) (r : ReqNum) (a : Nat) : Bool :=
  e.valid && e.serves r && e.base.toNat ≤ a && a < e.limit

/-- Lookup: the lowest-indexed entry that matches (R6). -/
def lookup (b : Bank) (r : ReqNum) (a : Nat) : Option WinIndex :=
  (List.finRange 64).find? fun i => (pick b i).covers r a

/-! ## Pieces -/

/-- A piece at the window check (R9). -/
structure CheckedPiece where
  index : PieceIndex
  upstream : Addr
  length : Nat
  offset : Nat
  window : Option WinIndex
  deriving DecidableEq, Repr

/-- The last byte of a request's range (section 1.4). -/
def lastByte (q : Request) : Nat := q.address.toNat + q.length.toNat - 1

/-- The split point: the last byte rounded down to a granule (R8). -/
def splitPoint (q : Request) : Nat := lastByte q / 256 * 256

/-- The pieces of a request, from the lookups of its first and its last byte (R8, R9). -/
def splitRequest (b : Bank) (q : Request) : List CheckedPiece :=
  let a := q.address.toNat
  let e := lastByte q
  let first := lookup b q.requester a
  let last := lookup b q.requester e
  if first = last then [⟨0, q.address, q.length.toNat, 0, first⟩]
  else
    let m := splitPoint q
    [⟨0, q.address, m - a, 0, first⟩, ⟨1, BitVec.ofNat 48 m, e - m + 1, m - a, last⟩]

/-! ## The rights check -/

/-- The right that a kind of request requires (R10). -/
def Rights.grants (r : Rights) : ReqKind → Bool
  | .rdreq => r.read
  | .wrreq => r.write
  | .pwreq => r.posted

/-- A piece fails the rights check (R10). -/
def CheckedPiece.fails (b : Bank) (k : ReqKind) (p : CheckedPiece) : Bool :=
  match p.window with
  | none => true
  | some w => !(pick b w).rights.grants k

/-- The strength of an action (R12). -/
def Action.strength : Action → Nat
  | .reject => 0
  | .strike => 1
  | .quarantine => 2

/-- The stronger of two actions (R12). -/
def Action.stronger (x y : Action) : Action := if x.strength < y.strength then y else x

/-- What a failing piece contributes: the Miss action without a window, the window's Violation action with one
(R12). -/
def CheckedPiece.action (b : Bank) (miss : Action) (p : CheckedPiece) : Action :=
  match p.window with
  | none => miss
  | some w => (pick b w).violation

/-- A failing piece's window has Log violations yes (R13). -/
def CheckedPiece.logs (b : Bank) (p : CheckedPiece) : Bool :=
  match p.window with
  | none => false
  | some w => (pick b w).logViolations

/-- A refused request's result: its pieces, code, action, the record when it is to be logged, and the window that a
QUARANTINE_ENTERED record would name (R14, R138). -/
structure Refused where
  pieces : List CheckedPiece
  code : ErrCode
  action : Action
  record : Option FaultReport
  actionWindow : Option WinIndex
  deriving DecidableEq, Repr

/-- A granted piece: the fields of R9, its window's deadline class, and where it goes downstream (R14, R15). -/
structure GrantedPiece where
  index : PieceIndex
  upstream : Addr
  window : WinIndex
  deadlineClass : DeadlineClass
  address : Addr
  length : Nat
  offset : Nat
  deriving DecidableEq, Repr

/-- The check result (R14). -/
inductive CheckResult where
  | granted (pieces : List GrantedPiece) (generation : Generation)
  | refused (r : Refused)
  deriving DecidableEq, Repr

/-- The Tag that a fault record of a request carries: none for a PWREQ (R13, R38). -/
def recordTag (q : Request) : Option Tag :=
  match q.kind with
  | .pwreq => none
  | .rdreq | .wrreq => some q.tag

/-- The VIOLATION record for a reported piece (R13), the record that the check result carries (R14, R32). Its Address
is the reported piece's, where R38's sentence has the request's (log entry 11). -/
def violationReport (q : Request) (g : Generation) (code : ErrCode) (p : CheckedPiece) : FaultReport :=
  { kind := .violation, port := .up, requester := some q.requester, tag := recordTag q
    address := some p.upstream, window := p.window, generation := some g, code := some code }

/-- The refusal of a request whose pieces `ps` have failing pieces (R11, R12, R13). -/
def refusal (b : Bank) (miss : Action) (g : Generation) (q : Request) (ps : List CheckedPiece) : Refused :=
  let failing := ps.filter fun p => p.fails b q.kind
  let missing := failing.find? fun p => p.window.isNone
  let code := if missing.isSome then ErrCode.noWindow else ErrCode.noRight
  let action := failing.foldl (fun x p => x.stronger (p.action b miss)) .reject
  let reported := if missing.isSome then missing else failing.find? fun p => p.logs b
  { pieces := ps
    code := code
    action := action
    record := reported.map (violationReport q g code)
    actionWindow := (failing.find? fun p => p.action b miss == action).bind fun p => p.window }

/-- A granted piece's downstream address: Target + (upstream address − Base) (R15). -/
def translate (e : WindowEntry) (a : Addr) : Addr := e.target + (a - e.base)

/-- A piece that passed, translated through its window (R15). -/
def CheckedPiece.granted (b : Bank) (p : CheckedPiece) : Option GrantedPiece :=
  p.window.map fun w =>
    { index := p.index, upstream := p.upstream, window := w, deadlineClass := (pick b w).deadlineClass
      address := translate (pick b w) p.upstream, length := p.length, offset := p.offset }

/-- The window check of a request (R7 to R15), in the LIVE bank, with the requester's Miss action and the live
generation of this event. -/
def windowCheck (s : State) (q : Request) : CheckResult :=
  let b := liveBank s
  let ps := splitRequest b q
  if ps.any fun p => p.fails b q.kind then
    .refused (refusal b (entryOf s q.requester).missAction s.commit.liveGeneration q ps)
  else .granted (ps.filterMap fun p => p.granted b) s.commit.liveGeneration

end Sys2Proof.Machine
end

