-- ==== Sys2Proof/Machine/Commit.lean ====
section
/-! DEFINITION. The commit unit: the swap (R119), drain end (R118, R122), the staged fill (R124, R125), and the
cancelling of a held commit (R127, R128). -/

namespace Sys2Proof.Machine

/-- The record after a swap with `f` as the FREE bank (R119, steps 1 to 4). -/
def CommitUnit.swapped (c : CommitUnit) (f : BankNum) : CommitUnit where
  liveBank := c.stagedBank
  stagedBank := f
  drainingBank := if 0 < c.liveOpen then some c.liveBank else none
  freeBank := if 0 < c.liveOpen then none else some c.liveBank
  liveGeneration := c.liveGeneration + 1
  condition := .filling
  heldCommit := false
  fillProgress := 0
  liveOpen := 0
  drainingOpen := c.liveOpen
  fillStepDue := false

/-- The swap (R119), with intake told that a different bank is LIVE. It begins with a FREE bank in every state
the part reaches (R119); without one there is none (log entry 16). -/
def swapBanks (s : State) : State :=
  match s.commit.freeBank with
  | none => s
  | some f => notifyHead { s with commit := s.commit.swapped f }

/-- The drain end: the DRAINING bank becomes FREE, and a held commit's swap executes (R118, R122). -/
def endDrain (s : State) : State :=
  let s1 := { s with commit := { s.commit with freeBank := s.commit.drainingBank, drainingBank := none } }
  if s.commit.heldCommit then swapBanks s1 else s1

/-- The drain ends when the Draining open count of a DRAINING bank is 0 (R118): the last part of an event that
releases holds, after the ORT's whole work for it (R52, log entry 4). -/
def takeDrainEnd (s : State) : State := if drainDue s then endDrain s else s

/-- DRAIN_END (R118). -/
def execDrainEnd (s : State) : Host.Outcome State Fault Refusal :=
  whenRunning takeDrainEnd s

/-- Entry `i` of the LIVE bank is copied into the STAGED bank as stored (R124). -/
def copyEntry (i : WinIndex) (s : State) : State :=
  setBank s.commit.stagedBank (put (bankOf s s.commit.stagedBank) i (pick (liveBank s) i)) s

/-- The next entry is copied, in ascending index order (R124). -/
def copyNext (s : State) : State :=
  let s1 := copyEntry (Fin.ofNat 64 s.commit.fillProgress) s
  { s1 with commit := { s1.commit with fillProgress := s1.commit.fillProgress + 1, fillStepDue := false } }

/-- The fill completes after entry 63 has been copied: the staged bank is WRITABLE and STAGED_READY is raised
(R125). -/
def completeFill (s : State) : State :=
  raiseClass .stagedReady { s with commit := { s.commit with condition := .writable, fillStepDue := false } }

/-- A held commit is cancelled, its staged bank WRITABLE with its contents (R127, R128). -/
def cancelHeld (s : State) : State :=
  if s.commit.heldCommit then
    { s with commit := { s.commit with heldCommit := false, condition := .writable } }
  else s

end Sys2Proof.Machine
end

