-- ==== Sys2Proof/Machine/Deadline.lean ====
section
/-! DEFINITION. Deadline expiry (R104, R105) and reclaim expiry (R107, R108). -/

namespace Sys2Proof.Machine

/-! ## Deadline expiry -/

/-- A piece that is still QUEUED becomes FAILED with Code TIMEOUT (R104, step 1). -/
def expirePiece (p : Piece) : Piece :=
  if p.state = .queued then { p with state := .failed .timeout } else p

/-- The record after steps 1 and 2 of R104: queued pieces failed, Failure TIMEOUT if it was absent. -/
def expireRecord (t : Tracked) : Tracked :=
  { t with pieces := t.pieces.map expirePiece }.fail .timeout

/-- The slot's entries leave its requester's FIFO, and intake is told when there was one (R74). -/
def removeEntries (i : SlotNum) (r : ReqNum) (s : State) : State :=
  let q := fifoOf s r
  if q.any (FifoEntry.names i) then
    notifyHeadOf r (setFifo r (q.filter fun e => !e.names i) s)
  else s

/-- The first piece not yet resolved (R105). -/
def Tracked.firstWaiting (t : Tracked) : Option Piece := t.pieces.find? fun p => !p.state.resolved

/-- The TIMEOUT record; `before` is the record as it stood at the expiry, `t` as it stands after steps 1 and 2
(R105). -/
def timeoutReport (before t : Tracked) : FaultReport :=
  { kind := .timeout, port := .down, requester := some t.requester, tag := some t.tag
    address := some t.address, window := before.firstWaiting.map Piece.window
    generation := some t.generation, code := t.failure.map Failure.code }

/-- The slot's next state: STALE with its reclaim timer, or FREE (R104, step 6). -/
def leaveOpen (i : SlotNum) (t : Tracked) (s : State) : State :=
  if t.hasIssued then setTimer i (.reclaim s.mgmt.config.reclaimPeriod) (setOcc i (.stale t) s)
  else freeSlot i s

/-- The expiry of the OPEN slot `i`'s deadline (R104), with the drain end that follows it. -/
def expireDeadline (i : SlotNum) (before : Tracked) (s : State) : State :=
  let t := expireRecord before
  let s1 := setOcc i (.opened t) (removeEntries i t.requester s)
  let s2 := produce .up (.errsp t.requester t.tag ((t.failure.getD .timeout).code)) s1
  let s3 := appendFault (timeoutReport before t) s2
  takeDrainEnd (leaveOpen i t (holdReleased t.generation s3))

/-! ## Reclaim expiry -/

/-- The first piece still ISSUED (R108). -/
def Tracked.firstIssued (t : Tracked) : Option Piece := t.pieces.find? fun p => p.state == .issued

/-- The STALE_RECLAIMED record (R108). -/
def reclaimReport (t : Tracked) : FaultReport :=
  { kind := .staleReclaimed, port := .down, requester := some t.requester, tag := some t.tag
    address := some t.address, window := t.firstIssued.map Piece.window, generation := some t.generation
    code := t.failure.map Failure.code }

/-- The expiry of the STALE slot `i`'s reclaim timer: credits, slot, record (R107). -/
def expireReclaim (i : SlotNum) (t : Tracked) (s : State) : State :=
  let n := t.pieces.countP fun p => p.state == .issued
  let s1 := returnRequest n (t.firstIssued.map Piece.window) (some t.generation) s
  appendFault (reclaimReport t) (freeSlot i s1)

end Sys2Proof.Machine
end

