-- ==== Sys2Proof/Machine/Requester.lean ====
section
/-! DEFINITION. The withdrawal of a requester's queued pieces (R58, R73), the actions on a requester (R135) and entry
into quarantine (R137). -/

namespace Sys2Proof.Machine

/-! ## Withdrawal -/

/-- A piece that an entry of the withdrawn FIFO `q` names, and that is QUEUED (R58). -/
def withdrawn (i : SlotNum) (q : List FifoEntry) (p : Piece) : Bool :=
  q.any (FifoEntry.namesPiece i p.index) && p.state == .queued

/-- The record of slot `i` after the withdrawal of `q`: its named pieces are FAILED with Code ABORTED, and its
Failure is ABORTED if it was absent (R58). -/
def withdrawRecord (q : List FifoEntry) (i : SlotNum) (t : Tracked) : Tracked :=
  { t with pieces := t.pieces.map fun p =>
      if withdrawn i q p then { p with state := .failed .aborted } else p }.fail .aborted

/-- The withdrawal reaches slot `i`: it closes if it is now resolved, and else stays OPEN (R58). -/
def withdrawSlot (q : List FifoEntry) (i : SlotNum) (s : State) : State :=
  match openAt s i with
  | none => s
  | some t =>
    if t.pieces.any (withdrawn i q) then
      let t' := withdrawRecord q i t
      if t'.resolved then closeSlot i t' s else setOcc i (.opened t') s
    else s

/-- The withdrawal of a requester's issue FIFO (R73): its slots in ascending number, its posted entries
discarded and counted, and intake told when the FIFO held an entry. -/
def withdraw (r : ReqNum) (s : State) : State :=
  let q := fifoOf s r
  if q.isEmpty then s
  else
    notifyHeadOf r
      (discardPosted (q.countP FifoEntry.isPosted) (forSlots (withdrawSlot q) (setFifo r [] s)))

/-! ## Actions -/

/-- The request whose refusal an action follows, as a QUARANTINE_ENTERED record names it (R138). -/
structure Offence where
  requester : ReqNum
  tag : Option Tag
  address : Addr
  window : Option WinIndex
  code : ErrCode
  deriving DecidableEq, Repr

/-- The QUARANTINE_ENTERED record (R138). -/
def quarantineReport (o : Offence) (g : Generation) : FaultReport :=
  { kind := .quarantineEntered, port := .up, requester := some o.requester, tag := o.tag
    address := some o.address, window := o.window, generation := some g, code := some o.code }

/-- Entry into quarantine: State, withdrawal, record, notice (R137), and the drain end that the withdrawal causes
(R118). -/
def enterQuarantine (o : Offence) (s : State) : State :=
  let r := o.requester
  let s1 := notifyHeadOf r (setEntry r { entryOf s r with state := .quarantined } s)
  let s2 := withdraw r s1
  takeDrainEnd (raiseClass .quarantine (appendFault (quarantineReport o s2.commit.liveGeneration) s2))

/-- An action is applied to a requester (R135). -/
def applyAction (a : Action) (o : Offence) (s : State) : State :=
  let r := o.requester
  match a with
  | .reject => s
  | .strike =>
    let e := entryOf s r
    let strikes := min 15 (e.strikes + 1)
    let s1 := setEntry r { e with strikes := strikes } s
    if e.strikeLimit ≤ strikes then enterQuarantine o s1 else s1
  | .quarantine => enterQuarantine o s

end Sys2Proof.Machine
end

