-- ==== Sys2Proof/Machine/Intake.lean ====
section
/-! DEFINITION. Request intake: packets that arrive upstream (R22, R24), the examination of the head by checks 1 to 9
(R25 to R38), and management commands at the head (R39). -/

namespace Sys2Proof.Machine

/-! ## Arrival -/

/-- The MALFORMED record of a packet sent without credit (R24): no Code. -/
def uncreditedReport : IntakePacket → FaultReport
  | .request q =>
    { kind := .malformed, port := .up, requester := some q.requester, tag := recordTag q
      address := some q.address }
  | .mcmd m => { kind := .malformed, port := .up, requester := some m.requester }

/-- A request or MCMD received on the upstream port: it joins a queue with room (R22), is discarded with a
record when the queue is full (R24), and is discarded without one while the port is not UP (R24,
R188). -/
def arriveUpstream (p : IntakePacket) (s : State) : State :=
  if s.up.link = .up then
    if s.intake.queue.length < Config.intakePlaces then
      { s with intake :=
          { s.intake with
            queue := s.intake.queue ++ [p]
            examDue := s.intake.examDue || s.intake.queue.isEmpty } }
    else appendFault (uncreditedReport p) s
  else s

/-- UPSTREAM_PACKET_ARRIVAL (R22, R24). -/
def execUpstreamPacketArrival (p : IntakePacket) (s : State) : Host.Outcome State Fault Refusal :=
  whenRunning (arriveUpstream p) s

/-- A packet of a kind not received upstream is discarded with a MALFORMED record while the port is UP (R24,
R192), and without one in TRAINING (R188). -/
def strayUpstream (r : ReqNum) (s : State) : State :=
  if s.up.link = .up then appendFault { kind := .malformed, port := .up, requester := some r } s else s

/-- UPSTREAM_STRAY_PACKET (R24). -/
def execUpstreamStrayPacket (_kind : StrayUp) (r : ReqNum) (s : State) : Host.Outcome State Fault Refusal :=
  whenRunning (strayUpstream r) s

/-- UPSTREAM_CRET_DISCARD: a CRET received upstream is discarded without a record and grants nothing (R191). -/
def execUpstreamCretDiscard (_cls : CreditClass) (_count : BitVec 16) (s : State) :
    Host.Outcome State Fault Refusal :=
  whenRunning (fun x => x) s

/-! ## Refusal -/

/-- A request is refused with a code (R36, R37, R38): an RDREQ or WRREQ is answered and its Refused counter
rises, a PWREQ is discarded and counted; the request leaves the queue with its credit, and the
record, if one is to be made, is appended after that. -/
def refuseRequest (q : Request) (code : ErrCode) (report : Option FaultReport) (s : State) : State :=
  let r := q.requester
  let s1 := match q.kind with
    | .pwreq => discardPosted 1 s
    | .rdreq | .wrreq =>
      let s' := produce .up (.errsp r q.tag code) s
      setEntry r { entryOf s' r with refused := (entryOf s' r).refused + 1 } s'
  let s2 := leaveQueue s1
  match report with
  | some f => appendFault f s2
  | none => s2

/-- The record of a refusal by a check before the window check (R38). -/
def refusalReport (kind : FaultKind) (port : PortId) (q : Request) (code : ErrCode) : FaultReport :=
  { kind := kind, port := port, requester := some q.requester, tag := recordTag q
    address := some q.address, code := some code }

/-! ## Checks -/

/-- Check 1 fails (R27). -/
def malformedRequest (q : Request) : Bool :=
  q.length.toNat == 0 || 256 < q.length.toNat || addrEnd < q.address.toNat + q.length.toNat
    || match q.kind with
      | .rdreq => false
      | .wrreq | .pwreq => q.data.length != q.length.toNat

/-- An RDREQ or WRREQ. -/
def nonPosted (q : Request) : Bool :=
  match q.kind with
  | .rdreq | .wrreq => true
  | .pwreq => false

/-- Check 5 fails: an OPEN slot has the same Requester and Tag (R30). -/
def duplicateTag (s : State) (q : Request) : Bool :=
  (List.finRange 128).any fun i =>
    (pick s.ort i).openWith fun t => t.requester == q.requester && t.tag == q.tag

/-- The lowest-numbered FREE slot (R47). -/
def firstFree (s : State) : Option SlotNum :=
  (List.finRange 128).find? fun i => (pick s.ort i).occ == .free

/-- What the checks before the resources decide (R26, checks 1 to 7). -/
inductive Verdict where
  /-- Refused by check 1, 2, 3, 4, 5 or 6, with the record to append and whether the link-down logged flag is
  set by this refusal. -/
  | refuse (code : ErrCode) (report : Option FaultReport) (setsFlag : Bool)
  /-- Refused by check 7. -/
  | violate (r : Refused)
  /-- Granted by check 7. -/
  | pass (pieces : List GrantedPiece) (generation : Generation)
  deriving DecidableEq, Repr

/-- Checks 1 to 7, in their order, the first that fails deciding (R26 to R32). -/
def judge (s : State) (q : Request) : Verdict :=
  let e := entryOf s q.requester
  if malformedRequest q then .refuse .malformed (some (refusalReport .malformed .up q .malformed)) false
  else if e.state = .disabled then .refuse .disabled none false
  else if e.state = .quarantined then .refuse .quarantined none false
  else if s.down.link ≠ .up then
    if s.intake.linkDownLogged then .refuse .linkDown none false
    else .refuse .linkDown (some (refusalReport .linkChange .down q .linkDown)) true
  else if nonPosted q && duplicateTag s q then
    .refuse .dupTag (some (refusalReport .dupTag .up q .dupTag)) false
  else if nonPosted q && decide (e.openLimit ≤ openCount s q.requester) then
    .refuse .overLimit (some (refusalReport .overLimit .up q .overLimit)) false
  else
    match windowCheck s q with
    | .refused r => .violate r
    | .granted ps g => .pass ps g

/-! ## Acceptance -/

/-- A deadline class's configured value (R99). -/
def GlobalConfig.classTime (c : GlobalConfig) : DeadlineClass → Nat
  | .t0 => c.t0
  | .t1 => c.t1
  | .t2 => c.t2
  | .t3 => c.t3

/-- The number of a deadline class. -/
def DeadlineClass.number : DeadlineClass → Nat
  | .t0 => 0
  | .t1 => 1
  | .t2 => 2
  | .t3 => 3

/-- Of two classes the one with the smaller value, and on equal values the lower-numbered (R48). -/
def shorterClass (c : GlobalConfig) (x y : DeadlineClass) : DeadlineClass :=
  if c.classTime y < c.classTime x ∨ (c.classTime y = c.classTime x ∧ y.number < x.number) then y else x

/-- A slot's Deadline class, chosen from its pieces' windows (R48). -/
def chooseClass (c : GlobalConfig) : List GrantedPiece → DeadlineClass
  | [] => .t0
  | p :: ps => ps.foldl (fun x g => shorterClass c x g.deadlineClass) p.deadlineClass

/-- A piece record at allocation (R47). -/
def GrantedPiece.record (g : GrantedPiece) : Piece :=
  { index := g.index, window := g.window, address := g.address, length := g.length, offset := g.offset
    state := .queued }

/-- A piece's share of the request's data: its Length bytes from its Offset (R35). -/
def GrantedPiece.share (g : GrantedPiece) (data : List Byte) : List Byte :=
  (data.drop g.offset).take g.length

/-- The record of a newly allocated slot (R47). -/
def newRecord (s : State) (q : Request) (ps : List GrantedPiece) (g : Generation) : Tracked :=
  { requester := q.requester
    tag := q.tag
    kind := if q.kind = .rdreq then .read else .write
    address := q.address
    length := q.length.toNat
    generation := g
    deadlineClass := chooseClass s.mgmt.config ps
    failure := none
    pieces := ps.map GrantedPiece.record }

/-- The issue FIFO entry of a non-posted piece (R35, R65). -/
def trackedEntry (i : SlotNum) (q : Request) (g : GrantedPiece) : FifoEntry :=
  .tracked i g.index (if q.kind = .rdreq then none else some (g.share q.data))

/-- The issue FIFO entry of a posted piece (R35, R65). -/
def postedEntry (q : Request) (g : GrantedPiece) : FifoEntry :=
  .posted g.index g.address g.length (g.share q.data)

/-- The slot is allocated: OPEN with its record, its deadline timer started, its hold taken (R47, R102,
R117). -/
def allocate (i : SlotNum) (t : Tracked) (s : State) : State :=
  holdTaken
    (setTimer i (.deadline (s.mgmt.config.classTime t.deadlineClass)) (setOcc i (.opened t) s))

/-- The entries join the tail of the requester's FIFO, its Accepted counter rises, and the request leaves the
queue with its credit (R35). -/
def enqueueAccepted (r : ReqNum) (entries : List FifoEntry) (s : State) : State :=
  let s1 := setFifo r (fifoOf s r ++ entries) s
  leaveQueue (setEntry r { entryOf s1 r with accepted := (entryOf s1 r).accepted + 1 } s1)

/-- An RDREQ or WRREQ is accepted into a slot (R35, R47). -/
def acceptTracked (i : SlotNum) (q : Request) (ps : List GrantedPiece) (g : Generation) (s : State) : State :=
  enqueueAccepted q.requester (ps.map (trackedEntry i q)) (allocate i (newRecord s q ps g) s)

/-- A PWREQ is accepted (R35). -/
def acceptPosted (q : Request) (ps : List GrantedPiece) (s : State) : State :=
  enqueueAccepted q.requester (ps.map (postedEntry q)) s

/-- The stall condition that names the missing resources (R34). -/
def stallOf (noSlot noRoom : Bool) (r : ReqNum) : StallCondition :=
  match noSlot, noRoom with
  | true, true => .slotAndFifo r
  | true, false => .slot r
  | false, true => .fifo r
  | false, false => .none

/-- A stalled examination (R33, R34): the condition is set, and EXHAUST is raised at the first examination of the
episode that finds no FREE slot. -/
def stallHead (noSlot noRoom : Bool) (r : ReqNum) (s : State) : State :=
  let s1 := { s with intake := { s.intake with stall := stallOf noSlot noRoom r, examDue := false } }
  if noSlot && !s.intake.exhaustRaised then
    raiseClass .exhaust { s1 with intake := { s1.intake with exhaustRaised := true } }
  else s1

/-- Check 8 and check 9 for a granted request (R33, R35). -/
def resourceCheck (q : Request) (ps : List GrantedPiece) (g : Generation) (s : State) : State :=
  let room := decide ((fifoOf s q.requester).length + ps.length ≤ Config.fifoPlaces)
  if nonPosted q then
    match firstFree s with
    | some i => if room then acceptTracked i q ps g s else stallHead false true q.requester s
    | none => stallHead true (!room) q.requester s
  else if room then acceptPosted q ps s
  else stallHead false true q.requester s

/-- The offence of a window refusal (R138). -/
def offenceOf (q : Request) (r : Refused) : Offence :=
  { requester := q.requester, tag := recordTag q, address := q.address, window := r.actionWindow
    code := r.code }

/-- The examination of a request at the head (R26, Table 2-1). -/
def examine (q : Request) (s : State) : State :=
  match judge s q with
  | .refuse code report setsFlag =>
    refuseRequest q code report
      { s with intake := { s.intake with linkDownLogged := s.intake.linkDownLogged || setsFlag } }
  | .violate r => applyAction r.action (offenceOf q r) (refuseRequest q r.code r.record s)
  | .pass ps g => resourceCheck q ps g s

/-- The head request is examined when an examination is due (R25). -/
def examineHead (s : State) : State :=
  match s.intake.queue with
  | .request q :: _ => if s.intake.examDue then examine q s else s
  | .mcmd _ :: _ | [] => s

/-- HEAD_EXAMINATION (R25, R26). -/
def execHeadExamination (s : State) : Host.Outcome State Fault Refusal :=
  whenRunning examineHead s

/-! ## Management commands at the head -/

/-- A command as the management queue keeps it (R167). -/
def queuedFrom (p : PortId) (m : Mcmd) : QueuedCommand :=
  { sender := ⟨p, m.requester⟩, sequence := m.sequence, command := m.command, payload := m.payload }

/-- A command reaches the management queue: it joins the tail, or is answered QFULL on its port (R39, R167). -/
def reachManagement (p : PortId) (m : Mcmd) (s : State) : State :=
  if s.mgmt.queue.length < Config.managementPlaces then
    { s with mgmt := { s.mgmt with queue := s.mgmt.queue ++ [queuedFrom p m] } }
  else produce p (.mresp m.requester m.sequence .qfull .none) s

/-- The MCMD at the head is moved to the management queue or answered QFULL, and leaves with its credit (R39). -/
def moveHead (s : State) : State :=
  match s.intake.queue with
  | .mcmd m :: _ => leaveQueue (reachManagement .up m s)
  | .request _ :: _ | [] => s

/-- MCMD_AT_HEAD (R39). -/
def execMcmdAtHead (s : State) : Host.Outcome State Fault Refusal :=
  whenRunning moveHead s

end Sys2Proof.Machine
end

