-- ==== Sys2Proof/Machine/Lease.lean ====
section
/-! DEFINITION. The lease: who may command (R170, R171), its start and renewal (R173, R174), its ends (R164, R175,
R176), and the lease timer's expiry (R177). -/

namespace Sys2Proof.Machine

/-- The authority check of a sender (R170). -/
def authorised (s : State) (p : Party) : Bool :=
  match p.port with
  | .up => (entryOf s p.requester).mayManage
  | .down => s.mgmt.config.downstreamManagement

/-- The sender is the lease holder, port and requester number together (R168). -/
def isHolder (s : State) (p : Party) : Bool :=
  match s.mgmt.lease with
  | some l => l.holder == p
  | none => false

/-- A command is answered with one MRESP on the port it came from (R169). -/
def answer (c : QueuedCommand) (st : Status) (res : Results) (s : State) : State :=
  produce c.sender.port (.mresp c.sender.requester c.sequence st res) s

/-- The part with the lease record replaced. -/
def setLease (l : Option Lease) (s : State) : State := { s with mgmt := { s.mgmt with lease := l } }

/-- A lease that starts at this event, for a holder (R173). -/
def freshLease (p : Party) (s : State) : Lease :=
  { holder := p, timer := s.mgmt.config.leasePeriod * Config.usPerMs, lastRenewal := s.now, earlyCount := 0 }

/-- The lease ends unasked, by lapse or revocation: the record, a held commit, the notice unit, the fault record,
in this order (R176). -/
def endLease (kind : FaultKind) (s : State) : State :=
  match s.mgmt.lease with
  | none => s
  | some l =>
    appendFault { kind := kind, port := l.holder.port, requester := some l.holder.requester }
      (noticeLeaseEnd (cancelHeld (setLease none s)))

/-- A lease held through a port lapses (R177). -/
def lapseThrough (p : PortId) (s : State) : State :=
  match s.mgmt.lease with
  | none => s
  | some l => if l.holder.port = p then endLease .leaseLapsed s else s

/-- The minimum spacing in µs. -/
def spacing (s : State) : Nat := s.mgmt.config.minimumSpacing * Config.usPerMs

/-- The holder's RENEW is early: less than the minimum spacing since the last accepted CLAIM or RENEW (R174). -/
def renewEarly (l : Lease) (s : State) : Bool := s.now - l.lastRenewal < spacing s

/-- An early renewal: TOO_EARLY with the time that remains, counted; the second without an accepted one between
revokes the lease after the answer (R174). -/
def earlyRenewal (c : QueuedCommand) (l : Lease) (s : State) : State :=
  let s1 := { s with mgmt := { s.mgmt with earlyRenewals := s.mgmt.earlyRenewals + 1 } }
  let s2 := answer c .tooEarly (.spacingRemaining (spacing s - (s.now - l.lastRenewal))) s1
  if l.earlyCount = 0 then setLease (some { l with earlyCount := 1 }) s2
  else endLease .leaseRevoked s2

/-- The holder's RENEW (R174). -/
def renewLease (c : QueuedCommand) (l : Lease) (s : State) : State :=
  if renewEarly l s then earlyRenewal c l s
  else answer c .ok (.leasePeriod s.mgmt.config.leasePeriod) (setLease (some (freshLease l.holder s)) s)

end Sys2Proof.Machine
end

