-- ==== Sys2Proof/Machine/Link.lean ====
section
/-! DEFINITION. The packet link: the transitions of a port's link state (R187, R188, R189, R190) and what each
owner does at them (Table 11-2). -/

namespace Sys2Proof.Machine

/-! ## Transitions -/

/-- The LINK_CHANGE record of a port (R190). -/
def linkReport (p : PortId) : FaultReport := { kind := .linkChange, port := p }

/-- What a port does at every transition: its LINK_CHANGE record, then LINK (R190). -/
def linkChanged (p : PortId) (s : State) : State := raiseClass .link (appendFault (linkReport p) s)

/-- The downstream link has changed state, at which intake examines a stalled head anew (R25). -/
def linkNotice (p : PortId) (s : State) : State :=
  match p with
  | .up => s
  | .down => notifyHead s

/-- The INIT the part sends (R188). -/
def initPacket : PortId → OutPacket
  | .up => .init .intake 32 0
  | .down => .init .none 0 0

/-- A port enters TRAINING: its INIT is sent at once and its training timer starts (R187, R188). -/
def enterTraining (p : PortId) (s : State) : State :=
  let x := s.port p
  linkNotice p
    (linkChanged p
      (s.setPort p
        { x with link := .training, trainingTimer := some Config.trainingTime, sent := x.sent ++ [initPacket p] }))

/-- A port in DOWN, with the training timer stopped and the hold-off timer started (R187). -/
def Port.fallen (x : Port) : Port :=
  { x with link := .down, trainingTimer := none, holdOffTimer := some Config.holdOffTime }

/-- A port that has left UP: packets handed to it and not yet sent are lost with the link (R189). -/
def Port.lost (x : Port) : Port := { x.fallen with tx := [] }

/-- A port goes from TRAINING to DOWN (Table 11-1). -/
def failTraining (p : PortId) (s : State) : State :=
  linkNotice p (linkChanged p (s.setPort p (s.port p).fallen))

/-! ## The owners' parts when the upstream port leaves UP -/

/-- Intake: every packet is discarded without a credit, and the stall ends (R40). -/
def discardIntake (s : State) : State :=
  { s with intake := { s.intake with queue := [], stall := .none, exhaustRaised := false, examDue := false } }

/-- The queued commands of a port are removed without an answer (R172). -/
def purgeCommands (p : PortId) (s : State) : State :=
  { s with mgmt := { s.mgmt with queue := s.mgmt.queue.filter fun c => c.sender.port != p } }

/-- The owners' parts at the upstream port's leaving UP (Table 11-2). -/
def upstreamLost (s : State) : State := lapseThrough .up (purgeCommands .up (discardIntake s))

/-! ## The owners' parts when the downstream port leaves UP -/

/-- A QUEUED or ISSUED piece becomes FAILED with Code LINK_DOWN (R59). -/
def cutPiece (p : Piece) : Piece :=
  if p.state.resolved then p else { p with state := .failed .linkDown }

/-- An OPEN slot's record at the fall: its waiting pieces failed, its Failure LINK_DOWN if it was absent (R59). -/
def cutRecord (t : Tracked) : Tracked := { t with pieces := t.pieces.map cutPiece }.fail .linkDown

/-- One slot at the fall: an OPEN slot closes, a STALE slot becomes FREE (R59). -/
def cutSlot (i : SlotNum) (s : State) : State :=
  match (pick s.ort i).occ with
  | .free => s
  | .stale _ => freeSlot i s
  | .opened t => closeSlot i (cutRecord t) s

/-- The posted entries of all issue FIFOs. -/
def postedQueued (s : State) : Nat := (s.issue.fifos.toList.map fun q => q.countP FifoEntry.isPosted).sum

/-- The issue unit at the fall: both available counts 0, every FIFO emptied, posted entries counted, the send
path free (R76). -/
def cutIssue (s : State) : State :=
  discardPosted (postedQueued s)
    { s with issue :=
        { s.issue with
          fifos := Vector.replicate 32 []
          requestPool := { s.issue.requestPool with available := 0 }
          postedPool := { s.issue.postedPool with available := 0 }
          sendPathBusy := false } }

/-- A lease held downstream lapses, and a drain whose last hold the event has released ends (R59, R118). When both
come, the free value says which of the two the commit unit takes first (R128, log entry 5). -/
def lapseAtFall (s : State) : State :=
  if (s.mgmt.lease.any fun l => l.holder.port == .down) && drainDue s then
    let s1 := { s with freeCount := s.freeCount + 1 }
    if Config.drainEndFirst s.freeCount then lapseThrough .down (endDrain s1)
    else endDrain (lapseThrough .down s1)
  else takeDrainEnd (lapseThrough .down s)

/-- The owners' parts at the downstream port's leaving UP (Table 11-2). -/
def downstreamLost (s : State) : State :=
  lapseAtFall (purgeCommands .down (notifyHead (cutIssue (forSlots cutSlot s))))

/-- The owners' parts at a port's leaving UP. -/
def ownersLost (p : PortId) (s : State) : State :=
  match p with
  | .up => upstreamLost s
  | .down => downstreamLost s

/-- A port leaves UP for DOWN: its record and LINK first, then the owners (R189). -/
def leaveUp (p : PortId) (s : State) : State := ownersLost p (linkChanged p (s.setPort p (s.port p).lost))

/-! ## Entry into UP -/

/-- A port in UP with the training timer stopped (R187). -/
def Port.trained (x : Port) : Port := { x with link := .up, trainingTimer := none }

/-- The issue unit at the downstream port's entry into UP (R75). -/
def setPools (c : InitCounts) (s : State) : State :=
  { s with issue :=
      { s.issue with
        requestPool := ⟨c.request.toNat, c.request.toNat⟩
        postedPool := ⟨c.posted.toNat, c.posted.toNat⟩ } }

/-- The owners' parts at a port's entry into UP (Table 11-2). -/
def ownersUp (p : PortId) (c : InitCounts) (s : State) : State :=
  match p with
  | .up => s
  | .down => setPools c { s with intake := { s.intake with linkDownLogged := false } }

/-- The INIT is accepted: upstream always, downstream when both counts are 1–255 (R188). -/
def initAccepted (p : PortId) (c : InitCounts) : Bool :=
  match p with
  | .up => true
  | .down => 1 ≤ c.request.toNat && c.request.toNat ≤ 255 && 1 ≤ c.posted.toNat && c.posted.toNat ≤ 255

/-- A port enters UP (R188, R190). -/
def enterUp (p : PortId) (c : InitCounts) (s : State) : State :=
  linkNotice p (ownersUp p c (linkChanged p (s.setPort p (s.port p).trained)))

/-! ## The events -/

/-- The part with the layer below's report of a port's signal. -/
def setSignal (p : PortId) (x : Bool) (s : State) : State := s.setPort p { s.port p with signal := x }

/-- A peer's signal is reported: a port in DOWN whose hold-off timer is stopped enters TRAINING (R187). -/
def detectPeer (p : PortId) (s : State) : State :=
  let s1 := setSignal p true s
  if (s1.port p).link = .down ∧ (s1.port p).holdOffTimer = none then enterTraining p s1 else s1

/-- PEER_DETECT (R187). While RESET_N is low the signal is reported and the detect is not taken (R195). -/
def execPeerDetect (p : PortId) (s : State) : Host.Outcome State Fault Refusal :=
  .next (if s.resetHeld then setSignal p true s else detectPeer p s)

/-- An INIT received by a port in TRAINING takes it to UP or to DOWN (R188). -/
def takeInit (p : PortId) (c : InitCounts) (s : State) : State :=
  if (s.port p).link = .training then
    if initAccepted p c then enterUp p c s else failTraining p s
  else s

/-- INIT_RECEIVED (R188). -/
def execInitReceived (p : PortId) (c : InitCounts) (s : State) : Host.Outcome State Fault Refusal :=
  whenRunning (takeInit p c) s

/-- An INIT received while UP takes the port to DOWN (R189). -/
def takeInitWhileUp (p : PortId) (s : State) : State := if (s.port p).link = .up then leaveUp p s else s

/-- INIT_WHILE_UP (R189). -/
def execInitWhileUp (p : PortId) (s : State) : Host.Outcome State Fault Refusal :=
  whenRunning (takeInitWhileUp p) s

/-- The hold-off timer stops, and a signal present then is reported: the port enters TRAINING (R187). -/
def endHoldOff (p : PortId) (s : State) : State :=
  let s1 := s.setPort p { s.port p with holdOffTimer := none }
  if (s.port p).signal then enterTraining p s1 else s1

/-- A report of the layer below takes a TRAINING or UP port to DOWN and has no effect in DOWN (R189). -/
def dropLink (p : PortId) (s : State) : State :=
  match (s.port p).link with
  | .down => s
  | .training => failTraining p s
  | .up => leaveUp p s

/-- LOSS_OF_SIGNAL (R189). While RESET_N is low only the report itself is kept (R195, log entry 7). -/
def execLossOfSignal (p : PortId) (s : State) : Host.Outcome State Fault Refusal :=
  .next (if s.resetHeld then setSignal p false s else dropLink p (setSignal p false s))

/-- ERROR_BURST (R189). -/
def execErrorBurst (p : PortId) (s : State) : Host.Outcome State Fault Refusal :=
  whenRunning (dropLink p) s

end Sys2Proof.Machine
end

