-- ==== Sys2Proof/Machine/Operands.lean ====
section
/-! DEFINITION. The management commands' codes (Table 10-2, R193) and operand payloads (R194, Table 11-5): the byte
counts, each operand's encoding, and the range checks that answer BAD_ARG. Encoders stand beside the
readers of the three long payloads. -/

namespace Sys2Proof.Machine

/-! ## Command codes -/

/-- The commands of Table 10-2, name by name from the top. -/
inductive Command where
  | identify
  | status
  | claim
  | rqRead
  | ortRead
  | flogRead
  | wtRead
  | renew
  | release
  | configRead
  | configWrite
  | countersRead
  | partReset
  | wtWrite
  | wtClear
  | commit
  | commitCancel
  | rqWrite
  | reinstate
  | flogPop
  | noteAck
  deriving DecidableEq, Repr

/-- The commands in the order of Table 10-2. -/
def Command.all : List Command :=
  [.identify, .status, .claim, .rqRead, .ortRead, .flogRead, .wtRead, .renew, .release, .configRead,
    .configWrite, .countersRead, .partReset, .wtWrite, .wtClear, .commit, .commitCancel, .rqWrite,
    .reinstate, .flogPop, .noteAck]

/-- A command's code: its position in Table 10-2, starting at 01h (R193). -/
def Command.code : Command → Byte
  | .identify => 0x01#8
  | .status => 0x02#8
  | .claim => 0x03#8
  | .rqRead => 0x04#8
  | .ortRead => 0x05#8
  | .flogRead => 0x06#8
  | .wtRead => 0x07#8
  | .renew => 0x08#8
  | .release => 0x09#8
  | .configRead => 0x0A#8
  | .configWrite => 0x0B#8
  | .countersRead => 0x0C#8
  | .partReset => 0x0D#8
  | .wtWrite => 0x0E#8
  | .wtClear => 0x0F#8
  | .commit => 0x10#8
  | .commitCancel => 0x11#8
  | .rqWrite => 0x12#8
  | .reinstate => 0x13#8
  | .flogPop => 0x14#8
  | .noteAck => 0x15#8

/-- The command a code names, if any (R193). -/
def Command.ofCode (b : Byte) : Option Command := Command.all.find? fun c => c.code == b

/-- Lease-bound commands (Table 10-2). -/
def Command.leaseBound : Command → Bool
  | .identify | .status | .claim | .rqRead | .ortRead | .flogRead | .wtRead => false
  | .renew | .release | .configRead | .configWrite | .countersRead | .partReset | .wtWrite | .wtClear
  | .commit | .commitCancel | .rqWrite | .reinstate | .flogPop | .noteAck => true

/-- The total byte count of a command's operand payload (Table 11-5). -/
def Command.payloadBytes : Command → Nat
  | .identify | .status | .claim | .flogRead | .renew | .release | .configRead | .partReset | .wtClear
  | .commit | .commitCancel => 0
  | .rqRead | .reinstate | .ortRead | .countersRead | .flogPop | .noteAck => 1
  | .wtRead => 2
  | .wtWrite => 30
  | .rqWrite => 7
  | .configWrite => 18

/-! ## Fields -/

/-- An unsigned number of some bytes, most significant byte first (R194). -/
def beNat (bytes : List Byte) : Nat := bytes.foldl (fun n b => n * 256 + b.toNat) 0

/-- The low `n` bytes of a number, most significant byte first (R194). -/
def beBytes : Nat → Nat → List Byte
  | 0, _ => []
  | n + 1, x => beBytes n (x / 256) ++ [BitVec.ofNat 8 x]

/-- The number in the `n` payload bytes from offset `at`. -/
def field (p : List Byte) (start n : Nat) : Nat := beNat ((p.drop start).take n)

/-- The payload byte at an offset. -/
def byteAt (p : List Byte) (i : Nat) : Byte := p.getD i 0#8

/-- A yes or no operand: 00h for no, any other value for yes (R194). -/
def yesNo (b : Byte) : Bool := b != 0#8

/-- A yes or no operand as a byte. -/
def yesNoByte (x : Bool) : Byte := if x then 0x01#8 else 0x00#8

/-- A number as an index below `n`, if it is one. -/
def index? (n : Nat) (x : Nat) : Option (Fin n) := if h : x < n then some ⟨x, h⟩ else none

/-- An action operand (Table 11-5). -/
def actionOf (b : Byte) : Option Action :=
  if b = 0x00#8 then some .reject else if b = 0x01#8 then some .strike
  else if b = 0x02#8 then some .quarantine else none

/-- An action as a byte (Table 11-5). -/
def Action.byte : Action → Byte
  | .reject => 0x00#8
  | .strike => 0x01#8
  | .quarantine => 0x02#8

/-- A deadline class operand (Table 11-5). -/
def classOf (b : Byte) : Option DeadlineClass :=
  if b = 0x00#8 then some .t0 else if b = 0x01#8 then some .t1
  else if b = 0x02#8 then some .t2 else if b = 0x03#8 then some .t3 else none

/-- A deadline class as a byte (Table 11-5). -/
def DeadlineClass.byte : DeadlineClass → Byte
  | .t0 => 0x00#8
  | .t1 => 0x01#8
  | .t2 => 0x02#8
  | .t3 => 0x03#8

/-- A downstream error handling operand (Table 11-5). -/
def handlingOf (b : Byte) : Option ErrorHandling :=
  if b = 0x00#8 then some .pass else if b = 0x01#8 then some .log else none

/-- A downstream error handling as a byte (Table 11-5). -/
def ErrorHandling.byte : ErrorHandling → Byte
  | .pass => 0x00#8
  | .log => 0x01#8

/-- A Rights operand: READ bit 0, WRITE bit 1, POSTED bit 2, the others ignored (R194). -/
def rightsOf (b : Byte) : Rights := ⟨b.getLsbD 0, b.getLsbD 1, b.getLsbD 2⟩

/-- A Rights set as a byte (R194). -/
def Rights.byte (r : Rights) : Byte :=
  (if r.read then 0x01#8 else 0#8) ||| (if r.write then 0x02#8 else 0#8)
    ||| (if r.posted then 0x04#8 else 0#8)

/-- A class mask operand: bits 6 and 7 are ignored (R194). -/
def maskOf (b : Byte) : ClassSet := b.setWidth 6

/-- A role operand of WT_READ (Table 11-5). -/
def roleOf (b : Byte) : Option BankRole :=
  if b = 0x00#8 then some .live else if b = 0x01#8 then some .staged
  else if b = 0x02#8 then some .draining else none

/-- An arbiter mode operand (Table 11-5). -/
def modeOf (b : Byte) : Option ArbiterMode :=
  if b = 0x00#8 then some .fixed else if b = 0x01#8 then some .rotate else none

/-- An arbiter mode as a byte (Table 11-5). -/
def ArbiterMode.byte : ArbiterMode → Byte
  | .fixed => 0x00#8
  | .rotate => 0x01#8

/-! ## WT_WRITE (30 bytes) -/

/-- The operands of WT_WRITE in their ranges of Table 1-1, if they are (R18, first case). -/
def wtWriteOf (p : List Byte) : Option (WinIndex × WindowEntry) := do
  let i ← index? 64 (field p 0 1)
  let violation ← actionOf (byteAt p 26)
  let cls ← classOf (byteAt p 28)
  let handling ← handlingOf (byteAt p 29)
  let limit := field p 12 7
  if limit ≤ addrEnd then
    some (i,
      { valid := yesNo (byteAt p 1)
        requesters := BitVec.ofNat 32 (field p 2 4)
        base := BitVec.ofNat 48 (field p 6 6)
        limit := limit
        target := BitVec.ofNat 48 (field p 19 6)
        rights := rightsOf (byteAt p 25)
        violation := violation
        logViolations := yesNo (byteAt p 27)
        deadlineClass := cls
        errorHandling := handling })
  else none

/-- The payload of a WT_WRITE (Table 11-5). -/
def wtWriteBytes (i : WinIndex) (e : WindowEntry) : List Byte :=
  beBytes 1 i.val ++ [yesNoByte e.valid] ++ beBytes 4 e.requesters.toNat ++ beBytes 6 e.base.toNat
    ++ beBytes 7 e.limit ++ beBytes 6 e.target.toNat
    ++ [e.rights.byte, e.violation.byte, yesNoByte e.logViolations, e.deadlineClass.byte, e.errorHandling.byte]

/-! ## RQ_WRITE (7 bytes) -/

/-- The State operand of RQ_WRITE (R139). -/
inductive StateOperand where
  | active
  | disabled
  | unchanged
  deriving DecidableEq, Repr

/-- The operands of RQ_WRITE (R139). -/
structure RqWrite where
  requester : ReqNum
  state : StateOperand
  openLimit : Nat
  strikeLimit : Nat
  missAction : Action
  mayManage : Bool
  clearStrikes : Bool
  deriving DecidableEq, Repr

/-- A State operand (Table 11-5). -/
def stateOf (b : Byte) : Option StateOperand :=
  if b = 0x00#8 then some .active else if b = 0x01#8 then some .disabled
  else if b = 0x02#8 then some .unchanged else none

/-- A State operand as a byte (Table 11-5). -/
def StateOperand.byte : StateOperand → Byte
  | .active => 0x00#8
  | .disabled => 0x01#8
  | .unchanged => 0x02#8

/-- The ranges of RQ_WRITE's limits (R139). -/
def RqWrite.inRange (w : RqWrite) : Bool :=
  1 ≤ w.openLimit && w.openLimit ≤ 128 && 1 ≤ w.strikeLimit && w.strikeLimit ≤ 15

/-- The operands of RQ_WRITE in their ranges, if they are (R139, first case). -/
def rqWriteOf (p : List Byte) : Option RqWrite := do
  let r ← index? 32 (field p 0 1)
  let st ← stateOf (byteAt p 1)
  let miss ← actionOf (byteAt p 4)
  let w : RqWrite :=
    { requester := r, state := st, openLimit := field p 2 1, strikeLimit := field p 3 1
      missAction := miss, mayManage := yesNo (byteAt p 5), clearStrikes := yesNo (byteAt p 6) }
  if w.inRange then some w else none

/-- The payload of an RQ_WRITE (Table 11-5). -/
def rqWriteBytes (w : RqWrite) : List Byte :=
  beBytes 1 w.requester.val ++ [w.state.byte] ++ beBytes 1 w.openLimit ++ beBytes 1 w.strikeLimit
    ++ [w.missAction.byte, yesNoByte w.mayManage, yesNoByte w.clearStrikes]

/-! ## CONFIG_WRITE (18 bytes) -/

/-- The ranges of Table 10-3 with the check of the spacing against the period of the same write (R182). -/
def GlobalConfig.inRange (c : GlobalConfig) : Bool :=
  [c.t0, c.t1, c.t2, c.t3, c.reclaimPeriod].all (fun t => 1 ≤ t && t ≤ 65535)
    && 10 ≤ c.leasePeriod && c.leasePeriod ≤ 10000 && c.minimumSpacing * 2 ≤ c.leasePeriod
    && 1 ≤ c.resendPeriod && c.resendPeriod ≤ 255

/-- The operands of CONFIG_WRITE in their ranges, if they are (R182, first two cases). -/
def configWriteOf (p : List Byte) : Option GlobalConfig := do
  let mode ← modeOf (byteAt p 16)
  let c : GlobalConfig :=
    { t0 := field p 0 2, t1 := field p 2 2, t2 := field p 4 2, t3 := field p 6 2
      reclaimPeriod := field p 8 2, leasePeriod := field p 10 2, minimumSpacing := field p 12 2
      resendPeriod := field p 14 1, classMask := maskOf (byteAt p 15), arbiterMode := mode
      downstreamManagement := yesNo (byteAt p 17) }
  if c.inRange then some c else none

/-- The payload of a CONFIG_WRITE (Table 11-5). -/
def configWriteBytes (c : GlobalConfig) : List Byte :=
  beBytes 2 c.t0 ++ beBytes 2 c.t1 ++ beBytes 2 c.t2 ++ beBytes 2 c.t3 ++ beBytes 2 c.reclaimPeriod
    ++ beBytes 2 c.leasePeriod ++ beBytes 2 c.minimumSpacing ++ beBytes 1 c.resendPeriod
    ++ [c.classMask.setWidth 8, c.arbiterMode.byte, yesNoByte c.downstreamManagement]

end Sys2Proof.Machine
end

