-- ==== Sys2Proof/Machine/Reset.lean ====
section
/-! DEFINITION. The warm reset (R184 and the rules it names) and the cold reset with its pins (R195). -/

namespace Sys2Proof.Machine

/-! ## Warm reset -/

/-- Intake: the queue is emptied, each discarded packet returns its credit, the stall ends, the flag is cleared
(R42, R191). -/
def warmIntake (s : State) : State :=
  let n := s.intake.queue.length
  let s1 := { s with intake := coldIntake }
  if n = 0 then s1 else produce .up (.cret n) s1

/-- One slot: an OPEN slot is answered ABORTED, and an OPEN or STALE slot becomes FREE with its timer cancelled
(R61, R112). -/
def warmSlot (i : SlotNum) (s : State) : State :=
  match (pick s.ort i).occ with
  | .free => s
  | .stale _ => freeSlot i s
  | .opened t => freeSlot i (produce .up (.errsp t.requester t.tag .aborted) s)

/-- Every timer's Mode is NONE (R112). -/
def cancelTimers (s : State) : State := { s with timers := Vector.replicate 128 .none }

/-- A pool whose available count is set by the state of the downstream link (R78). -/
def CreditPool.refill (p : CreditPool) (isUp : Bool) : CreditPool :=
  { p with available := if isUp then p.maximum else 0 }

/-- The issue unit (R78). -/
def warmIssue (s : State) : State :=
  let isUp := decide (s.down.link = .up)
  { s with issue :=
      { s.issue with
        fifos := Vector.replicate 32 []
        requestPool := s.issue.requestPool.refill isUp
        postedPool := s.issue.postedPool.refill isUp } }

/-- The commit unit's record after a warm reset (R129). -/
def CommitUnit.warm (c : CommitUnit) : CommitUnit :=
  { c with
    heldCommit := false
    condition := if c.condition = .frozen then .writable else c.condition
    liveOpen := 0
    drainingOpen := 0
    freeBank := c.freeBank <|> c.drainingBank
    drainingBank := none
    fillProgress := if c.condition = .filling then 0 else c.fillProgress
    fillStepDue := false }

/-- The commit unit (R129). -/
def warmCommit (s : State) : State := { s with commit := s.commit.warm }

/-- The requester table: the counters become 0 and the rest is kept (R147). -/
def zeroRequesterCounters (s : State) : State :=
  { s with requesters := s.requesters.map fun e => { e with accepted := 0#32, refused := 0#32 } }

/-- The response handler's counters become 0 (R97). -/
def zeroResponseCounters (s : State) : State := { s with responses := ⟨0#32, 0#32⟩ }

/-- The management engine: queue, lease and counters; the lease's end reaches the notice unit (R185). -/
def warmManagement (s : State) : State :=
  noticeLeaseEnd
    { s with mgmt :=
        { s.mgmt with queue := [], lease := none, postedDiscards := 0#32, earlyRenewals := 0#32 } }

/-- The notice unit, after the lease has ended (R166). -/
def warmNotice (s : State) : State :=
  { s with notice := { coldNotice with nextNumber := s.notice.nextNumber } }

/-- The warm reset that the holder's PART_RESET applies, each block by its own rule, with the WARM_RESET record
after the notice unit's part (R156, R184). -/
def warmReset (p : Party) (s : State) : State :=
  let s1 := warmIssue (cancelTimers (forSlots warmSlot (warmIntake s)))
  let s2 := zeroResponseCounters (zeroRequesterCounters (warmCommit s1))
  appendFault { kind := .warmReset, port := p.port, requester := some p.requester }
    (warmNotice (warmManagement s2))

/-! ## Cold reset -/

/-- A port after a cold reset: its input and the model's record of what it sent stay (log entry 19). -/
def coldPortOf (p : Port) : Port := { coldPort with signal := p.signal, sent := p.sent }

/-- Cold reset: every block at its cold reset values, held while RESET_N is low (R195). -/
def coldReset (s : State) : State :=
  { State.reset with
    up := coldPortOf s.up
    down := coldPortOf s.down
    freeCount := s.freeCount
    pending := s.pending }

/-- RESET_N_ASSERT (R195). -/
def execResetNAssert (s : State) : Host.Outcome State Fault Refusal := .next (coldReset s)

/-- The straps are sampled and the part starts (R147, R185, R195). -/
def startPart (x : Straps) (s : State) : State :=
  let s1 := setEntry x.mgrId { entryOf s x.mgrId with mayManage := true } s
  { s1 with
    resetHeld := false
    mgmt := { s1.mgmt with config := { s1.mgmt.config with downstreamManagement := x.dmgEn } } }

/-- The release of RESET_N: only a held RESET_N is released (R195). -/
def releaseReset (x : Straps) (s : State) : State := if s.resetHeld then startPart x s else s

/-- RESET_N_RELEASE (R195). -/
def execResetNRelease (x : Straps) (s : State) : Host.Outcome State Fault Refusal := .next (releaseReset x s)

/-- Power-up is a cold reset; with RESET_N high the moment of stable supplies stands for its release (R195). -/
def powerUp (x : Straps) (resetNHigh : Bool) (s : State) : State :=
  if resetNHigh then startPart x (coldReset s) else coldReset s

/-- POWER_UP (R195). -/
def execPowerUp (x : Straps) (resetNHigh : Bool) (s : State) : Host.Outcome State Fault Refusal :=
  .next (powerUp x resetNHigh s)

end Sys2Proof.Machine
end

