-- ==== Sys2Proof/Machine/Management.lean ====
section
/-! DEFINITION. The management engine: the taking of the management queue's head (R168, R169), the 21 commands of Table
10-2 by their own rules, an unknown command (R168), and commands that arrive downstream (R167). -/

namespace Sys2Proof.Machine

/-! ## Taking a command -/

/-- The part with the head of the management queue taken (R168). -/
def popCommand (s : State) : State := { s with mgmt := { s.mgmt with queue := s.mgmt.queue.tail } }

/-- The engine's first three cases, then the command's own execution (R168). -/
def decideCommand (k : Command) (body : QueuedCommand → State → State) (c : QueuedCommand) (s : State) : State :=
  if !authorised s c.sender then answer c .notPermitted .none s
  else if c.payload.length ≠ k.payloadBytes then answer c .badArg .none s
  else if k.leaseBound && !isHolder s c.sender then answer c .noLease .none s
  else body c s

/-- The command at the head of the management queue is taken, when it is the named one (R168). -/
def takeCommand (k : Command) (body : QueuedCommand → State → State) (s : State) : State :=
  match s.mgmt.queue with
  | [] => s
  | c :: _ => if c.command = k.code then decideCommand k body c (popCommand s) else s

/-- An unknown command at the head: the authority check, then BAD_ARG (R168, R193). -/
def takeUnknown (s : State) : State :=
  match s.mgmt.queue with
  | [] => s
  | c :: _ =>
    if Command.ofCode c.command = none then
      let s1 := popCommand s
      if !authorised s1 c.sender then answer c .notPermitted .none s1 else answer c .badArg .none s1
    else s

/-- UNKNOWN_COMMAND (R168). -/
def execUnknownCommand (s : State) : Host.Outcome State Fault Refusal :=
  whenRunning takeUnknown s

/-! ## Identification and status -/

/-- IDENTIFY's answer (R179). -/
def doIdentify (c : QueuedCommand) (s : State) : State := answer c .ok (.identity Config.identity) s

/-- IDENTIFY (R179). -/
def execIdentify (s : State) : Host.Outcome State Fault Refusal :=
  whenRunning (takeCommand .identify doIdentify) s

/-- The commit unit's record as STATUS reports it (R132). -/
def commitView (c : CommitUnit) : CommitView :=
  { liveBank := c.liveBank, stagedBank := c.stagedBank, drainingBank := c.drainingBank
    freeBank := c.freeBank, liveGeneration := c.liveGeneration
    drainingGeneration := c.drainingGeneration, condition := c.condition, heldCommit := c.heldCommit
    fillProgress := c.fillProgress, liveOpen := c.liveOpen, drainingOpen := c.drainingOpen }

/-- A slot is FREE. -/
def Slot.isFree (x : Slot) : Bool := x.occ == .free

/-- A slot is OPEN. -/
def Slot.isOpen (x : Slot) : Bool := x.openWith fun _ => true

/-- A slot is STALE. -/
def Slot.isStale (x : Slot) : Bool := !x.isFree && !x.isOpen

/-- The snapshot of STATUS, taken after the command has left the queue (R180). -/
def statusView (s : State) : StatusView :=
  { lease := s.mgmt.lease.map fun l => ⟨l.holder, max 1 l.timer, l.earlyCount⟩
    commit := commitView s.commit
    freeSlots := countSlots Slot.isFree s
    openSlots := countSlots Slot.isOpen s
    staleSlots := countSlots Slot.isStale s
    logCount := s.flog.records.length
    nextSequence := s.flog.nextSequence
    upLink := s.up.link
    downLink := s.down.link
    requestPool := s.issue.requestPool
    postedPool := s.issue.postedPool
    stall := s.intake.stall
    queued := s.intake.queue.length
    waiting := s.mgmt.queue.length }

/-- STATUS's answer (R180). -/
def doStatus (c : QueuedCommand) (s : State) : State := answer c .ok (.status (statusView s)) s

/-- STATUS (R180). -/
def execStatus (s : State) : Host.Outcome State Fault Refusal :=
  whenRunning (takeCommand .status doStatus) s

/-! ## The lease -/

/-- CLAIM: granted, taken as RENEW, or refused (R173). The notice unit takes the grant after the MRESP (R165). -/
def doClaim (c : QueuedCommand) (s : State) : State :=
  match s.mgmt.lease with
  | none =>
    testSend
      (answer c .ok (.leaseGranted c.sender s.mgmt.config.leasePeriod s.mgmt.config.minimumSpacing)
        (setLease (some (freshLease c.sender s)) s))
  | some l =>
    if l.holder = c.sender then renewLease c l s
    else answer c .notPermitted (.leaseHolder l.holder) s

/-- CLAIM (R173). -/
def execClaim (s : State) : Host.Outcome State Fault Refusal :=
  whenRunning (takeCommand .claim doClaim) s

/-- RENEW by the holder (R174); the lease check has found one. -/
def doRenew (c : QueuedCommand) (s : State) : State :=
  match s.mgmt.lease with
  | none => answer c .noLease .none s
  | some l => renewLease c l s

/-- RENEW (R174). -/
def execRenew (s : State) : Host.Outcome State Fault Refusal :=
  whenRunning (takeCommand .renew doRenew) s

/-- RELEASE: the lease ends, a held commit stays, the notice unit takes the end (R175). -/
def doRelease (c : QueuedCommand) (s : State) : State :=
  noticeLeaseEnd (answer c .ok .none (setLease none s))

/-- RELEASE (R175). -/
def execRelease (s : State) : Host.Outcome State Fault Refusal :=
  whenRunning (takeCommand .release doRelease) s

/-! ## Requester table -/

/-- A requester entry with its derived values (R144). -/
def requesterView (s : State) (r : ReqNum) : RequesterView :=
  { requester := r, entry := entryOf s r, openCount := openCount s r, queuedPieces := (fifoOf s r).length }

/-- RQ_READ's answer (R144). -/
def doRqRead (c : QueuedCommand) (s : State) : State :=
  match index? 32 (field c.payload 0 1) with
  | none => answer c .badArg .none s
  | some r => answer c .ok (.requester (requesterView s r)) s

/-- RQ_READ (R144). -/
def execRqRead (s : State) : Host.Outcome State Fault Refusal :=
  whenRunning (takeCommand .rqRead doRqRead) s

/-- The change of State of an OK RQ_WRITE, with the withdrawal when an ACTIVE requester is disabled (R140). -/
def writeState (w : RqWrite) (s : State) : State :=
  let r := w.requester
  let e := entryOf s r
  match w.state with
  | .unchanged => s
  | .active => setEntry r { e with state := .active } s
  | .disabled =>
    let s1 := setEntry r { e with state := .disabled } s
    if e.state = .active then withdraw r s1 else s1

/-- The other fields of an OK RQ_WRITE (R141). -/
def writeLimits (w : RqWrite) (e : RequesterEntry) : RequesterEntry :=
  { e with
    openLimit := w.openLimit
    strikeLimit := w.strikeLimit
    missAction := w.missAction
    mayManage := w.mayManage
    strikes := if w.clearStrikes then 0 else e.strikes }

/-- An OK RQ_WRITE: State first, then the other fields; intake examines a stalled head of the requester anew
(R139, R140, R141). -/
def writeRequester (w : RqWrite) (s : State) : State :=
  let s1 := writeState w s
  notifyHeadOf w.requester (setEntry w.requester (writeLimits w (entryOf s1 w.requester)) s1)

/-- RQ_WRITE: ranges, ACTIVE on a QUARANTINED requester, or the write with its entry as the answer (R139), and the
drain end that a withdrawal causes (R118). -/
def doRqWrite (c : QueuedCommand) (s : State) : State :=
  match rqWriteOf c.payload with
  | none => answer c .badArg .none s
  | some w =>
    if w.state = .active ∧ (entryOf s w.requester).state = .quarantined then answer c .badArg .none s
    else
      let s1 := writeRequester w s
      let s2 := answer c .ok (.requester (requesterView s1 w.requester)) s1
      if w.state = .disabled ∧ (entryOf s w.requester).state = .active then takeDrainEnd s2 else s2

/-- RQ_WRITE (R139). -/
def execRqWrite (s : State) : Host.Outcome State Fault Refusal :=
  whenRunning (takeCommand .rqWrite doRqWrite) s

/-- A QUARANTINED requester becomes ACTIVE with Strikes 0 (R143). -/
def reinstate (r : ReqNum) (s : State) : State :=
  notifyHeadOf r (setEntry r { entryOf s r with state := .active, strikes := 0 } s)

/-- REINSTATE's cases (R143). -/
def doReinstate (c : QueuedCommand) (s : State) : State :=
  match index? 32 (field c.payload 0 1) with
  | none => answer c .badArg .none s
  | some r =>
    if (entryOf s r).state = .quarantined then
      answer c .ok (.requester (requesterView (reinstate r s) r)) (reinstate r s)
    else answer c .nothing .none s

/-- REINSTATE (R143). -/
def execReinstate (s : State) : Host.Outcome State Fault Refusal :=
  whenRunning (takeCommand .reinstate doReinstate) s

/-! ## Outstanding request table -/

/-- The Remaining of a slot's timer, none for a FREE slot (R63, R101). It is at least 1: a timer whose expiry is due
has not yet fallen to 0 (log entry 3). -/
def SlotTimer.remaining : SlotTimer → Option Nat
  | .none => Option.none
  | .deadline n | .reclaim n => some (max 1 n)

/-- ORT_READ's answer (R63). -/
def doOrtRead (c : QueuedCommand) (s : State) : State :=
  match index? 128 (field c.payload 0 1) with
  | none => answer c .badArg .none s
  | some i => answer c .ok (.slot ⟨i, pick s.ort i, (pick s.timers i).remaining⟩) s

/-- ORT_READ (R63). -/
def execOrtRead (s : State) : Host.Outcome State Fault Refusal :=
  whenRunning (takeCommand .ortRead doOrtRead) s

/-! ## Fault log -/

/-- FLOG_READ's answer (R152). -/
def doFlogRead (c : QueuedCommand) (s : State) : State :=
  match s.flog.records with
  | [] => answer c .nothing (.faultCount 0) s
  | r :: _ => answer c .ok (.faultHead s.flog.records.length r) s

/-- FLOG_READ (R152). -/
def execFlogRead (s : State) : Host.Outcome State Fault Refusal :=
  whenRunning (takeCommand .flogRead doFlogRead) s

/-- FLOG_POP's cases (R153). -/
def doFlogPop (c : QueuedCommand) (s : State) : State :=
  let n := field c.payload 0 1
  if n < 1 ∨ 32 < n then answer c .badArg .none s
  else if s.flog.records.isEmpty then answer c .nothing (.faultsRemoved 0 0) s
  else
    answer c .ok (.faultsRemoved (min n s.flog.records.length) (s.flog.records.drop n).length)
      { s with flog := { s.flog with records := s.flog.records.drop n } }

/-- FLOG_POP (R153). -/
def execFlogPop (s : State) : Host.Outcome State Fault Refusal :=
  whenRunning (takeCommand .flogPop doFlogPop) s

/-! ## Window store -/

/-- The entry of a bank as WT_READ returns it. -/
def windowResult (s : State) (b : BankNum) (g : Option Generation) (cond : Option StagedCondition)
    (i : WinIndex) : Results :=
  .windowEntry b g cond i (pick (bankOf s b) i)

/-- WT_READ's cases (R17). -/
def doWtRead (c : QueuedCommand) (s : State) : State :=
  match roleOf (byteAt c.payload 0), index? 64 (field c.payload 1 1) with
  | some role, some i =>
    match role with
    | .live => answer c .ok (windowResult s s.commit.liveBank (some s.commit.liveGeneration) none i) s
    | .draining =>
      match s.commit.drainingBank with
      | none => answer c .badArg .none s
      | some b => answer c .ok (windowResult s b s.commit.drainingGeneration none i) s
    | .staged =>
      if s.commit.condition = .filling then answer c .busy .none s
      else answer c .ok (windowResult s s.commit.stagedBank none (some s.commit.condition) i) s
  | _, _ => answer c .badArg .none s

/-- WT_READ (R17). -/
def execWtRead (s : State) : Host.Outcome State Fault Refusal :=
  whenRunning (takeCommand .wtRead doWtRead) s

/-- One entry of the STAGED bank is replaced (R18). -/
def writeWindow (i : WinIndex) (e : WindowEntry) (s : State) : State :=
  setBank s.commit.stagedBank (put (bankOf s s.commit.stagedBank) i e) s

/-- WT_WRITE's cases (R18, R19). -/
def doWtWrite (c : QueuedCommand) (s : State) : State :=
  match wtWriteOf c.payload with
  | none => answer c .badArg .none s
  | some (i, e) =>
    if s.commit.condition ≠ .writable then answer c .busy .none s
    else if e.valid && !e.bounded then answer c .badArg .none s
    else answer c .ok (.windowWritten i s.commit.stagedBank) (writeWindow i e s)

/-- WT_WRITE (R18). -/
def execWtWrite (s : State) : Host.Outcome State Fault Refusal :=
  whenRunning (takeCommand .wtWrite doWtWrite) s

/-- WT_CLEAR's cases (R20). -/
def doWtClear (c : QueuedCommand) (s : State) : State :=
  if s.commit.condition ≠ .writable then answer c .busy .none s
  else answer c .ok (.stagedBank s.commit.stagedBank) (setBank s.commit.stagedBank clearedBank s)

/-- WT_CLEAR (R20). -/
def execWtClear (s : State) : Host.Outcome State Fault Refusal :=
  whenRunning (takeCommand .wtClear doWtClear) s

/-! ## Commit unit -/

/-- What a swap answers; `l` is the bank that left LIVE (Table 7-2). -/
def swappedResult (l : BankNum) (s : State) : Results :=
  .commitSwapped s.commit.liveGeneration s.commit.liveBank s.commit.stagedBank l
    (if s.commit.drainingBank.isSome then .draining else .free)

/-- The COMMIT is held (R121). -/
def holdCommit (s : State) : State :=
  { s with commit := { s.commit with heldCommit := true, condition := .frozen } }

/-- COMMIT's cases (Table 7-2). -/
def doCommit (c : QueuedCommand) (s : State) : State :=
  if s.commit.condition ≠ .writable then answer c .busy .none s
  else
    match s.commit.drainingGeneration with
    | some g => answer c .ok (.commitHeld s.commit.liveGeneration g s.commit.drainingOpen) (holdCommit s)
    | none => answer c .ok (swappedResult s.commit.liveBank (swapBanks s)) (swapBanks s)

/-- COMMIT (R120). -/
def execCommit (s : State) : Host.Outcome State Fault Refusal :=
  whenRunning (takeCommand .commit doCommit) s

/-- COMMIT_CANCEL's cases (R127). -/
def doCommitCancel (c : QueuedCommand) (s : State) : State :=
  if s.commit.heldCommit then answer c .ok (.stagedBank s.commit.stagedBank) (cancelHeld s)
  else answer c .nothing .none s

/-- COMMIT_CANCEL (R127). -/
def execCommitCancel (s : State) : Host.Outcome State Fault Refusal :=
  whenRunning (takeCommand .commitCancel doCommitCancel) s

/-! ## Notice unit -/

/-- The outstanding notice is acknowledged (R161, last case). -/
def acknowledge (s : State) : State :=
  { s with notice := { s.notice with reported := 0#6, outstanding := none, resendTimer := none } }

/-- The number of the notice that an OK NOTE_ACK is followed by, if Pending is not empty (R161). -/
def nextNoticeNumber (s : State) : Option Byte :=
  if s.notice.pending ≠ 0#6 then some s.notice.nextNumber else none

/-- NOTE_ACK's cases (R161); the MRESP precedes the new NOTE. -/
def doNoteAck (c : QueuedCommand) (s : State) : State :=
  match s.notice.outstanding with
  | none => answer c .nothing .none s
  | some n =>
    if byteAt c.payload 0 = n then testSend (answer c .ok (.newNotice (nextNoticeNumber s)) (acknowledge s))
    else answer c .badArg .none s

/-- NOTE_ACK (R161). -/
def execNoteAck (s : State) : Host.Outcome State Fault Refusal :=
  whenRunning (takeCommand .noteAck doNoteAck) s

/-! ## Configuration and counters -/

/-- CONFIG_READ's answer (R181). -/
def doConfigRead (c : QueuedCommand) (s : State) : State := answer c .ok (.config s.mgmt.config) s

/-- CONFIG_READ (R181). -/
def execConfigRead (s : State) : Host.Outcome State Fault Refusal :=
  whenRunning (takeCommand .configRead doConfigRead) s

/-- CONFIG_WRITE's cases; a lease held downstream lapses after the MRESP when the write makes Downstream
management allowed no (R182). -/
def doConfigWrite (c : QueuedCommand) (s : State) : State :=
  match configWriteOf c.payload with
  | none => answer c .badArg .none s
  | some g =>
    let s1 := answer c .ok (.config g) { s with mgmt := { s.mgmt with config := g } }
    if g.downstreamManagement then s1 else lapseThrough .down s1

/-- CONFIG_WRITE (R182). -/
def execConfigWrite (s : State) : Host.Outcome State Fault Refusal :=
  whenRunning (takeCommand .configWrite doConfigWrite) s

/-- Every counter as it stands (R183). -/
def countersView (s : State) : CountersView :=
  { requesters := s.requesters.toList.map fun e => (e.accepted, e.refused)
    unmatched := s.responses.unmatched
    excessCredits := s.responses.excessCredits
    postedDiscards := s.mgmt.postedDiscards
    earlyRenewals := s.mgmt.earlyRenewals }

/-- Every counter becomes 0 (R183). -/
def clearCounters (s : State) : State :=
  let s1 := zeroResponseCounters (zeroRequesterCounters s)
  { s1 with mgmt := { s1.mgmt with postedDiscards := 0#32, earlyRenewals := 0#32 } }

/-- COUNTERS_READ: the values, then the clear when its flag is yes (R183). -/
def doCountersRead (c : QueuedCommand) (s : State) : State :=
  let s1 := answer c .ok (.counters (countersView s)) s
  if yesNo (byteAt c.payload 0) then clearCounters s1 else s1

/-- COUNTERS_READ (R183). -/
def execCountersRead (s : State) : Host.Outcome State Fault Refusal :=
  whenRunning (takeCommand .countersRead doCountersRead) s

/-! ## Warm reset by command -/

/-- PART_RESET: the MRESP, then the warm reset (R184). -/
def doPartReset (c : QueuedCommand) (s : State) : State := warmReset c.sender (answer c .ok .none s)

/-- PART_RESET (R184). -/
def execPartReset (s : State) : Host.Outcome State Fault Refusal :=
  whenRunning (takeCommand .partReset doPartReset) s

/-! ## Arrival downstream, and the repeated notice -/

/-- An MCMD received on the downstream port while it is UP joins the management queue or is answered QFULL
(R167); one that arrives at a port that is not UP is discarded (R188). -/
def arriveDownstream (m : Mcmd) (s : State) : State :=
  if s.down.link = .up then reachManagement .down m s else s

/-- DOWNSTREAM_MCMD_ARRIVAL (R167). -/
def execDownstreamMcmdArrival (m : Mcmd) (s : State) : Host.Outcome State Fault Refusal :=
  whenRunning (arriveDownstream m) s

/-- The outstanding NOTE is repeated with Pending merged into Reported (R160). -/
def resendNotice (h : Party) (n : Byte) (s : State) : State :=
  let all := s.notice.reported ||| s.notice.pending
  let s1 := produce h.port (notePacket h n all s) s
  { s1 with notice :=
      { s1.notice with
        pending := 0#6
        reported := all
        resendTimer := some (s.mgmt.config.resendPeriod * Config.usPerMs) } }

end Sys2Proof.Machine
end

