-- ==== Sys2Proof/Machine/Clock.lean ====
section
/-! DEFINITION. The events that time brings: the expiries of the part's timers (R101, R160, R177, R187) and the steps
of a fill (R124, R125), each at its own µs, and the commands that name them. -/

namespace Sys2Proof.Machine

/-! ## The events -/

/-- The events that come when their time has passed. -/
inductive TimedEvent where
  | fillStep
  | fillCompletion
  | deadline (i : SlotNum)
  | reclaim (i : SlotNum)
  | resend
  | lease
  | training (p : PortId)
  | holdOff (p : PortId)
  deriving DecidableEq, Repr

/-- The µs left until a slot's deadline expires, while it runs (R101). -/
def deadlineLeft (i : SlotNum) (s : State) : Option Nat :=
  match openAt s i, pick s.timers i with
  | some _, .deadline n => some n
  | some _, .none | some _, .reclaim _ | none, _ => none

/-- The µs left until a slot's reclaim timer expires, while it runs (R101). -/
def reclaimLeft (i : SlotNum) (s : State) : Option Nat :=
  match staleAt s i, pick s.timers i with
  | some _, .reclaim n => some n
  | some _, .none | some _, .deadline _ | none, _ => none

/-- The µs left until an event comes: 0 when it is due, none while its timer does not run. -/
def TimedEvent.left (e : TimedEvent) (s : State) : Option Nat :=
  match e with
  | .fillStep =>
    if s.commit.condition = .filling ∧ s.commit.fillProgress < 64 then
      some (if s.commit.fillStepDue then 0 else 1)
    else none
  | .fillCompletion =>
    if s.commit.condition = .filling ∧ s.commit.fillProgress = 64 then some 0 else none
  | .deadline i => deadlineLeft i s
  | .reclaim i => reclaimLeft i s
  | .resend => if s.mgmt.lease.isSome ∧ s.notice.outstanding.isSome then s.notice.resendTimer else none
  | .lease => s.mgmt.lease.map Lease.timer
  | .training p => if (s.port p).link = .training then (s.port p).trainingTimer else none
  | .holdOff p => if (s.port p).link = .down then (s.port p).holdOffTimer else none

/-- The expiry of slot `i`'s deadline, if it is OPEN (R104). -/
def happenDeadline (i : SlotNum) (s : State) : State :=
  match openAt s i with
  | none => s
  | some t => expireDeadline i t s

/-- The expiry of slot `i`'s reclaim timer, if it is STALE (R107). -/
def happenReclaim (i : SlotNum) (s : State) : State :=
  match staleAt s i with
  | none => s
  | some t => expireReclaim i t s

/-- The repeat of the outstanding notice to the holder (R160). -/
def happenResend (s : State) : State :=
  match s.mgmt.lease, s.notice.outstanding with
  | some l, some n => resendNotice l.holder n s
  | none, _ | some _, none => s

/-- What an event does. -/
def TimedEvent.happen : TimedEvent → State → State
  | .fillStep => copyNext
  | .fillCompletion => completeFill
  | .deadline i => happenDeadline i
  | .reclaim i => happenReclaim i
  | .resend => happenResend
  | .lease => endLease .leaseLapsed
  | .training p => failTraining p
  | .holdOff p => endHoldOff p

/-! ## The passing of time -/

/-- An event is taken when it is due. -/
def takeIfDue (e : TimedEvent) (s : State) : State := if e.left s = some 0 then e.happen s else s

/-- Events taken in turn, each when it is due. -/
def takeEach (es : List TimedEvent) (s : State) : State := es.foldl (fun x e => takeIfDue e x) s

/-- The events of the slots whose timers stand at `x`, in ascending slot number. -/
def slotEvents (event : SlotNum → TimedEvent) (x : SlotTimer) (s : State) : List TimedEvent :=
  s.timers.toList.zipIdx.filterMap fun y => if y.1 = x then some (event (Fin.ofNat 128 y.2)) else none

/-- The events of the fill. -/
def fillEvents : List TimedEvent := [.fillStep, .fillCompletion]

/-- The events of the notice unit, the lease and the ports. -/
def unitEvents : List TimedEvent :=
  [.resend, .lease, .training .up, .holdOff .up, .training .down, .holdOff .down]

/-- The events due at this µs are taken: the fill's, the deadlines, the reclaim timers, the others (log entry 2). -/
def takeDue (s : State) : State :=
  let s1 := takeEach fillEvents s
  let s2 := takeEach (slotEvents .deadline (.deadline 0) s1) s1
  let s3 := takeEach (slotEvents .reclaim (.reclaim 0) s2) s2
  takeEach unitEvents s3

/-- A stride of `m` µs shortened to the time that is left, but not below 1. -/
def stride (m : Nat) : Option Nat → Nat
  | none => m
  | some k => min m (max 1 k)

/-- The time left on a slot's timer. -/
def SlotTimer.left : SlotTimer → Option Nat
  | .none => Option.none
  | .deadline n | .reclaim n => some n

/-- The µs, from 1 to `n`, in which no event comes before the last. -/
def untilNext (n : Nat) (s : State) : Nat :=
  (fillEvents ++ unitEvents).foldl (fun m e => stride m (e.left s))
    (s.timers.toList.foldl (fun m x => stride m x.left) n)

/-- `n` µs pass, by at most `fuel` strides from one event's time to the next. -/
def advanceWith : Nat → Nat → State → State
  | 0, _, s => s
  | fuel + 1, n, s =>
    if n = 0 then s
    else
      let s1 := takeDue s
      let d := untilNext n s1
      advanceWith fuel (n - d) (passTime d (sendHeld s1))

/-- `n` µs pass: in each of them the events due are taken before it and the ports send what they hold (R101, R124).
Those due when the last has passed are still to be taken (log entry 3). -/
def advance (n : Nat) (s : State) : State := advanceWith n n s

/-- An event is taken at its time: the µs left until it pass first (log entry 3). One that does not run has no
effect. -/
def takeTimed (e : TimedEvent) (s : State) : State :=
  match e.left s with
  | none => s
  | some n => takeIfDue e (advance n s)

/-! ## The commands -/

/-- DEADLINE_EXPIRY (R104). -/
def execDeadlineExpiry (i : SlotNum) (s : State) : Host.Outcome State Fault Refusal :=
  whenRunning (takeTimed (.deadline i)) s

/-- RECLAIM_EXPIRY (R107). -/
def execReclaimExpiry (i : SlotNum) (s : State) : Host.Outcome State Fault Refusal :=
  whenRunning (takeTimed (.reclaim i)) s

/-- FILL_STEP (R124). -/
def execFillStep (s : State) : Host.Outcome State Fault Refusal := whenRunning (takeTimed .fillStep) s

/-- FILL_COMPLETION (R125). -/
def execFillCompletion (s : State) : Host.Outcome State Fault Refusal := whenRunning (takeTimed .fillCompletion) s

/-- RESEND_EXPIRY (R160). -/
def execResendExpiry (s : State) : Host.Outcome State Fault Refusal := whenRunning (takeTimed .resend) s

/-- LEASE_TIMER_EXPIRY (R177). -/
def execLeaseTimerExpiry (s : State) : Host.Outcome State Fault Refusal := whenRunning (takeTimed .lease) s

/-- TRAINING_TIMER_EXPIRY (R187). -/
def execTrainingTimerExpiry (p : PortId) (s : State) : Host.Outcome State Fault Refusal :=
  whenRunning (takeTimed (.training p)) s

/-- HOLD_OFF_EXPIRY (R187). -/
def execHoldOffExpiry (p : PortId) (s : State) : Host.Outcome State Fault Refusal :=
  whenRunning (takeTimed (.holdOff p)) s

end Sys2Proof.Machine
end

