-- ==== Sys2Proof/Machine/Issue.lean ====
section
/-! DEFINITION. Downstream issue: eligibility and the arbiter (R69, R70), the sending of a piece (R71, R72), and credits
returned by CRET (R68, R192). -/

namespace Sys2Proof.Machine

/-! ## The arbiter -/

/-- The pool an entry's kind spends from has a credit (R69). -/
def hasCredit (s : State) : FifoEntry → Bool
  | .tracked _ _ _ => decide (0 < s.issue.requestPool.available)
  | .posted _ _ _ _ => decide (0 < s.issue.postedPool.available)

/-- The head of a requester's FIFO is eligible (R69). -/
def headEligible (s : State) (r : ReqNum) : Bool :=
  match fifoOf s r with
  | [] => false
  | e :: _ => decide (s.down.link = .up) && hasCredit s e

/-- The order in which the arbiter considers the FIFOs: FIXED from 0 upward, ROTATE from the number after the
last-granted pointer, wrapping, with the pointer itself last (R70). -/
def arbiterOrder (s : State) : List ReqNum :=
  match s.mgmt.config.arbiterMode with
  | .fixed => List.finRange 32
  | .rotate => (List.finRange 32).map fun k => s.issue.lastGranted + 1 + k

/-- The FIFO the arbiter grants, if any head is eligible (R70). -/
def chooseFifo (s : State) : Option ReqNum := (arbiterOrder s).find? (headEligible s)

/-! ## Sending -/

/-- A credit is spent from a pool. -/
def CreditPool.spend (p : CreditPool) : CreditPool := { p with available := p.available - 1 }

/-- The granted entry leaves the FIFO of `r`, the pointer names `r`, the send path is taken, and intake is told
that FIFO space has been freed (R64, R70, R71, R72). -/
def granted (r : ReqNum) (rest : List FifoEntry) (s : State) : State :=
  let s1 := setFifo r rest s
  notifyHeadOf r { s1 with issue := { s1.issue with lastGranted := r, sendPathBusy := true } }

/-- The downstream request of a non-posted piece (R71, step 2). -/
def pieceRequest (tag : DTag) (t : Tracked) (p : Piece) (data : Option (List Byte)) : OutPacket :=
  match t.kind with
  | .read => .rdreq tag p.address p.length
  | .write => .wrreq tag p.address p.length (data.getD [])

/-- The grant of a non-posted piece of the OPEN slot `i` (R71). -/
def sendTracked (r : ReqNum) (i : SlotNum) (t : Tracked) (p : Piece) (data : Option (List Byte))
    (rest : List FifoEntry) (s : State) : State :=
  let s1 := { s with issue := { s.issue with requestPool := s.issue.requestPool.spend } }
  let s2 := produce .down (pieceRequest ⟨i, p.index, (pick s.ort i).incarnation⟩ t p data) s1
  granted r rest (setOcc i (.opened (t.setPiece p.index .issued)) s2)

/-- The grant of a posted entry (R72). -/
def sendPosted (r : ReqNum) (address : Addr) (length : Nat) (data : List Byte) (rest : List FifoEntry)
    (s : State) : State :=
  let s1 := { s with issue := { s.issue with postedPool := s.issue.postedPool.spend } }
  granted r rest (produce .down (.pwreq address length data) s1)

/-- The grant to the FIFO of `r`. A non-posted head names a QUEUED piece of an OPEN slot in every state the part
reaches (R65); a head that does not is not sent (log entry 16). -/
def grantTo (r : ReqNum) (s : State) : State :=
  match fifoOf s r with
  | [] => s
  | .posted _ address length data :: rest => sendPosted r address length data rest s
  | .tracked i x data :: rest =>
    match openAt s i with
    | none => s
    | some t =>
      match t.piece x with
      | none => s
      | some p => sendTracked r i t p data rest s

/-- A grant is made when a head is eligible and the port has taken the piece of the previous grant (R70, log entry
9). -/
def grantNext (s : State) : State :=
  match chooseFifo s with
  | none => s
  | some r => grantTo r (takePiece s)

/-- GRANT (R70). -/
def execGrant (s : State) : Host.Outcome State Fault Refusal :=
  whenRunning grantNext s

/-! ## Credits returned by CRET, and packets the downstream port discards -/

/-- A CRET of Class REQUEST or POSTED received while the port is UP returns its count to its pool, as one
return; a count outside 1–255 is discarded (R68, R192). -/
def takeCret (cls : PoolClass) (count : BitVec 16) (s : State) : State :=
  if s.down.link = .up ∧ 1 ≤ count.toNat ∧ count.toNat ≤ 255 then
    match cls with
    | .request => returnRequest count.toNat none none s
    | .posted => returnPosted count.toNat s
  else s

/-- DOWNSTREAM_CRET (R192). -/
def execDownstreamCret (cls : PoolClass) (count : BitVec 16) (s : State) : Host.Outcome State Fault Refusal :=
  whenRunning (takeCret cls count) s

/-- DOWNSTREAM_STRAY_PACKET: discarded without a record (R192, R188). -/
def execDownstreamStrayPacket (_kind : StrayDown) (s : State) : Host.Outcome State Fault Refusal :=
  whenRunning (fun x => x) s

end Sys2Proof.Machine
end

