-- ==== Sys2Proof/Machine/Response.lean ====
section
/-! DEFINITION. The response handler: the match (R81, R82), answers to OPEN slots (R83 to R87), answers to STALE slots
(R91), unmatched answers (R92, R93) and the credit each answer returns (R94, R95). -/

namespace Sys2Proof.Machine

/-! ## The match -/

/-- The shape test (R82). -/
def shapeFits (t : Tracked) (p : Piece) : ResponseBody → Bool
  | .rdrsp length data => t.kind == .read && length.toNat == p.length && data.length == p.length
  | .wrrsp => t.kind == .write
  | .errsp _ => true

/-- The named piece of a record, when it is ISSUED and the response fits it (R81). -/
def awaited (t : Tracked) (r : Response) : Option Piece :=
  (t.piece r.tag.piece).filter fun p => p.state == .issued && shapeFits t p r.body

/-- The outcomes of the match test (R81). -/
inductive MatchOutcome where
  | toOpen (t : Tracked) (p : Piece)
  | toStale (t : Tracked) (p : Piece)
  | unmatched
  deriving DecidableEq, Repr

/-- The match test on the named slot as it stands at the arrival (R81). -/
def matchResponse (s : State) (r : Response) : MatchOutcome :=
  let x := pick s.ort r.tag.slot
  if x.incarnation = r.tag.incarnation then
    match x.occ with
    | .free => .unmatched
    | .opened t =>
      match awaited t r with
      | some p => .toOpen t p
      | none => .unmatched
    | .stale t =>
      match awaited t r with
      | some p => .toStale t p
      | none => .unmatched
  else .unmatched

/-! ## Answers to OPEN slots -/

/-- The slot closes when its record is resolved, and else stays OPEN with it (R54). -/
def settleOpen (i : SlotNum) (t : Tracked) (s : State) : State :=
  if t.resolved then closeSlot i t s else setOcc i (.opened t) s

/-- The RDRSP forwarded upstream for a piece, with Final set when it closes the slot without a Failure (R83). -/
def forwardedRead (t : Tracked) (p : Piece) (data : List Byte) : OutPacket :=
  .rdrsp t.requester t.tag p.offset p.length data (t.resolved && t.failure.isNone)

/-- The DOWNSTREAM_ERROR record (R86). -/
def downstreamErrorReport (t : Tracked) (p : Piece) (poolCode : Byte) : FaultReport :=
  { kind := .downstreamError, port := .down, requester := some t.requester, tag := some t.tag
    address := some (t.pieceAddress p), window := some p.window, generation := some t.generation
    code := some (.downstream poolCode) }

/-- The Downstream error handling of a piece's window is LOG, in the bank of the slot's Generation; a generation
that names no bank is not looked up (R5, R86). -/
def logsError (s : State) (t : Tracked) (p : Piece) : Bool :=
  match bankOfGeneration s t.generation with
  | none => false
  | some b => (pick (bankOf s b) p.window).errorHandling == .log

/-- A response matched to piece `p` of the OPEN slot `i` (R83, R84, R85, R87 steps 1 to 4). -/
def answerOpen (i : SlotNum) (t : Tracked) (p : Piece) (body : ResponseBody) (s : State) : State :=
  match body with
  | .rdrsp _ data =>
    let t' := t.setPiece p.index .done
    settleOpen i t' (produce .up (forwardedRead t' p data) s)
  | .wrrsp => settleOpen i (t.setPiece p.index .done) s
  | .errsp c =>
    let t' := (t.setPiece p.index (.failed (.downstream c))).fail (.downstream c)
    settleOpen i t' (if logsError s t p then appendFault (downstreamErrorReport t p c) s else s)

/-! ## Answers to STALE slots -/

/-- The State a response gives its piece (Table 3-3). -/
def answeredState : ResponseBody → PieceState
  | .rdrsp _ _ | .wrrsp => .done
  | .errsp c => .failed (.downstream c)

/-- A response matched to piece `p` of the STALE slot `i` (R91). -/
def answerStale (i : SlotNum) (t : Tracked) (p : Piece) (body : ResponseBody) (s : State) : State :=
  let t' := t.setPiece p.index (answeredState body)
  if t'.hasIssued then setOcc i (.stale t') s else freeSlot i s

/-! ## Unmatched answers -/

/-- The named slot's record, when the slot is OPEN or STALE with the tag's Incarnation (R93). -/
def namedRecord (s : State) (tag : DTag) : Option Tracked :=
  if (pick s.ort tag.slot).incarnation = tag.incarnation then (pick s.ort tag.slot).occ.record else none

/-- The Code of an UNMATCHED_RESPONSE record (R93). -/
def unmatchedCode : ResponseBody → Option ErrCode
  | .errsp c => some (.downstream c)
  | .rdrsp _ _ | .wrrsp => none

/-- The UNMATCHED_RESPONSE record (R93). -/
def unmatchedReport (s : State) (r : Response) : FaultReport :=
  let t := namedRecord s r.tag
  let p := t.bind fun t => t.piece r.tag.piece
  { kind := .unmatchedResponse, port := .down
    requester := t.map Tracked.requester
    tag := t.map Tracked.tag
    address := t.bind fun t => p.map t.pieceAddress
    window := p.map Piece.window
    generation := t.map Tracked.generation
    code := unmatchedCode r.body }

/-- An UNMATCHED response is counted and recorded (R92, steps 1 and 2). -/
def discardResponse (r : Response) (s : State) : State :=
  appendFault (unmatchedReport s r)
    { s with responses := { s.responses with unmatched := s.responses.unmatched + 1 } }

/-! ## The arrival -/

/-- A response received while the downstream port is UP is handled in full and returns one request credit (R80, R87,
R91, R92, R94), and a drain whose last hold it releases ends (R118); one that arrives at a port that is not UP is
discarded (R188). -/
def takeResponse (r : Response) (s : State) : State :=
  if s.down.link = .up then
    match matchResponse s r with
    | .toOpen t p =>
      takeDrainEnd
        (returnRequest 1 (some p.window) (some t.generation) (answerOpen r.tag.slot t p r.body s))
    | .toStale t p =>
      returnRequest 1 (some p.window) (some t.generation) (answerStale r.tag.slot t p r.body s)
    | .unmatched => returnRequest 1 none none (discardResponse r s)
  else s

/-- RESPONSE_ARRIVAL (R81). -/
def execResponseArrival (r : Response) (s : State) : Host.Outcome State Fault Refusal :=
  whenRunning (takeResponse r) s

end Sys2Proof.Machine
end

