-- ==== Sys2Proof/Machine/Dispatch.lean ====
section
/-! DEFINITION. One arm for each command, each a direct call of its meaning. -/

namespace Sys2Proof.Machine

def exec (i : Instr) (s : State) : Host.Outcome State Fault Refusal :=
  match i with
  | .upstreamPacketArrival p => Sys2Proof.Machine.execUpstreamPacketArrival p s
  | .upstreamStrayPacket kind r => Sys2Proof.Machine.execUpstreamStrayPacket kind r s
  | .upstreamCretDiscard cls count => Sys2Proof.Machine.execUpstreamCretDiscard cls count s
  | .headExamination => Sys2Proof.Machine.execHeadExamination s
  | .mcmdAtHead => Sys2Proof.Machine.execMcmdAtHead s
  | .grant => Sys2Proof.Machine.execGrant s
  | .responseArrival r => Sys2Proof.Machine.execResponseArrival r s
  | .downstreamCret cls count => Sys2Proof.Machine.execDownstreamCret cls count s
  | .downstreamStrayPacket kind => Sys2Proof.Machine.execDownstreamStrayPacket kind s
  | .downstreamMcmdArrival m => Sys2Proof.Machine.execDownstreamMcmdArrival m s
  | .deadlineExpiry slot => Sys2Proof.Machine.execDeadlineExpiry slot s
  | .reclaimExpiry slot => Sys2Proof.Machine.execReclaimExpiry slot s
  | .drainEnd => Sys2Proof.Machine.execDrainEnd s
  | .fillStep => Sys2Proof.Machine.execFillStep s
  | .fillCompletion => Sys2Proof.Machine.execFillCompletion s
  | .resendExpiry => Sys2Proof.Machine.execResendExpiry s
  | .leaseTimerExpiry => Sys2Proof.Machine.execLeaseTimerExpiry s
  | .identify => Sys2Proof.Machine.execIdentify s
  | .status => Sys2Proof.Machine.execStatus s
  | .claim => Sys2Proof.Machine.execClaim s
  | .renew => Sys2Proof.Machine.execRenew s
  | .release => Sys2Proof.Machine.execRelease s
  | .rqRead => Sys2Proof.Machine.execRqRead s
  | .ortRead => Sys2Proof.Machine.execOrtRead s
  | .flogRead => Sys2Proof.Machine.execFlogRead s
  | .flogPop => Sys2Proof.Machine.execFlogPop s
  | .wtRead => Sys2Proof.Machine.execWtRead s
  | .wtWrite => Sys2Proof.Machine.execWtWrite s
  | .wtClear => Sys2Proof.Machine.execWtClear s
  | .commit => Sys2Proof.Machine.execCommit s
  | .commitCancel => Sys2Proof.Machine.execCommitCancel s
  | .rqWrite => Sys2Proof.Machine.execRqWrite s
  | .reinstate => Sys2Proof.Machine.execReinstate s
  | .noteAck => Sys2Proof.Machine.execNoteAck s
  | .configRead => Sys2Proof.Machine.execConfigRead s
  | .configWrite => Sys2Proof.Machine.execConfigWrite s
  | .countersRead => Sys2Proof.Machine.execCountersRead s
  | .partReset => Sys2Proof.Machine.execPartReset s
  | .peerDetect port => Sys2Proof.Machine.execPeerDetect port s
  | .initReceived port counts => Sys2Proof.Machine.execInitReceived port counts s
  | .initWhileUp port => Sys2Proof.Machine.execInitWhileUp port s
  | .trainingTimerExpiry port => Sys2Proof.Machine.execTrainingTimerExpiry port s
  | .holdOffExpiry port => Sys2Proof.Machine.execHoldOffExpiry port s
  | .lossOfSignal port => Sys2Proof.Machine.execLossOfSignal port s
  | .errorBurst port => Sys2Proof.Machine.execErrorBurst port s
  | .resetNAssert => Sys2Proof.Machine.execResetNAssert s
  | .resetNRelease straps => Sys2Proof.Machine.execResetNRelease straps s
  | .powerUp straps high => Sys2Proof.Machine.execPowerUp straps high s
  | .unknownCommand => Sys2Proof.Machine.execUnknownCommand s

end Sys2Proof.Machine
end

