-- ==== Sys2Proof/Machine/Time.lean ====
section
/-! DEFINITION. What the part does when no command waits: a packet leaves a port, an event of the part's own that
is due is taken, or one µs of the timebase passes (log entries 2 and 8). -/

namespace Sys2Proof.Machine

/-! ## A packet leaves a port -/

/-- A piece on the downstream send path. -/
def OutPacket.isPiece : OutPacket → Bool
  | .rdreq _ _ _ | .wrreq _ _ _ _ | .pwreq _ _ _ => true
  | .rdrsp _ _ _ _ _ _ | .wrrsp _ _ | .errsp _ _ _ | .mresp _ _ _ _ | .note _ _ _ _ _ | .cret _
  | .init _ _ _ => false

/-- A port sends its oldest packet (R89). -/
def Port.sendOldest (x : Port) : Port :=
  match x.tx with
  | [] => x
  | k :: rest => { x with tx := rest, sent := x.sent ++ [k] }

/-- The downstream port's oldest packet is a piece: sending it frees the send path (R70). -/
def oldestIsPiece (x : Port) : Bool :=
  match x.tx with
  | [] => false
  | k :: _ => k.isPiece

/-- Each port sends its oldest packet. -/
def transmit (s : State) : State :=
  { s with
    up := s.up.sendOldest
    down := s.down.sendOldest
    issue := { s.issue with sendPathBusy := s.issue.sendPathBusy && !oldestIsPiece s.down } }

/-- A port holds a packet to send. -/
def canTransmit (s : State) : Bool := !s.up.tx.isEmpty || !s.down.tx.isEmpty

/-! ## The part's own events that are due -/

/-- The command that takes a management command of the queue's head. -/
def Command.taking : Command → Instr
  | .identify => .identify
  | .status => .status
  | .claim => .claim
  | .rqRead => .rqRead
  | .ortRead => .ortRead
  | .flogRead => .flogRead
  | .wtRead => .wtRead
  | .renew => .renew
  | .release => .release
  | .configRead => .configRead
  | .configWrite => .configWrite
  | .countersRead => .countersRead
  | .partReset => .partReset
  | .wtWrite => .wtWrite
  | .wtClear => .wtClear
  | .commit => .commit
  | .commitCancel => .commitCancel
  | .rqWrite => .rqWrite
  | .reinstate => .reinstate
  | .flogPop => .flogPop
  | .noteAck => .noteAck

/-- The taking of the management queue's head (R168). -/
def dueCommand (s : State) : Option Instr :=
  s.mgmt.queue.head?.map fun c => ((Command.ofCode c.command).map Command.taking).getD .unknownCommand

/-- The work at the intake queue's head (R25, R39). -/
def dueAtHead (s : State) : Option Instr :=
  match s.intake.queue with
  | [] => none
  | .mcmd _ :: _ => some .mcmdAtHead
  | .request _ :: _ => if s.intake.examDue then some .headExamination else none

/-- The command that names a timed event. -/
def TimedEvent.command : TimedEvent → Instr
  | .fillStep => .fillStep
  | .fillCompletion => .fillCompletion
  | .deadline i => .deadlineExpiry i
  | .reclaim i => .reclaimExpiry i
  | .resend => .resendExpiry
  | .lease => .leaseTimerExpiry
  | .training p => .trainingTimerExpiry p
  | .holdOff p => .holdOffExpiry p

/-- The first timed event that is due (R101, R124, R125, R160, R177, R187). -/
def dueTimed (s : State) : Option Instr :=
  let es := fillEvents ++ slotEvents .deadline (.deadline 0) s ++ slotEvents .reclaim (.reclaim 0) s ++ unitEvents
  (es.find? fun e => e.left s == some 0).map TimedEvent.command

/-- A peer's signal that is present and not yet detected (R187). -/
def duePeer (p : PortId) (s : State) : Option Instr :=
  let x := s.port p
  if x.link = .down ∧ x.holdOffTimer = none ∧ x.signal = true then some (.peerDetect p) else none

/-- A drain that has ended (R118). -/
def dueDrain (s : State) : Option Instr := if drainDue s then some .drainEnd else none

/-- The arbiter's grant (R70). -/
def dueGrant (s : State) : Option Instr :=
  if !s.issue.sendPathBusy && (chooseFifo s).isSome then some .grant else none

/-- The first event of the part's own that is due, in the model's order (log entry 2). -/
def nextDue (s : State) : Option Instr :=
  dueDrain s <|> dueTimed s <|> duePeer .up s <|> duePeer .down s <|> dueCommand s <|> dueAtHead s <|> dueGrant s

/-! ## One µs -/

/-- One µs of the timebase. -/
def tick (s : State) : State := passTime 1 s

/-! ## No command waits -/

/-- The step on an empty queue (log entry 2): nothing while RESET_N is low (R195), else a packet leaves, else the
first due event is taken, else one µs passes. -/
def idle (s : State) : Host.Outcome State Fault Refusal :=
  if s.resetHeld then .next s
  else if canTransmit s then .next (transmit s)
  else
    match nextDue s with
    | some c => exec c s
    | none => .next (tick s)

end Sys2Proof.Machine
end

