-- ==== Sys2Proof/WellFormed.lean ====
section
/-! DEFINITION. Which commands the manual's packet formats admit: each packet under the row that its kind,
class and counts belong to. The meanings are total and answer an ill-formed command by the rule that
owns such a packet. -/

namespace Sys2Proof

/-- Kind codes that Table 11-3 leaves unassigned: 0h, 7h, Bh, Eh and Fh. -/
def unassignedKind (code : BitVec 4) : Bool :=
  code == 0x0 || code == 0x7 || code == 0xB || code == 0xE || code == 0xF

/-- A count that a CRET of Class REQUEST or POSTED returns, 1 to 255 (R192). -/
def takenCount (count : BitVec 16) : Bool :=
  1 ≤ count.toNat && count.toNat ≤ 255

/-- The payload of an MCMD holds at most 1024 bytes (Table 11-3). -/
def Mcmd.wf (m : Mcmd) : Bool := m.payload.length ≤ 1024

/-- A packet that may join the intake queue in its header's own ranges; a request's Length and data are
judged at the head of the queue, by check 1 (R27). -/
def IntakePacket.wf : IntakePacket → Bool
  | .request _ => true
  | .mcmd m => m.wf

/-- A stray upstream packet under its own kind (R24, R192). -/
def StrayUp.wf : StrayUp → Bool
  | .unassigned code => unassignedKind code
  | .rdrsp | .wrrsp | .errsp | .mresp | .note => true

/-- A downstream packet that R192 discards: a CRET is stray by its count or by its class. -/
def StrayDown.wf : StrayDown → Bool
  | .cret .request count | .cret .posted count => !takenCount count
  | .cret .none _ | .cret .intake _ => true
  | .unassigned code => unassignedKind code
  | .rdreq | .wrreq | .pwreq | .mresp | .note => true

/-- A pool response's Length is 1 to 256 (R80). -/
def ResponseBody.wf : ResponseBody → Bool
  | .rdrsp length _ => 1 ≤ length.toNat && length.toNat ≤ 256
  | .wrrsp | .errsp _ => true

/-- A command that the manual's formats admit. -/
def Instr.wf : Instr → Bool
  | .upstreamPacketArrival p => p.wf
  | .upstreamStrayPacket kind _ => kind.wf
  | .responseArrival r => r.body.wf
  | .downstreamCret _ count => takenCount count
  | .downstreamStrayPacket kind => kind.wf
  | .downstreamMcmdArrival m => m.wf
  | .upstreamCretDiscard _ _ | .headExamination | .mcmdAtHead | .grant
  | .deadlineExpiry _ | .reclaimExpiry _ | .drainEnd | .fillStep | .fillCompletion
  | .resendExpiry | .leaseTimerExpiry
  | .identify | .status | .claim | .renew | .release | .rqRead | .ortRead | .flogRead | .flogPop
  | .wtRead | .wtWrite | .wtClear | .commit | .commitCancel | .rqWrite | .reinstate | .noteAck
  | .configRead | .configWrite | .countersRead | .partReset
  | .peerDetect _ | .initReceived _ _ | .initWhileUp _ | .trainingTimerExpiry _
  | .holdOffExpiry _ | .lossOfSignal _ | .errorBurst _
  | .resetNAssert | .resetNRelease _ | .powerUp _ _ | .unknownCommand => true

end Sys2Proof
end

