-- ==== Sys2Proof/Machine/Packets.lean ====
section
/-! DEFINITION. The packets on the wire (R193, Tables 11-3 and 11-4): the frame of every packet the part sends, and the
command that a received frame stands for at its port (R22, R24, R188, R192), with the frames that the
peers form beside their readers. -/

namespace Sys2Proof.Machine

/-! ## Frames -/

/-- A packet as the layer below carries it: the 16-byte header, and the bytes that follow it (R193). -/
structure Frame where
  header : Vector Byte 16
  payload : List Byte
  deriving DecidableEq, Repr

/-- A header byte. -/
def Frame.byte (f : Frame) (i : Fin 16) : Byte := pick f.header i

/-- Two header bytes, most significant first. -/
def Frame.word (f : Frame) (i j : Fin 16) : BitVec 16 := f.byte i ++ f.byte j

/-- Byte 0, bits 7–4. -/
def Frame.kind (f : Frame) : BitVec 4 := (f.byte 0).extractLsb' 4 4

/-- Byte 1, bits 4–0; the other bits are ignored. -/
def Frame.requester (f : Frame) : ReqNum := Fin.ofNat 32 (f.byte 1).toNat

/-- Bytes 6–11. -/
def Frame.address (f : Frame) : Addr :=
  f.byte 6 ++ f.byte 7 ++ f.byte 8 ++ f.byte 9 ++ f.byte 10 ++ f.byte 11

/-- Bytes 12–13: Length, payload length or count. -/
def Frame.length (f : Frame) : BitVec 16 := f.word 12 13

/-! ## Kind codes, and the codes of byte 4 -/

/-- The kinds of packet (Table 11-3). -/
inductive PacketKind where
  | rdreq
  | wrreq
  | pwreq
  | rdrsp
  | wrrsp
  | errsp
  | mcmd
  | mresp
  | note
  | cret
  | init
  deriving DecidableEq, Repr

/-- A kind's code (Table 11-3). -/
def PacketKind.code : PacketKind → BitVec 4
  | .rdreq => 0x1#4
  | .wrreq => 0x2#4
  | .pwreq => 0x3#4
  | .rdrsp => 0x4#4
  | .wrrsp => 0x5#4
  | .errsp => 0x6#4
  | .mcmd => 0x8#4
  | .mresp => 0x9#4
  | .note => 0xA#4
  | .cret => 0xC#4
  | .init => 0xD#4

/-- The kinds in the order of Table 11-3. -/
def PacketKind.all : List PacketKind :=
  [.rdreq, .wrreq, .pwreq, .rdrsp, .wrrsp, .errsp, .mcmd, .mresp, .note, .cret, .init]

/-- The kind that a code names, if any. -/
def PacketKind.ofCode (b : BitVec 4) : Option PacketKind := PacketKind.all.find? fun k => k.code == b

/-- An error code as byte 4 (Table 11-4). -/
def ErrCode.byte : ErrCode → Byte
  | .malformed => 0x01#8
  | .dupTag => 0x02#8
  | .disabled => 0x03#8
  | .quarantined => 0x04#8
  | .linkDown => 0x05#8
  | .overLimit => 0x06#8
  | .noWindow => 0x07#8
  | .noRight => 0x08#8
  | .timeout => 0x09#8
  | .downstream _ => 0x0A#8
  | .aborted => 0x0B#8

/-- The pool code of byte 5: that of DOWNSTREAM, and 0 for every other code (Table 11-3). -/
def ErrCode.poolByte : ErrCode → Byte
  | .downstream c => c
  | .malformed | .dupTag | .disabled | .quarantined | .linkDown | .overLimit | .noWindow | .noRight
  | .timeout | .aborted => 0x00#8

/-- A status as byte 4 (Table 11-4). -/
def Status.byte : Status → Byte
  | .ok => 0x00#8
  | .busy => 0x01#8
  | .noLease => 0x02#8
  | .notPermitted => 0x03#8
  | .badArg => 0x04#8
  | .tooEarly => 0x05#8
  | .qfull => 0x06#8
  | .nothing => 0x07#8

/-- A class as byte 4 (Table 11-4). -/
def creditClassByte : CreditClass → Byte
  | .none => 0x00#8
  | .intake => 0x01#8
  | .request => 0x02#8
  | .posted => 0x03#8

/-- The class of a received byte 4; a byte above 3 is no class, and is taken as NONE (log entry 22). -/
def creditClassOf (b : Byte) : CreditClass :=
  if b = 0x01#8 then .intake else if b = 0x02#8 then .request else if b = 0x03#8 then .posted else .none

/-! ## Bytes 2 and 3 -/

/-- A downstream tag: bits 15–9 slot, bit 8 piece index, bits 7–6 Incarnation, the rest zero (Table 11-4). -/
def dtagBits (t : DTag) : BitVec 16 :=
  BitVec.ofNat 7 t.slot.val ++ BitVec.ofNat 1 t.piece.val ++ BitVec.ofNat 2 t.incarnation.val ++ 0#6

/-- The downstream tag in 16 bits (Table 11-4). -/
def dtagOf (b : BitVec 16) : DTag where
  slot := (b.extractLsb' 9 7).toFin
  piece := (b.extractLsb' 8 1).toFin
  incarnation := (b.extractLsb' 6 2).toFin

/-! ## Building a header -/

/-- The fields of a header; a field that a kind does not use is 0 (R193). -/
structure HeaderFields where
  kind : PacketKind
  final : Bool := false
  requester : ReqNum := 0
  tagBits : BitVec 16 := 0#16
  byte4 : Byte := 0#8
  byte5 : Byte := 0#8
  address : Addr := 0#48
  length : BitVec 16 := 0#16
  posted : BitVec 16 := 0#16
  deriving DecidableEq, Repr

/-- The sixteen bytes (Table 11-3). -/
def HeaderFields.bytes (h : HeaderFields) : Vector Byte 16 :=
  #v[h.kind.code ++ (if h.final then 0x1#4 else 0x0#4), BitVec.ofNat 8 h.requester.val,
    h.tagBits.extractLsb' 8 8, h.tagBits.extractLsb' 0 8, h.byte4, h.byte5,
    h.address.extractLsb' 40 8, h.address.extractLsb' 32 8, h.address.extractLsb' 24 8,
    h.address.extractLsb' 16 8, h.address.extractLsb' 8 8, h.address.extractLsb' 0 8,
    h.length.extractLsb' 8 8, h.length.extractLsb' 0 8, h.posted.extractLsb' 8 8, h.posted.extractLsb' 0 8]

/-- A frame of header fields and payload. -/
def HeaderFields.frame (h : HeaderFields) (payload : List Byte) : Frame := ⟨h.bytes, payload⟩

/-- A tag in byte 2 with byte 3. -/
def tagWord (t : Tag) (low : Byte) : BitVec 16 := t ++ low

/-- A length in 16 bits. -/
def len16 (n : Nat) : BitVec 16 := BitVec.ofNat 16 n

/-! ## Frames the part sends -/

/-- The frame of a packet the part sends (Tables 11-3 and 11-4). The payload of an MRESP is the free value of log
entry 14. -/
def frameOf : OutPacket → Frame
  | .rdrsp r t offset length data final =>
    HeaderFields.frame
      { kind := .rdrsp, final := final, requester := r, tagBits := tagWord t (BitVec.ofNat 8 offset)
        length := len16 length }
      data
  | .wrrsp r t =>
    HeaderFields.frame { kind := .wrrsp, final := true, requester := r, tagBits := tagWord t 0#8 } []
  | .errsp r t c =>
    HeaderFields.frame
      { kind := .errsp, final := true, requester := r, tagBits := tagWord t 0#8, byte4 := c.byte
        byte5 := c.poolByte }
      []
  | .mresp r q st res =>
    HeaderFields.frame
      { kind := .mresp, requester := r, tagBits := q, byte4 := st.byte
        length := len16 (Config.resultPayload res).length }
      (Config.resultPayload res)
  | .note r n classes logCount generation =>
    HeaderFields.frame
      { kind := .note, requester := r, byte4 := n
        address := classes.setWidth 8 ++ generation ++ BitVec.ofNat 8 logCount ++ 0#24 }
      []
  | .cret count => HeaderFields.frame { kind := .cret, byte4 := creditClassByte .intake, length := len16 count } []
  | .init cls count posted =>
    HeaderFields.frame { kind := .init, byte4 := creditClassByte cls, length := len16 count, posted := len16 posted } []
  | .rdreq tag address length =>
    HeaderFields.frame { kind := .rdreq, tagBits := dtagBits tag, address := address, length := len16 length } []
  | .wrreq tag address length data =>
    HeaderFields.frame { kind := .wrreq, tagBits := dtagBits tag, address := address, length := len16 length } data
  | .pwreq address length data =>
    HeaderFields.frame { kind := .pwreq, address := address, length := len16 length } data

/-! ## Frames the peers send -/

/-- The frame of an upstream request. -/
def frameOfRequest (q : Request) : Frame :=
  HeaderFields.frame
    { kind := match q.kind with
        | .rdreq => .rdreq
        | .wrreq => .wrreq
        | .pwreq => .pwreq
      requester := q.requester, tagBits := tagWord q.tag 0#8, address := q.address, length := q.length }
    q.data

/-- The frame of a management command. -/
def frameOfMcmd (m : Mcmd) : Frame :=
  HeaderFields.frame
    { kind := .mcmd, requester := m.requester, tagBits := m.sequence, byte4 := m.command
      length := len16 m.payload.length }
    m.payload

/-- The frame of a pool response. -/
def frameOfResponse (r : Response) : Frame :=
  match r.body with
  | .rdrsp length data => HeaderFields.frame { kind := .rdrsp, tagBits := dtagBits r.tag, length := length } data
  | .wrrsp => HeaderFields.frame { kind := .wrrsp, tagBits := dtagBits r.tag } []
  | .errsp c => HeaderFields.frame { kind := .errsp, tagBits := dtagBits r.tag, byte5 := c } []

/-- The frame of a CRET. -/
def frameOfCret (cls : CreditClass) (count : BitVec 16) : Frame :=
  HeaderFields.frame { kind := .cret, byte4 := creditClassByte cls, length := count } []

/-- The frame of an INIT. -/
def frameOfInit (cls : CreditClass) (c : InitCounts) : Frame :=
  HeaderFields.frame { kind := .init, byte4 := creditClassByte cls, length := c.request, posted := c.posted } []

/-! ## Received frames -/

/-- The request in a frame of a request's kind. -/
def requestOf (k : ReqKind) (f : Frame) : Request :=
  { kind := k, requester := f.requester, tag := f.byte 2, address := f.address, length := f.length
    data := f.payload }

/-- The management command in an MCMD's frame. -/
def mcmdOf (f : Frame) : Mcmd :=
  { requester := f.requester, sequence := f.word 2 3, command := f.byte 4, payload := f.payload }

/-- The response in a frame of a response's kind. -/
def responseOf (body : ResponseBody) (f : Frame) : Response := ⟨dtagOf (f.word 2 3), body⟩

/-- The counts in an INIT's frame. -/
def initCountsOf (f : Frame) : InitCounts := ⟨f.length, f.word 14 15⟩

/-- The command of an INIT received at a port (R188, R189). -/
def initInstr (p : PortId) (link : LinkState) (f : Frame) : Instr :=
  if link = .up then .initWhileUp p else .initReceived p (initCountsOf f)

/-- The command of a CRET received downstream (R192). -/
def downstreamCretInstr (cls : CreditClass) (count : BitVec 16) : Instr :=
  if takenCount count then
    match cls with
    | .request => .downstreamCret .request count
    | .posted => .downstreamCret .posted count
    | .none | .intake => .downstreamStrayPacket (.cret cls count)
  else .downstreamStrayPacket (.cret cls count)

/-- The command of a frame received upstream (R22, R24, R189, R191). -/
def upstreamInstr (link : LinkState) (f : Frame) : Instr :=
  match PacketKind.ofCode f.kind with
  | some .rdreq => .upstreamPacketArrival (.request (requestOf .rdreq f))
  | some .wrreq => .upstreamPacketArrival (.request (requestOf .wrreq f))
  | some .pwreq => .upstreamPacketArrival (.request (requestOf .pwreq f))
  | some .mcmd => .upstreamPacketArrival (.mcmd (mcmdOf f))
  | some .cret => .upstreamCretDiscard (creditClassOf (f.byte 4)) f.length
  | some .init => initInstr .up link f
  | some .rdrsp => .upstreamStrayPacket .rdrsp f.requester
  | some .wrrsp => .upstreamStrayPacket .wrrsp f.requester
  | some .errsp => .upstreamStrayPacket .errsp f.requester
  | some .mresp => .upstreamStrayPacket .mresp f.requester
  | some .note => .upstreamStrayPacket .note f.requester
  | none => .upstreamStrayPacket (.unassigned f.kind) f.requester

/-- The command of a frame received downstream (R192). -/
def downstreamInstr (link : LinkState) (f : Frame) : Instr :=
  match PacketKind.ofCode f.kind with
  | some .rdrsp => .responseArrival (responseOf (.rdrsp f.length f.payload) f)
  | some .wrrsp => .responseArrival (responseOf .wrrsp f)
  | some .errsp => .responseArrival (responseOf (.errsp (f.byte 5)) f)
  | some .mcmd => .downstreamMcmdArrival (mcmdOf f)
  | some .cret => downstreamCretInstr (creditClassOf (f.byte 4)) f.length
  | some .init => initInstr .down link f
  | some .rdreq => .downstreamStrayPacket .rdreq
  | some .wrreq => .downstreamStrayPacket .wrreq
  | some .pwreq => .downstreamStrayPacket .pwreq
  | some .mresp => .downstreamStrayPacket .mresp
  | some .note => .downstreamStrayPacket .note
  | none => .downstreamStrayPacket (.unassigned f.kind)

/-- The command that a frame received at a port stands for; a port that is DOWN receives no packet (R188). -/
def instrOfFrame (p : PortId) (link : LinkState) (f : Frame) : Option Instr :=
  match link with
  | .down => none
  | .training | .up =>
    match p with
    | .up => some (upstreamInstr link f)
    | .down => some (downstreamInstr link f)

end Sys2Proof.Machine
end

