-- ==== Sys2Proof/Safety.lean ====
section
/-! DEFINITION. What a sound state of the part is: the laws that the manual states of it, each as a predicate that
claims use. -/

namespace Sys2Proof.Safety

open Sys2Proof.Machine

/-! ## Fault log and notice unit -/

/-- R149: at most 32 records, their Sequences one unbroken run that ends below the next Sequence. -/
abbrev LogLaw (s : State) : Prop :=
  s.flog.records.length ≤ 32 ∧
    ∀ k : Fin s.flog.records.length,
      s.flog.records[k].sequence =
        s.flog.nextSequence - BitVec.ofNat 32 (s.flog.records.length - k.val)

/-- R157 and R159: with no notice outstanding Reported is empty and the resend timer stopped; with one
outstanding the timer runs and a lease is held; and a holder with no notice outstanding has nothing
Pending. -/
abbrev NoticeLaw (s : State) : Prop :=
  (s.notice.outstanding = none →
      s.notice.reported = 0#6 ∧ s.notice.resendTimer = none
        ∧ (s.mgmt.lease.isSome = true → s.notice.pending = 0#6)) ∧
    (s.notice.outstanding.isSome = true →
      s.notice.resendTimer.isSome = true ∧ s.mgmt.lease.isSome = true)

/-! ## Window store and commit unit -/

/-- R2: every valid entry of every bank is bounded as R2 says. -/
abbrev WindowLaw (s : State) : Prop :=
  ∀ b : BankNum, ∀ i : WinIndex,
    (pick (bankOf s b) i).valid = true → (pick (bankOf s b) i).bounded = true

/-- R114 and R115: three banks in three distinct roles, exactly one of DRAINING and FREE present; Held commit
exactly when FROZEN, and then a bank drains; Fill progress 64 when no fill is in progress. -/
abbrev RolesLaw (s : State) : Prop :=
  s.commit.liveBank ≠ s.commit.stagedBank ∧
    (s.commit.drainingBank.isSome = !s.commit.freeBank.isSome) ∧
    (∀ b, s.commit.drainingBank = some b ∨ s.commit.freeBank = some b →
      b ≠ s.commit.liveBank ∧ b ≠ s.commit.stagedBank) ∧
    (s.commit.heldCommit = true ↔ s.commit.condition = .frozen) ∧
    (s.commit.condition = .frozen → s.commit.drainingBank.isSome = true) ∧
    s.commit.fillProgress ≤ 64 ∧
    (s.commit.condition ≠ .filling → s.commit.fillProgress = 64)

/-- R118: a bank drains exactly while the Draining open count is above 0. -/
abbrev DrainLaw (s : State) : Prop := s.commit.drainingBank.isSome = true ↔ 1 ≤ s.commit.drainingOpen

/-! ## Outstanding request table -/

/-- The number of OPEN slots of a generation. -/
def openOfGeneration (s : State) (g : Generation) : Nat :=
  countSlots (Slot.openWith fun t => t.generation = g) s

/-- R51, R114 and R117: an OPEN slot's Generation is the live one or, when a bank drains, the draining one; the
two open counts are the numbers of OPEN slots of those generations; with no bank draining the second
count is 0. -/
abbrev GenerationLaw (s : State) : Prop :=
  (∀ i, ∀ t ∈ openAt s i,
      t.generation = s.commit.liveGeneration ∨ s.commit.drainingGeneration = some t.generation) ∧
    s.commit.liveOpen = openOfGeneration s s.commit.liveGeneration ∧
    s.commit.drainingOpen =
      (if s.commit.drainingBank.isSome then openOfGeneration s (s.commit.liveGeneration - 1) else 0)

/-- R15: a piece of a request lies inside its window, which names the requester and grants the kind, and its
downstream bytes lie inside the window's Target range. -/
abbrev pieceInTarget (w : WindowEntry) (t : Tracked) (p : Piece) : Prop :=
  w.valid = true ∧ w.requesters.getLsbD t.requester.val = true ∧
    (match t.kind with
      | .read => w.rights.read
      | .write => w.rights.write) = true ∧
    w.base.toNat ≤ t.address.toNat + p.offset ∧ t.address.toNat + p.offset + p.length ≤ w.limit ∧
    p.address.toNat = w.target.toNat + (t.address.toNat + p.offset - w.base.toNat) ∧
    p.address.toNat + p.length ≤ w.target.toNat + (w.limit - w.base.toNat)

/-- R15, the law of the part: the pieces of an OPEN slot lie inside the Target ranges of their windows, in the bank
of the slot's Generation (R5). -/
abbrev TargetLaw (s : State) : Prop :=
  ∀ i, ∀ t ∈ openAt s i, ∀ b ∈ bankOfGeneration s t.generation, ∀ p ∈ t.pieces,
    pieceInTarget (pick (bankOf s b) p.window) t p

/-- R49: no two OPEN slots have the same Requester and Tag. -/
abbrev TagLaw (s : State) : Prop :=
  ∀ i j, ∀ t ∈ openAt s i, ∀ u ∈ openAt s j, t.requester = u.requester → t.tag = u.tag → i = j

/-- The Mode of a slot's timer fits the slot's State (R101). -/
def timerFits : Occupancy → SlotTimer → Bool
  | .free, .none => true
  | .opened _, .deadline _ => true
  | .stale _, .reclaim _ => true
  | _, _ => false

/-- R101: a FREE slot's timer is in Mode NONE, an OPEN slot's in DEADLINE, a STALE slot's in RECLAIM. -/
abbrev TimerLaw (s : State) : Prop :=
  ∀ i, timerFits (pick s.ort i).occ (pick s.timers i) = true

/-- R44 and R45: a record has piece 0 alone or pieces 0 and 1, whose Lengths sum to its Length, piece 1's Offset
the Length of piece 0. -/
def piecesFit (t : Tracked) : Bool :=
  match t.pieces with
  | [p] => p.index == 0 && p.offset == 0 && p.length == t.length
  | [p, q] =>
    p.index == 0 && q.index == 1 && p.offset == 0 && q.offset == p.length && p.length + q.length == t.length
  | _ => false

/-- R43, R45, R54 and R57: an OPEN slot has a piece that waits; a STALE slot has an ISSUED piece and no QUEUED
one, and a Failure. -/
def occupancyFits : Occupancy → Bool
  | .free => true
  | .opened t => piecesFit t && !t.resolved
  | .stale t => piecesFit t && t.hasIssued && t.pieces.all (fun p => p.state != .queued) && t.failure.isSome

/-- The slot records are as R43 to R45 and R57 say. -/
abbrev SlotLaw (s : State) : Prop := ∀ i, occupancyFits (pick s.ort i).occ = true

/-! ## Issue unit -/

/-- R67: available credits lie between 0 and the maximum, which is at most 255, and are 0 while the downstream
link is not UP. -/
abbrev PoolLaw (s : State) : Prop :=
  s.issue.requestPool.available ≤ s.issue.requestPool.maximum ∧
    s.issue.postedPool.available ≤ s.issue.postedPool.maximum ∧
    s.issue.requestPool.maximum ≤ 255 ∧ s.issue.postedPool.maximum ≤ 255 ∧
    (s.down.link ≠ .up → s.issue.requestPool.available = 0 ∧ s.issue.postedPool.available = 0)

/-- R22, R64 and R167: the bounds of the queues. -/
abbrev QueueLaw (s : State) : Prop :=
  s.intake.queue.length ≤ 32 ∧ s.mgmt.queue.length ≤ 16 ∧ ∀ r, (fifoOf s r).length ≤ 8

/-- A FIFO entry names a QUEUED piece of an OPEN slot of the FIFO's requester (R65). -/
def entryFits (s : State) (r : ReqNum) : FifoEntry → Bool
  | .posted _ _ _ _ => true
  | .tracked i x _ =>
    match openAt s i with
    | none => false
    | some t => t.requester == r && (t.piece x).any fun p => p.state == .queued

/-- Entry `e` of a FIFO names the piece that slot and index say. -/
def sameEntry : FifoEntry → FifoEntry → Bool
  | .tracked i x _, .tracked j y _ => i == j && x == y
  | _, _ => false

/-- R65: every entry of an issue FIFO names a QUEUED piece of an OPEN slot of its requester, no two the same; and
every QUEUED piece of an OPEN slot has its entry. -/
abbrev FifoLaw (s : State) : Prop :=
  (∀ r, ∀ e ∈ fifoOf s r, entryFits s r e = true) ∧
    (∀ r, (fifoOf s r).Pairwise fun e f => sameEntry e f = false) ∧
    ∀ i, ∀ t ∈ openAt s i, ∀ p ∈ t.pieces, p.state = .queued →
      (fifoOf s t.requester).any (FifoEntry.namesPiece i p.index) = true

/-- R73: a requester that is not ACTIVE has no entries in its issue FIFO. -/
abbrev QuarantineLaw (s : State) : Prop :=
  ∀ r, (entryOf s r).state ≠ .active → fifoOf s r = []

/-- R59, R76 and R79: while the downstream link is not UP every slot is FREE and every issue FIFO empty. -/
abbrev DownLaw (s : State) : Prop :=
  s.down.link ≠ .up → (∀ i, (pick s.ort i).occ = .free) ∧ ∀ r, fifoOf s r = []

/-- R70 and R76: the send path is taken exactly while the downstream port holds the piece of the last grant, and
free while that port is not UP. -/
abbrev SendPathLaw (s : State) : Prop :=
  s.down.tx.countP OutPacket.isPiece = (if s.issue.sendPathBusy then 1 else 0) ∧
    (s.down.link ≠ .up → s.issue.sendPathBusy = false)

/-! ## Links, intake's head and the lease -/

/-- R187: the training timer runs exactly in TRAINING, and the hold-off timer only in DOWN. -/
abbrev LinkLaw (x : Port) : Prop :=
  (x.trainingTimer.isSome = true ↔ x.link = .training) ∧ (x.holdOffTimer.isSome = true → x.link = .down)

/-- The requester of the request at the head, if one stands there. -/
def headRequester (s : State) : Option ReqNum :=
  match s.intake.queue with
  | .request q :: _ => some q.requester
  | .mcmd _ :: _ | [] => none

/-- R25, R33 and R34: a head request is stalled or its examination is due; a stall names the head request's
requester; EXHAUST belongs to a stall. -/
abbrev HeadLaw (s : State) : Prop :=
  (s.intake.queue ≠ [] → s.intake.examDue = true ∨ s.intake.stall ≠ .none) ∧
    (s.intake.stall ≠ .none → s.intake.stall.requester = headRequester s) ∧
    (s.intake.exhaustRaised = true → s.intake.stall ≠ .none)

/-- R40, R172, R177 and R189: packets wait at intake only while the upstream port is UP; a queued command's port is
UP; a lease is held only through a port that is UP; a port that is not UP holds nothing to send. -/
abbrev PortLaw (s : State) : Prop :=
  (s.up.link ≠ .up → s.up.tx = []) ∧ (s.down.link ≠ .up → s.down.tx = []) ∧
    (s.intake.queue ≠ [] → s.up.link = .up) ∧
    (∀ c ∈ s.mgmt.queue, (s.port c.sender.port).link = .up) ∧
    ∀ l ∈ s.mgmt.lease, (s.port l.holder.port).link = .up

/-! ## Ranges -/

/-- Table 8-1: the ranges of a requester's stored fields. -/
abbrev RequesterLaw (s : State) : Prop :=
  ∀ r, 1 ≤ (entryOf s r).openLimit ∧ (entryOf s r).openLimit ≤ 128 ∧ (entryOf s r).strikes ≤ 15 ∧
    1 ≤ (entryOf s r).strikeLimit ∧ (entryOf s r).strikeLimit ≤ 15

/-- Table 10-3: the ranges of the global configuration. -/
abbrev ConfigLaw (s : State) : Prop := s.mgmt.config.inRange = true

/-! ## All of them -/

/-- Every law of the part. -/
structure Sound (s : State) : Prop where
  log : LogLaw s
  notice : NoticeLaw s
  windows : WindowLaw s
  roles : RolesLaw s
  drain : DrainLaw s
  generations : GenerationLaw s
  targets : TargetLaw s
  tags : TagLaw s
  timers : TimerLaw s
  slots : SlotLaw s
  pools : PoolLaw s
  queues : QueueLaw s
  fifos : FifoLaw s
  quarantine : QuarantineLaw s
  downstream : DownLaw s
  sendPath : SendPathLaw s
  upLink : LinkLaw s.up
  downLink : LinkLaw s.down
  head : HeadLaw s
  ports : PortLaw s
  requesters : RequesterLaw s
  config : ConfigLaw s

end Sys2Proof.Safety
end

