-- ==== Sys2Proof/Certificates/Slice0/Obligations.lean ====
section
/-! DEFINITION. The statements about the WX3064 that the provers prove, with the terms they are stated in. Each names
the rules of spec/ it formalises; what rests on a choice of the model names its log entry. -/

/-! ## Terms of the statements -/

namespace Sys2Proof.Claims

open Sys2Proof.Machine

/-- RESET_N has been released, so that the part takes events (R195). -/
abbrev Running (s : State) : Prop := s.resetHeld = false

/-- The bit of an event class in a set of classes (Table 11-3). -/
def classBit : EventClass → Nat
  | .fault => 0
  | .logFull => 1
  | .stagedReady => 2
  | .quarantine => 3
  | .exhaust => 4
  | .link => 5

/-- A class is in the class mask. -/
abbrev masked (c : EventClass) (s : State) : Prop := s.mgmt.config.classMask.getLsbD (classBit c) = true

/-- Pending with a class added. -/
def withClass (c : EventClass) (s : State) : ClassSet := s.notice.pending ||| BitVec.twoPow 6 (classBit c)

/-- Intake after an event at which a stalled head is examined anew (R25). -/
def headNotified (k : Intake) : Intake := if k.stall = .none then k else { k with examDue := true }

/-- Intake after FIFO space of requester `r` has been freed, or its entry changed (R25). -/
def spaceFreed (r : ReqNum) (k : Intake) : Intake :=
  if k.stall.requester = some r then { k with examDue := true } else k

/-- Intake with the packets `rest` left, the first of them at the head (R22, R34). -/
def intakeLeft (rest : List IntakePacket) (k : Intake) : Intake :=
  { k with queue := rest, stall := .none, exhaustRaised := false, examDue := !rest.isEmpty }

/-- The open counts after the hold of generation `g` is released (R117). -/
def released (g : Generation) (c : CommitUnit) : CommitUnit :=
  if g = c.liveGeneration then { c with liveOpen := c.liveOpen - 1 }
  else if c.drainingBank.isSome = true ∧ g = c.liveGeneration - 1 then
    { c with drainingOpen := c.drainingOpen - 1 }
  else c

/-- The slot made FREE with its Incarnation advanced (R44, R46). -/
def slotFreed (x : Slot) : Slot := ⟨x.incarnation + 1, .free⟩

/-- An event of a port: its LINK_CHANGE record, then LINK (R190). -/
def linkEvent (p : PortId) (s : State) : State :=
  raiseClass .link (appendFault { kind := .linkChange, port := p } s)

/-- The commit unit's record after a swap with `f` as the FREE bank (R119). -/
def afterSwap (f : BankNum) (c : CommitUnit) : CommitUnit where
  liveBank := c.stagedBank
  stagedBank := f
  drainingBank := if c.liveOpen = 0 then none else some c.liveBank
  freeBank := if c.liveOpen = 0 then some c.liveBank else none
  liveGeneration := c.liveGeneration + 1
  condition := .filling
  heldCommit := false
  fillProgress := 0
  liveOpen := 0
  drainingOpen := c.liveOpen
  fillStepDue := false

/-- The drain end that an event brings when it has released the last hold of the draining generation: the bank is
FREE, and a held commit's swap executes (R118, R122). -/
def drained (s : State) : State :=
  match s.commit.drainingBank with
  | none => s
  | some d =>
    if s.commit.drainingOpen ≠ 0 then s
    else if s.commit.heldCommit then { s with commit := afterSwap d s.commit, intake := headNotified s.intake }
    else { s with commit := { s.commit with drainingBank := none, freeBank := some d } }

/-- A port in DOWN after an entry into it: the training timer stopped, the hold-off timer at 1,000 µs (R187). -/
def portFallen (x : Port) : Port := { x with link := .down, trainingTimer := none, holdOffTimer := some 1000 }

/-- A port in DOWN after it has left UP: what it had not sent is lost (R189). -/
def portLost (x : Port) : Port := { portFallen x with tx := [] }

/-- A port as it enters TRAINING with its INIT sent (R187, R188). -/
def portTraining (init : OutPacket) (x : Port) : Port :=
  { x with link := .training, trainingTimer := some 10000, holdOffTimer := none, sent := x.sent ++ [init] }

/-- A class of commands that take effect while RESET_N is low: the pins and the layer below's report (R195). -/
def pinCommand : Instr → Bool
  | .resetNAssert | .resetNRelease _ | .powerUp _ _ | .peerDetect _ | .lossOfSignal _ => true
  | _ => false

end Sys2Proof.Claims

open Sys2Proof Sys2Proof.Machine Sys2Proof.Safety Sys2Proof.Claims

/-! ## The queue of commands, and the machine's own work -/

/-- A step takes the command at the front of the queue and runs it with the queue's rest. The queue is the model's
own. -/
def Obligations.StepRunsTheFrontCommand : Prop :=
  ∀ (c : Instr) (rest : List Instr) (s : State),
    s.pending = c :: rest → step s = exec c { s with pending := rest }

/-- A port after it has sent its oldest packet (R89). -/
def Sys2Proof.Claims.portSent (x : Port) : Port := { x with tx := x.tx.drop 1, sent := x.sent ++ x.tx.take 1 }

/-- A port after one µs (R187). -/
def Sys2Proof.Claims.portLater (x : Port) : Port :=
  { x with
    trainingTimer := x.trainingTimer.map fun n => n - 1
    holdOffTimer := x.holdOffTimer.map fun n => n - 1 }

/-- The commands of the timed events, in the order in which those due at one µs are taken. -/
def Sys2Proof.Claims.timedCommands : List Instr :=
  [.fillStep, .fillCompletion] ++ (List.finRange 128).map .deadlineExpiry ++ (List.finRange 128).map .reclaimExpiry
    ++ [.resendExpiry, .leaseTimerExpiry, .trainingTimerExpiry .up, .holdOffExpiry .up, .trainingTimerExpiry .down,
      .holdOffExpiry .down]

/-- A timed event is due: its timer stands at 0, or a µs has passed since the last entry a fill copied. -/
def Sys2Proof.Claims.isDue (c : Instr) (s : State) : Bool :=
  match c with
  | .fillStep => s.commit.condition == .filling && s.commit.fillProgress < 64 && s.commit.fillStepDue
  | .fillCompletion => s.commit.condition == .filling && s.commit.fillProgress == 64
  | .deadlineExpiry i => (openAt s i).isSome && pick s.timers i == .deadline 0
  | .reclaimExpiry i => (staleAt s i).isSome && pick s.timers i == .reclaim 0
  | .resendExpiry => s.mgmt.lease.isSome && s.notice.outstanding.isSome && s.notice.resendTimer == some 0
  | .leaseTimerExpiry => s.mgmt.lease.any fun l => l.timer == 0
  | .trainingTimerExpiry p => (s.port p).link == .training && (s.port p).trainingTimer == some 0
  | .holdOffExpiry p => (s.port p).link == .down && (s.port p).holdOffTimer == some 0
  | _ => false

/-- A row of Tables 10-2 and 11-5: a command with its code, the byte count of its operands, whether it is
lease-bound, and the row of the opcode table that takes it. -/
structure Sys2Proof.Claims.CommandRow where
  command : Command
  code : Byte
  bytes : Nat
  bound : Bool
  taking : Instr

/-- The commands in the order of Table 10-2. -/
def Sys2Proof.Claims.commandRows : List CommandRow :=
  [⟨.identify, 0x01#8, 0, false, .identify⟩, ⟨.status, 0x02#8, 0, false, .status⟩,
    ⟨.claim, 0x03#8, 0, false, .claim⟩, ⟨.rqRead, 0x04#8, 1, false, .rqRead⟩,
    ⟨.ortRead, 0x05#8, 1, false, .ortRead⟩, ⟨.flogRead, 0x06#8, 0, false, .flogRead⟩,
    ⟨.wtRead, 0x07#8, 2, false, .wtRead⟩, ⟨.renew, 0x08#8, 0, true, .renew⟩,
    ⟨.release, 0x09#8, 0, true, .release⟩, ⟨.configRead, 0x0A#8, 0, true, .configRead⟩,
    ⟨.configWrite, 0x0B#8, 18, true, .configWrite⟩, ⟨.countersRead, 0x0C#8, 1, true, .countersRead⟩,
    ⟨.partReset, 0x0D#8, 0, true, .partReset⟩, ⟨.wtWrite, 0x0E#8, 30, true, .wtWrite⟩,
    ⟨.wtClear, 0x0F#8, 0, true, .wtClear⟩, ⟨.commit, 0x10#8, 0, true, .commit⟩,
    ⟨.commitCancel, 0x11#8, 0, true, .commitCancel⟩, ⟨.rqWrite, 0x12#8, 7, true, .rqWrite⟩,
    ⟨.reinstate, 0x13#8, 1, true, .reinstate⟩, ⟨.flogPop, 0x14#8, 1, true, .flogPop⟩,
    ⟨.noteAck, 0x15#8, 1, true, .noteAck⟩]

/-- The row that takes a management command of a code. -/
def Sys2Proof.Claims.takingOf (code : Byte) : Instr :=
  match commandRows.find? fun r => r.code == code with
  | some r => r.taking
  | none => .unknownCommand

/-- A drain has ended (R118). -/
abbrev Sys2Proof.Claims.drainEnded (s : State) : Prop :=
  s.commit.drainingBank.isSome = true ∧ s.commit.drainingOpen = 0

/-- A DOWN port whose hold-off timer is stopped has a peer's signal (R187). -/
abbrev Sys2Proof.Claims.peerPresent (p : PortId) (s : State) : Prop :=
  (s.port p).link = .down ∧ (s.port p).holdOffTimer = none ∧ (s.port p).signal = true

/-- What the head of the intake queue calls for: the move of an MCMD, or the examination of a request that is due
one (R25, R39). -/
def Sys2Proof.Claims.headWork (s : State) : List Instr :=
  match s.intake.queue with
  | [] => []
  | .mcmd _ :: _ => [.mcmdAtHead]
  | .request _ :: _ => if s.intake.examDue then [.headExamination] else []

/-- The events of the part's own that are due, in the order of log entry 2: a drain end, the timed events, a peer at
either port, the heads of the management and intake queues, a grant. -/
def Sys2Proof.Claims.dueWork (s : State) : List Instr :=
  (if drainEnded s then [.drainEnd] else [])
    ++ timedCommands.filter (fun c => isDue c s)
    ++ (if peerPresent .up s then [.peerDetect .up] else [])
    ++ (if peerPresent .down s then [.peerDetect .down] else [])
    ++ (s.mgmt.queue.take 1).map (fun c => takingOf c.command)
    ++ headWork s
    ++ (if s.issue.sendPathBusy = false ∧ (chooseFifo s).isSome = true then [.grant] else [])

/-- With no command waiting: nothing while RESET_N is low; else each port that holds a packet sends its oldest; else
the first due event is taken; else one µs passes, in which every running timer falls by one. The due events are a
drain end (R118), a timed event whose time has passed (R101, R124, R125, R160, R177, R187), a peer detect (R187), the
taking of the management queue's head (R168), the work at the intake queue's head (R25, R39) and a grant (R70), and
the first of them in that order is the one taken. That order is the model's choice (log entry 2), and so are the
lists of packets (log entry 8), the send path's mark (log entry 9), a timer that stands at 0 (log entry 3), the
signal's pin (log entry 7) and the marks of the fill and of intake (log entry 13). -/
def Obligations.IdlePartDoesItsOwnWork : Prop :=
  (∀ s : State, nextDue s = (dueWork s).head?) ∧
  ∀ s : State, s.pending = [] →
    (s.resetHeld = true → step s = .next s) ∧
    (Running s → s.up.tx ≠ [] ∨ s.down.tx ≠ [] →
      step s = .next { s with
        up := portSent s.up
        down := portSent s.down
        issue := { s.issue with
          sendPathBusy := s.issue.sendPathBusy && !s.down.tx.head?.any OutPacket.isPiece } }) ∧
    (∀ c, Running s → s.up.tx = [] → s.down.tx = [] → nextDue s = some c → step s = exec c s) ∧
    (Running s → s.up.tx = [] → s.down.tx = [] → nextDue s = none →
      ∃ t, step s = .next t ∧
        t.now = s.now + 1 ∧
        (∀ i, pick t.timers i = match pick s.timers i with
          | .none => SlotTimer.none
          | .deadline n => .deadline (n - 1)
          | .reclaim n => .reclaim (n - 1)) ∧
        t = { s with
          now := t.now
          timers := t.timers
          up := portLater s.up
          down := portLater s.down
          notice := { s.notice with resendTimer := s.notice.resendTimer.map fun n => n - 1 }
          mgmt := { s.mgmt with lease := s.mgmt.lease.map fun l => { l with timer := l.timer - 1 } }
          commit := { s.commit with fillStepDue := s.commit.condition == .filling } })

/-- The part as it stands while RESET_N is held low satisfies every law of Safety.lean. That this is the machine's
first state is the model's (log entry 6). -/
def Obligations.ResetStateIsSound : Prop := Sound State.reset

/-! ## Shared operations -/

/-- A packet produced toward a port that is UP joins the end of what the port is to send, and one produced toward a
port that is not UP is discarded (R89, R90); nothing else changes. The list a port is to send is the model's (log
entry 8). -/
def Obligations.ProducedPacketJoinsItsPort : Prop :=
  ∀ (k : OutPacket) (s : State),
    (s.up.link = .up → produce .up k s = { s with up := { s.up with tx := s.up.tx ++ [k] } }) ∧
    (s.down.link = .up → produce .down k s = { s with down := { s.down with tx := s.down.tx ++ [k] } }) ∧
    ∀ p, (s.port p).link ≠ .up → produce p k s = s

/-- R150 and R151: an append to a log with room joins the tail with the next Sequence and raises FAULT, and LOG_FULL
at the 32nd record; an append to a full log changes the newest record's Dropped after alone. -/
def Obligations.FaultAppendKeepsOrCounts : Prop :=
  ∀ (r : FaultReport) (s : State),
    let kept : State :=
      { s with flog := ⟨s.flog.records ++ [⟨s.flog.nextSequence, r, 0⟩], s.flog.nextSequence + 1⟩ }
    (s.flog.records.length ≤ 30 → appendFault r s = raiseClass .fault kept) ∧
    (s.flog.records.length = 31 → appendFault r s = raiseClass .logFull (raiseClass .fault kept)) ∧
    ∀ older newest, s.flog.records = older ++ [newest] → older.length = 31 →
      appendFault r s =
        { s with flog :=
            { s.flog with
              records := older ++ [{ newest with droppedAfter := min 65535 (newest.droppedAfter + 1) }] } }

/-- The sending of a notice to the holder `h` (R159): the NOTE with Pending, and the notice unit after it. -/
def Sys2Proof.Claims.noticeSent (h : Party) (s : State) : State :=
  produce h.port
    (.note h.requester s.notice.nextNumber s.notice.pending s.flog.records.length s.commit.liveGeneration)
    { s with notice :=
        { pending := 0#6
          reported := s.notice.pending
          outstanding := some s.notice.nextNumber
          nextNumber := s.notice.nextNumber + 1
          resendTimer := some (s.mgmt.config.resendPeriod * 1000) } }

/-- R158, with the sending of R159: a raise of a class outside the mask has no effect; one in the mask joins Pending;
and with a lease holder and no notice outstanding a notice is sent at once. -/
def Obligations.ClassRaiseJoinsPending : Prop :=
  ∀ (c : EventClass) (s : State),
    let joined : State := { s with notice := { s.notice with pending := withClass c s } }
    (¬ masked c s → raiseClass c s = s) ∧
    (masked c s → s.mgmt.lease = none ∨ s.notice.outstanding ≠ none → raiseClass c s = joined) ∧
    ∀ l, masked c s → s.mgmt.lease = some l → s.notice.outstanding = none →
      raiseClass c s = noticeSent l.holder joined

/-- The Code of an ERRSP that carries a slot's Failure (R88). -/
def Sys2Proof.Claims.failureCode : Failure → ErrCode
  | .aborted => .aborted
  | .timeout => .timeout
  | .linkDown => .linkDown
  | .downstream c => .downstream c

/-- R55: a slot that closes answers with an ERRSP of its Failure, or with a WRRSP for a write without one (the RDRSP
that closes a read is the response handler's own); its hold is released, its timer cancelled, it is FREE with the
next Incarnation, and intake is told. Intake's mark of a due examination is the model's (log entry 13). -/
def Obligations.ClosingFreesTheSlot : Prop :=
  ∀ (i : SlotNum) (t : Tracked) (s : State),
    let closed : State :=
      { s with
        ort := put s.ort i (slotFreed (pick s.ort i))
        timers := put s.timers i .none
        commit := released t.generation s.commit
        intake := headNotified s.intake }
    (∀ f, t.failure = some f →
      closeSlot i t s = produce .up (.errsp t.requester t.tag (failureCode f)) closed) ∧
    (t.failure = none → t.kind = .write → closeSlot i t s = produce .up (.wrrsp t.requester t.tag) closed) ∧
    (t.failure = none → t.kind = .read → closeSlot i t s = closed)

/-- A piece of slot `i` that some entry of a FIFO names and that is QUEUED. -/
def Sys2Proof.Claims.takenBack (q : List FifoEntry) (i : SlotNum) (p : Piece) : Bool :=
  p.state == .queued && q.any fun e =>
    match e with
    | .tracked j x _ => j == i && x == p.index
    | .posted _ _ _ _ => false

/-- The record of an OPEN slot after the pieces that a withdrawn FIFO names have FAILED with ABORTED (R58). -/
def Sys2Proof.Claims.abortedRecord (q : List FifoEntry) (i : SlotNum) (t : Tracked) : Tracked :=
  { t with
    failure := some (t.failure.getD .aborted)
    pieces := t.pieces.map fun p => if takenBack q i p then { p with state := .failed .aborted } else p }

/-- Every piece is DONE or FAILED (R54). -/
def Sys2Proof.Claims.allResolved (t : Tracked) : Bool :=
  t.pieces.all fun p => p.state != .queued && p.state != .issued

/-- The slot after the withdrawal of the FIFO `q` (R58). -/
def Sys2Proof.Claims.slotWithdrawn (q : List FifoEntry) (i : SlotNum) (x : Slot) : Slot :=
  match x.occ with
  | .opened t =>
    if t.pieces.any (takenBack q i) then
      if allResolved (abortedRecord q i t) then slotFreed x else ⟨x.incarnation, .opened (abortedRecord q i t)⟩
    else x
  | .free | .stale _ => x

/-- The record with which slot `i` closes at the withdrawal of `q`, if it closes (R58). -/
def Sys2Proof.Claims.closedByWithdrawal (q : List FifoEntry) (s : State) (i : SlotNum) : Option Tracked :=
  match (pick s.ort i).occ with
  | .opened t =>
    if t.pieces.any (takenBack q i) && allResolved (abortedRecord q i t) then some (abortedRecord q i t) else none
  | .free | .stale _ => none

/-- The ERRSP with which a record is answered. -/
def Sys2Proof.Claims.failureAnswer (t : Tracked) : OutPacket :=
  .errsp t.requester t.tag (failureCode (t.failure.getD .aborted))

/-- R73 and R58: a withdrawal takes every entry of one FIFO; its QUEUED pieces fail with ABORTED, the slots that
this resolves close in ascending number with an ERRSP of their Failure, the posted entries are counted, and intake
is told. A withdrawal of an empty FIFO changes nothing. Intake's mark of a due examination is the model's (log entry
13). -/
def Obligations.WithdrawalEmptiesOneFifo : Prop :=
  ∀ (r : ReqNum) (s : State),
    (fifoOf s r = [] → withdraw r s = s) ∧
    (fifoOf s r ≠ [] →
      let q := fifoOf s r
      let t := withdraw r s
      let closed := (List.finRange 128).filterMap (closedByWithdrawal q s)
      fifoOf t r = [] ∧ (∀ r', r' ≠ r → fifoOf t r' = fifoOf s r') ∧
      (∀ i, pick t.ort i = slotWithdrawn q i (pick s.ort i)) ∧
      (∀ i, pick t.timers i = if (closedByWithdrawal q s i).isSome then .none else pick s.timers i) ∧
      t.up.tx = (if s.up.link = .up then s.up.tx ++ closed.map failureAnswer else s.up.tx) ∧
      t.commit = closed.foldl (fun c x => released x.generation c) s.commit ∧
      t.mgmt = { s.mgmt with
        postedDiscards := s.mgmt.postedDiscards + BitVec.ofNat 32 (q.countP FifoEntry.isPosted) } ∧
      t.intake = spaceFreed r (if closed = [] then s.intake else headNotified s.intake) ∧
      t = { s with
        ort := t.ort, timers := t.timers, up := { s.up with tx := t.up.tx }, commit := t.commit
        mgmt := t.mgmt, intake := t.intake, issue := { s.issue with fifos := t.issue.fifos } })

/-- The entry into quarantine: the State and the note to intake, the withdrawal, the record, the class (R137, R138);
and the drain end, if the withdrawal has released the last hold (R118). -/
def Sys2Proof.Claims.quarantineEntry (o : Offence) (s : State) : State :=
  drained <| raiseClass .quarantine
    (appendFault
      { kind := .quarantineEntered, port := .up, requester := some o.requester, tag := o.tag
        address := some o.address, window := o.window, generation := some s.commit.liveGeneration
        code := some o.code }
      (withdraw o.requester
        { s with
          requesters := put s.requesters o.requester
            { pick s.requesters o.requester with state := .quarantined }
          intake := spaceFreed o.requester s.intake }))

/-- R135 with R137 and R138: REJECT does nothing; STRIKE raises Strikes up to 15 and quarantines at the Strike
limit; QUARANTINE quarantines at once with Strikes as they are. A drain whose last hold the withdrawal releases ends
at the end of the event (R118, log entry 4). Intake's mark of a due examination is the model's (log entry 13). -/
def Obligations.ActionsStrikeAndQuarantine : Prop :=
  ∀ (o : Offence) (s : State),
    let e := pick s.requesters o.requester
    let struck : State :=
      { s with requesters := put s.requesters o.requester { e with strikes := min 15 (e.strikes + 1) } }
    applyAction .reject o s = s ∧
    (min 15 (e.strikes + 1) < e.strikeLimit → applyAction .strike o s = struck) ∧
    (e.strikeLimit ≤ min 15 (e.strikes + 1) → applyAction .strike o s = quarantineEntry o struck) ∧
    applyAction .quarantine o s = quarantineEntry o s

/-! ## Window check -/

/-- An entry matches a byte address for a requester (R6). -/
abbrev Sys2Proof.Claims.matchesByte (b : Bank) (r : ReqNum) (a : Nat) (i : WinIndex) : Prop :=
  (pick b i).valid = true ∧ (pick b i).requesters.getLsbD r.val = true ∧ (pick b i).base.toNat ≤ a ∧
    a < (pick b i).limit

/-- R6: lookup yields the lowest-indexed entry that is valid, names the requester and covers the byte, and no window
when there is none. -/
def Obligations.LookupYieldsTheLowestIndex : Prop :=
  ∀ (b : Bank) (r : ReqNum) (a : Nat),
    (∀ i, lookup b r a = some i ↔ matchesByte b r a i ∧ ∀ j, j < i → ¬ matchesByte b r a j) ∧
    (lookup b r a = none ↔ ∀ i, ¬ matchesByte b r a i)

/-- The form that check 1 asks for (R27). -/
abbrev Sys2Proof.Claims.formGood (q : Request) : Prop :=
  1 ≤ q.length.toNat ∧ q.length.toNat ≤ 256 ∧ q.address.toNat + q.length.toNat ≤ 2 ^ 48 ∧
    (q.kind ≠ .rdreq → q.data.length = q.length.toNat)

/-- R8 and R9: one piece when the lookups of the first and the last byte agree, and else two, split at the last byte
rounded down to 256. In a bank that keeps R2 a request inside one granule is one piece, the two Lengths are at least 1
and sum to the request's, piece 0 lies in the granule of the first byte and piece 1 in that of the last, lookup of any
byte of a piece yields the piece's window, and that window covers all of it. -/
def Obligations.RequestSplitsAtTheGranule : Prop :=
  ∀ (b : Bank) (q : Request), formGood q →
    let a := q.address.toNat
    let e := a + q.length.toNat - 1
    let m := e / 256 * 256
    let ps := splitRequest b q
    (lookup b q.requester a = lookup b q.requester e →
      ps = [⟨0, q.address, q.length.toNat, 0, lookup b q.requester a⟩]) ∧
    (lookup b q.requester a ≠ lookup b q.requester e →
      ps = [⟨0, q.address, m - a, 0, lookup b q.requester a⟩,
        ⟨1, BitVec.ofNat 48 m, e - m + 1, m - a, lookup b q.requester e⟩]) ∧
    ((∀ i, (pick b i).valid = true → (pick b i).base.toNat % 256 = 0 ∧ (pick b i).limit % 256 = 0) →
      (ps.map CheckedPiece.length).sum = q.length.toNat ∧
      (a / 256 = e / 256 → ps.length = 1) ∧
      (lookup b q.requester a ≠ lookup b q.requester e →
        1 ≤ m - a ∧ a / 256 = (m - 1) / 256 ∧ m / 256 = e / 256) ∧
      ∀ p ∈ ps,
        (∀ k, k < p.length → lookup b q.requester (a + p.offset + k) = p.window) ∧
        ∀ w, p.window = some w →
          (pick b w).base.toNat ≤ a + p.offset ∧ a + p.offset + p.length ≤ (pick b w).limit)

/-- A piece fails the rights check (R10). -/
def Sys2Proof.Claims.lacksRight (b : Bank) (k : ReqKind) (p : CheckedPiece) : Bool :=
  match p.window, k with
  | none, _ => true
  | some w, .rdreq => !(pick b w).rights.read
  | some w, .wrreq => !(pick b w).rights.write
  | some w, .pwreq => !(pick b w).rights.posted

/-- What a failing piece contributes to the action (R12). -/
def Sys2Proof.Claims.contribution (b : Bank) (miss : Action) (p : CheckedPiece) : Action :=
  match p.window with
  | none => miss
  | some w => (pick b w).violation

/-- QUARANTINE above STRIKE above REJECT (R12). -/
def Sys2Proof.Claims.rank : Action → Nat
  | .reject => 0
  | .strike => 1
  | .quarantine => 2

/-- R10, R14 and R15, with the law of the part under R15: a request is GRANTED exactly when no piece fails; its pieces
have the fields of R9, and each then goes, whole and through the window that lookup found for it, into that window's Target range. -/
def Obligations.GrantedPiecesLieInTheirTargets : Prop :=
  ∀ (s : State) (q : Request), WindowLaw s → formGood q →
    let b := pick s.banks s.commit.liveBank
    let checked := splitRequest b q
    ((∃ ps g, windowCheck s q = .granted ps g) ↔ ∀ p ∈ checked, lacksRight b q.kind p = false) ∧
    ∀ ps g, windowCheck s q = .granted ps g →
      g = s.commit.liveGeneration ∧
      ps.map (fun p => (⟨p.index, p.upstream, p.length, p.offset, some p.window⟩ : CheckedPiece)) = checked ∧
      ∀ p ∈ ps,
        let w := pick b p.window
        lookup b q.requester (q.address.toNat + p.offset) = some p.window ∧
        lacksRight b q.kind ⟨p.index, q.address, p.length, p.offset, some p.window⟩ = false ∧
        p.deadlineClass = w.deadlineClass ∧
        p.address.toNat = w.target.toNat + (q.address.toNat + p.offset - w.base.toNat) ∧
        w.target.toNat ≤ p.address.toNat ∧
        p.address.toNat + p.length ≤ w.target.toNat + (w.limit - w.base.toNat)

/-- R11, R12 and R13: the code, the strongest action and the record of a REFUSED request, with the window that a
QUARANTINE_ENTERED record names (R138) and the request's pieces (R14). The record's Address is that of the piece it
names, as R13 and the worked examples give it (log entry 11). -/
def Obligations.RefusalNamesCodeActionAndRecord : Prop :=
  ∀ (s : State) (q : Request) (r : Refused), windowCheck s q = .refused r →
    let b := pick s.banks s.commit.liveBank
    let miss := (pick s.requesters q.requester).missAction
    let failing := (splitRequest b q).filter (lacksRight b q.kind)
    let missing := failing.any fun p => p.window.isNone
    let logs : CheckedPiece → Bool := fun p => p.window.any fun w => (pick b w).logViolations
    failing ≠ [] ∧ r.pieces = splitRequest b q ∧
    r.code = (if missing then .noWindow else .noRight) ∧
    (∀ p ∈ failing, rank (contribution b miss p) ≤ rank r.action) ∧
    (∃ p ∈ failing, contribution b miss p = r.action) ∧
    r.record =
      (failing.find? fun p => if missing then p.window.isNone else logs p).map (fun p =>
        { kind := .violation, port := .up, requester := some q.requester
          tag := if q.kind = .pwreq then none else some q.tag
          address := some p.upstream, window := p.window, generation := some s.commit.liveGeneration
          code := some r.code }) ∧
    r.actionWindow = (failing.find? fun p => contribution b miss p == r.action).bind fun p => p.window

/-! ## The arbiter's choice -/

/-- R69, with the arbiter's choice of R70: a head is eligible when the downstream link is UP and the pool of its kind has
a credit; FIXED takes the lowest eligible number, ROTATE the first after the last-granted pointer. -/
def Obligations.ArbiterChoosesAnEligibleHead : Prop :=
  ∀ s : State,
    (∀ r, headEligible s r = true ↔ ∃ e rest, fifoOf s r = e :: rest ∧ s.down.link = .up ∧
      match e with
      | .tracked _ _ _ => 1 ≤ s.issue.requestPool.available
      | .posted _ _ _ _ => 1 ≤ s.issue.postedPool.available) ∧
    (chooseFifo s = none ↔ ∀ r, headEligible s r = false) ∧
    (s.mgmt.config.arbiterMode = .fixed → ∀ r,
      chooseFifo s = some r ↔ headEligible s r = true ∧ ∀ r', r' < r → headEligible s r' = false) ∧
    (s.mgmt.config.arbiterMode = .rotate → ∀ r,
      chooseFifo s = some r ↔ headEligible s r = true ∧
        ∀ r', r' - s.issue.lastGranted - 1 < r - s.issue.lastGranted - 1 → headEligible s r' = false)

/-! ## Packets on the wire -/

/-- The bytes 6 to 11 of a header. -/
def Sys2Proof.Claims.addressBytes (a : Addr) : List Byte :=
  [40, 32, 24, 16, 8, 0].map fun n => a.extractLsb' n 8

/-- A two-byte field. -/
def Sys2Proof.Claims.twoBytes (n : Nat) : List Byte := [BitVec.ofNat 8 (n / 256), BitVec.ofNat 8 n]

/-- The bytes 2 and 3 of a downstream piece. -/
def Sys2Proof.Claims.tagBytes (t : DTag) : List Byte :=
  [BitVec.ofNat 8 (t.slot.val * 2 + t.piece.val), BitVec.ofNat 8 (t.incarnation.val * 64)]

/-- R193, Tables 11-3 and 11-4: the header bytes of the packets the part sends, 0 in every field that a kind does not
use, and the payload that follows: the Data of an RDRSP, WRREQ or PWREQ, the Results of an MRESP, and nothing for
every other kind. An MRESP's payload is at most 1024 bytes, and empty without Results; what bytes carry its Results is
a free value (log entry 14). -/
def Obligations.SentFramesFollowTheLayout : Prop :=
  let bytes : OutPacket → List Byte := fun k => (frameOf k).header.toList
  let num : ReqNum → Byte := fun r => BitVec.ofNat 8 r.val
  let zeros : Nat → List Byte := fun n => List.replicate n 0#8
  let payload : OutPacket → List Byte := fun k => (frameOf k).payload
  ((∀ r t off len data final, payload (.rdrsp r t off len data final) = data) ∧
   (∀ t a len data, payload (.wrreq t a len data) = data) ∧ (∀ a len data, payload (.pwreq a len data) = data) ∧
   (∀ r q st res, payload (.mresp r q st res) = Config.resultPayload res) ∧
   (∀ r t, payload (.wrrsp r t) = []) ∧ (∀ r t c, payload (.errsp r t c) = []) ∧
   (∀ r n cls count gen, payload (.note r n cls count gen) = []) ∧ (∀ n, payload (.cret n) = []) ∧
   (∀ cls n m, payload (.init cls n m) = []) ∧ ∀ t a len, payload (.rdreq t a len) = []) ∧
  (∀ r t off len data final, off < 256 →
    bytes (.rdrsp r t off len data final)
      = [if final then 0x41#8 else 0x40#8, num r, t, BitVec.ofNat 8 off] ++ zeros 8 ++ twoBytes len ++ zeros 2) ∧
  (∀ r t, bytes (.wrrsp r t) = [0x51#8, num r, t] ++ zeros 13) ∧
  (∀ r t c, bytes (.errsp r t (.downstream c)) = [0x61#8, num r, t, 0#8, 0x0A#8, c] ++ zeros 10) ∧
  (∀ r t c b, (c, b) ∈ [(ErrCode.malformed, 0x01#8), (.dupTag, 0x02#8), (.disabled, 0x03#8),
      (.quarantined, 0x04#8), (.linkDown, 0x05#8), (.overLimit, 0x06#8), (.noWindow, 0x07#8),
      (.noRight, 0x08#8), (.timeout, 0x09#8), (.aborted, 0x0B#8)] →
    bytes (.errsp r t c) = [0x61#8, num r, t, 0#8, b] ++ zeros 11) ∧
  (∀ r n cls count gen, count ≤ 32 →
    bytes (.note r n cls count gen)
      = [0xA0#8, num r, 0#8, 0#8, n, 0#8, cls.setWidth 8, gen, BitVec.ofNat 8 count] ++ zeros 7) ∧
  (∀ n, bytes (.cret n) = [0xC0#8] ++ zeros 3 ++ [0x01#8] ++ zeros 7 ++ twoBytes n ++ zeros 2) ∧
  bytes (.init .intake 32 0) = [0xD0#8] ++ zeros 3 ++ [0x01#8] ++ zeros 7 ++ [0x00#8, 0x20#8] ++ zeros 2 ∧
  bytes (.init .none 0 0) = [0xD0#8] ++ zeros 15 ∧
  (∀ t a len, bytes (.rdreq t a len)
      = [0x10#8, 0#8] ++ tagBytes t ++ zeros 2 ++ addressBytes a ++ twoBytes len ++ zeros 2) ∧
  (∀ t a len data, bytes (.wrreq t a len data)
      = [0x20#8, 0#8] ++ tagBytes t ++ zeros 2 ++ addressBytes a ++ twoBytes len ++ zeros 2) ∧
  (∀ a len data, bytes (.pwreq a len data)
      = [0x30#8] ++ zeros 5 ++ addressBytes a ++ twoBytes len ++ zeros 2) ∧
  ∀ r q st res, bytes (.mresp r q st res)
      = [0x90#8, num r] ++ twoBytes q.toNat ++ [BitVec.ofNat 8 (match st with
          | .ok => 0 | .busy => 1 | .noLease => 2 | .notPermitted => 3 | .badArg => 4 | .tooEarly => 5
          | .qfull => 6 | .nothing => 7)] ++ zeros 7
        ++ twoBytes (Config.resultPayload res).length ++ zeros 2 ∧
    (Config.resultPayload res).length ≤ 1024 ∧ Config.resultPayload .none = []

/-- The class that byte 4 of a CRET names (Table 11-4). -/
def Sys2Proof.Claims.classOfByte (b : Byte) : CreditClass :=
  if b = 0x01#8 then .intake
  else if b = 0x02#8 then .request
  else if b = 0x03#8 then .posted
  else .none

/-- What each of the sixteen kind codes stands for at the upstream port, read from the bytes that Table 11-3 gives the
kind and from no other (R22, R24, R189, R191, R192, R193). -/
def Sys2Proof.Claims.readsUpstream (link : LinkState) (f : Frame) : Prop :=
  let b : Fin 16 → Byte := pick f.header
  let reads : Nat → Instr → Prop := fun k c => (b 0).toNat / 16 = k → instrOfFrame .up link f = some c
  let r : ReqNum := Fin.ofNat 32 (b 1).toNat
  let address : Addr := b 6 ++ b 7 ++ b 8 ++ b 9 ++ b 10 ++ b 11
  let request : ReqKind → Instr := fun k =>
    .upstreamPacketArrival (.request ⟨k, r, b 2, address, b 12 ++ b 13, f.payload⟩)
  reads 0x1 (request .rdreq) ∧ reads 0x2 (request .wrreq) ∧ reads 0x3 (request .pwreq) ∧
  reads 0x8 (.upstreamPacketArrival (.mcmd ⟨r, b 2 ++ b 3, b 4, f.payload⟩)) ∧
  reads 0xC (.upstreamCretDiscard (classOfByte (b 4)) (b 12 ++ b 13)) ∧
  reads 0xD (if link = .up then .initWhileUp .up else .initReceived .up ⟨b 12 ++ b 13, b 14 ++ b 15⟩) ∧
  reads 0x4 (.upstreamStrayPacket .rdrsp r) ∧ reads 0x5 (.upstreamStrayPacket .wrrsp r) ∧
  reads 0x6 (.upstreamStrayPacket .errsp r) ∧ reads 0x9 (.upstreamStrayPacket .mresp r) ∧
  reads 0xA (.upstreamStrayPacket .note r) ∧
  ∀ k ∈ [0x0, 0x7, 0xB, 0xE, 0xF], reads k (.upstreamStrayPacket (.unassigned (BitVec.ofNat 4 k)) r)

/-- What each of the sixteen kind codes stands for at the downstream port, read in the same way (R192, R193). -/
def Sys2Proof.Claims.readsDownstream (link : LinkState) (f : Frame) : Prop :=
  let b : Fin 16 → Byte := pick f.header
  let reads : Nat → Instr → Prop := fun k c => (b 0).toNat / 16 = k → instrOfFrame .down link f = some c
  let count : BitVec 16 := b 12 ++ b 13
  let tag : DTag :=
    ⟨Fin.ofNat 128 ((b 2).toNat / 2), Fin.ofNat 2 (b 2).toNat, Fin.ofNat 4 ((b 3).toNat / 64)⟩
  reads 0x4 (.responseArrival ⟨tag, .rdrsp count f.payload⟩) ∧
  reads 0x5 (.responseArrival ⟨tag, .wrrsp⟩) ∧ reads 0x6 (.responseArrival ⟨tag, .errsp (b 5)⟩) ∧
  reads 0x8 (.downstreamMcmdArrival ⟨Fin.ofNat 32 (b 1).toNat, b 2 ++ b 3, b 4, f.payload⟩) ∧
  reads 0xC
    (if 1 ≤ count.toNat ∧ count.toNat ≤ 255 ∧ b 4 = 0x02#8 then .downstreamCret .request count
    else if 1 ≤ count.toNat ∧ count.toNat ≤ 255 ∧ b 4 = 0x03#8 then .downstreamCret .posted count
    else .downstreamStrayPacket (.cret (classOfByte (b 4)) count)) ∧
  reads 0xD (if link = .up then .initWhileUp .down else .initReceived .down ⟨count, b 14 ++ b 15⟩) ∧
  reads 0x1 (.downstreamStrayPacket .rdreq) ∧ reads 0x2 (.downstreamStrayPacket .wrreq) ∧
  reads 0x3 (.downstreamStrayPacket .pwreq) ∧ reads 0x9 (.downstreamStrayPacket .mresp) ∧
  reads 0xA (.downstreamStrayPacket .note) ∧
  ∀ k ∈ [0x0, 0x7, 0xB, 0xE, 0xF], reads k (.downstreamStrayPacket (.unassigned (BitVec.ofNat 4 k)))

/-- R193: a frame that a peer forms of a request, a management command, a response, a CRET or an INIT is read back as
the command it stands for, with every field; a port that is DOWN receives nothing (R188). Any other frame is read by
its kind code from the fields its kind uses, and the rest are ignored: kinds not received upstream and unassigned
kinds are strays (R24, R192), as are, downstream, request kinds, MRESP, NOTE and a CRET of another class or count
(R192); a CRET whose byte 4 names no class is taken as of Class NONE (log entry 22). R194, Table 11-5: the operands
of the three long payloads come back as they were encoded, whenever they are in their ranges, and each payload has its
command's byte count. -/
def Obligations.PayloadsAndFramesReadBack : Prop :=
  ((∀ (link : LinkState), link ≠ .down →
     (∀ q, instrOfFrame .up link (frameOfRequest q) = some (.upstreamPacketArrival (.request q))) ∧
     (∀ m, instrOfFrame .up link (frameOfMcmd m) = some (.upstreamPacketArrival (.mcmd m))) ∧
     (∀ cls n, instrOfFrame .up link (frameOfCret cls n) = some (.upstreamCretDiscard cls n)) ∧
     (∀ m, instrOfFrame .down link (frameOfMcmd m) = some (.downstreamMcmdArrival m)) ∧
     (∀ r, instrOfFrame .down link (frameOfResponse r) = some (.responseArrival r)) ∧
     ∀ n, 1 ≤ n.toNat → n.toNat ≤ 255 →
       instrOfFrame .down link (frameOfCret .request n) = some (.downstreamCret .request n) ∧
       instrOfFrame .down link (frameOfCret .posted n) = some (.downstreamCret .posted n)) ∧
   (∀ p cls c, instrOfFrame p .training (frameOfInit cls c) = some (.initReceived p c) ∧
     instrOfFrame p .up (frameOfInit cls c) = some (.initWhileUp p)) ∧
   ∀ p f, instrOfFrame p .down f = none) ∧
  (∀ (link : LinkState) (f : Frame), link ≠ .down → readsUpstream link f ∧ readsDownstream link f) ∧
  ((∀ (i : WinIndex) (e : WindowEntry), e.limit ≤ 2 ^ 48 →
     (wtWriteBytes i e).length = 30 ∧ wtWriteOf (wtWriteBytes i e) = some (i, e)) ∧
   (∀ w : RqWrite, 1 ≤ w.openLimit → w.openLimit ≤ 128 → 1 ≤ w.strikeLimit → w.strikeLimit ≤ 15 →
     (rqWriteBytes w).length = 7 ∧ rqWriteOf (rqWriteBytes w) = some w) ∧
   ∀ c : GlobalConfig,
     (∀ t ∈ [c.t0, c.t1, c.t2, c.t3, c.reclaimPeriod], 1 ≤ t ∧ t ≤ 65535) →
     10 ≤ c.leasePeriod → c.leasePeriod ≤ 10000 → c.minimumSpacing * 2 ≤ c.leasePeriod →
     1 ≤ c.resendPeriod → c.resendPeriod ≤ 255 →
     (configWriteBytes c).length = 18 ∧ configWriteOf (configWriteBytes c) = some c)

/-! ## Intake -/

/-- The Tag a fault record of a request carries: none for a PWREQ (R38). -/
def Sys2Proof.Claims.reportTag (q : Request) : Option Tag := if q.kind = .pwreq then none else some q.tag

/-- The fault record of a request refused at intake (R38). -/
def Sys2Proof.Claims.requestReport (kind : FaultKind) (port : PortId) (q : Request) (code : Option ErrCode) :
    FaultReport :=
  { kind := kind, port := port, requester := some q.requester, tag := reportTag q, address := some q.address
    code := code }

/-- R22 and R24 for a request or MCMD received upstream: it joins a queue with room, is discarded with a MALFORMED
record without Code when 32 packets stand there. R24, R191 and R192 for the strays: a kind not received upstream
leaves a MALFORMED record with its Requester alone; a CRET received upstream and a stray packet received downstream
change nothing. A packet at a port in TRAINING is discarded without a record (R188); that a command that brings one
to a port in DOWN changes nothing is the model's (log entry 21). Intake's mark of a due examination is the model's
(log entry 13). -/
def Obligations.UpstreamPacketJoinsOrIsDiscarded : Prop :=
  (∀ (p : IntakePacket) (s : State), Running s →
     (s.up.link = .up → s.intake.queue.length < 32 →
       exec (.upstreamPacketArrival p) s =
         .next { s with intake := { s.intake with
           queue := s.intake.queue ++ [p]
           examDue := s.intake.examDue || s.intake.queue.isEmpty } }) ∧
     (s.up.link = .up → 32 ≤ s.intake.queue.length →
       exec (.upstreamPacketArrival p) s =
         .next (appendFault
           (match p with
             | .request q => requestReport .malformed .up q none
             | .mcmd m => { kind := .malformed, port := .up, requester := some m.requester })
           s)) ∧
     (s.up.link ≠ .up → exec (.upstreamPacketArrival p) s = .next s)) ∧
  (∀ s : State, Running s →
     (∀ k r, s.up.link = .up →
       exec (.upstreamStrayPacket k r) s =
         .next (appendFault { kind := .malformed, port := .up, requester := some r } s)) ∧
     (∀ k r, s.up.link ≠ .up → exec (.upstreamStrayPacket k r) s = .next s) ∧
     (∀ cls n, exec (.upstreamCretDiscard cls n) s = .next s) ∧
     ∀ k, exec (.downstreamStrayPacket k) s = .next s)

/-- A request stands at the head and its examination is due (R25). -/
abbrev Sys2Proof.Claims.atHead (q : Request) (rest : List IntakePacket) (s : State) : Prop :=
  Running s ∧ s.intake.queue = .request q :: rest ∧ s.intake.examDue = true

/-- A refused request answered or counted, and gone from the queue with its credit (R36, R37). -/
def Sys2Proof.Claims.turnedAway (q : Request) (code : ErrCode) (rest : List IntakePacket) (s : State) : State :=
  let e := pick s.requesters q.requester
  let answered : State :=
    if q.kind = .pwreq then { s with mgmt := { s.mgmt with postedDiscards := s.mgmt.postedDiscards + 1 } }
    else
      produce .up (.errsp q.requester q.tag code)
        { s with requesters := put s.requesters q.requester { e with refused := e.refused + 1 } }
  produce .up (.cret 1) { answered with intake := intakeLeft rest s.intake }

/-- An OPEN slot has the request's Requester and Tag (R30). -/
abbrev Sys2Proof.Claims.tagTaken (q : Request) (s : State) : Prop :=
  ∃ i, ∃ t ∈ openAt s i, t.requester = q.requester ∧ t.tag = q.tag

/-- The request passes checks 1 to 6 (R26). -/
abbrev Sys2Proof.Claims.passesSix (q : Request) (s : State) : Prop :=
  formGood q ∧ (pick s.requesters q.requester).state = .active ∧ s.down.link = .up ∧
    (q.kind ≠ .pwreq → ¬ tagTaken q s ∧
      openCount s q.requester < (pick s.requesters q.requester).openLimit)

/-- R27 to R31, R36, R37 and R38: each of checks 1 to 6, when it is the first to fail, refuses the request with its
own code and its own record; and the Open count of check 6 is the number of OPEN slots of the requester (R50). R32:
a request that the window check refuses is answered or discarded with its code, then its record is appended, if it
is to be logged, and then the action is applied; that record is R13's, with the Address of its reported piece where R38's
sentence has the request's (log entry 11). The CRET's place after the answer is the model's (log entry 10),
and so is intake's mark of a due examination (log entry 13). -/
def Obligations.RefusedRequestIsAnsweredAndRecorded : Prop :=
  (∀ (q : Request) (rest : List IntakePacket) (s : State), atHead q rest s →
     let e := pick s.requesters q.requester
     let leads : State → Prop := fun t => exec .headExamination s = .next t
     openCount s q.requester = Set.ncard {i | ∃ t ∈ openAt s i, t.requester = q.requester} ∧
     (¬ formGood q →
       leads (appendFault (requestReport .malformed .up q (some .malformed)) (turnedAway q .malformed rest s))) ∧
     (formGood q → e.state = .disabled → leads (turnedAway q .disabled rest s)) ∧
     (formGood q → e.state = .quarantined → leads (turnedAway q .quarantined rest s)) ∧
     (formGood q → e.state = .active → s.down.link ≠ .up →
       (s.intake.linkDownLogged = false →
         leads (appendFault (requestReport .linkChange .down q (some .linkDown))
           (turnedAway q .linkDown rest { s with intake := { s.intake with linkDownLogged := true } }))) ∧
       (s.intake.linkDownLogged = true → leads (turnedAway q .linkDown rest s))) ∧
     (formGood q → e.state = .active → s.down.link = .up → q.kind ≠ .pwreq →
       (tagTaken q s →
         leads (appendFault (requestReport .dupTag .up q (some .dupTag)) (turnedAway q .dupTag rest s))) ∧
       (¬ tagTaken q s → e.openLimit ≤ openCount s q.requester →
         leads (appendFault (requestReport .overLimit .up q (some .overLimit))
           (turnedAway q .overLimit rest s))))) ∧
  (∀ (q : Request) (rest : List IntakePacket) (s : State) (r : Refused), atHead q rest s → passesSix q s →
     windowCheck s q = .refused r →
     exec .headExamination s =
       .next (applyAction r.action
         { requester := q.requester, tag := reportTag q, address := q.address, window := r.actionWindow
           code := r.code }
         (match r.record with
           | none => turnedAway q r.code rest s
           | some f => appendFault f (turnedAway q r.code rest s))))

/-- No slot is FREE. -/
abbrev Sys2Proof.Claims.noFreeSlot (s : State) : Prop := ∀ i, (pick s.ort i).occ ≠ .free

/-- R33 and R34: a granted request that lacks a FREE slot or FIFO places stays at the head and names what it lacks;
EXHAUST is raised once in the episode, when no slot is FREE. Intake's mark of a due examination is the model's (log
entry 13). -/
def Obligations.MissingResourcesStallTheHead : Prop :=
  ∀ (q : Request) (rest : List IntakePacket) (s : State) (ps : List GrantedPiece) (g : Generation),
    atHead q rest s → passesSix q s → windowCheck s q = .granted ps g →
    let stalled : StallCondition → State := fun c =>
      { s with intake := { s.intake with stall := c, examDue := false } }
    let exhausted : StallCondition → State := fun c =>
      raiseClass .exhaust
        { s with intake := { s.intake with stall := c, examDue := false, exhaustRaised := true } }
    let noSlot := q.kind ≠ .pwreq ∧ noFreeSlot s
    let noRoom := 8 < (fifoOf s q.requester).length + ps.length
    (¬ noSlot → noRoom → exec .headExamination s = .next (stalled (.fifo q.requester))) ∧
    ∀ c, (noSlot ∧ ¬ noRoom ∧ c = .slot q.requester) ∨ (noSlot ∧ noRoom ∧ c = .slotAndFifo q.requester) →
      (s.intake.exhaustRaised = false → exec .headExamination s = .next (exhausted c)) ∧
      (s.intake.exhaustRaised = true → exec .headExamination s = .next (stalled c))

/-- The configured value of a deadline class (R99). -/
def Sys2Proof.Claims.classValue (c : GlobalConfig) : DeadlineClass → Nat
  | .t0 => c.t0
  | .t1 => c.t1
  | .t2 => c.t2
  | .t3 => c.t3

/-- The place of a class in T0 before T1 before T2 before T3. -/
def Sys2Proof.Claims.classPlace : DeadlineClass → Nat
  | .t0 => 0
  | .t1 => 1
  | .t2 => 2
  | .t3 => 3

/-- A slot's Deadline class (R48): the class of the one piece, or of two the one with the smaller value, and on equal
values the lower-numbered. -/
def Sys2Proof.Claims.slotClass (c : GlobalConfig) : List GrantedPiece → DeadlineClass
  | [p, p'] =>
    let x := p.deadlineClass
    let y := p'.deadlineClass
    if classValue c x < classValue c y then x
    else if classValue c y < classValue c x then y
    else if classPlace x ≤ classPlace y then x else y
  | p :: _ => p.deadlineClass
  | [] => .t0

/-- The bytes of a request that a piece carries (R35). -/
def Sys2Proof.Claims.shareOf (q : Request) (p : GrantedPiece) : List Byte := (q.data.drop p.offset).take p.length

/-- The record a slot holds after allocation (R47). -/
def Sys2Proof.Claims.recordOf (q : Request) (ps : List GrantedPiece) (s : State) : Tracked :=
  { requester := q.requester, tag := q.tag, kind := if q.kind = .rdreq then .read else .write
    address := q.address, length := q.length.toNat, generation := s.commit.liveGeneration
    deadlineClass := slotClass s.mgmt.config ps, failure := none
    pieces := ps.map fun p => ⟨p.index, p.window, p.address, p.length, p.offset, .queued⟩ }

/-- The requester entry after an acceptance. -/
def Sys2Proof.Claims.acceptedEntry (e : RequesterEntry) : RequesterEntry := { e with accepted := e.accepted + 1 }

/-- R35, R47, R48 and R102: an accepted RDREQ or WRREQ takes the lowest-numbered FREE slot with its record, its
deadline timer and its hold; the pieces of any accepted request join the tail of the requester's FIFO; Accepted
rises, and the request leaves the queue with its credit. Intake's mark of a due examination is the model's (log
entry 13). -/
def Obligations.AcceptedRequestTakesSlotAndPlaces : Prop :=
  ∀ (q : Request) (rest : List IntakePacket) (s : State) (ps : List GrantedPiece) (g : Generation),
    atHead q rest s → passesSix q s → windowCheck s q = .granted ps g →
    (fifoOf s q.requester).length + ps.length ≤ 8 →
    let fifos : List FifoEntry → Vector (List FifoEntry) 32 := fun es =>
      put s.issue.fifos q.requester (fifoOf s q.requester ++ es)
    let entries := put s.requesters q.requester (acceptedEntry (pick s.requesters q.requester))
    (q.kind = .pwreq →
      exec .headExamination s =
        .next (produce .up (.cret 1)
          { s with
            issue := { s.issue with
              fifos := fifos (ps.map fun p => .posted p.index p.address p.length (shareOf q p)) }
            requesters := entries
            intake := intakeLeft rest s.intake })) ∧
    (∀ i, q.kind ≠ .pwreq → (pick s.ort i).occ = .free → (∀ j, j < i → (pick s.ort j).occ ≠ .free) →
      exec .headExamination s =
        .next (produce .up (.cret 1)
          { s with
            ort := put s.ort i ⟨(pick s.ort i).incarnation, .opened (recordOf q ps s)⟩
            timers := put s.timers i (.deadline (classValue s.mgmt.config (slotClass s.mgmt.config ps)))
            commit := { s.commit with liveOpen := s.commit.liveOpen + 1 }
            issue := { s.issue with
              fifos := fifos (ps.map fun p =>
                .tracked i p.index (if q.kind = .rdreq then none else some (shareOf q p))) }
            requesters := entries
            intake := intakeLeft rest s.intake }))

/-- R39 and R167: a management command joins the management queue with its port and Requester when fewer than 16
wait, and is answered QFULL on its port when 16 do; from the head of intake it leaves with its credit. At a downstream
port in TRAINING it is discarded (R188), and in DOWN its command changes nothing (log entry 21). The CRET's
place after a QFULL answer is the model's (log entry 10), and so is intake's mark (log entry 13). -/
def Obligations.CommandsReachTheManagementQueue : Prop :=
  ∀ (m : Mcmd) (s : State), Running s →
    let joined : PortId → State := fun p =>
      { s with mgmt := { s.mgmt with
        queue := s.mgmt.queue ++ [⟨⟨p, m.requester⟩, m.sequence, m.command, m.payload⟩] } }
    let full : PortId → State := fun p => produce p (.mresp m.requester m.sequence .qfull .none) s
    (∀ rest, s.intake.queue = .mcmd m :: rest →
      (s.mgmt.queue.length < 16 →
        exec .mcmdAtHead s =
          .next (produce .up (.cret 1) { joined .up with intake := intakeLeft rest s.intake })) ∧
      (16 ≤ s.mgmt.queue.length →
        exec .mcmdAtHead s =
          .next (produce .up (.cret 1) { full .up with intake := intakeLeft rest s.intake }))) ∧
    (s.down.link = .up →
      (s.mgmt.queue.length < 16 → exec (.downstreamMcmdArrival m) s = .next (joined .down)) ∧
      (16 ≤ s.mgmt.queue.length → exec (.downstreamMcmdArrival m) s = .next (full .down))) ∧
    (s.down.link ≠ .up → exec (.downstreamMcmdArrival m) s = .next s)

/-! ## Issue, responses and credits -/

/-- A record with the State of the piece of index `x` replaced. -/
def Sys2Proof.Claims.withPiece (x : PieceIndex) (st : PieceState) (t : Tracked) : Tracked :=
  { t with pieces := t.pieces.map fun p => if p.index = x then { p with state := st } else p }

/-- The downstream port has taken the piece of the previous grant (R70). -/
def Sys2Proof.Claims.pieceTaken (s : State) : State :=
  { s with
    down := { s.down with tx := [], sent := s.down.sent ++ s.down.tx }
    issue := { s.issue with sendPathBusy := false } }

/-- R71 and R72: the grant spends one credit of its pool, hands the piece to the downstream port, marks a tracked
piece ISSUED, and removes the head entry from its FIFO, with the pointer moved and intake told. A grant comes after
the port has taken the piece of the one before (R70). The send path's mark and intake's are the model's (log entries
9 and 13). -/
def Obligations.GrantSendsTheHeadPiece : Prop :=
  (∀ (r : ReqNum) (s : State), Running s → s.issue.sendPathBusy = true → chooseFifo s = some r →
    exec .grant s = exec .grant (pieceTaken s)) ∧
  ∀ (r : ReqNum) (rest : List FifoEntry) (s : State), Running s → s.issue.sendPathBusy = false →
    chooseFifo s = some r →
    let issue : IssueUnit :=
      { s.issue with fifos := put s.issue.fifos r rest, lastGranted := r, sendPathBusy := true }
    (∀ x a n data, fifoOf s r = .posted x a n data :: rest →
      exec .grant s =
        .next (produce .down (.pwreq a n data)
          { s with
            issue := { issue with
              postedPool := { s.issue.postedPool with available := s.issue.postedPool.available - 1 } }
            intake := spaceFreed r s.intake })) ∧
    ∀ i x data t p, fifoOf s r = .tracked i x data :: rest → (pick s.ort i).occ = .opened t →
      t.piece x = some p →
      let tag : DTag := ⟨i, x, (pick s.ort i).incarnation⟩
      exec .grant s =
        .next (produce .down
          (if t.kind = .read then .rdreq tag p.address p.length else .wrreq tag p.address p.length (data.getD []))
          { s with
            issue := { issue with
              requestPool := { s.issue.requestPool with available := s.issue.requestPool.available - 1 } }
            ort := put s.ort i ⟨(pick s.ort i).incarnation, .opened (withPiece x .issued t)⟩
            intake := spaceFreed r s.intake })

/-- The shape test (R82). -/
abbrev Sys2Proof.Claims.shapeGood (t : Tracked) (p : Piece) : ResponseBody → Prop
  | .rdrsp n data => t.kind = .read ∧ n.toNat = p.length ∧ data.length = p.length
  | .wrrsp => t.kind = .write
  | .errsp _ => True

/-- A response names the ISSUED piece `p` of the record `t` and fits it (R81, R82). -/
abbrev Sys2Proof.Claims.fitsPiece (r : Response) (t : Tracked) (p : Piece) : Prop :=
  t.piece r.tag.piece = some p ∧ p.state = .issued ∧ shapeGood t p r.body

/-- A response is received by a running part whose downstream port is UP, and names its slot's present use. -/
abbrev Sys2Proof.Claims.arrives (r : Response) (s : State) : Prop :=
  Running s ∧ s.down.link = .up ∧ (pick s.ort r.tag.slot).incarnation = r.tag.incarnation

/-- A slot that a response has reached: closed when its record is resolved, else OPEN with it (R54). -/
def Sys2Proof.Claims.settled (i : SlotNum) (t : Tracked) (s : State) : State :=
  if allResolved t then closeSlot i t s
  else { s with ort := put s.ort i ⟨(pick s.ort i).incarnation, .opened t⟩ }

/-- A record in which a pool's error has FAILED piece `x` (R85). -/
def Sys2Proof.Claims.failedRecord (x : PieceIndex) (c : Byte) (t : Tracked) : Tracked :=
  { withPiece x (.failed (.downstream c)) t with failure := some (t.failure.getD (.downstream c)) }

/-- R83 to R87: a response that fits an ISSUED piece of an OPEN slot resolves it: an RDRSP is forwarded with its
Offset, Final when it closes a read without a Failure; a WRRSP sends nothing of its own; an ERRSP is recorded when
the window, in the bank of the slot's Generation (R5), has LOG. The slot then closes or stays OPEN, one request
credit returns (R94), and a drain whose last hold the close releases ends (R52, R118), as the last part of the event
(log entry 4). Intake's mark of a due examination is the model's (log entry 13). -/
def Obligations.ResponseResolvesAnOpenPiece : Prop :=
  ∀ (r : Response) (t : Tracked) (p : Piece) (s : State), arrives r s →
    (pick s.ort r.tag.slot).occ = .opened t → fitsPiece r t p →
    let i := r.tag.slot
    let done := withPiece p.index .done t
    let leads : State → Prop := fun x =>
      exec (.responseArrival r) s = .next (drained (returnRequest 1 (some p.window) (some t.generation) x))
    (∀ n data, r.body = .rdrsp n data →
      leads (settled i done
        (produce .up
          (.rdrsp t.requester t.tag p.offset p.length data (allResolved done && t.failure.isNone)) s))) ∧
    (r.body = .wrrsp → leads (settled i done s)) ∧
    ∀ c b, r.body = .errsp c →
      (t.generation = s.commit.liveGeneration ∧ b = s.commit.liveBank) ∨
        (t.generation = s.commit.liveGeneration - 1 ∧ s.commit.drainingBank = some b) →
      ((pick (pick s.banks b) p.window).errorHandling = .pass → leads (settled i (failedRecord p.index c t) s)) ∧
      ((pick (pick s.banks b) p.window).errorHandling = .log →
        leads (settled i (failedRecord p.index c t)
          (appendFault
            { kind := .downstreamError, port := .down, requester := some t.requester, tag := some t.tag
              address := some (t.address + BitVec.ofNat 48 p.offset), window := some p.window
              generation := some t.generation, code := some (.downstream c) }
            s)))

/-- A response reaches the present use of an OPEN or STALE slot with an ISSUED piece that it fits (R81). -/
abbrev Sys2Proof.Claims.answersAPiece (r : Response) (s : State) : Prop :=
  (pick s.ort r.tag.slot).incarnation = r.tag.incarnation ∧
    ∃ t ∈ (pick s.ort r.tag.slot).occ.record, ∃ p ∈ t.piece r.tag.piece, fitsPiece r t p

/-- The record that an UNMATCHED response names, when the slot's Incarnation is the tag's (R93). -/
def Sys2Proof.Claims.namedBy (r : Response) (s : State) : Option Tracked :=
  if (pick s.ort r.tag.slot).incarnation = r.tag.incarnation then
    match (pick s.ort r.tag.slot).occ with
    | .free => none
    | .opened t | .stale t => some t
  else none

/-- R91: a response that fits an ISSUED piece of a STALE slot resolves it and sends nothing upstream; the slot is
FREE when no piece is left ISSUED. R92, R93 and R81: any response that fits no ISSUED piece changes no slot, no
piece and no timer: it is counted and recorded. Each returns one request credit (R94). A response that reaches a port that
is not UP is not taken: in TRAINING it is discarded (R80, R188), and in DOWN its command changes nothing (log entry
21). Intake's mark of a due examination is the model's (log entry 13). -/
def Obligations.LateAndStrayResponsesStaySilent : Prop :=
  (∀ (r : Response) (t : Tracked) (p : Piece) (s : State), arrives r s →
     (pick s.ort r.tag.slot).occ = .stale t → fitsPiece r t p →
     let i := r.tag.slot
     let t' := withPiece p.index
       (match r.body with
         | .rdrsp _ _ | .wrrsp => .done
         | .errsp c => .failed (.downstream c)) t
     exec (.responseArrival r) s =
       .next (returnRequest 1 (some p.window) (some t.generation)
         (if t'.pieces.any fun y => y.state == .issued then
           { s with ort := put s.ort i ⟨(pick s.ort i).incarnation, .stale t'⟩ }
         else
           { s with
             ort := put s.ort i (slotFreed (pick s.ort i))
             timers := put s.timers i .none
             intake := headNotified s.intake }))) ∧
  (∀ (r : Response) (s : State), Running s →
     (s.down.link = .up → ¬ Claims.answersAPiece r s →
       let t := namedBy r s
       let p := t.bind fun t => t.piece r.tag.piece
       exec (.responseArrival r) s =
         .next (returnRequest 1 none none
           (appendFault
             { kind := .unmatchedResponse, port := .down, requester := t.map Tracked.requester
               tag := t.map Tracked.tag, generation := t.map Tracked.generation
               address := t.bind fun t => p.map fun p => t.address + BitVec.ofNat 48 p.offset
               window := p.map Piece.window
               code := match r.body with
                 | .errsp c => some (.downstream c)
                 | .rdrsp _ _ | .wrrsp => none }
             { s with responses := { s.responses with unmatched := s.responses.unmatched + 1 } }))) ∧
     (s.down.link ≠ .up → exec (.responseArrival r) s = .next s))

/-- R68 and R192: a return that fits raises the available count; one that does not leaves it at the maximum, counts each
dropped credit, and appends one CREDIT_EXCESS record. A CRET returns its count to the pool of its class; one of another
count, or at a port that is not UP, has no effect. -/
def Obligations.CreditReturnsAreCapped : Prop :=
  ∀ (n : Nat) (w : Option WinIndex) (g : Option Generation) (s : State),
    let rq := s.issue.requestPool
    let po := s.issue.postedPool
    let counted : Nat → ResponseCounters := fun k =>
      { s.responses with excessCredits := s.responses.excessCredits + BitVec.ofNat 32 k }
    let requests : Nat → IssueUnit := fun k => { s.issue with requestPool := { rq with available := k } }
    let posted : Nat → IssueUnit := fun k => { s.issue with postedPool := { po with available := k } }
    (rq.available + n ≤ rq.maximum →
      returnRequest n w g s = { s with issue := requests (rq.available + n) }) ∧
    (rq.maximum < rq.available + n →
      returnRequest n w g s =
        appendFault { kind := .creditExcess, port := .down, window := w, generation := g }
          { s with issue := requests rq.maximum, responses := counted (rq.available + n - rq.maximum) }) ∧
    ∀ c : BitVec 16, Running s →
      (s.down.link = .up → 1 ≤ c.toNat → c.toNat ≤ 255 →
        exec (.downstreamCret .request c) s = .next (returnRequest c.toNat none none s) ∧
        (po.available + c.toNat ≤ po.maximum →
          exec (.downstreamCret .posted c) s = .next { s with issue := posted (po.available + c.toNat) }) ∧
        (po.maximum < po.available + c.toNat →
          exec (.downstreamCret .posted c) s =
            .next (appendFault { kind := .creditExcess, port := .down }
              { s with
                issue := posted po.maximum
                responses := counted (po.available + c.toNat - po.maximum) }))) ∧
      ∀ cls, s.down.link ≠ .up ∨ c.toNat = 0 ∨ 255 < c.toNat → exec (.downstreamCret cls c) s = .next s

/-! ## Deadlines, commit unit, notices and lease: the part's own events -/

/-- A record at its deadline: QUEUED pieces FAILED with TIMEOUT, the Failure TIMEOUT if it was absent (R104). -/
def Sys2Proof.Claims.timedOut (t : Tracked) : Tracked :=
  { t with
    failure := some (t.failure.getD .timeout)
    pieces := t.pieces.map fun p => if p.state = .queued then { p with state := .failed .timeout } else p }

/-- R104, R105 and R74: a deadline that runs out takes its slot out of OPEN: its QUEUED pieces leave the FIFO and
fail, one ERRSP carries its Failure, a TIMEOUT record is appended, its hold is released, and it is STALE with the
reclaim period when a piece is ISSUED, and else FREE; a drain whose last hold it was then ends (R118, log entry 4).
Intake's mark of a due examination is the model's (log entry 13). -/
def Obligations.DeadlineExpiryAnswersTheRequester : Prop :=
  ∀ (i : SlotNum) (t : Tracked) (s : State), Running s → (pick s.ort i).occ = .opened t →
    pick s.timers i = .deadline 0 →
    let q := fifoOf s t.requester
    let mine : FifoEntry → Bool := fun e =>
      match e with
      | .tracked j _ _ => j == i
      | .posted _ _ _ _ => false
    let code := failureCode (t.failure.getD .timeout)
    let waiting := t.pieces.find? fun p => p.state == .queued || p.state == .issued
    let removed : State :=
      { s with
        issue := { s.issue with fifos := put s.issue.fifos t.requester (q.filter fun e => !mine e) }
        intake := if q.any mine then spaceFreed t.requester s.intake else s.intake
        ort := put s.ort i ⟨(pick s.ort i).incarnation, .opened (timedOut t)⟩ }
    let told := appendFault
      { kind := .timeout, port := .down, requester := some t.requester, tag := some t.tag
        address := some t.address, window := waiting.map Piece.window, generation := some t.generation
        code := some code }
      (produce .up (.errsp t.requester t.tag code) removed)
    let past : State := { told with commit := released t.generation told.commit }
    (t.pieces.any (fun p => p.state == .issued) = true →
      exec (.deadlineExpiry i) s =
        .next (drained { past with
          ort := put past.ort i ⟨(pick s.ort i).incarnation, .stale (timedOut t)⟩
          timers := put s.timers i (.reclaim s.mgmt.config.reclaimPeriod) })) ∧
    (t.pieces.any (fun p => p.state == .issued) = false →
      exec (.deadlineExpiry i) s =
        .next (drained { past with
          ort := put past.ort i (slotFreed (pick s.ort i))
          timers := put s.timers i .none
          intake := headNotified past.intake }))

/-- R107 and R108: a reclaim timer that runs out returns one request credit for each piece still ISSUED, as one
return, frees the slot, and appends a STALE_RECLAIMED record. Intake's mark of a due examination is the model's (log
entry 13). -/
def Obligations.ReclaimExpiryFreesTheSlot : Prop :=
  ∀ (i : SlotNum) (t : Tracked) (s : State), Running s → (pick s.ort i).occ = .stale t →
    pick s.timers i = .reclaim 0 →
    let issued : Piece → Bool := fun p => p.state == .issued
    let first := (t.pieces.find? issued).map Piece.window
    let back := returnRequest (t.pieces.countP issued) first (some t.generation) s
    exec (.reclaimExpiry i) s =
      .next (appendFault
        { kind := .staleReclaimed, port := .down, requester := some t.requester, tag := some t.tag
          address := some t.address, window := first, generation := some t.generation
          code := t.failure.map failureCode }
        { back with
          ort := put s.ort i (slotFreed (pick s.ort i))
          timers := put s.timers i .none
          intake := headNotified s.intake })

/-- R118, R119 and R122: the drain of a DRAINING bank whose open count is 0 ends with the bank FREE; a held commit's
swap then executes in the same event, with that bank as the FREE one. The events that release holds end such a drain
themselves (log entry 4). R124 and R125: a fill copies the live entry of
its progress into the staged bank as stored; when 64 are copied the staged bank is WRITABLE and STAGED_READY is
raised. That a step waits for a µs is the model's mark (log entry 13). Intake's mark of a due examination is the
model's too. -/
def Obligations.DrainsEndAndFillsComplete : Prop :=
  (∀ (d : BankNum) (s : State), Running s → s.commit.drainingBank = some d → s.commit.drainingOpen = 0 →
     (s.commit.heldCommit = false →
       exec .drainEnd s =
         .next { s with commit := { s.commit with drainingBank := none, freeBank := some d } }) ∧
     (s.commit.heldCommit = true →
       exec .drainEnd s =
         .next { s with commit := afterSwap d s.commit, intake := headNotified s.intake })) ∧
  (∀ (s : State), Running s → s.commit.condition = .filling →
     (∀ i : WinIndex, s.commit.fillStepDue = true → s.commit.fillProgress = i.val →
       let staged := pick s.banks s.commit.stagedBank
       let live := pick s.banks s.commit.liveBank
       exec .fillStep s =
         .next { s with
           banks := put s.banks s.commit.stagedBank (put staged i (pick live i))
           commit := { s.commit with fillProgress := i.val + 1, fillStepDue := false } }) ∧
     (s.commit.fillProgress = 64 →
       exec .fillCompletion s =
         .next (raiseClass .stagedReady
           { s with commit := { s.commit with condition := .writable, fillStepDue := false } })))

/-- The notice unit after the end of a lease (R164). -/
def Sys2Proof.Claims.noticeDropped (n : NoticeUnit) : NoticeUnit :=
  { n with pending := n.pending ||| n.reported, reported := 0#6, outstanding := none, resendTimer := none }

/-- The commit unit after the cancelling of a held commit (R127). -/
def Sys2Proof.Claims.heldCancelled (c : CommitUnit) : CommitUnit :=
  if c.heldCommit then { c with heldCommit := false, condition := .writable } else c

/-- R176 and R128 at the lease timer's expiry (R177): the lease ends, a held commit is cancelled, the dropped notice's
classes return to Pending, and a LEASE_LAPSED record is appended; a lease held through the other port is not touched,
and with no lease nothing lapses. -/
def Obligations.LeaseTimerExpiryLapsesTheLease : Prop :=
  (∀ s : State, s.mgmt.lease = none → (∀ k, endLease k s = s) ∧ ∀ p, lapseThrough p s = s) ∧
  ∀ (l : Lease) (s : State), s.mgmt.lease = some l →
    let ended : FaultKind → State := fun k =>
      appendFault { kind := k, port := l.holder.port, requester := some l.holder.requester }
        { s with
          mgmt := { s.mgmt with lease := none }
          commit := heldCancelled s.commit
          notice := noticeDropped s.notice }
    (Running s → l.timer = 0 → exec .leaseTimerExpiry s = .next (ended .leaseLapsed)) ∧
    (∀ k, endLease k s = ended k) ∧
    lapseThrough l.holder.port s = ended .leaseLapsed ∧
    ∀ p, p ≠ l.holder.port → lapseThrough p s = s

/-- The commands before which the time of a timer, or of a fill's next entry, may pass (log entry 3). -/
def Sys2Proof.Claims.letsTimePass : Instr → Bool
  | .deadlineExpiry _ | .reclaimExpiry _ | .fillStep | .resendExpiry | .leaseTimerExpiry
  | .trainingTimerExpiry _ | .holdOffExpiry _ => true
  | _ => false

/-- A port that has sent what it held. -/
def Sys2Proof.Claims.portEmptied (x : Port) : Port := { x with tx := [], sent := x.sent ++ x.tx }

/-- A port `n` µs later, every packet it held sent (R187, R89). -/
def Sys2Proof.Claims.portAfter (n : Nat) (x : Port) : Port :=
  { portEmptied x with
    trainingTimer := x.trainingTimer.map fun m => m - n
    holdOffTimer := x.holdOffTimer.map fun m => m - n }

/-- The part `n` µs later, its ports having sent what they held (R101, R124, R187). -/
def Sys2Proof.Claims.partAfter (n : Nat) (s : State) : State :=
  { s with
    now := s.now + n
    up := portAfter n s.up
    down := portAfter n s.down
    timers := s.timers.map fun
      | .none => .none
      | .deadline m => .deadline (m - n)
      | .reclaim m => .reclaim (m - n)
    issue := { s.issue with sendPathBusy := false }
    notice := { s.notice with resendTimer := s.notice.resendTimer.map fun m => m - n }
    mgmt := { s.mgmt with lease := s.mgmt.lease.map fun l => { l with timer := l.timer - n } }
    commit := { s.commit with fillStepDue := s.commit.condition == .filling } }

/-- The part after a timed event, if it is due. -/
def Sys2Proof.Claims.runIfDue (c : Instr) (s : State) : State :=
  if isDue c s then
    match exec c s with
    | .next t => t
    | .fault _ | .refused _ => s
  else s

/-- R101, R124, R160, R177 and R187: the passing of `n` µs is exact. In each of them the events then due are taken,
and every running timer falls by one. A timer with `n` µs left expires `n` µs later, and a fill copies its next entry
a µs after the last: the command of such an event does what it does in the part that much later, in which the timer
stands at 0. A notice whose lease has ended by then is not repeated; the fill's clause has the roles law as a premise,
which every step keeps. That the command itself lets that time pass is the model's (log entry 3), and so are the
order at one µs (log entry 2), the lists of packets (log entry 8), the send path's mark (log entry 9) and the fill's
mark (log entry 13). -/
def Obligations.TimedEventsComeWhenTheirTimeHasPassed : Prop :=
  (∀ (n : Nat) (s : State), Running s →
    takeDue s = timedCommands.foldl (fun x c => runIfDue c x) s ∧
    advance 0 s = s ∧ advance (n + 1) s = advance n (partAfter 1 (takeDue s)) ∧ (advance n s).now = s.now + n) ∧
  ∀ (n : Nat) (s : State), Running s →
    let t := advance n s
    (∀ i, (openAt s i).isSome = true → pick s.timers i = .deadline n →
      openAt t i = openAt s i ∧ pick t.timers i = .deadline 0 ∧
        exec (.deadlineExpiry i) s = exec (.deadlineExpiry i) t) ∧
    (∀ i, (staleAt s i).isSome = true → pick s.timers i = .reclaim n →
      staleAt t i = staleAt s i ∧ pick t.timers i = .reclaim 0 ∧
        exec (.reclaimExpiry i) s = exec (.reclaimExpiry i) t) ∧
    (∀ l, s.mgmt.lease = some l → l.timer = n →
      t.mgmt.lease = some { l with timer := 0 } ∧ exec .leaseTimerExpiry s = exec .leaseTimerExpiry t) ∧
    (s.mgmt.lease.isSome = true → s.notice.outstanding.isSome = true → s.notice.resendTimer = some n →
      (t.mgmt.lease.isSome = true → t.notice.resendTimer = some 0) ∧ exec .resendExpiry s = exec .resendExpiry t) ∧
    (∀ p, (s.port p).link = .training → (s.port p).trainingTimer = some n →
      (t.port p).link = .training ∧ (t.port p).trainingTimer = some 0 ∧
        exec (.trainingTimerExpiry p) s = exec (.trainingTimerExpiry p) t) ∧
    (∀ p, (s.port p).link = .down → (s.port p).holdOffTimer = some n →
      (t.port p).link = .down ∧ (t.port p).holdOffTimer = some 0 ∧
        exec (.holdOffExpiry p) s = exec (.holdOffExpiry p) t) ∧
    (n = 1 → RolesLaw s → s.commit.condition = .filling → s.commit.fillProgress < 64 →
      s.commit.fillStepDue = false → t.commit.fillStepDue = true ∧ exec .fillStep s = exec .fillStep t)

/-- The commands with which a port may send: a grant, a peer's signal, and those that let time pass. -/
def Sys2Proof.Claims.maySend (c : Instr) : Bool :=
  letsTimePass c ||
    match c with
    | .grant | .peerDetect _ => true
    | _ => false

/-- Every command answers a next state in every state. It leaves the queue of waiting commands; but for the two cold
resets and the events that let time pass (log entry 3), it leaves the timebase; the packets sent stay sent, and none
joins them but at those events, at a grant and at a peer's signal (log entries 8 and 9). While RESET_N is low no
command but those of the pins and of the signal has an effect (R195, log entry 7). An event of the part's own whose
condition does not hold changes nothing (log entry 1). -/
def Obligations.EveryCommandAnswersANextState : Prop :=
  ((∀ (c : Instr) (s : State), ∃ t, exec c s = .next t ∧
       t.pending = s.pending ∧
       (∀ p, (s.port p).sent <+: (t.port p).sent ∧ (maySend c = false → (t.port p).sent = (s.port p).sent)) ∧
       ((∀ x h, c ≠ .resetNAssert ∧ c ≠ .powerUp x h) →
         s.now ≤ t.now ∧ (letsTimePass c = false → t.now = s.now))) ∧
     ∀ (c : Instr) (s : State), s.resetHeld = true → pinCommand c = false → exec c s = .next s) ∧
  (∀ (s : State), Running s →
     (chooseFifo s = none → exec .grant s = .next s) ∧
     (∀ i, openAt s i = none ∨ (∀ n, pick s.timers i ≠ .deadline n) → exec (.deadlineExpiry i) s = .next s) ∧
     (∀ i, staleAt s i = none ∨ (∀ n, pick s.timers i ≠ .reclaim n) → exec (.reclaimExpiry i) s = .next s) ∧
     (s.commit.drainingBank = none ∨ s.commit.drainingOpen ≠ 0 → exec .drainEnd s = .next s) ∧
     (s.commit.condition ≠ .filling ∨ 64 ≤ s.commit.fillProgress → exec .fillStep s = .next s) ∧
     (s.commit.condition ≠ .filling ∨ s.commit.fillProgress ≠ 64 → exec .fillCompletion s = .next s) ∧
     (s.mgmt.lease = none ∨ s.notice.outstanding = none ∨ s.notice.resendTimer = none →
       exec .resendExpiry s = .next s) ∧
     (s.mgmt.lease = none → exec .leaseTimerExpiry s = .next s) ∧
     (s.intake.examDue = false → exec .headExamination s = .next s) ∧
     (∀ m rest, s.intake.queue = .mcmd m :: rest → exec .headExamination s = .next s) ∧
     (∀ q rest, s.intake.queue = .request q :: rest → exec .mcmdAtHead s = .next s) ∧
     (s.intake.queue = [] → exec .headExamination s = .next s ∧ exec .mcmdAtHead s = .next s) ∧
     ∀ p,
       ((s.port p).link ≠ .training ∨ (s.port p).trainingTimer = none →
         exec (.trainingTimerExpiry p) s = .next s) ∧
       ((s.port p).link ≠ .down ∨ (s.port p).holdOffTimer = none → exec (.holdOffExpiry p) s = .next s))

/-! ## The link -/

/-- The part after its upstream or downstream port has gone from TRAINING to DOWN (R187, R190). -/
def Sys2Proof.Claims.trainingFailed (p : PortId) (s : State) : State :=
  match p with
  | .up => linkEvent .up { s with up := portFallen s.up }
  | .down =>
    let x := linkEvent .down { s with down := portFallen s.down }
    { x with intake := headNotified x.intake }

/-- R187, R188 and R190: a DOWN port whose hold-off timer is stopped enters TRAINING at a peer's signal: its INIT is
sent, the training timer starts at 10,000 µs, and the transition is recorded; while the hold-off timer runs the
signal is only noted, and is taken when that timer expires with the signal present. R188, R75 and R29: the peer's
INIT takes a TRAINING port to UP (the pool's when both its counts are 1 to 255, with both pools set from them and
the link-down logged flag cleared); a refused INIT, the training timer, a loss of signal or an error burst takes it
to DOWN. That the signal is a pin the report sets and clears is the model's (log entry 7), that an INIT outside
TRAINING changes nothing here (log entry 21), the record of what was sent (log entry 8), and intake's mark (log entry
13). -/
def Obligations.PortsTrainOrFail : Prop :=
  (∀ (s : State), Running s →
     let upTrains : State := linkEvent .up { s with
       up := { portTraining (.init .intake 32 0) s.up with signal := true } }
     let downTrains : State :=
       let x := linkEvent .down { s with
         down := { portTraining (.init .none 0 0) s.down with signal := true } }
       { x with intake := headNotified x.intake }
     (s.up.link = .down → s.up.holdOffTimer = none → exec (.peerDetect .up) s = .next upTrains) ∧
     (s.down.link = .down → s.down.holdOffTimer = none → exec (.peerDetect .down) s = .next downTrains) ∧
     (s.up.link ≠ .down ∨ s.up.holdOffTimer ≠ none →
       exec (.peerDetect .up) s = .next { s with up := { s.up with signal := true } }) ∧
     (s.down.link ≠ .down ∨ s.down.holdOffTimer ≠ none →
       exec (.peerDetect .down) s = .next { s with down := { s.down with signal := true } }) ∧
     (s.up.link = .down → s.up.holdOffTimer = some 0 →
       (s.up.signal = true → exec (.holdOffExpiry .up) s = .next upTrains) ∧
       (s.up.signal = false →
         exec (.holdOffExpiry .up) s = .next { s with up := { s.up with holdOffTimer := none } })) ∧
     (s.down.link = .down → s.down.holdOffTimer = some 0 →
       (s.down.signal = true → exec (.holdOffExpiry .down) s = .next downTrains) ∧
       (s.down.signal = false →
         exec (.holdOffExpiry .down) s = .next { s with down := { s.down with holdOffTimer := none } }))) ∧
  (∀ (c : InitCounts) (s : State), Running s →
     let good := 1 ≤ c.request.toNat ∧ c.request.toNat ≤ 255 ∧ 1 ≤ c.posted.toNat ∧ c.posted.toNat ≤ 255
     (s.up.link = .training →
       exec (.initReceived .up c) s =
         .next (linkEvent .up { s with up := { s.up with link := .up, trainingTimer := none } })) ∧
     (s.down.link = .training → good →
       let x := linkEvent .down { s with down := { s.down with link := .up, trainingTimer := none } }
       exec (.initReceived .down c) s =
         .next { x with
           intake := headNotified { x.intake with linkDownLogged := false }
           issue := { x.issue with
             requestPool := ⟨c.request.toNat, c.request.toNat⟩
             postedPool := ⟨c.posted.toNat, c.posted.toNat⟩ } }) ∧
     (s.down.link = .training → ¬ good → exec (.initReceived .down c) s = .next (trainingFailed .down s)) ∧
     ∀ p,
       ((s.port p).link ≠ .training → exec (.initReceived p c) s = .next s) ∧
       ((s.port p).link = .training →
         ((s.port p).trainingTimer = some 0 → exec (.trainingTimerExpiry p) s = .next (trainingFailed p s)) ∧
         exec (.errorBurst p) s = .next (trainingFailed p s) ∧
         exec (.lossOfSignal p) s =
           .next (trainingFailed p (s.setPort p { s.port p with signal := false }))) ∧
       ((s.port p).link = .down →
         exec (.errorBurst p) s = .next s ∧
         exec (.lossOfSignal p) s = .next (s.setPort p { s.port p with signal := false })))

/-- The part as a report or an INIT takes port `p` out of UP: a loss of signal clears the signal (R189). -/
def Sys2Proof.Claims.unsignalled (c : Instr) (p : PortId) (s : State) : State :=
  if c = .lossOfSignal p then s.setPort p { s.port p with signal := false } else s

/-- The events at which a port leaves UP (R189). -/
def Sys2Proof.Claims.leavesUp (p : PortId) : List Instr := [.lossOfSignal p, .errorBurst p, .initWhileUp p]

/-- R189, R40, R60, R172 and R177 for the upstream port: after the port's own record and LINK, intake's queue is
discarded without credits, the commands from that port are removed, and a lease held through it lapses; slots,
FIFOs, pools and timers stay. That a loss of signal clears the signal's pin is the model's (log entry 7). -/
def Obligations.UpstreamFallEmptiesIntake : Prop :=
  ∀ (c : Instr) (s : State), Running s → c ∈ leavesUp .up → s.up.link = .up →
    let s0 := unsignalled c .up s
    let x := linkEvent .up { s0 with up := portLost s0.up }
    let y : State :=
      { x with
        intake := { x.intake with queue := [], stall := .none, exhaustRaised := false, examDue := false }
        mgmt := { x.mgmt with queue := x.mgmt.queue.filter fun m => m.sender.port == .down } }
    exec c s = .next (lapseThrough .up y) ∧
    (lapseThrough .up y).ort = s.ort ∧ (lapseThrough .up y).timers = s.timers ∧
    (lapseThrough .up y).issue = s.issue

/-- A record as the downstream link falls: waiting pieces FAILED with LINK_DOWN, the Failure LINK_DOWN if it was
absent (R59). -/
def Sys2Proof.Claims.cutOff (t : Tracked) : Tracked :=
  { t with
    failure := some (t.failure.getD .linkDown)
    pieces := t.pieces.map fun p =>
      if p.state = .queued ∨ p.state = .issued then { p with state := .failed .linkDown } else p }

/-- The records of the OPEN slots, in ascending slot number. -/
def Sys2Proof.Claims.openRecords (s : State) : List Tracked := (List.finRange 128).filterMap (openAt s)

/-- The answers that reach an upstream port (R90). -/
def Sys2Proof.Claims.answersTo (x : Port) (ks : List OutPacket) : Port :=
  if x.link = .up then { x with tx := x.tx ++ ks } else x

/-- R189, R59, R76, R110, R172, R177 and R128 for the downstream port: after the port's own record and LINK, every
OPEN slot closes with an ERRSP of its Failure in ascending number and every STALE slot is FREE; every timer of a
slot in use is stopped; both pools are 0 with their maxima kept, the FIFOs are empty, posted entries are counted;
the commands from that port are removed and a lease held through it lapses; and a drain ends, with a held commit's
swap, as the last part of the event (R118, log entry 4). Where that lapse meets a drain end, which of the two comes
first is a free value (log entry 5); the signal's pin and intake's mark are the model's (log entries 7 and 13). -/
def Obligations.DownstreamFallClosesEverySlot : Prop :=
  ∀ (c : Instr) (s : State), Running s → c ∈ leavesUp .down → s.down.link = .up →
    let s0 := unsignalled c .down s
    let x := linkEvent .down { s0 with down := portLost s0.down }
    let posted := (s.issue.fifos.toList.map fun q => q.countP FifoEntry.isPosted).sum
    ∃ t y, exec c s = .next t ∧
      (∀ i, pick y.ort i = if (pick s.ort i).occ = .free then pick s.ort i else slotFreed (pick s.ort i)) ∧
      (∀ i, pick y.timers i = if (pick s.ort i).occ = .free then pick s.timers i else .none) ∧
      y = { x with
        ort := y.ort
        timers := y.timers
        up := answersTo x.up ((openRecords s).map fun t => failureAnswer (cutOff t))
        commit := (openRecords s).foldl (fun c t => released t.generation c) s.commit
        intake := headNotified s.intake
        issue := { s.issue with
          fifos := Vector.replicate 32 []
          requestPool := { s.issue.requestPool with available := 0 }
          postedPool := { s.issue.postedPool with available := 0 }
          sendPathBusy := false }
        mgmt := { s.mgmt with
          postedDiscards := s.mgmt.postedDiscards + BitVec.ofNat 32 posted
          queue := s.mgmt.queue.filter fun m => m.sender.port == .up } } ∧
      if (∃ l ∈ s.mgmt.lease, l.holder.port = .down) ∧ drainDue y = true then
        let y' : State := { y with freeCount := y.freeCount + 1 }
        t = drained (lapseThrough .down y') ∨ t = lapseThrough .down (drained y')
      else t = drained (lapseThrough .down y)

/-! ## Resets by the pins -/

/-- A port held at its cold reset values; its input and the model's record of what it sent stay (log entry 19). -/
def Sys2Proof.Claims.portHeld (x : Port) : Port := ⟨.down, none, none, x.signal, [], x.sent⟩

/-- R195 with R3, R21, R42, R62, R79, R97, R113, R130, R147, R156, R166, R173, R181, R185 and R187: RESET_N low, or
power-up with RESET_N low, holds every block at its cold reset values. At the release of RESET_N, and at power-up
with RESET_N high, the straps are sampled: the requester of MGR_ID may manage, and DMG_EN says whether downstream
management is allowed; the part then runs. A release of a RESET_N that is not held has no effect. That the held
state is where the machine starts, the timebase's 0, and what a cold reset leaves at a port are the model's (log
entries 6, 12 and 19). -/
def Obligations.PinsResetThePart : Prop :=
  (∀ (s : State),
     let cleared : WindowEntry := ⟨false, 0#32, 0#48, 0, 0#48, ⟨false, false, false⟩, .reject, false, .t0, .pass⟩
     let held : State :=
       { resetHeld := true
         now := 0
         up := portHeld s.up
         down := portHeld s.down
         intake := ⟨[], .none, false, false, false⟩
         banks := Vector.replicate 3 (Vector.replicate 64 cleared)
         commit := ⟨0, 1, none, some 2, 0#8, .writable, false, 64, 0, 0, false⟩
         ort := Vector.replicate 128 ⟨0, .free⟩
         timers := Vector.replicate 128 .none
         issue := ⟨Vector.replicate 32 [], ⟨0, 0⟩, ⟨0, 0⟩, 31, false⟩
         responses := ⟨0#32, 0#32⟩
         requesters := Vector.replicate 32 ⟨.disabled, 8, 0, 3, .reject, false, 0#32, 0#32⟩
         flog := ⟨[], 0#32⟩
         notice := ⟨0#6, 0#6, none, 0#8, none⟩
         mgmt := ⟨[], none, ⟨1000, 4000, 16000, 64000, 50000, 1000, 100, 10, 0x3F#6, .rotate, false⟩, 0#32, 0#32⟩
         freeCount := s.freeCount
         pending := s.pending }
     exec .resetNAssert s = .next held ∧ ∀ x, exec (.powerUp x false) s = .next held) ∧
  (∀ (x : Straps) (s : State),
     let started : State → State := fun s =>
       { s with
         resetHeld := false
         requesters := put s.requesters x.mgrId { pick s.requesters x.mgrId with mayManage := true }
         mgmt := { s.mgmt with config := { s.mgmt.config with downstreamManagement := x.dmgEn } } }
     (s.resetHeld = true → exec (.resetNRelease x) s = .next (started s)) ∧
     (s.resetHeld = false → exec (.resetNRelease x) s = .next s) ∧
     ∃ c, exec .resetNAssert s = .next c ∧ exec (.powerUp x true) s = .next (started c))

/-! ## Management commands -/

/-- The authority check (R170). -/
abbrev Sys2Proof.Claims.mayCommand (p : Party) (s : State) : Prop :=
  match p.port with
  | .up => (pick s.requesters p.requester).mayManage = true
  | .down => s.mgmt.config.downstreamManagement = true

/-- The sender is the lease holder (R168). -/
abbrev Sys2Proof.Claims.holds (p : Party) (s : State) : Prop := s.mgmt.lease.map Lease.holder = some p

/-- A command stands at the head of the management queue of a running part. -/
abbrev Sys2Proof.Claims.headCommand (c : QueuedCommand) (rest : List QueuedCommand) (s : State) : Prop :=
  Running s ∧ s.mgmt.queue = c :: rest

/-- The head of the management queue is the named command and passes the engine's checks, so that its owner executes
it (R168). -/
abbrev Sys2Proof.Claims.executes (k : Command) (c : QueuedCommand) (rest : List QueuedCommand) (s : State) : Prop :=
  headCommand c rest s ∧ c.command = k.code ∧ mayCommand c.sender s ∧ c.payload.length = k.payloadBytes ∧
    (k.leaseBound = true → holds c.sender s)

/-- The part with the taken command gone from the queue (R168). -/
def Sys2Proof.Claims.taken (rest : List QueuedCommand) (s : State) : State :=
  { s with mgmt := { s.mgmt with queue := rest } }

/-- A command's MRESP on its port (R169). -/
def Sys2Proof.Claims.replied (c : QueuedCommand) (st : Status) (res : Results) (s : State) : State :=
  produce c.sender.port (.mresp c.sender.requester c.sequence st res) s

/-- R168 to R171, with the codes and byte counts of R193 and R194: each of the 21 commands has the code of its place in
Table 10-2, is lease-free or lease-bound as that table gives, and has the operand byte count of Table 11-5. The
command at the head is refused NOT_PERMITTED, then BAD_ARG for an unknown command or a wrong byte count, then
NO_LEASE, each with no other effect than its MRESP; and a command row does not take a head of another code (log entry
1). -/
def Obligations.RefusedCommandsChangeNothing : Prop :=
  ((∀ k : Command, k ∈ commandRows.map CommandRow.command) ∧
   ∀ r ∈ commandRows, r.command.code = r.code ∧ r.command.payloadBytes = r.bytes ∧
     r.command.leaseBound = r.bound ∧ r.command.taking = r.taking) ∧
  ∀ (c : QueuedCommand) (rest : List QueuedCommand) (s : State), headCommand c rest s →
    (∀ k : Command, c.command = k.code →
      (¬ mayCommand c.sender s → exec k.taking s = .next (replied c .notPermitted .none (taken rest s))) ∧
      (mayCommand c.sender s → c.payload.length ≠ k.payloadBytes →
        exec k.taking s = .next (replied c .badArg .none (taken rest s))) ∧
      (mayCommand c.sender s → c.payload.length = k.payloadBytes → k.leaseBound = true → ¬ holds c.sender s →
        exec k.taking s = .next (replied c .noLease .none (taken rest s)))) ∧
    ((∀ k : Command, c.command ≠ k.code) →
      (¬ mayCommand c.sender s →
        exec .unknownCommand s = .next (replied c .notPermitted .none (taken rest s))) ∧
      (mayCommand c.sender s → exec .unknownCommand s = .next (replied c .badArg .none (taken rest s)))) ∧
    (∀ k : Command, c.command ≠ k.code → exec k.taking s = .next s) ∧
    ((∃ k : Command, c.command = k.code) → exec .unknownCommand s = .next s) ∧
    ∀ b : Byte, (∃ k : Command, k.code = b) ↔ 0x01 ≤ b.toNat ∧ b.toNat ≤ 0x15

/-- R180 and R132: STATUS answers a snapshot and changes no state; its FREE, OPEN and STALE slots are counted one by
one and sum to 128, and it counts the commands behind it. That the lease's time is in µs is the model's (log entry
15), and that it is 1 while the expiry is due (log entry 3). -/
def Obligations.StatusAnswersASnapshot : Prop :=
  ∀ (c : QueuedCommand) (rest : List QueuedCommand) (s : State), executes .status c rest s →
    ∃ v : StatusView,
      exec .status s = .next (replied c .ok (.status v) (taken rest s)) ∧
      v.lease = s.mgmt.lease.map (fun l => ⟨l.holder, max 1 l.timer, l.earlyCount⟩) ∧
      v.commit = ⟨s.commit.liveBank, s.commit.stagedBank, s.commit.drainingBank, s.commit.freeBank,
        s.commit.liveGeneration, s.commit.drainingBank.map fun _ => s.commit.liveGeneration - 1,
        s.commit.condition, s.commit.heldCommit, s.commit.fillProgress, s.commit.liveOpen,
        s.commit.drainingOpen⟩ ∧
      v.freeSlots = Set.ncard {i | (pick s.ort i).occ = .free} ∧
      v.openSlots = Set.ncard {i | (openAt s i).isSome = true} ∧
      v.staleSlots = Set.ncard {i | (staleAt s i).isSome = true} ∧
      v.freeSlots + v.openSlots + v.staleSlots = 128 ∧
      v.logCount = s.flog.records.length ∧ v.nextSequence = s.flog.nextSequence ∧
      v.upLink = s.up.link ∧ v.downLink = s.down.link ∧
      v.requestPool = s.issue.requestPool ∧ v.postedPool = s.issue.postedPool ∧
      v.stall = s.intake.stall ∧ v.queued = s.intake.queue.length ∧ v.waiting = rest.length

/-- The entry of a requester as RQ_READ answers it (R144). -/
def Sys2Proof.Claims.viewOf (s : State) (r : ReqNum) : RequesterView :=
  ⟨r, pick s.requesters r, openCount s r, (fifoOf s r).length⟩

/-- R179 and R181: IDENTIFY answers the part's codes and capacities, and CONFIG_READ the configuration. R63 and R144: RQ_READ
answers an entry with its Open count and Queued pieces, and ORT_READ a slot with its timer's remaining time; a number
outside the table is answered BAD_ARG. None of them changes any state. That a timer whose expiry is due shows 1 is the
model's (log entry 3). -/
def Obligations.ReadCommandsAnswerAsItStands : Prop :=
  (∀ (c : QueuedCommand) (rest : List QueuedCommand) (s : State),
     (executes .identify c rest s →
       exec .identify s =
         .next (replied c .ok
           (.identity
             { vendor := 0x5A17#16, part := 0x3064#16, revision := 2, entriesPerBank := 64, banks := 3
               slots := 128, requesters := 32, faultRecords := 32, fifoEntries := 8, intakePlaces := 32
               managementPlaces := 16 })
           (taken rest s))) ∧
     (executes .configRead c rest s →
       exec .configRead s = .next (replied c .ok (.config s.mgmt.config) (taken rest s)))) ∧
  (∀ (c : QueuedCommand) (rest : List QueuedCommand) (s : State) (b : Byte), c.payload = [b] →
     (executes .rqRead c rest s →
       (∀ r : ReqNum, b.toNat = r.val →
         exec .rqRead s = .next (replied c .ok (.requester (viewOf s r)) (taken rest s))) ∧
       (32 ≤ b.toNat → exec .rqRead s = .next (replied c .badArg .none (taken rest s)))) ∧
     (executes .ortRead c rest s →
       (∀ i : SlotNum, b.toNat = i.val →
         exec .ortRead s =
           .next (replied c .ok
             (.slot ⟨i, pick s.ort i,
               match pick s.timers i with
               | .none => none
               | .deadline n | .reclaim n => some (max 1 n)⟩)
             (taken rest s))) ∧
       (128 ≤ b.toNat → exec .ortRead s = .next (replied c .badArg .none (taken rest s)))))

/-- R17: WT_READ answers an entry of the LIVE, DRAINING or STAGED bank as stored, with the generation or the staged
condition; BAD_ARG for an operand out of range and for DRAINING without such a bank; BUSY for STAGED while it fills. It
changes no state. -/
def Obligations.WindowReadAnswersByRole : Prop :=
  ∀ (c : QueuedCommand) (rest : List QueuedCommand) (s : State) (role index : Byte),
    executes .wtRead c rest s → c.payload = [role, index] →
    let leads : Status → Results → Prop := fun st res =>
      exec .wtRead s = .next (replied c st res (taken rest s))
    let entry : BankNum → WinIndex → WindowEntry := fun b i => pick (pick s.banks b) i
    (64 ≤ index.toNat ∨ 3 ≤ role.toNat → leads .badArg .none) ∧
    ∀ i : WinIndex, index.toNat = i.val →
      (role = 0x00#8 →
        leads .ok (.windowEntry s.commit.liveBank (some s.commit.liveGeneration) none i
          (entry s.commit.liveBank i))) ∧
      (role = 0x02#8 → s.commit.drainingBank = none → leads .badArg .none) ∧
      (∀ d, role = 0x02#8 → s.commit.drainingBank = some d →
        leads .ok (.windowEntry d (some (s.commit.liveGeneration - 1)) none i (entry d i))) ∧
      (role = 0x01#8 → s.commit.condition = .filling → leads .busy .none) ∧
      (role = 0x01#8 → s.commit.condition ≠ .filling →
        leads .ok (.windowEntry s.commit.stagedBank none (some s.commit.condition) i
          (entry s.commit.stagedBank i)))

/-- A lease that starts or restarts at this event (R173, R174). -/
def Sys2Proof.Claims.leaseNow (p : Party) (s : State) : Lease := ⟨p, s.mgmt.config.leasePeriod * 1000, s.now, 0⟩

/-- The part with the lease replaced. -/
def Sys2Proof.Claims.leased (l : Option Lease) (s : State) : State := { s with mgmt := { s.mgmt with lease := l } }

/-- R173 and R165: CLAIM with no holder grants the lease, and after its MRESP the send condition is tested; another
party's lease is answered NOT_PERMITTED with its holder; the holder's own CLAIM does what its RENEW does. -/
def Obligations.ClaimGrantsAFreeLease : Prop :=
  ∀ (c : QueuedCommand) (rest : List QueuedCommand) (s : State), executes .claim c rest s →
    (s.mgmt.lease = none →
      let t := replied c .ok (.leaseGranted c.sender s.mgmt.config.leasePeriod s.mgmt.config.minimumSpacing)
        (leased (some (leaseNow c.sender s)) (taken rest s))
      (s.notice.outstanding = none → s.notice.pending ≠ 0#6 → exec .claim s = .next (noticeSent c.sender t)) ∧
      (s.notice.outstanding ≠ none ∨ s.notice.pending = 0#6 → exec .claim s = .next t)) ∧
    ∀ l, s.mgmt.lease = some l →
      (l.holder ≠ c.sender →
        exec .claim s = .next (replied c .notPermitted (.leaseHolder l.holder) (taken rest s))) ∧
      (l.holder = c.sender →
        exec .claim s =
          exec .renew { s with mgmt := { s.mgmt with queue := { c with command := 0x08#8 } :: rest } })

/-- R174 and R176: the holder's RENEW at or past the minimum spacing restarts the lease; an early one is answered
TOO_EARLY with the time left and counted, and the second early one revokes the lease after its answer. That the time
left is in µs is the model's (log entry 15). -/
def Obligations.RenewRestartsOrRevokes : Prop :=
  ∀ (c : QueuedCommand) (rest : List QueuedCommand) (s : State) (l : Lease), executes .renew c rest s →
    s.mgmt.lease = some l →
    let elapsed := s.now - l.lastRenewal
    let spacing := s.mgmt.config.minimumSpacing * 1000
    let early := replied c .tooEarly (.spacingRemaining (spacing - elapsed))
      { taken rest s with
        mgmt := { s.mgmt with queue := rest, earlyRenewals := s.mgmt.earlyRenewals + 1 } }
    (spacing ≤ elapsed →
      exec .renew s =
        .next (replied c .ok (.leasePeriod s.mgmt.config.leasePeriod)
          (leased (some (leaseNow c.sender s)) (taken rest s)))) ∧
    (elapsed < spacing → l.earlyCount = 0 →
      exec .renew s = .next (leased (some { l with earlyCount := 1 }) early)) ∧
    (elapsed < spacing → l.earlyCount = 1 → exec .renew s = .next (endLease .leaseRevoked early))

/-- R175: RELEASE ends the lease with OK; the outstanding notice is dropped and its classes return to Pending; a held
commit stays held and no fault record is appended. -/
def Obligations.ReleaseEndsTheLease : Prop :=
  ∀ (c : QueuedCommand) (rest : List QueuedCommand) (s : State), executes .release c rest s →
    ∃ t, exec .release s = .next t ∧
      t.mgmt.lease = none ∧ t.commit = s.commit ∧ t.flog = s.flog ∧
      t = replied c .ok .none { leased none (taken rest s) with notice := noticeDropped s.notice }

/-- R152 and R153: FLOG_READ answers the count and the oldest record, or NOTHING; FLOG_POP removes the oldest n records
or all of them, or answers BAD_ARG or NOTHING. Sequences, Dropped after and the next Sequence stay. -/
def Obligations.FaultLogIsReadAndPopped : Prop :=
  ∀ (c : QueuedCommand) (rest : List QueuedCommand) (s : State),
    (executes .flogRead c rest s →
      (s.flog.records = [] → exec .flogRead s = .next (replied c .nothing (.faultCount 0) (taken rest s))) ∧
      ∀ r rs, s.flog.records = r :: rs →
        exec .flogRead s = .next (replied c .ok (.faultHead (rs.length + 1) r) (taken rest s))) ∧
    ∀ b : Byte, executes .flogPop c rest s → c.payload = [b] →
      (b.toNat = 0 ∨ 32 < b.toNat → exec .flogPop s = .next (replied c .badArg .none (taken rest s))) ∧
      (1 ≤ b.toNat → b.toNat ≤ 32 →
        (s.flog.records = [] →
          exec .flogPop s = .next (replied c .nothing (.faultsRemoved 0 0) (taken rest s))) ∧
        ∀ gone left, s.flog.records = gone ++ left → gone ≠ [] → gone.length ≤ b.toNat →
          (gone.length < b.toNat → left = []) →
          exec .flogPop s =
            .next (replied c .ok (.faultsRemoved gone.length left.length)
              { taken rest s with flog := { s.flog with records := left } }))

/-- The conditions of R2 on a valid entry. -/
abbrev Sys2Proof.Claims.entryBounded (e : WindowEntry) : Prop :=
  e.base.toNat % 256 = 0 ∧ e.limit % 256 = 0 ∧ e.base.toNat < e.limit ∧ e.limit ≤ 2 ^ 48 ∧
    e.target.toNat % 256 = 0 ∧ e.target.toNat + (e.limit - e.base.toNat) ≤ 2 ^ 48

/-- The part with one entry of the staged bank replaced. -/
def Sys2Proof.Claims.entryWritten (i : WinIndex) (e : WindowEntry) (s : State) : State :=
  { s with banks := put s.banks s.commit.stagedBank (put (pick s.banks s.commit.stagedBank) i e) }

/-- The low `n` bytes of a number, most significant byte first, as a payload carries them (R194). -/
def Sys2Proof.Claims.wire (n : Nat) {w : Nat} (x : BitVec w) : List Byte :=
  (List.range n).reverse.map fun k => x.extractLsb' (8 * k) 8

/-- An action operand below 3 (Table 11-5). -/
def Sys2Proof.Claims.actionNamed (b : Byte) : Action :=
  if b = 0x00#8 then .reject else if b = 0x01#8 then .strike else .quarantine

/-- A deadline class operand below 4 (Table 11-5). -/
def Sys2Proof.Claims.classNamed (b : Byte) : DeadlineClass :=
  if b = 0x00#8 then .t0 else if b = 0x01#8 then .t1 else if b = 0x02#8 then .t2 else .t3

/-- R18 and R19: WT_WRITE replaces one entry of the STAGED bank; it is answered BAD_ARG for operands out of range and for a
valid entry that fails R2, and BUSY unless the staged bank is WRITABLE; an entry with Valid no is stored unchecked. The
operands of any 30 bytes (R194, Table 11-5): out of range are an Index above 63, a Limit above 2^48, a Violation action
above 02h, a Deadline class above 03h and an error handling above 01h; any byte but 00h is yes. -/
def Obligations.WindowWriteReplacesAStagedEntry : Prop :=
  (∀ (i v : Byte) (set : BitVec 32) (base : Addr) (limit : BitVec 56) (target : Addr) (rg va lv dc eh : Byte),
    wtWriteOf ([i, v] ++ wire 4 set ++ wire 6 base ++ wire 7 limit ++ wire 6 target ++ [rg, va, lv, dc, eh]) =
      if i.toNat < 64 ∧ limit.toNat ≤ 2 ^ 48 ∧ va.toNat < 3 ∧ dc.toNat < 4 ∧ eh.toNat < 2 then
        some (Fin.ofNat 64 i.toNat,
          { valid := v != 0#8, requesters := set, base := base, limit := limit.toNat, target := target
            rights := ⟨rg.getLsbD 0, rg.getLsbD 1, rg.getLsbD 2⟩
            violation := actionNamed va, logViolations := lv != 0#8, deadlineClass := classNamed dc
            errorHandling := if eh = 0x00#8 then .pass else .log })
      else none) ∧
  ∀ (c : QueuedCommand) (rest : List QueuedCommand) (s : State), executes .wtWrite c rest s →
    (wtWriteOf c.payload = none → exec .wtWrite s = .next (replied c .badArg .none (taken rest s))) ∧
    ∀ i e, wtWriteOf c.payload = some (i, e) →
      (s.commit.condition ≠ .writable → exec .wtWrite s = .next (replied c .busy .none (taken rest s))) ∧
      (s.commit.condition = .writable → e.valid = true → ¬ entryBounded e →
        exec .wtWrite s = .next (replied c .badArg .none (taken rest s))) ∧
      (s.commit.condition = .writable → e.valid = false ∨ entryBounded e →
        exec .wtWrite s =
          .next (replied c .ok (.windowWritten i s.commit.stagedBank) (entryWritten i e (taken rest s))))

/-- R20: WT_CLEAR clears every entry of the STAGED bank and of no other, so that lookup in it yields no window, and is
answered BUSY while the staged condition is FILLING or FROZEN. -/
def Obligations.WindowClearClearsTheStagedBank : Prop :=
  ∀ (c : QueuedCommand) (rest : List QueuedCommand) (s : State), executes .wtClear c rest s →
    (s.commit.condition ≠ .writable → exec .wtClear s = .next (replied c .busy .none (taken rest s))) ∧
    (s.commit.condition = .writable → ∃ t,
      exec .wtClear s = .next (replied c .ok (.stagedBank s.commit.stagedBank) t) ∧
      (∀ i, pick (pick t.banks s.commit.stagedBank) i
        = ⟨false, 0#32, 0#48, 0, 0#48, ⟨false, false, false⟩, .reject, false, .t0, .pass⟩) ∧
      (∀ b, b ≠ s.commit.stagedBank → pick t.banks b = pick s.banks b) ∧
      (∀ r a, lookup (pick t.banks s.commit.stagedBank) r a = none) ∧
      t = { taken rest s with banks := t.banks })

/-- R120, R121, R119 and R127: COMMIT swaps at once when no bank drains, is held when one does, and is BUSY unless
the staged bank is WRITABLE; COMMIT_CANCEL makes a frozen staged bank WRITABLE again, and is answered NOTHING
without a held commit. The swap begins with a FREE bank, as the roles law gives. Intake's mark of a due examination
is the model's (log entry 13). -/
def Obligations.CommitSwapsOrIsHeld : Prop :=
  ∀ (c : QueuedCommand) (rest : List QueuedCommand) (s : State),
    (executes .commit c rest s →
      (s.commit.condition ≠ .writable → exec .commit s = .next (replied c .busy .none (taken rest s))) ∧
      (∀ d, s.commit.condition = .writable → s.commit.drainingBank = some d →
        exec .commit s =
          .next (replied c .ok
            (.commitHeld s.commit.liveGeneration (s.commit.liveGeneration - 1) s.commit.drainingOpen)
            { taken rest s with commit := { s.commit with heldCommit := true, condition := .frozen } })) ∧
      ∀ f, s.commit.condition = .writable → s.commit.drainingBank = none → s.commit.freeBank = some f →
        exec .commit s =
          .next (replied c .ok
            (.commitSwapped (s.commit.liveGeneration + 1) s.commit.stagedBank f s.commit.liveBank
              (if s.commit.liveOpen = 0 then .free else .draining))
            { taken rest s with commit := afterSwap f s.commit, intake := headNotified s.intake })) ∧
    (executes .commitCancel c rest s →
      (s.commit.heldCommit = true →
        exec .commitCancel s =
          .next (replied c .ok (.stagedBank s.commit.stagedBank)
            { taken rest s with commit := { s.commit with heldCommit := false, condition := .writable } })) ∧
      (s.commit.heldCommit = false →
        exec .commitCancel s = .next (replied c .nothing .none (taken rest s))))

/-- An entry after the limits, Miss action, May manage and Clear strikes of an RQ_WRITE (R141). -/
def Sys2Proof.Claims.limitsWritten (w : RqWrite) (e : RequesterEntry) : RequesterEntry :=
  { e with
    openLimit := w.openLimit, strikeLimit := w.strikeLimit, missAction := w.missAction
    mayManage := w.mayManage, strikes := if w.clearStrikes then 0 else e.strikes }

/-- The State after an RQ_WRITE (R140). -/
def Sys2Proof.Claims.stateWritten (w : StateOperand) (x : RequesterState) : RequesterState :=
  match w with
  | .active => .active
  | .disabled => .disabled
  | .unchanged => x

/-- R139, R140 and R141: RQ_WRITE writes State, then the other fields, and answers the entry as it then stands; disabling
an ACTIVE requester withdraws its FIFO; operands out of range, and ACTIVE on a QUARANTINED requester, are BAD_ARG. The
operands of any 7 bytes (R194, Table 11-5): out of range are a requester above 31, a State above 02h, an Open limit of 0
or above 128, a Strike limit of 0 or above 15 and a Miss action above 02h; any byte but 00h is yes. That the MRESP
follows the withdrawal's answers is the model's reading (log entry 20), and a drain whose last hold the withdrawal
releases ends as the last part of the event (R118, log entry 4). R143: REINSTATE makes a QUARANTINED requester ACTIVE
with Strikes 0, answers NOTHING for any other, and BAD_ARG for a number outside 0 to 31. Intake's mark of a due
examination is the model's (log entry 13). -/
def Obligations.RequesterCommandsWriteTheEntry : Prop :=
  (∀ r st ol sl ma mm cs : Byte,
     rqWriteOf [r, st, ol, sl, ma, mm, cs] =
       if r.toNat < 32 ∧ st.toNat < 3 ∧ 1 ≤ ol.toNat ∧ ol.toNat ≤ 128 ∧ 1 ≤ sl.toNat ∧ sl.toNat ≤ 15 ∧
           ma.toNat < 3 then
         some
           { requester := Fin.ofNat 32 r.toNat
             state := if st = 0x00#8 then .active else if st = 0x01#8 then .disabled else .unchanged
             openLimit := ol.toNat, strikeLimit := sl.toNat, missAction := actionNamed ma
             mayManage := mm != 0#8, clearStrikes := cs != 0#8 }
       else none) ∧
  (∀ (c : QueuedCommand) (rest : List QueuedCommand) (s : State), executes .rqWrite c rest s →
     (rqWriteOf c.payload = none → exec .rqWrite s = .next (replied c .badArg .none (taken rest s))) ∧
     ∀ w, rqWriteOf c.payload = some w →
       let e := pick s.requesters w.requester
       let stated := put s.requesters w.requester { e with state := stateWritten w.state e.state }
       let disabling := w.state = .disabled ∧ e.state = .active
       let first : State := { taken rest s with requesters := stated }
       let second : State := if disabling then withdraw w.requester first else first
       let t : State :=
         { second with
           requesters := put s.requesters w.requester
             (limitsWritten w { e with state := stateWritten w.state e.state })
           intake := spaceFreed w.requester second.intake }
       (w.state = .active → e.state = .quarantined →
         exec .rqWrite s = .next (replied c .badArg .none (taken rest s))) ∧
       (w.state ≠ .active ∨ e.state ≠ .quarantined →
         exec .rqWrite s =
           .next (if disabling then drained (replied c .ok (.requester (viewOf t w.requester)) t)
             else replied c .ok (.requester (viewOf t w.requester)) t))) ∧
  (∀ (c : QueuedCommand) (rest : List QueuedCommand) (s : State) (b : Byte), executes .reinstate c rest s →
     c.payload = [b] →
     (32 ≤ b.toNat → exec .reinstate s = .next (replied c .badArg .none (taken rest s))) ∧
     ∀ r : ReqNum, b.toNat = r.val →
       let e := pick s.requesters r
       let t : State :=
         { taken rest s with
           requesters := put s.requesters r { e with state := .active, strikes := 0 }
           intake := spaceFreed r s.intake }
       (e.state = .quarantined →
         exec .reinstate s = .next (replied c .ok (.requester (viewOf t r)) t)) ∧
       (e.state ≠ .quarantined → exec .reinstate s = .next (replied c .nothing .none (taken rest s))))

/-- R160: the expiry of the resend timer merges Pending into Reported, repeats the NOTE under its number, and restarts the
timer with the resend period. R161: NOTE_ACK of the outstanding number clears Reported and stops the timer, and when
Pending is not empty a new notice follows its MRESP, which carries that notice's number; another number is BAD_ARG, and
none outstanding NOTHING. -/
def Obligations.NoticesAreRepeatedUntilAcknowledged : Prop :=
  (∀ (l : Lease) (n : Byte) (s : State), Running s → s.mgmt.lease = some l → s.notice.outstanding = some n →
     s.notice.resendTimer = some 0 →
     let all := s.notice.reported ||| s.notice.pending
     exec .resendExpiry s =
       .next (produce l.holder.port
         (.note l.holder.requester n all s.flog.records.length s.commit.liveGeneration)
         { s with notice :=
             { s.notice with
               pending := 0#6, reported := all, resendTimer := some (s.mgmt.config.resendPeriod * 1000) } })) ∧
  (∀ (c : QueuedCommand) (rest : List QueuedCommand) (s : State) (b : Byte), executes .noteAck c rest s →
     c.payload = [b] →
     let cleared : State :=
       { taken rest s with notice := { s.notice with reported := 0#6, outstanding := none, resendTimer := none } }
     (s.notice.outstanding = none → exec .noteAck s = .next (replied c .nothing .none (taken rest s))) ∧
     (∀ n, s.notice.outstanding = some n → b ≠ n →
       exec .noteAck s = .next (replied c .badArg .none (taken rest s))) ∧
     (s.notice.outstanding = some b →
       (s.notice.pending = 0#6 → exec .noteAck s = .next (replied c .ok (.newNotice none) cleared)) ∧
       (s.notice.pending ≠ 0#6 →
         exec .noteAck s =
           .next (noticeSent c.sender (replied c .ok (.newNotice (some s.notice.nextNumber)) cleared)))))

/-- R182: CONFIG_WRITE replaces every item or, for operands out of range, none; one that turns downstream management
off lapses a lease held downstream after its MRESP. The operands of any 18 bytes (R194, Table 11-5): out of range are a
class value or a reclaim period of 0, a lease period below 10 or above 10,000, a minimum spacing whose double exceeds
it, a resend period of 0 and an Arbiter mode above 01h; any byte but 00h is yes. R183: COUNTERS_READ answers every counter as it stands, and with
its flag yes every one of them becomes 0; any byte but 00h is yes (R194). -/
def Obligations.ConfigIsReplacedAndCountersAreRead : Prop :=
  (∀ (t0 t1 t2 t3 rp lp sp : BitVec 16) (rs cm am dm : Byte),
     configWriteOf (wire 2 t0 ++ wire 2 t1 ++ wire 2 t2 ++ wire 2 t3 ++ wire 2 rp ++ wire 2 lp ++ wire 2 sp
         ++ [rs, cm, am, dm]) =
       if 1 ≤ t0.toNat ∧ 1 ≤ t1.toNat ∧ 1 ≤ t2.toNat ∧ 1 ≤ t3.toNat ∧ 1 ≤ rp.toNat ∧ 10 ≤ lp.toNat ∧
           lp.toNat ≤ 10000 ∧ sp.toNat * 2 ≤ lp.toNat ∧ 1 ≤ rs.toNat ∧ am.toNat < 2 then
         some
           { t0 := t0.toNat, t1 := t1.toNat, t2 := t2.toNat, t3 := t3.toNat, reclaimPeriod := rp.toNat
             leasePeriod := lp.toNat, minimumSpacing := sp.toNat, resendPeriod := rs.toNat
             classMask := cm.extractLsb' 0 6, arbiterMode := if am = 0x00#8 then .fixed else .rotate
             downstreamManagement := dm != 0#8 }
       else none) ∧
  (∀ (c : QueuedCommand) (rest : List QueuedCommand) (s : State), executes .configWrite c rest s →
     (configWriteOf c.payload = none → exec .configWrite s = .next (replied c .badArg .none (taken rest s))) ∧
     ∀ g, configWriteOf c.payload = some g →
       let t := replied c .ok (.config g) { s with mgmt := { s.mgmt with queue := rest, config := g } }
       g.minimumSpacing * 2 ≤ g.leasePeriod ∧
       (g.downstreamManagement = true ∨ c.sender.port = .up → exec .configWrite s = .next t) ∧
       (g.downstreamManagement = false → c.sender.port = .down →
         exec .configWrite s = .next (endLease .leaseLapsed t))) ∧
  (∀ (c : QueuedCommand) (rest : List QueuedCommand) (s : State) (b : Byte), executes .countersRead c rest s →
     c.payload = [b] →
     let v : CountersView :=
       { requesters := (List.finRange 32).map fun r =>
           ((pick s.requesters r).accepted, (pick s.requesters r).refused)
         unmatched := s.responses.unmatched, excessCredits := s.responses.excessCredits
         postedDiscards := s.mgmt.postedDiscards, earlyRenewals := s.mgmt.earlyRenewals }
     let t := replied c .ok (.counters v) (taken rest s)
     (b = 0#8 → exec .countersRead s = .next t) ∧
     (b ≠ 0#8 → ∃ u, exec .countersRead s = .next u ∧
       (∀ r, pick u.requesters r = { pick s.requesters r with accepted := 0#32, refused := 0#32 }) ∧
       u = { t with
         requesters := u.requesters
         responses := ⟨0#32, 0#32⟩
         mgmt := { t.mgmt with postedDiscards := 0#32, earlyRenewals := 0#32 } }))

/-- R184 to R186, with R42, R61, R78, R97, R112, R129, R147, R156 and R166: after its MRESP, PART_RESET applies the
warm reset: intake empties with one CRET, OPEN slots are answered ABORTED and every slot in use is FREE, the FIFOs
empty, the pools refill while the link is UP, roles and fill are set by R129, counters, queue, lease and notices are
cleared, and a WARM_RESET record is appended last. Windows, configuration, entries, log and the ports' link states
stay. That the CRET precedes the answers is the model's order (log entry 10). -/
def Obligations.PartResetAppliesTheWarmReset : Prop :=
  ∀ (c : QueuedCommand) (rest : List QueuedCommand) (s : State), executes .partReset c rest s →
    let r := replied c .ok .none (taken rest s)
    let credits := if s.intake.queue = [] then [] else [OutPacket.cret s.intake.queue.length]
    let answers := (openRecords s).map fun t => OutPacket.errsp t.requester t.tag .aborted
    let refill : CreditPool → CreditPool := fun p =>
      { p with available := if s.down.link = .up then p.maximum else 0 }
    ∃ y, exec .partReset s =
        .next (appendFault
          { kind := .warmReset, port := c.sender.port, requester := some c.sender.requester } y) ∧
      (∀ i, pick y.ort i = if (pick s.ort i).occ = .free then pick s.ort i else slotFreed (pick s.ort i)) ∧
      (∀ k, pick y.requesters k = { pick s.requesters k with accepted := 0#32, refused := 0#32 }) ∧
      y = { r with
        up := answersTo r.up (credits ++ answers)
        intake := ⟨[], .none, false, false, false⟩
        ort := y.ort
        requesters := y.requesters
        timers := Vector.replicate 128 .none
        issue := { s.issue with
          fifos := Vector.replicate 32 []
          requestPool := refill s.issue.requestPool
          postedPool := refill s.issue.postedPool }
        responses := ⟨0#32, 0#32⟩
        commit := { s.commit with
          heldCommit := false
          condition := if s.commit.condition = .filling then .filling else .writable
          fillProgress := if s.commit.condition = .filling then 0 else s.commit.fillProgress
          fillStepDue := false
          liveOpen := 0
          drainingOpen := 0
          drainingBank := none
          freeBank := s.commit.freeBank <|> s.commit.drainingBank }
        mgmt := ⟨[], none, s.mgmt.config, 0#32, 0#32⟩
        notice := ⟨0#6, 0#6, none, s.notice.nextNumber, none⟩ }

/-! ## What every step keeps -/

/-- A property that every step keeps. -/
abbrev Sys2Proof.Claims.Kept (law : State → Prop) : Prop := ∀ s t, law s → step s = .next t → law t

/-- R149: every step keeps the log at 32 records at most, their Sequences one unbroken run that ends below the next
Sequence. R157 and R159: every step keeps a notice outstanding only while a lease is held, Reported empty and the resend
timer stopped without one, the timer running with one, and Pending empty for a holder with no notice outstanding. -/
def Obligations.LogAndNoticeLawsAreKept : Prop :=
  (Kept LogLaw) ∧
  (Kept NoticeLaw)

/-- R114 and R115: every step keeps the three banks in three distinct roles, one of DRAINING and FREE present, and a held
commit exactly while FROZEN. R51 and R117: every step keeps every OPEN slot on the live or the draining generation, and
the two open counts the numbers of those slots. R118: every step keeps a bank DRAINING exactly while the Draining open
count is above 0. -/
def Obligations.RolesAndGenerationLawsAreKept : Prop :=
  Kept RolesLaw ∧ Kept GenerationLaw ∧ Kept DrainLaw

/-- R2: every step keeps each valid entry of each bank within the conditions of R2. With it, R44, R45 and R57: every step
keeps the slot records as their States say. R49 and R101: every step keeps the Tags of a requester's OPEN slots distinct,
and each slot's timer in the Mode of its State. R15: with the laws of windows, roles and generations, every step keeps
the pieces of every OPEN slot inside the Target ranges of their windows, in the bank of the slot's Generation (R5). R4:
but for cold resets no command changes an entry of the LIVE bank, nor of a bank that is DRAINING and goes on
DRAINING. -/
def Obligations.SlotLawsAreKept : Prop :=
  (Kept WindowLaw ∧ Kept fun s => WindowLaw s ∧ SlotLaw s) ∧
  (Kept TagLaw ∧ Kept TimerLaw) ∧
  (Kept fun s => WindowLaw s ∧ RolesLaw s ∧ GenerationLaw s ∧ DrainLaw s ∧ TargetLaw s) ∧
  ∀ (c : Instr) (s t : State), RolesLaw s → exec c s = .next t →
    (∀ x h, c ≠ .resetNAssert ∧ c ≠ .powerUp x h) →
    pick t.banks s.commit.liveBank = pick s.banks s.commit.liveBank ∧
    ∀ d, s.commit.drainingBank = some d → t.commit.drainingBank = some d → pick t.banks d = pick s.banks d

/-- R67, R59, R76 and R70: every step keeps the slots FREE and the FIFOs empty while the downstream link is not UP;
with that, the available credits between 0 and the maximum, and 0 while the link is not UP; and the send path taken
exactly while the port holds its piece. The send path's mark is the model's (log entry 9). -/
def Obligations.DownstreamLawsAreKept : Prop :=
  Kept DownLaw ∧ (Kept fun s => DownLaw s ∧ PoolLaw s) ∧ Kept SendPathLaw

/-- R65: every step keeps each non-posted FIFO entry on a QUEUED piece of an OPEN slot of its requester, no two on one
piece, and each QUEUED piece of an OPEN slot in its FIFO. -/
def Obligations.FifoLawIsKept : Prop := Kept FifoLaw

/-- R73, R22, R64, R167 and the ranges of Tables 8-1 and 10-3: every step keeps the FIFO of a requester that is not ACTIVE
empty, the queues within their places, and the entries and the configuration within their ranges. -/
def Obligations.TableLawsAreKept : Prop :=
  Kept QuarantineLaw ∧ Kept QueueLaw ∧ Kept RequesterLaw ∧ Kept ConfigLaw

/-- R187, R25, R34, R40, R172 and R177: every step keeps the ports' timers with their link states; a head request
either stalled, under its own requester, or due for examination; and packets, commands and the lease only on ports
that are UP, with nothing to send at a port that is not (R189). Intake's mark of a due examination is the model's (log entry 13). -/
def Obligations.LinkHeadAndPortLawsAreKept : Prop :=
  (Kept fun s => LinkLaw s.up) ∧ (Kept fun s => LinkLaw s.down) ∧ Kept HeadLaw ∧ Kept PortLaw

/-- An upstream packet with Final set, to a requester and with a Tag. -/
def Sys2Proof.Claims.isFinalOf (r : ReqNum) (g : Tag) : OutPacket → Bool
  | .rdrsp r' g' _ _ _ final => final && r' == r && g' == g
  | .wrrsp r' g' | .errsp r' g' _ => r' == r && g' == g
  | .mresp _ _ _ _ | .note _ _ _ _ _ | .cret _ | .init _ _ _ | .rdreq _ _ _ | .wrreq _ _ _ _
  | .pwreq _ _ _ => false

/-- The Finals to a requester with a Tag that the upstream port has sent or is to send, and the OPEN slots of that
requester and Tag, which still owe one. -/
def Sys2Proof.Claims.finalsAndOpen (r : ReqNum) (g : Tag) (s : State) : Nat :=
  (s.up.sent ++ s.up.tx).countP (isFinalOf r g)
    + countSlots (Slot.openWith fun t => t.requester == r && t.tag == g) s

/-- The command takes a non-posted request of a requester and Tag from the intake queue: its examination ends in a
refusal or an acceptance (R23, R36, R35). -/
def Sys2Proof.Claims.takesNonPosted (r : ReqNum) (g : Tag) (c : Instr) (s t : State) : Bool :=
  match c, s.intake.queue with
  | .headExamination, .request q :: rest =>
    q.kind != .pwreq && q.requester == r && q.tag == g && t.intake.queue == rest
  | _, _ => false

/-- R56, the closing-response law: but for cold resets, while the upstream link stays UP, for every Requester and Tag
the Finals handed to the upstream port and the OPEN slots together grow by one exactly at the events that take a
non-posted request of that Requester and Tag from the intake queue, and stay the same at every other: each such request
gets one Final of its own, and no other Final is produced. The lists of packets are the model's (log entry 8). -/
def Obligations.EveryTakenRequestGetsOneFinal : Prop :=
  ∀ (c : Instr) (s t : State) (r : ReqNum) (g : Tag), exec c s = .next t →
    (∀ x h, c ≠ .resetNAssert ∧ c ≠ .powerUp x h) → s.up.link = .up → t.up.link = .up →
    finalsAndOpen r g t = finalsAndOpen r g s + if takesNonPosted r g c s t then 1 else 0

/-- A transition of a piece (Table 3-3), or none. -/
def Sys2Proof.Claims.pieceMoves : PieceState → PieceState → Bool
  | .queued, .issued | .queued, .failed .aborted | .queued, .failed .timeout => true
  | .issued, .done | .issued, .failed (.downstream _) => true
  | x, y => x == y

/-- Two records of one request: the fields of allocation kept, a Failure that is set kept, each piece's State moved by
Table 3-3 or kept (R44, R45, R53). -/
def Sys2Proof.Claims.sameRequest (t u : Tracked) : Prop :=
  u = { t with failure := u.failure, pieces := u.pieces } ∧
    (∀ f, t.failure = some f → u.failure = some f) ∧
    List.Forall₂ (fun p p' => p' = { p with state := p'.state } ∧ pieceMoves p.state p'.state = true)
      t.pieces u.pieces

/-- R43, R45, R46 and R53: but for cold resets, at every event a slot keeps its Incarnation and stays as it was, or is
allocated with every piece QUEUED and no Failure, or goes on with the same request, never from STALE to OPEN; or it
becomes FREE with its Incarnation advanced. The laws of the slots and FIFOs are premises, kept by every step. -/
def Obligations.SlotsMoveByTheirTransitions : Prop :=
  ∀ (c : Instr) (s t : State) (i : SlotNum), SlotLaw s → FifoLaw s → exec c s = .next t →
    (∀ x h, c ≠ .resetNAssert ∧ c ≠ .powerUp x h) →
    let x := pick s.ort i
    let y := pick t.ort i
    (x.occ ≠ .free ∧ y = slotFreed x) ∨
      (y.incarnation = x.incarnation ∧
        (y.occ = x.occ ∨
          (∃ u, x.occ = .free ∧ y.occ = .opened u ∧ u.failure = none ∧
            ∀ p ∈ u.pieces, p.state = .queued) ∨
          (∃ r u, x.occ = .opened r ∧ (y.occ = .opened u ∨ y.occ = .stale u) ∧ sameRequest r u) ∨
          ∃ r u, x.occ = .stale r ∧ y.occ = .stale u ∧ sameRequest r u))

/-- R66: but for cold resets, at every event a requester's FIFO keeps the order of the entries that stay, and entries join
at its tail alone, by an examination that accepts; a grant takes none but the head. -/
def Obligations.FifosKeepTheirOrder : Prop :=
  ∀ (c : Instr) (s t : State) (r : ReqNum), exec c s = .next t →
    (∀ x h, c ≠ .resetNAssert ∧ c ≠ .powerUp x h) →
    (∃ kept added, fifoOf t r = kept ++ added ∧ kept.Sublist (fifoOf s r) ∧
      (c ≠ .headExamination → added = []) ∧ (added ≠ [] → kept = fifoOf s r)) ∧
    (c = .grant → fifoOf t r = fifoOf s r ∨ fifoOf t r = (fifoOf s r).tail)
end

