-- ==== Sys2Proof/Laws/State.lean ====
section
/-! SUPPORT. What each named update of State makes of each field: one lemma per update and field, true by rfl, so
that no later proof unfolds a record update; and a port read after it has been replaced. -/

namespace Sys2Proof.Laws

open Sys2Proof.Machine

/-! ## Ports -/

@[simp] theorem port_up (s : State) : s.port .up = s.up := rfl
@[simp] theorem port_down (s : State) : s.port .down = s.down := rfl
@[simp] theorem setPort_up (s : State) (x : Port) : s.setPort .up x = { s with up := x } := rfl
@[simp] theorem setPort_down (s : State) (x : Port) : s.setPort .down x = { s with down := x } := rfl
@[simp] theorem port_setPort_same (s : State) (p : PortId) (x : Port) : (s.setPort p x).port p = x := by
  cases p <;> rfl
theorem port_setPort_other (s : State) {p q : PortId} (x : Port) (h : q ≠ p) :
    (s.setPort p x).port q = s.port q := by
  cases p <;> cases q <;> first | rfl | exact absurd rfl h

/-! ## setOcc -/

@[simp] theorem setOcc_resetHeld (i : SlotNum) (o : Occupancy) (s : State) :
    (setOcc i o s).resetHeld = s.resetHeld := rfl
@[simp] theorem setOcc_now (i : SlotNum) (o : Occupancy) (s : State) : (setOcc i o s).now = s.now := rfl
@[simp] theorem setOcc_up (i : SlotNum) (o : Occupancy) (s : State) : (setOcc i o s).up = s.up := rfl
@[simp] theorem setOcc_down (i : SlotNum) (o : Occupancy) (s : State) : (setOcc i o s).down = s.down := rfl
@[simp] theorem setOcc_intake (i : SlotNum) (o : Occupancy) (s : State) :
    (setOcc i o s).intake = s.intake := rfl
@[simp] theorem setOcc_banks (i : SlotNum) (o : Occupancy) (s : State) : (setOcc i o s).banks = s.banks := rfl
@[simp] theorem setOcc_commit (i : SlotNum) (o : Occupancy) (s : State) :
    (setOcc i o s).commit = s.commit := rfl
@[simp] theorem setOcc_ort (i : SlotNum) (o : Occupancy) (s : State) :
    (setOcc i o s).ort = put s.ort i { pick s.ort i with occ := o } := rfl
@[simp] theorem setOcc_timers (i : SlotNum) (o : Occupancy) (s : State) :
    (setOcc i o s).timers = s.timers := rfl
@[simp] theorem setOcc_issue (i : SlotNum) (o : Occupancy) (s : State) : (setOcc i o s).issue = s.issue := rfl
@[simp] theorem setOcc_responses (i : SlotNum) (o : Occupancy) (s : State) :
    (setOcc i o s).responses = s.responses := rfl
@[simp] theorem setOcc_requesters (i : SlotNum) (o : Occupancy) (s : State) :
    (setOcc i o s).requesters = s.requesters := rfl
@[simp] theorem setOcc_flog (i : SlotNum) (o : Occupancy) (s : State) : (setOcc i o s).flog = s.flog := rfl
@[simp] theorem setOcc_notice (i : SlotNum) (o : Occupancy) (s : State) :
    (setOcc i o s).notice = s.notice := rfl
@[simp] theorem setOcc_mgmt (i : SlotNum) (o : Occupancy) (s : State) : (setOcc i o s).mgmt = s.mgmt := rfl
@[simp] theorem setOcc_freeCount (i : SlotNum) (o : Occupancy) (s : State) :
    (setOcc i o s).freeCount = s.freeCount := rfl
@[simp] theorem setOcc_pending (i : SlotNum) (o : Occupancy) (s : State) :
    (setOcc i o s).pending = s.pending := rfl

/-! ## setTimer -/

@[simp] theorem setTimer_resetHeld (i : SlotNum) (x : SlotTimer) (s : State) :
    (setTimer i x s).resetHeld = s.resetHeld := rfl
@[simp] theorem setTimer_now (i : SlotNum) (x : SlotTimer) (s : State) : (setTimer i x s).now = s.now := rfl
@[simp] theorem setTimer_up (i : SlotNum) (x : SlotTimer) (s : State) : (setTimer i x s).up = s.up := rfl
@[simp] theorem setTimer_down (i : SlotNum) (x : SlotTimer) (s : State) : (setTimer i x s).down = s.down := rfl
@[simp] theorem setTimer_intake (i : SlotNum) (x : SlotTimer) (s : State) :
    (setTimer i x s).intake = s.intake := rfl
@[simp] theorem setTimer_banks (i : SlotNum) (x : SlotTimer) (s : State) :
    (setTimer i x s).banks = s.banks := rfl
@[simp] theorem setTimer_commit (i : SlotNum) (x : SlotTimer) (s : State) :
    (setTimer i x s).commit = s.commit := rfl
@[simp] theorem setTimer_ort (i : SlotNum) (x : SlotTimer) (s : State) : (setTimer i x s).ort = s.ort := rfl
@[simp] theorem setTimer_timers (i : SlotNum) (x : SlotTimer) (s : State) :
    (setTimer i x s).timers = put s.timers i x := rfl
@[simp] theorem setTimer_issue (i : SlotNum) (x : SlotTimer) (s : State) :
    (setTimer i x s).issue = s.issue := rfl
@[simp] theorem setTimer_responses (i : SlotNum) (x : SlotTimer) (s : State) :
    (setTimer i x s).responses = s.responses := rfl
@[simp] theorem setTimer_requesters (i : SlotNum) (x : SlotTimer) (s : State) :
    (setTimer i x s).requesters = s.requesters := rfl
@[simp] theorem setTimer_flog (i : SlotNum) (x : SlotTimer) (s : State) : (setTimer i x s).flog = s.flog := rfl
@[simp] theorem setTimer_notice (i : SlotNum) (x : SlotTimer) (s : State) :
    (setTimer i x s).notice = s.notice := rfl
@[simp] theorem setTimer_mgmt (i : SlotNum) (x : SlotTimer) (s : State) : (setTimer i x s).mgmt = s.mgmt := rfl
@[simp] theorem setTimer_freeCount (i : SlotNum) (x : SlotTimer) (s : State) :
    (setTimer i x s).freeCount = s.freeCount := rfl
@[simp] theorem setTimer_pending (i : SlotNum) (x : SlotTimer) (s : State) :
    (setTimer i x s).pending = s.pending := rfl

/-! ## setFifo -/

@[simp] theorem setFifo_resetHeld (r : ReqNum) (q : List FifoEntry) (s : State) :
    (setFifo r q s).resetHeld = s.resetHeld := rfl
@[simp] theorem setFifo_now (r : ReqNum) (q : List FifoEntry) (s : State) : (setFifo r q s).now = s.now := rfl
@[simp] theorem setFifo_up (r : ReqNum) (q : List FifoEntry) (s : State) : (setFifo r q s).up = s.up := rfl
@[simp] theorem setFifo_down (r : ReqNum) (q : List FifoEntry) (s : State) :
    (setFifo r q s).down = s.down := rfl
@[simp] theorem setFifo_intake (r : ReqNum) (q : List FifoEntry) (s : State) :
    (setFifo r q s).intake = s.intake := rfl
@[simp] theorem setFifo_banks (r : ReqNum) (q : List FifoEntry) (s : State) :
    (setFifo r q s).banks = s.banks := rfl
@[simp] theorem setFifo_commit (r : ReqNum) (q : List FifoEntry) (s : State) :
    (setFifo r q s).commit = s.commit := rfl
@[simp] theorem setFifo_ort (r : ReqNum) (q : List FifoEntry) (s : State) : (setFifo r q s).ort = s.ort := rfl
@[simp] theorem setFifo_timers (r : ReqNum) (q : List FifoEntry) (s : State) :
    (setFifo r q s).timers = s.timers := rfl
@[simp] theorem setFifo_issue (r : ReqNum) (q : List FifoEntry) (s : State) :
    (setFifo r q s).issue = { s.issue with fifos := put s.issue.fifos r q } := rfl
@[simp] theorem setFifo_responses (r : ReqNum) (q : List FifoEntry) (s : State) :
    (setFifo r q s).responses = s.responses := rfl
@[simp] theorem setFifo_requesters (r : ReqNum) (q : List FifoEntry) (s : State) :
    (setFifo r q s).requesters = s.requesters := rfl
@[simp] theorem setFifo_flog (r : ReqNum) (q : List FifoEntry) (s : State) :
    (setFifo r q s).flog = s.flog := rfl
@[simp] theorem setFifo_notice (r : ReqNum) (q : List FifoEntry) (s : State) :
    (setFifo r q s).notice = s.notice := rfl
@[simp] theorem setFifo_mgmt (r : ReqNum) (q : List FifoEntry) (s : State) :
    (setFifo r q s).mgmt = s.mgmt := rfl
@[simp] theorem setFifo_freeCount (r : ReqNum) (q : List FifoEntry) (s : State) :
    (setFifo r q s).freeCount = s.freeCount := rfl
@[simp] theorem setFifo_pending (r : ReqNum) (q : List FifoEntry) (s : State) :
    (setFifo r q s).pending = s.pending := rfl

/-! ## setEntry -/

@[simp] theorem setEntry_resetHeld (r : ReqNum) (e : RequesterEntry) (s : State) :
    (setEntry r e s).resetHeld = s.resetHeld := rfl
@[simp] theorem setEntry_now (r : ReqNum) (e : RequesterEntry) (s : State) :
    (setEntry r e s).now = s.now := rfl
@[simp] theorem setEntry_up (r : ReqNum) (e : RequesterEntry) (s : State) : (setEntry r e s).up = s.up := rfl
@[simp] theorem setEntry_down (r : ReqNum) (e : RequesterEntry) (s : State) :
    (setEntry r e s).down = s.down := rfl
@[simp] theorem setEntry_intake (r : ReqNum) (e : RequesterEntry) (s : State) :
    (setEntry r e s).intake = s.intake := rfl
@[simp] theorem setEntry_banks (r : ReqNum) (e : RequesterEntry) (s : State) :
    (setEntry r e s).banks = s.banks := rfl
@[simp] theorem setEntry_commit (r : ReqNum) (e : RequesterEntry) (s : State) :
    (setEntry r e s).commit = s.commit := rfl
@[simp] theorem setEntry_ort (r : ReqNum) (e : RequesterEntry) (s : State) :
    (setEntry r e s).ort = s.ort := rfl
@[simp] theorem setEntry_timers (r : ReqNum) (e : RequesterEntry) (s : State) :
    (setEntry r e s).timers = s.timers := rfl
@[simp] theorem setEntry_issue (r : ReqNum) (e : RequesterEntry) (s : State) :
    (setEntry r e s).issue = s.issue := rfl
@[simp] theorem setEntry_responses (r : ReqNum) (e : RequesterEntry) (s : State) :
    (setEntry r e s).responses = s.responses := rfl
@[simp] theorem setEntry_requesters (r : ReqNum) (e : RequesterEntry) (s : State) :
    (setEntry r e s).requesters = put s.requesters r e := rfl
@[simp] theorem setEntry_flog (r : ReqNum) (e : RequesterEntry) (s : State) :
    (setEntry r e s).flog = s.flog := rfl
@[simp] theorem setEntry_notice (r : ReqNum) (e : RequesterEntry) (s : State) :
    (setEntry r e s).notice = s.notice := rfl
@[simp] theorem setEntry_mgmt (r : ReqNum) (e : RequesterEntry) (s : State) :
    (setEntry r e s).mgmt = s.mgmt := rfl
@[simp] theorem setEntry_freeCount (r : ReqNum) (e : RequesterEntry) (s : State) :
    (setEntry r e s).freeCount = s.freeCount := rfl
@[simp] theorem setEntry_pending (r : ReqNum) (e : RequesterEntry) (s : State) :
    (setEntry r e s).pending = s.pending := rfl

/-! ## setBank -/

@[simp] theorem setBank_resetHeld (b : BankNum) (x : Bank) (s : State) :
    (setBank b x s).resetHeld = s.resetHeld := rfl
@[simp] theorem setBank_now (b : BankNum) (x : Bank) (s : State) : (setBank b x s).now = s.now := rfl
@[simp] theorem setBank_up (b : BankNum) (x : Bank) (s : State) : (setBank b x s).up = s.up := rfl
@[simp] theorem setBank_down (b : BankNum) (x : Bank) (s : State) : (setBank b x s).down = s.down := rfl
@[simp] theorem setBank_intake (b : BankNum) (x : Bank) (s : State) : (setBank b x s).intake = s.intake := rfl
@[simp] theorem setBank_banks (b : BankNum) (x : Bank) (s : State) :
    (setBank b x s).banks = put s.banks b x := rfl
@[simp] theorem setBank_commit (b : BankNum) (x : Bank) (s : State) : (setBank b x s).commit = s.commit := rfl
@[simp] theorem setBank_ort (b : BankNum) (x : Bank) (s : State) : (setBank b x s).ort = s.ort := rfl
@[simp] theorem setBank_timers (b : BankNum) (x : Bank) (s : State) : (setBank b x s).timers = s.timers := rfl
@[simp] theorem setBank_issue (b : BankNum) (x : Bank) (s : State) : (setBank b x s).issue = s.issue := rfl
@[simp] theorem setBank_responses (b : BankNum) (x : Bank) (s : State) :
    (setBank b x s).responses = s.responses := rfl
@[simp] theorem setBank_requesters (b : BankNum) (x : Bank) (s : State) :
    (setBank b x s).requesters = s.requesters := rfl
@[simp] theorem setBank_flog (b : BankNum) (x : Bank) (s : State) : (setBank b x s).flog = s.flog := rfl
@[simp] theorem setBank_notice (b : BankNum) (x : Bank) (s : State) : (setBank b x s).notice = s.notice := rfl
@[simp] theorem setBank_mgmt (b : BankNum) (x : Bank) (s : State) : (setBank b x s).mgmt = s.mgmt := rfl
@[simp] theorem setBank_freeCount (b : BankNum) (x : Bank) (s : State) :
    (setBank b x s).freeCount = s.freeCount := rfl
@[simp] theorem setBank_pending (b : BankNum) (x : Bank) (s : State) :
    (setBank b x s).pending = s.pending := rfl

/-! ## setLease -/

@[simp] theorem setLease_resetHeld (l : Option Lease) (s : State) :
    (setLease l s).resetHeld = s.resetHeld := rfl
@[simp] theorem setLease_now (l : Option Lease) (s : State) : (setLease l s).now = s.now := rfl
@[simp] theorem setLease_up (l : Option Lease) (s : State) : (setLease l s).up = s.up := rfl
@[simp] theorem setLease_down (l : Option Lease) (s : State) : (setLease l s).down = s.down := rfl
@[simp] theorem setLease_intake (l : Option Lease) (s : State) : (setLease l s).intake = s.intake := rfl
@[simp] theorem setLease_banks (l : Option Lease) (s : State) : (setLease l s).banks = s.banks := rfl
@[simp] theorem setLease_commit (l : Option Lease) (s : State) : (setLease l s).commit = s.commit := rfl
@[simp] theorem setLease_ort (l : Option Lease) (s : State) : (setLease l s).ort = s.ort := rfl
@[simp] theorem setLease_timers (l : Option Lease) (s : State) : (setLease l s).timers = s.timers := rfl
@[simp] theorem setLease_issue (l : Option Lease) (s : State) : (setLease l s).issue = s.issue := rfl
@[simp] theorem setLease_responses (l : Option Lease) (s : State) :
    (setLease l s).responses = s.responses := rfl
@[simp] theorem setLease_requesters (l : Option Lease) (s : State) :
    (setLease l s).requesters = s.requesters := rfl
@[simp] theorem setLease_flog (l : Option Lease) (s : State) : (setLease l s).flog = s.flog := rfl
@[simp] theorem setLease_notice (l : Option Lease) (s : State) : (setLease l s).notice = s.notice := rfl
@[simp] theorem setLease_mgmt (l : Option Lease) (s : State) :
    (setLease l s).mgmt = { s.mgmt with lease := l } := rfl
@[simp] theorem setLease_freeCount (l : Option Lease) (s : State) :
    (setLease l s).freeCount = s.freeCount := rfl
@[simp] theorem setLease_pending (l : Option Lease) (s : State) : (setLease l s).pending = s.pending := rfl

/-! ## holdTaken -/

@[simp] theorem holdTaken_resetHeld (s : State) : (holdTaken s).resetHeld = s.resetHeld := rfl
@[simp] theorem holdTaken_now (s : State) : (holdTaken s).now = s.now := rfl
@[simp] theorem holdTaken_up (s : State) : (holdTaken s).up = s.up := rfl
@[simp] theorem holdTaken_down (s : State) : (holdTaken s).down = s.down := rfl
@[simp] theorem holdTaken_intake (s : State) : (holdTaken s).intake = s.intake := rfl
@[simp] theorem holdTaken_banks (s : State) : (holdTaken s).banks = s.banks := rfl
@[simp] theorem holdTaken_commit (s : State) :
    (holdTaken s).commit = { s.commit with liveOpen := s.commit.liveOpen + 1 } := rfl
@[simp] theorem holdTaken_ort (s : State) : (holdTaken s).ort = s.ort := rfl
@[simp] theorem holdTaken_timers (s : State) : (holdTaken s).timers = s.timers := rfl
@[simp] theorem holdTaken_issue (s : State) : (holdTaken s).issue = s.issue := rfl
@[simp] theorem holdTaken_responses (s : State) : (holdTaken s).responses = s.responses := rfl
@[simp] theorem holdTaken_requesters (s : State) : (holdTaken s).requesters = s.requesters := rfl
@[simp] theorem holdTaken_flog (s : State) : (holdTaken s).flog = s.flog := rfl
@[simp] theorem holdTaken_notice (s : State) : (holdTaken s).notice = s.notice := rfl
@[simp] theorem holdTaken_mgmt (s : State) : (holdTaken s).mgmt = s.mgmt := rfl
@[simp] theorem holdTaken_freeCount (s : State) : (holdTaken s).freeCount = s.freeCount := rfl
@[simp] theorem holdTaken_pending (s : State) : (holdTaken s).pending = s.pending := rfl

/-! ## discardPosted -/

@[simp] theorem discardPosted_resetHeld (n : Nat) (s : State) :
    (discardPosted n s).resetHeld = s.resetHeld := rfl
@[simp] theorem discardPosted_now (n : Nat) (s : State) : (discardPosted n s).now = s.now := rfl
@[simp] theorem discardPosted_up (n : Nat) (s : State) : (discardPosted n s).up = s.up := rfl
@[simp] theorem discardPosted_down (n : Nat) (s : State) : (discardPosted n s).down = s.down := rfl
@[simp] theorem discardPosted_intake (n : Nat) (s : State) : (discardPosted n s).intake = s.intake := rfl
@[simp] theorem discardPosted_banks (n : Nat) (s : State) : (discardPosted n s).banks = s.banks := rfl
@[simp] theorem discardPosted_commit (n : Nat) (s : State) : (discardPosted n s).commit = s.commit := rfl
@[simp] theorem discardPosted_ort (n : Nat) (s : State) : (discardPosted n s).ort = s.ort := rfl
@[simp] theorem discardPosted_timers (n : Nat) (s : State) : (discardPosted n s).timers = s.timers := rfl
@[simp] theorem discardPosted_issue (n : Nat) (s : State) : (discardPosted n s).issue = s.issue := rfl
@[simp] theorem discardPosted_responses (n : Nat) (s : State) :
    (discardPosted n s).responses = s.responses := rfl
@[simp] theorem discardPosted_requesters (n : Nat) (s : State) :
    (discardPosted n s).requesters = s.requesters := rfl
@[simp] theorem discardPosted_flog (n : Nat) (s : State) : (discardPosted n s).flog = s.flog := rfl
@[simp] theorem discardPosted_notice (n : Nat) (s : State) : (discardPosted n s).notice = s.notice := rfl
@[simp] theorem discardPosted_mgmt (n : Nat) (s : State) :
    (discardPosted n s).mgmt = { s.mgmt with postedDiscards := s.mgmt.postedDiscards + BitVec.ofNat 32 n } := rfl
@[simp] theorem discardPosted_freeCount (n : Nat) (s : State) :
    (discardPosted n s).freeCount = s.freeCount := rfl
@[simp] theorem discardPosted_pending (n : Nat) (s : State) : (discardPosted n s).pending = s.pending := rfl

/-! ## keepRecord -/

@[simp] theorem keepRecord_resetHeld (r : FaultReport) (s : State) :
    (keepRecord r s).resetHeld = s.resetHeld := rfl
@[simp] theorem keepRecord_now (r : FaultReport) (s : State) : (keepRecord r s).now = s.now := rfl
@[simp] theorem keepRecord_up (r : FaultReport) (s : State) : (keepRecord r s).up = s.up := rfl
@[simp] theorem keepRecord_down (r : FaultReport) (s : State) : (keepRecord r s).down = s.down := rfl
@[simp] theorem keepRecord_intake (r : FaultReport) (s : State) : (keepRecord r s).intake = s.intake := rfl
@[simp] theorem keepRecord_banks (r : FaultReport) (s : State) : (keepRecord r s).banks = s.banks := rfl
@[simp] theorem keepRecord_commit (r : FaultReport) (s : State) : (keepRecord r s).commit = s.commit := rfl
@[simp] theorem keepRecord_ort (r : FaultReport) (s : State) : (keepRecord r s).ort = s.ort := rfl
@[simp] theorem keepRecord_timers (r : FaultReport) (s : State) : (keepRecord r s).timers = s.timers := rfl
@[simp] theorem keepRecord_issue (r : FaultReport) (s : State) : (keepRecord r s).issue = s.issue := rfl
@[simp] theorem keepRecord_responses (r : FaultReport) (s : State) :
    (keepRecord r s).responses = s.responses := rfl
@[simp] theorem keepRecord_requesters (r : FaultReport) (s : State) :
    (keepRecord r s).requesters = s.requesters := rfl
@[simp] theorem keepRecord_flog (r : FaultReport) (s : State) :
    (keepRecord r s).flog = ⟨s.flog.records ++ [⟨s.flog.nextSequence, r, 0⟩], s.flog.nextSequence + 1⟩ := rfl
@[simp] theorem keepRecord_notice (r : FaultReport) (s : State) : (keepRecord r s).notice = s.notice := rfl
@[simp] theorem keepRecord_mgmt (r : FaultReport) (s : State) : (keepRecord r s).mgmt = s.mgmt := rfl
@[simp] theorem keepRecord_freeCount (r : FaultReport) (s : State) :
    (keepRecord r s).freeCount = s.freeCount := rfl
@[simp] theorem keepRecord_pending (r : FaultReport) (s : State) : (keepRecord r s).pending = s.pending := rfl

/-! ## noticeLeaseEnd -/

@[simp] theorem noticeLeaseEnd_resetHeld (s : State) : (noticeLeaseEnd s).resetHeld = s.resetHeld := rfl
@[simp] theorem noticeLeaseEnd_now (s : State) : (noticeLeaseEnd s).now = s.now := rfl
@[simp] theorem noticeLeaseEnd_up (s : State) : (noticeLeaseEnd s).up = s.up := rfl
@[simp] theorem noticeLeaseEnd_down (s : State) : (noticeLeaseEnd s).down = s.down := rfl
@[simp] theorem noticeLeaseEnd_intake (s : State) : (noticeLeaseEnd s).intake = s.intake := rfl
@[simp] theorem noticeLeaseEnd_banks (s : State) : (noticeLeaseEnd s).banks = s.banks := rfl
@[simp] theorem noticeLeaseEnd_commit (s : State) : (noticeLeaseEnd s).commit = s.commit := rfl
@[simp] theorem noticeLeaseEnd_ort (s : State) : (noticeLeaseEnd s).ort = s.ort := rfl
@[simp] theorem noticeLeaseEnd_timers (s : State) : (noticeLeaseEnd s).timers = s.timers := rfl
@[simp] theorem noticeLeaseEnd_issue (s : State) : (noticeLeaseEnd s).issue = s.issue := rfl
@[simp] theorem noticeLeaseEnd_responses (s : State) : (noticeLeaseEnd s).responses = s.responses := rfl
@[simp] theorem noticeLeaseEnd_requesters (s : State) : (noticeLeaseEnd s).requesters = s.requesters := rfl
@[simp] theorem noticeLeaseEnd_flog (s : State) : (noticeLeaseEnd s).flog = s.flog := rfl
@[simp] theorem noticeLeaseEnd_notice (s : State) :
    (noticeLeaseEnd s).notice = ⟨s.notice.pending ||| s.notice.reported, 0#6, none, s.notice.nextNumber, none⟩ := rfl
@[simp] theorem noticeLeaseEnd_mgmt (s : State) : (noticeLeaseEnd s).mgmt = s.mgmt := rfl
@[simp] theorem noticeLeaseEnd_freeCount (s : State) : (noticeLeaseEnd s).freeCount = s.freeCount := rfl
@[simp] theorem noticeLeaseEnd_pending (s : State) : (noticeLeaseEnd s).pending = s.pending := rfl

/-! ## popCommand -/

@[simp] theorem popCommand_resetHeld (s : State) : (popCommand s).resetHeld = s.resetHeld := rfl
@[simp] theorem popCommand_now (s : State) : (popCommand s).now = s.now := rfl
@[simp] theorem popCommand_up (s : State) : (popCommand s).up = s.up := rfl
@[simp] theorem popCommand_down (s : State) : (popCommand s).down = s.down := rfl
@[simp] theorem popCommand_intake (s : State) : (popCommand s).intake = s.intake := rfl
@[simp] theorem popCommand_banks (s : State) : (popCommand s).banks = s.banks := rfl
@[simp] theorem popCommand_commit (s : State) : (popCommand s).commit = s.commit := rfl
@[simp] theorem popCommand_ort (s : State) : (popCommand s).ort = s.ort := rfl
@[simp] theorem popCommand_timers (s : State) : (popCommand s).timers = s.timers := rfl
@[simp] theorem popCommand_issue (s : State) : (popCommand s).issue = s.issue := rfl
@[simp] theorem popCommand_responses (s : State) : (popCommand s).responses = s.responses := rfl
@[simp] theorem popCommand_requesters (s : State) : (popCommand s).requesters = s.requesters := rfl
@[simp] theorem popCommand_flog (s : State) : (popCommand s).flog = s.flog := rfl
@[simp] theorem popCommand_notice (s : State) : (popCommand s).notice = s.notice := rfl
@[simp] theorem popCommand_mgmt (s : State) :
    (popCommand s).mgmt = { s.mgmt with queue := s.mgmt.queue.tail } := rfl
@[simp] theorem popCommand_freeCount (s : State) : (popCommand s).freeCount = s.freeCount := rfl
@[simp] theorem popCommand_pending (s : State) : (popCommand s).pending = s.pending := rfl

end Sys2Proof.Laws
end

