-- ==== Sys2Proof/Laws/Shapes.lean ====
section
/-! SUPPORT. One lemma for each shared operation that says all it can change: the operation's result is the state
before with the named fields replaced. A proof cites these in place of unfolding the operation. -/

namespace Sys2Proof.Laws

open Sys2Proof.Machine

/-! ## Time -/

@[simp] theorem pick_passTime_timers (n : Nat) (s : State) (i : SlotNum) :
    pick (passTime n s).timers i = (pick s.timers i).fall n := by
  simp [passTime, pick]

theorem sendHeld_packets (s : State) (p : PortId) :
    ((sendHeld s).port p).sent = (s.port p).sent ++ (s.port p).tx ∧ ((sendHeld s).port p).tx = [] := by
  cases p <;> exact ⟨rfl, rfl⟩

theorem passTime_shape (n : Nat) (s : State) :
    ∃ ut uh dt dh ti r l f, passTime n s =
      { s with
        now := s.now + n
        up := { s.up with trainingTimer := ut, holdOffTimer := uh }
        down := { s.down with trainingTimer := dt, holdOffTimer := dh }
        timers := ti, notice := { s.notice with resendTimer := r }, mgmt := { s.mgmt with lease := l }
        commit := { s.commit with fillStepDue := f } } :=
  ⟨_, _, _, _, _, _, _, _, rfl⟩

/-- What every due event keeps, `takeIfDue` keeps. -/
theorem takeIfDue_keeps {P : State → Prop}
    (event : ∀ (e : TimedEvent) (s : State), P s → e.left s = some 0 → P (e.happen s)) (e : TimedEvent) (s : State) (h : P s) :
    P (takeIfDue e s) := by
  unfold takeIfDue
  split
  · exact event e s h ‹_›
  · exact h

/-- What every due event keeps, a list of them keeps. -/
theorem takeEach_keeps {P : State → Prop}
    (event : ∀ (e : TimedEvent) (s : State), P s → e.left s = some 0 → P (e.happen s)) (es : List TimedEvent)
    (s : State) (h : P s) : P (takeEach es s) := by
  induction es generalizing s with
  | nil => exact h
  | cons e es ih => exact ih _ (takeIfDue_keeps event e s h)

/-- What every due event keeps, `takeDue` keeps. -/
theorem takeDue_keeps {P : State → Prop}
    (event : ∀ (e : TimedEvent) (s : State), P s → e.left s = some 0 → P (e.happen s)) (s : State) (h : P s) : P (takeDue s) := by
  exact takeEach_keeps event _ _ (takeEach_keeps event _ _ (takeEach_keeps event _ _ (takeEach_keeps event _ _ h)))

/-- What every due event and every µs keep, the passing of time keeps. -/
theorem advance_keeps {P : State → Prop}
    (event : ∀ (e : TimedEvent) (s : State), P s → e.left s = some 0 → P (e.happen s))
    (time : ∀ n s, P s → P (passTime n (sendHeld s))) (n : Nat) (s : State) (h : P s) : P (advance n s) := by
  have key : ∀ fuel n s, P s → P (advanceWith fuel n s) := by
    intro fuel
    induction fuel with
    | zero => intro n s h; exact h
    | succ fuel ih =>
      intro n s h
      unfold advanceWith
      split
      · exact h
      · exact ih _ _ (time _ _ (takeDue_keeps event s h))
  exact key n n s h

/-- What every due event and every µs keep, an event taken at its time keeps. -/
theorem takeTimed_keeps {P : State → Prop}
    (event : ∀ (e : TimedEvent) (s : State), P s → e.left s = some 0 → P (e.happen s))
    (time : ∀ n s, P s → P (passTime n (sendHeld s))) (e : TimedEvent) (s : State) (h : P s) :
    P (takeTimed e s) := by
  unfold takeTimed
  split
  · exact h
  · exact takeIfDue_keeps event e _ (advance_keeps event time _ s h)

@[simp] theorem advance_zero (s : State) : advance 0 s = s := rfl

/-- An event that is due is taken at once. -/
theorem takeTimed_of_due {e : TimedEvent} {s : State} (h : e.left s = some 0) : takeTimed e s = e.happen s := by
  simp [takeTimed, takeIfDue, h]

/-- An event whose timer does not run has no effect. -/
theorem takeTimed_of_stopped {e : TimedEvent} {s : State} (h : e.left s = none) : takeTimed e s = s := by
  simp [takeTimed, h]

theorem takePiece_shape (s : State) :
    ∃ tx sent b, takePiece s =
      { s with
        down := { s.down with tx := tx, sent := sent }, issue := { s.issue with sendPathBusy := b } } := by
  unfold takePiece
  split
  · exact ⟨_, _, _, rfl⟩
  · exact ⟨_, _, _, rfl⟩

theorem takePiece_of_free {s : State} (h : s.issue.sendPathBusy = false) : takePiece s = s := by
  simp [takePiece, h]

/-! ## Packets and classes -/

theorem produce_eq (p : PortId) (k : OutPacket) (s : State) :
    produce p k s =
      { s with
        up := { s.up with tx := if p = .up ∧ s.up.link = .up then s.up.tx ++ [k] else s.up.tx }
        down := { s.down with tx := if p = .down ∧ s.down.link = .up then s.down.tx ++ [k] else s.down.tx } } := by
  cases p <;> simp only [produce, port_up, port_down, setPort_up, setPort_down] <;> split_ifs <;> simp_all

theorem produce_shape (p : PortId) (k : OutPacket) (s : State) :
    ∃ u d, produce p k s = { s with up := { s.up with tx := u }, down := { s.down with tx := d } } :=
  ⟨_, _, produce_eq p k s⟩

theorem produce_up_shape (k : OutPacket) (s : State) :
    ∃ u, produce .up k s = { s with up := { s.up with tx := u } } := by
  rw [produce_eq]; simp

theorem sendNotice_shape (h : Party) (s : State) :
    ∃ u d n, sendNotice h s =
      { s with up := { s.up with tx := u }, down := { s.down with tx := d }, notice := n } := by
  simp only [sendNotice, produce_eq]
  exact ⟨_, _, _, rfl⟩

theorem testSend_shape (s : State) :
    ∃ u d n, testSend s =
      { s with up := { s.up with tx := u }, down := { s.down with tx := d }, notice := n } := by
  unfold testSend
  split
  · exact ⟨_, _, _, rfl⟩
  · split
    · exact sendNotice_shape _ s
    · exact ⟨_, _, _, rfl⟩

theorem raiseClass_shape (c : EventClass) (s : State) :
    ∃ u d n, raiseClass c s =
      { s with up := { s.up with tx := u }, down := { s.down with tx := d }, notice := n } := by
  unfold raiseClass
  split
  · obtain ⟨u, d, n, h⟩ := testSend_shape { s with notice := { s.notice with pending := s.notice.pending ||| c.bit } }
    exact ⟨u, d, n, h⟩
  · exact ⟨_, _, _, rfl⟩

theorem appendFault_shape (r : FaultReport) (s : State) :
    ∃ u d n l, appendFault r s =
      { s with up := { s.up with tx := u }, down := { s.down with tx := d }, notice := n, flog := l } := by
  unfold appendFault
  split
  · obtain ⟨u, d, n, h⟩ := raiseClass_shape .fault (keepRecord r s)
    dsimp only
    rw [h]
    split
    · obtain ⟨u', d', n', h'⟩ := raiseClass_shape .logFull
        { keepRecord r s with up := { s.up with tx := u }, down := { s.down with tx := d }, notice := n }
      exact ⟨u', d', n', _, h'⟩
    · exact ⟨u, d, n, _, rfl⟩
  · exact ⟨_, _, _, _, rfl⟩

/-! ## Intake -/

theorem notifyHead_shape (s : State) :
    ∃ b, notifyHead s = { s with intake := { s.intake with examDue := b } } := by
  unfold notifyHead
  split
  · exact ⟨_, rfl⟩
  · exact ⟨_, rfl⟩

theorem notifyHeadOf_shape (r : ReqNum) (s : State) :
    ∃ b, notifyHeadOf r s = { s with intake := { s.intake with examDue := b } } := by
  unfold notifyHeadOf
  split
  · exact ⟨_, rfl⟩
  · exact ⟨_, rfl⟩

theorem leaveQueue_shape (s : State) :
    ∃ u, leaveQueue s =
      { s with
        up := { s.up with tx := u }
        intake := { s.intake with
          queue := s.intake.queue.tail, stall := .none, exhaustRaised := false
          examDue := !s.intake.queue.tail.isEmpty } } := by
  unfold leaveQueue
  obtain ⟨u, h⟩ := produce_up_shape (.cret 1)
    { s with intake := { s.intake with
        queue := s.intake.queue.tail, stall := .none, exhaustRaised := false
        examDue := !s.intake.queue.tail.isEmpty } }
  exact ⟨u, h⟩

/-! ## Slots -/

theorem freeSlot_shape (i : SlotNum) (s : State) :
    ∃ b, freeSlot i s =
      { s with
        ort := put s.ort i ⟨(pick s.ort i).incarnation + 1, .free⟩
        timers := put s.timers i .none
        intake := { s.intake with examDue := b } } := by
  unfold freeSlot
  obtain ⟨b, h⟩ := notifyHead_shape
    { s with ort := put s.ort i ⟨(pick s.ort i).incarnation + 1, .free⟩, timers := put s.timers i .none }
  exact ⟨b, h⟩

theorem holdReleased_shape (g : Generation) (s : State) :
    ∃ a b, holdReleased g s = { s with commit := { s.commit with liveOpen := a, drainingOpen := b } } := by
  unfold holdReleased
  split
  · exact ⟨_, _, rfl⟩
  · split
    · exact ⟨_, _, rfl⟩
    · exact ⟨_, _, rfl⟩

/-- A closing slot: the slot FREE, its timer stopped, its hold released; a packet upstream; intake told. -/
theorem closeSlot_shape (i : SlotNum) (t : Tracked) (s : State) :
    ∃ u a b e, closeSlot i t s =
      { s with
        up := { s.up with tx := u }
        commit := { s.commit with liveOpen := a, drainingOpen := b }
        ort := put s.ort i ⟨(pick s.ort i).incarnation + 1, .free⟩
        timers := put s.timers i .none
        intake := { s.intake with examDue := e } } := by
  unfold closeSlot
  have key : ∀ x : State, (∃ u, x = { s with up := { s.up with tx := u } }) →
      ∃ u a b e, freeSlot i (holdReleased t.generation x) =
        { s with
          up := { s.up with tx := u }
          commit := { s.commit with liveOpen := a, drainingOpen := b }
          ort := put s.ort i ⟨(pick s.ort i).incarnation + 1, .free⟩
          timers := put s.timers i .none
          intake := { s.intake with examDue := e } } := by
    rintro x ⟨u, rfl⟩
    obtain ⟨a, b, h⟩ := holdReleased_shape t.generation { s with up := { s.up with tx := u } }
    rw [h]
    obtain ⟨e, h'⟩ := freeSlot_shape i
      { s with up := { s.up with tx := u }, commit := { s.commit with liveOpen := a, drainingOpen := b } }
    exact ⟨u, a, b, e, h'⟩
  apply key
  cases closingPacket t with
  | none => exact ⟨_, rfl⟩
  | some k => exact produce_up_shape k s

/-- Work done slot by slot keeps what each slot's part of it keeps. -/
theorem forSlots_induct (f : SlotNum → State → State) (P : State → Prop) (s : State) (h0 : P s)
    (h : ∀ i x, P x → P (f i x)) : P (forSlots f s) := by
  unfold forSlots
  generalize List.finRange 128 = l
  induction l generalizing s with
  | nil => exact h0
  | cons i l ih => exact ih _ (h i s h0)

/-- What slot by slot work on the outstanding request table may change. -/
theorem forSlots_shape (f : SlotNum → State → State)
    (h : ∀ i x, ∃ u a b o t e, f i x =
      { x with
        up := { x.up with tx := u }
        commit := { x.commit with liveOpen := a, drainingOpen := b }
        ort := o, timers := t, intake := { x.intake with examDue := e } }) (s : State) :
    ∃ u a b o t e, forSlots f s =
      { s with
        up := { s.up with tx := u }
        commit := { s.commit with liveOpen := a, drainingOpen := b }
        ort := o, timers := t, intake := { s.intake with examDue := e } } := by
  refine forSlots_induct f (fun x => ∃ u a b o t e, x =
      { s with
        up := { s.up with tx := u }
        commit := { s.commit with liveOpen := a, drainingOpen := b }
        ort := o, timers := t, intake := { s.intake with examDue := e } }) s ⟨_, _, _, _, _, _, rfl⟩ ?_
  rintro i x ⟨u, a, b, o, t, e, rfl⟩
  obtain ⟨u', a', b', o', t', e', h'⟩ := h i
    { s with
      up := { s.up with tx := u }
      commit := { s.commit with liveOpen := a, drainingOpen := b }
      ort := o, timers := t, intake := { s.intake with examDue := e } }
  exact ⟨u', a', b', o', t', e', h'⟩

theorem withdrawSlot_shape (q : List FifoEntry) (i : SlotNum) (s : State) :
    ∃ u a b o t e, withdrawSlot q i s =
      { s with
        up := { s.up with tx := u }
        commit := { s.commit with liveOpen := a, drainingOpen := b }
        ort := o, timers := t, intake := { s.intake with examDue := e } } := by
  unfold withdrawSlot
  split
  · exact ⟨_, _, _, _, _, _, rfl⟩
  · split
    · dsimp only
      split
      · obtain ⟨u, a, b, e, h⟩ := closeSlot_shape i (withdrawRecord q i ‹Tracked›) s
        exact ⟨u, a, b, _, _, e, h⟩
      · exact ⟨_, _, _, _, _, _, rfl⟩
    · exact ⟨_, _, _, _, _, _, rfl⟩

theorem cutSlot_shape (i : SlotNum) (s : State) :
    ∃ u a b o t e, cutSlot i s =
      { s with
        up := { s.up with tx := u }
        commit := { s.commit with liveOpen := a, drainingOpen := b }
        ort := o, timers := t, intake := { s.intake with examDue := e } } := by
  unfold cutSlot
  split
  · exact ⟨_, _, _, _, _, _, rfl⟩
  · obtain ⟨e, h⟩ := freeSlot_shape i s
    exact ⟨_, _, _, _, _, e, h⟩
  · obtain ⟨u, a, b, e, h⟩ := closeSlot_shape i (cutRecord ‹Tracked›) s
    exact ⟨u, a, b, _, _, e, h⟩

theorem warmSlot_shape (i : SlotNum) (s : State) :
    ∃ u a b o t e, warmSlot i s =
      { s with
        up := { s.up with tx := u }
        commit := { s.commit with liveOpen := a, drainingOpen := b }
        ort := o, timers := t, intake := { s.intake with examDue := e } } := by
  unfold warmSlot
  split
  · exact ⟨_, _, _, _, _, _, rfl⟩
  · obtain ⟨e, h⟩ := freeSlot_shape i s
    exact ⟨_, _, _, _, _, e, h⟩
  · rename_i t _
    obtain ⟨u, h⟩ := produce_up_shape (.errsp t.requester t.tag .aborted) s
    rw [h]
    obtain ⟨e, h'⟩ := freeSlot_shape i { s with up := { s.up with tx := u } }
    exact ⟨u, _, _, _, _, e, h'⟩

/-! ## Withdrawal and quarantine -/

theorem withdraw_shape (r : ReqNum) (s : State) :
    ∃ u a b o t e f n, withdraw r s =
      { s with
        up := { s.up with tx := u }
        commit := { s.commit with liveOpen := a, drainingOpen := b }
        ort := o, timers := t, intake := { s.intake with examDue := e }
        issue := { s.issue with fifos := f }, mgmt := { s.mgmt with postedDiscards := n } } := by
  unfold withdraw
  dsimp only
  split
  · exact ⟨_, _, _, _, _, _, _, _, rfl⟩
  · obtain ⟨u, a, b, o, t, e, h⟩ :=
      forSlots_shape (withdrawSlot (fifoOf s r)) (withdrawSlot_shape (fifoOf s r)) (setFifo r [] s)
    rw [h]
    obtain ⟨e', h'⟩ := notifyHeadOf_shape r
      (discardPosted ((fifoOf s r).countP FifoEntry.isPosted)
        { setFifo r [] s with
          up := { (setFifo r [] s).up with tx := u }
          commit := { (setFifo r [] s).commit with liveOpen := a, drainingOpen := b }
          ort := o, timers := t, intake := { (setFifo r [] s).intake with examDue := e } })
    exact ⟨u, a, b, o, t, e', _, _, h'⟩

/-! ## The drain end, and entry into quarantine -/

theorem swapBanks_shape (s : State) :
    ∃ c e, swapBanks s = { s with commit := c, intake := { s.intake with examDue := e } } := by
  unfold swapBanks
  split
  · exact ⟨_, _, rfl⟩
  · rename_i f _
    obtain ⟨e, h⟩ := notifyHead_shape { s with commit := s.commit.swapped f }
    exact ⟨_, e, h⟩

theorem endDrain_shape (s : State) :
    ∃ c e, endDrain s = { s with commit := c, intake := { s.intake with examDue := e } } := by
  unfold endDrain
  dsimp only
  split
  · obtain ⟨c, e, h⟩ := swapBanks_shape
      { s with commit := { s.commit with freeBank := s.commit.drainingBank, drainingBank := none } }
    exact ⟨c, e, h⟩
  · exact ⟨_, _, rfl⟩

theorem takeDrainEnd_shape (s : State) :
    ∃ c e, takeDrainEnd s = { s with commit := c, intake := { s.intake with examDue := e } } := by
  unfold takeDrainEnd
  split
  · exact endDrain_shape s
  · exact ⟨_, _, rfl⟩

/-- The fields an entry into quarantine may touch. -/
theorem enterQuarantine_shape (o : Offence) (s : State) :
    ∃ u d c oo t e f n q l no, enterQuarantine o s =
      { s with
        up := { s.up with tx := u }, down := { s.down with tx := d }, commit := c
        ort := oo, timers := t, intake := { s.intake with examDue := e }
        issue := { s.issue with fifos := f }, mgmt := { s.mgmt with postedDiscards := n }
        requesters := q, flog := l, notice := no } := by
  unfold enterQuarantine
  dsimp only
  obtain ⟨e0, h0⟩ := notifyHeadOf_shape o.requester
    (setEntry o.requester { entryOf s o.requester with state := .quarantined } s)
  rw [h0]
  obtain ⟨u, a, b, oo, t, e, f, n, h1⟩ := withdraw_shape o.requester
    { setEntry o.requester { entryOf s o.requester with state := .quarantined } s with
      intake := { (setEntry o.requester { entryOf s o.requester with state := .quarantined } s).intake with
        examDue := e0 } }
  rw [h1]
  obtain ⟨u2, d2, n2, l2, h2⟩ := appendFault_shape (quarantineReport o s.commit.liveGeneration)
    { s with
      up := { s.up with tx := u }
      commit := { s.commit with liveOpen := a, drainingOpen := b }
      ort := oo, timers := t, intake := { s.intake with examDue := e }
      issue := { s.issue with fifos := f }, mgmt := { s.mgmt with postedDiscards := n }
      requesters := put s.requesters o.requester { entryOf s o.requester with state := .quarantined } }
  obtain ⟨u3, d3, n3, h3⟩ := raiseClass_shape .quarantine
    { s with
      up := { s.up with tx := u2 }, down := { s.down with tx := d2 }
      commit := { s.commit with liveOpen := a, drainingOpen := b }
      ort := oo, timers := t, intake := { s.intake with examDue := e }
      issue := { s.issue with fifos := f }, mgmt := { s.mgmt with postedDiscards := n }
      requesters := put s.requesters o.requester { entryOf s o.requester with state := .quarantined }
      flog := l2, notice := n2 }
  obtain ⟨c4, e4, h4⟩ := takeDrainEnd_shape
    { s with
      up := { s.up with tx := u3 }, down := { s.down with tx := d3 }
      commit := { s.commit with liveOpen := a, drainingOpen := b }
      ort := oo, timers := t, intake := { s.intake with examDue := e }
      issue := { s.issue with fifos := f }, mgmt := { s.mgmt with postedDiscards := n }
      requesters := put s.requesters o.requester { entryOf s o.requester with state := .quarantined }
      flog := l2, notice := n3 }
  exact ⟨u3, d3, c4, oo, t, e4, f, n, _, l2, n3,
    (congrArg takeDrainEnd ((congrArg (raiseClass .quarantine) h2).trans h3)).trans h4⟩

/-! ## Credits -/

theorem creditExcess_shape (n : Nat) (w : Option WinIndex) (g : Option Generation) (s : State) :
    ∃ u d no l c, creditExcess n w g s =
      { s with
        up := { s.up with tx := u }, down := { s.down with tx := d }, notice := no, flog := l
        responses := { s.responses with excessCredits := c } } := by
  unfold creditExcess
  split
  · exact ⟨_, _, _, _, _, rfl⟩
  · obtain ⟨u, d, no, l, h⟩ := appendFault_shape
      { kind := .creditExcess, port := .down, window := w, generation := g }
      { s with responses :=
          { s.responses with excessCredits := s.responses.excessCredits + BitVec.ofNat 32 n } }
    exact ⟨u, d, no, l, _, h⟩

theorem returnRequest_shape (n : Nat) (w : Option WinIndex) (g : Option Generation) (s : State) :
    ∃ u d no l c, returnRequest n w g s =
      { s with
        up := { s.up with tx := u }, down := { s.down with tx := d }, notice := no, flog := l
        responses := { s.responses with excessCredits := c }
        issue := { s.issue with requestPool := s.issue.requestPool.returned n } } := by
  unfold returnRequest
  obtain ⟨u, d, no, l, c, h⟩ := creditExcess_shape (s.issue.requestPool.dropped n) w g
    { s with issue := { s.issue with requestPool := s.issue.requestPool.returned n } }
  exact ⟨u, d, no, l, c, h⟩

theorem returnPosted_shape (n : Nat) (s : State) :
    ∃ u d no l c, returnPosted n s =
      { s with
        up := { s.up with tx := u }, down := { s.down with tx := d }, notice := no, flog := l
        responses := { s.responses with excessCredits := c }
        issue := { s.issue with postedPool := s.issue.postedPool.returned n } } := by
  unfold returnPosted
  obtain ⟨u, d, no, l, c, h⟩ := creditExcess_shape (s.issue.postedPool.dropped n) none none
    { s with issue := { s.issue with postedPool := s.issue.postedPool.returned n } }
  exact ⟨u, d, no, l, c, h⟩

/-! ## Commit unit and lease -/

theorem cancelHeld_shape (s : State) :
    ∃ h c, cancelHeld s = { s with commit := { s.commit with heldCommit := h, condition := c } } := by
  unfold cancelHeld
  split
  · exact ⟨_, _, rfl⟩
  · exact ⟨_, _, rfl⟩

/-- The end of a lease by lapse or revocation. -/
theorem endLease_shape (k : FaultKind) (s : State) :
    ∃ u d n l h c le, endLease k s =
      { s with
        up := { s.up with tx := u }, down := { s.down with tx := d }, notice := n, flog := l
        commit := { s.commit with heldCommit := h, condition := c }
        mgmt := { s.mgmt with lease := le } } := by
  unfold endLease
  split
  · exact ⟨_, _, _, _, _, _, _, rfl⟩
  · rename_i le _
    obtain ⟨h, c, hc⟩ := cancelHeld_shape (setLease none s)
    rw [hc]
    obtain ⟨u, d, n, l, ha⟩ := appendFault_shape
      { kind := k, port := le.holder.port, requester := some le.holder.requester }
      (noticeLeaseEnd
        { setLease none s with
          commit := { (setLease none s).commit with heldCommit := h, condition := c } })
    exact ⟨u, d, n, l, h, c, none, ha⟩

theorem lapseThrough_shape (p : PortId) (s : State) :
    ∃ u d n l h c le, lapseThrough p s =
      { s with
        up := { s.up with tx := u }, down := { s.down with tx := d }, notice := n, flog := l
        commit := { s.commit with heldCommit := h, condition := c }
        mgmt := { s.mgmt with lease := le } } := by
  unfold lapseThrough
  split
  · exact ⟨_, _, _, _, _, _, _, rfl⟩
  · split
    · exact endLease_shape _ s
    · exact ⟨_, _, _, _, _, _, _, rfl⟩

theorem answer_shape (c : QueuedCommand) (st : Status) (res : Results) (s : State) :
    ∃ u d, answer c st res s =
      { s with up := { s.up with tx := u }, down := { s.down with tx := d } } :=
  produce_shape _ _ _

/-! ## The link -/

theorem linkChanged_shape (p : PortId) (s : State) :
    ∃ u d n l, linkChanged p s =
      { s with up := { s.up with tx := u }, down := { s.down with tx := d }, notice := n, flog := l } := by
  unfold linkChanged
  obtain ⟨u, d, n, l, h⟩ := appendFault_shape (linkReport p) s
  rw [h]
  obtain ⟨u', d', n', h'⟩ := raiseClass_shape .link
    { s with up := { s.up with tx := u }, down := { s.down with tx := d }, notice := n, flog := l }
  exact ⟨u', d', n', l, h'⟩

theorem linkNotice_shape (p : PortId) (s : State) :
    ∃ e, linkNotice p s = { s with intake := { s.intake with examDue := e } } := by
  cases p
  · exact ⟨_, rfl⟩
  · exact notifyHead_shape s

end Sys2Proof.Laws
end

