-- ==== Sys2Proof/Tests/Slice0.lean ====
section
/-! SUPPORT. Tests: an ill-formed command for each check of WellFormed.lean, single steps on small states with the
values of the manual's worked examples, and for every obligation with hypotheses a state and operands that meet
them. -/

namespace Sys2Proof.Tests

set_option Elab.async false

open Sys2Proof Sys2Proof.Machine Sys2Proof.Safety Sys2Proof.Claims

/-! ## States -/

/-- A window that grants everything to every requester. -/
def openWindow (base limit target : Nat) : WindowEntry where
  valid := true
  requesters := 0xFFFFFFFF#32
  base := BitVec.ofNat 48 base
  limit := limit
  target := BitVec.ofNat 48 target
  rights := ⟨true, true, true⟩
  violation := .strike
  logViolations := true
  deadlineClass := .t1
  errorHandling := .log

/-- The LIVE bank of the test states: two windows that touch at 1000h, and one that grants nothing. -/
def testBank : Bank :=
  put (put (put clearedBank 2 (openWindow 0x0000 0x1000 0x40000000))
    3 { openWindow 0x1000 0x2000 0x50000000 with deadlineClass := .t0, errorHandling := .pass })
    4 { openWindow 0x2000 0x3000 0 with rights := ⟨false, false, false⟩ }

/-- A port in UP. -/
def upPort : Port := { coldPort with link := .up, signal := true }

/-- A running part with both links UP, requesters 0 and 3 ACTIVE, and 4 of each credit. -/
def live : State :=
  { State.reset with
    resetHeld := false
    up := upPort
    down := upPort
    banks := put State.reset.banks 0 testBank
    requesters := put (put State.reset.requesters 0 { coldRequester with state := .active, mayManage := true })
      3 { coldRequester with state := .active }
    issue := { coldIssue with requestPool := ⟨4, 4⟩, postedPool := ⟨4, 4⟩ } }

/-- A request of 64 bytes of requester 3 at an address, Tag 21. -/
def ask (kind : ReqKind) (address : Nat) : Request where
  kind := kind
  requester := 3
  tag := 21#8
  address := BitVec.ofNat 48 address
  length := 64#16
  data := if kind = .rdreq then [] else List.replicate 64 0x55#8

/-- The part with a request at the head, its examination due. -/
def asking (q : Request) (s : State) : State :=
  { s with intake := { s.intake with queue := [.request q], examDue := true } }

/-- A read of requester 3, of two pieces in given States. -/
def twoPieces (x y : PieceState) : Tracked where
  requester := 3
  tag := 21#8
  kind := .read
  address := 0xFC0#48
  length := 128
  generation := 0#8
  deadlineClass := .t0
  failure := none
  pieces := [⟨0, 2, 0x40000FC0#48, 64, 0, x⟩, ⟨1, 3, 0x50000000#48, 64, 64, y⟩]

/-- The part with slot 5 OPEN with a record, its hold taken. -/
def tracking (t : Tracked) (s : State) : State :=
  { s with
    ort := put s.ort 5 ⟨2, .opened t⟩
    timers := put s.timers 5 (.deadline 1000)
    commit := { s.commit with liveOpen := 1 } }

/-- A command of the upstream manager, requester 0, Sequence 7. -/
def order (k : Command) (payload : List Byte) : QueuedCommand := ⟨⟨.up, 0⟩, 7#16, k.code, payload⟩

/-- The part with that command at the head of the management queue, its sender the lease holder. -/
def ordered (k : Command) (payload : List Byte) (s : State) : State :=
  { s with
    mgmt := { s.mgmt with queue := [order k payload], lease := some ⟨⟨.up, 0⟩, 1000000, 0, 0⟩ } }

/-- The state that an outcome leaves; the reset state where there is none. -/
def after : Host.Outcome State Fault Refusal → State
  | .next t => t
  | .fault _ => State.reset
  | .refused _ => State.reset

/-- The refusal of a window check, if it refuses. -/
def refusedOf : CheckResult → Option Refused
  | .refused r => some r
  | .granted _ _ => none

/-- The commands of the test states pass the engine's checks. -/
theorem executes_of {k : Command} {c : QueuedCommand} {rest : List QueuedCommand} {s : State}
    (h : (!s.resetHeld && s.mgmt.queue == c :: rest && c.command == k.code && authorised s c.sender
      && c.payload.length == k.payloadBytes && (!k.leaseBound || isHolder s c.sender)) = true) :
    executes k c rest s := by
  simp only [Bool.and_eq_true, Bool.or_eq_true, Bool.not_eq_true', beq_iff_eq] at h
  obtain ⟨⟨⟨⟨⟨h1, h2⟩, h3⟩, h4⟩, h5⟩, h6⟩ := h
  refine ⟨⟨h1, h2⟩, h3, ?_, h5, fun hb => ?_⟩
  · revert h4
    cases hp : c.sender.port <;> simp [authorised, mayCommand, hp, entryOf]
  · rcases h6 with h6 | h6
    · simp [h6] at hb
    · revert h6
      cases hl : s.mgmt.lease <;> simp [isHolder, holds, hl]

/-- A command row's command stands at the head of `live`'s management queue, and is executed. -/
theorem executes_ordered (k : Command) (payload : List Byte) (h : payload.length = k.payloadBytes) :
    executes k (order k payload) [] (ordered k payload live) := by
  apply executes_of
  have ha : authorised (ordered k payload live) (order k payload).sender = true := by
    have : (pick live.requesters 0).mayManage = true := by decide +kernel
    exact this
  have hb : isHolder (ordered k payload live) (order k payload).sender = true := rfl
  simp [ha, hb]
  simp [order, ordered, live, h]

/-! ## WellFormed: an ill-formed command for each check -/

/-- Table 11-3: an MCMD's payload of 1025 bytes, and one of 1024. -/
theorem test_wf_mcmd_payload :
    Instr.wf (.upstreamPacketArrival (.mcmd ⟨0, 0#16, 0x01#8, List.replicate 1025 0#8⟩)) = false ∧
    Instr.wf (.upstreamPacketArrival (.mcmd ⟨0, 0#16, 0x01#8, List.replicate 1024 0#8⟩)) = true ∧
    Instr.wf (.downstreamMcmdArrival ⟨0, 0#16, 0x01#8, List.replicate 1025 0#8⟩) = false ∧
    Instr.wf (.downstreamMcmdArrival ⟨0, 0#16, 0x01#8, List.replicate 1024 0#8⟩) = true := by
  decide +kernel

/-- Table 11-3: an assigned kind code is no unassigned kind. -/
theorem test_wf_unassigned_kind :
    Instr.wf (.upstreamStrayPacket (.unassigned 0x4#4) 0) = false ∧
    Instr.wf (.upstreamStrayPacket (.unassigned 0xE#4) 0) = true ∧
    Instr.wf (.downstreamStrayPacket (.unassigned 0xD#4)) = false ∧
    Instr.wf (.downstreamStrayPacket (.unassigned 0x7#4)) = true := by decide

/-- R192: a CRET of a pool's class is taken with a count of 1 to 255, and stray with another. -/
theorem test_wf_cret_count :
    Instr.wf (.downstreamCret .posted 0#16) = false ∧ Instr.wf (.downstreamCret .posted 256#16) = false ∧
    Instr.wf (.downstreamCret .request 255#16) = true ∧ Instr.wf (.downstreamCret .request 1#16) = true ∧
    Instr.wf (.downstreamStrayPacket (.cret .request 1#16)) = false ∧
    Instr.wf (.downstreamStrayPacket (.cret .request 0#16)) = true ∧
    Instr.wf (.downstreamStrayPacket (.cret .intake 1#16)) = true := by decide

/-- R80: a pool's RDRSP has a Length of 1 to 256. -/
theorem test_wf_rdrsp_length :
    Instr.wf (.responseArrival ⟨⟨0, 0, 0⟩, .rdrsp 0#16 []⟩) = false ∧
    Instr.wf (.responseArrival ⟨⟨0, 0, 0⟩, .rdrsp 257#16 []⟩) = false ∧
    Instr.wf (.responseArrival ⟨⟨0, 0, 0⟩, .rdrsp 256#16 []⟩) = true ∧
    Instr.wf (.responseArrival ⟨⟨0, 0, 0⟩, .wrrsp⟩) = true := by decide

/-! ## Single steps with the values of the worked examples -/

/-- Section 1.9, a split read: two pieces of 64 bytes, translated through their own windows. -/
theorem test_split_read :
    windowCheck live { ask .rdreq 0xFC0 with length := 128#16 }
      = .granted [⟨0, 0xFC0#48, 2, .t1, 0x40000FC0#48, 64, 0⟩, ⟨1, 0x1000#48, 3, .t0, 0x50000000#48, 64, 64⟩] 0#8 := by
  decide +kernel

/-- Section 1.9, a posted write that runs off its window: NO_WINDOW, reported at the second piece. -/
theorem test_posted_off_window :
    refusedOf (windowCheck live { ask .pwreq 0x2FC0 with length := 256#16 })
      = some
        { pieces := [⟨0, 0x2FC0#48, 64, 0, some 4⟩, ⟨1, 0x3000#48, 192, 64, none⟩]
          code := .noWindow, action := .strike, actionWindow := some 4
          record := some
            { kind := .violation, port := .up, requester := some 3, address := some 0x3000#48
              generation := some 0#8, code := some .noWindow } } := by
  decide +kernel

/-- Section 3.11, acceptance: the shorter class T0, two FIFO entries, the hold, and the intake credit. -/
theorem test_acceptance :
    let t := after (exec .headExamination (asking { ask .rdreq 0xFC0 with length := 128#16 } live))
    pick t.ort 0 = ⟨0, .opened { twoPieces .queued .queued with tag := 21#8 }⟩ ∧
    pick t.timers 0 = .deadline 1000 ∧ t.commit.liveOpen = 1 ∧
    fifoOf t 3 = [.tracked 0 0 none, .tracked 0 1 none] ∧ t.up.tx = [.cret 1] := by decide +kernel

/-- Section 3.11, the close: RDRSP with Final, FREE with the next Incarnation. -/
theorem test_close :
    let t := after (exec (.responseArrival ⟨⟨5, 0, 2⟩, .rdrsp 64#16 (List.replicate 64 1#8)⟩)
      (tracking (twoPieces .issued .done) live))
    t.up.tx = [.rdrsp 3 21#8 0 64 (List.replicate 64 1#8) true] ∧ pick t.ort 5 = ⟨3, .free⟩ ∧
    pick t.timers 5 = .none ∧ t.commit.liveOpen = 0 := by decide +kernel

/-- Section 6.6, the expiry of a split read whose second piece is in the pool. -/
theorem test_timeout :
    let s := tracking (twoPieces .done .issued) live
    let t := after (exec (.deadlineExpiry 5) { s with timers := put s.timers 5 (.deadline 0) })
    t.up.tx = [.errsp 3 21#8 .timeout] ∧ pick t.timers 5 = .reclaim 50000 ∧
    (t.flog.records.map fun r => (r.report.kind, r.report.window)) = [(.timeout, some 3)] := by decide +kernel

/-- R118, R123: the response that releases the draining generation's last hold ends the drain, and the COMMIT held on
it swaps: generation 2 is LIVE. -/
def lastHold (held : Bool) : State :=
  { tracking { twoPieces .issued .done with generation := 1#8 } live with
    commit :=
      { coldCommit with
        liveGeneration := 2#8, drainingBank := some 2, freeBank := none, drainingOpen := 1, heldCommit := held
        condition := if held then .frozen else .writable } }

theorem test_drain_ends_with_the_response :
    let r := Instr.responseArrival ⟨⟨5, 0, 2⟩, .rdrsp 64#16 (List.replicate 64 1#8)⟩
    (after (exec r (lastHold false))).commit = { coldCommit with liveGeneration := 2#8 } ∧
    (after (exec r (lastHold true))).commit = ⟨1, 2, none, some 0, 3#8, .filling, false, 0, 0, 0, false⟩ := by
  decide +kernel

/-- R101: the expiry of a later timer comes after an earlier timer's own expiry, at its own time. -/
theorem test_earlier_expiry_first :
    let s := tracking (twoPieces .done .issued) live
    let t := after (exec (.reclaimExpiry 6)
      { s with
        ort := put s.ort 6 ⟨1, .stale (twoPieces .done .issued)⟩
        timers := put (put s.timers 5 (.deadline 400)) 6 (.reclaim 1000) })
    t.now = s.now + 1000 ∧ t.up.sent = [.errsp 3 21#8 .timeout] ∧ pick t.timers 5 = .reclaim (50000 - 600) ∧
    pick t.ort 6 = ⟨2, .free⟩ := by decide +kernel

/-- R124: a fill copies one entry in each of the µs that a timer's expiry lets pass, and completes. -/
theorem test_fill_in_time :
    let s := { tracking (twoPieces .done .issued) live with
      timers := put live.timers 5 (.deadline 6)
      commit := { coldCommit with condition := .filling, fillProgress := 60 } }
    let t := after (exec (.deadlineExpiry 5) s)
    t.commit.condition = .writable ∧ t.commit.fillProgress = 64 ∧ t.now = s.now + 6 := by decide +kernel

/-- Section 4.8: ROTATE grants the first eligible number after the pointer, and the pointer follows. -/
theorem test_grant_rotates :
    let s := { live with issue := { live.issue with
      fifos := put (put live.issue.fifos 2 [.posted 0 0#48 4 [1#8, 2#8, 3#8, 4#8]]) 9 [.posted 0 8#48 1 [7#8]]
      lastGranted := 5 } }
    let t := after (exec .grant s)
    t.down.tx = [.pwreq 8#48 1 [7#8]] ∧ t.issue.lastGranted = 9 ∧ fifoOf t 9 = [] ∧
    t.issue.postedPool = ⟨4, 3⟩ ∧
    (after (exec .grant t)).down.sent = t.down.tx ∧
    (after (exec .grant t)).down.tx = [.pwreq 0#48 4 [1#8, 2#8, 3#8, 4#8]] := by decide +kernel

/-- The command of a timer with 400 µs left: the expiry 400 µs later (R101). -/
theorem test_queued_expiry :
    let s := tracking (twoPieces .done .issued) live
    let t := after (exec (.deadlineExpiry 5) { s with timers := put (put s.timers 5 (.deadline 400)) 6 (.reclaim 1000) })
    t.now = s.now + 400 ∧ t.up.tx = [.errsp 3 21#8 .timeout] ∧ pick t.timers 5 = .reclaim 50000 ∧
    pick t.timers 6 = .reclaim 600 ∧ t.commit.liveOpen = 0 := by decide +kernel

/-- Section 7.9: the swap of a COMMIT with open requests drains the bank that left LIVE. -/
theorem test_commit_swaps :
    let t := after (exec .commit (ordered .commit [] (tracking (twoPieces .issued .issued) live)))
    t.commit = ⟨1, 2, some 0, none, 1#8, .filling, false, 0, 0, 1, false⟩ ∧
    t.up.tx = [.mresp 0 7#16 .ok (.commitSwapped 1#8 1 2 0 .draining)] := by decide +kernel

/-- Section 10.7: an early RENEW at 40 ms is told the 60 ms that remain. -/
theorem test_early_renewal :
    let t := after (exec .renew { ordered .renew [] live with now := 40000 })
    t.up.tx = [.mresp 0 7#16 .tooEarly (.spacingRemaining 60000)] ∧ t.mgmt.earlyRenewals = 1#32 ∧
    (t.mgmt.lease.map Lease.earlyCount) = some 1 := by decide +kernel

/-- Section 11.8: an INIT with a posted count of 0 is refused, and the hold-off timer starts. -/
theorem test_refused_training :
    let s := { live with down := { coldPort with link := .training, trainingTimer := some 9960 } }
    let t := after (exec (.initReceived .down ⟨24#16, 0#16⟩) s)
    t.down.link = .down ∧ t.down.holdOffTimer = some 1000 ∧ t.flog.records.length = 1 ∧
    t.notice.pending = 0x21#6 := by decide +kernel

/-- Table 11-4: the downstream tag of slot 101, piece 1, Incarnation 2 is CB80h. -/
theorem test_downstream_tag : dtagBits ⟨101, 1, 2⟩ = 0xCB80#16 ∧ dtagOf 0xCB80#16 = ⟨101, 1, 2⟩ := by decide

/-- Table 11-3: an RDREQ of requester 3, Tag 21, Address 10_0FC0h, Length 128 as its sixteen bytes, and back. -/
theorem test_rdreq_frame :
    (frameOfRequest ⟨.rdreq, 3, 21#8, 0x100FC0#48, 128#16, []⟩).header.toList
      = [0x10#8, 3#8, 21#8, 0#8, 0#8, 0#8, 0#8, 0#8, 0#8, 0x10#8, 0x0F#8, 0xC0#8, 0#8, 0x80#8, 0#8, 0#8] ∧
    instrOfFrame .up .up ⟨#v[0x1F#8, 0xE3#8, 21#8, 9#8, 9#8, 9#8, 0#8, 0#8, 0#8, 0x10#8, 0x0F#8, 0xC0#8, 0#8,
        0x80#8, 9#8, 9#8], []⟩
      = some (.upstreamPacketArrival (.request ⟨.rdreq, 3, 21#8, 0x100FC0#48, 128#16, []⟩)) := by decide +kernel

/-! ## Witnesses: a state and operands that meet the hypotheses of each obligation -/

/-- A port that trains, with its timer at a value. -/
def training (n : Nat) : Port := { coldPort with link := .training, trainingTimer := some n }

/-- A port that is DOWN, with its hold-off timer and the peer's signal. -/
def fallen (holdOff : Option Nat) (signal : Bool) : Port := { coldPort with holdOffTimer := holdOff, signal := signal }

/-- The part with the upstream manager's lease, with some µs left. -/
def leasing (p : PortId) (timer : Nat) (s : State) : State :=
  { s with mgmt := { s.mgmt with lease := some ⟨⟨p, 0⟩, timer, 0, 0⟩ } }

/-- The part with a notice outstanding and classes pending. -/
def noticing (pending : ClassSet) (timer : Nat) (s : State) : State :=
  { s with notice := ⟨pending, 0x01#6, some 7#8, 8#8, some timer⟩ }

/-- A log of `n` records. -/
def logOf (n : Nat) : FaultLog :=
  ⟨(List.range n).map fun k => ⟨BitVec.ofNat 32 k, { kind := .timeout, port := .down }, 0⟩, BitVec.ofNat 32 n⟩

/-- A commit unit with bank 2 DRAINING and none FREE. -/
def draining (count : Nat) (held : Bool) : CommitUnit :=
  { coldCommit with
    drainingBank := some 2, freeBank := none, drainingOpen := count, heldCommit := held
    condition := if held then .frozen else .writable }

/-- A commit unit that fills, with its progress. -/
def filling (progress : Nat) (due : Bool) : CommitUnit :=
  { coldCommit with condition := .filling, fillProgress := progress, fillStepDue := due }

theorem witness_StepRunsTheFrontCommand :
    ({ live with pending := [.grant, .status] } : State).pending = .grant :: [.status] := rfl

theorem witness_EveryCommandAnswersANextState :
    State.reset.resetHeld = true ∧ pinCommand .grant = false ∧ Running live ∧
    chooseFifo live = none ∧ openAt live 127 = none ∧ (∀ n, pick live.timers 0 ≠ .deadline n) ∧
    staleAt live 0 = none ∧ (∀ n, pick live.timers 127 ≠ .reclaim n) ∧
    live.commit.drainingBank = none ∧ (draining 1 false).drainingOpen ≠ 0 ∧
    live.commit.condition ≠ .filling ∧ 64 ≤ (filling 64 true).fillProgress ∧
    (filling 63 true).fillProgress ≠ 64 ∧
    live.mgmt.lease = none ∧ live.notice.outstanding = none ∧ live.notice.resendTimer = none ∧
    live.intake.examDue = false ∧ live.intake.queue = [] ∧
    (live.port .up).link ≠ .training ∧ (live.port .up).trainingTimer = none ∧
    (live.port .down).link ≠ .down ∧ (live.port .down).holdOffTimer = none :=
  have h : pick live.timers 0 = .none ∧ pick live.timers 127 = .none := by decide +kernel
  ⟨by decide +kernel, rfl, by decide +kernel, by decide +kernel, by decide +kernel, by simp [h.1], by decide +kernel,
    by simp [h.2], by decide +kernel, by decide, by decide +kernel, by decide, by decide, by decide +kernel,
    by decide +kernel, by decide +kernel, by decide +kernel, by decide +kernel, by decide +kernel, by decide +kernel,
    by decide +kernel, by decide +kernel⟩

/-- An OPEN slot of 9 µs, a STALE slot of 1 µs, a lease, an outstanding notice, two ports' timers, and a fill. -/
theorem witness_TimedEventsComeWhenTheirTimeHasPassed :
    let s := { noticing 0#6 5 (leasing .up 9 (tracking (twoPieces .issued .queued) live)) with
      timers := put live.timers 5 (.deadline 9) }
    let x := { live with ort := put live.ort 0 ⟨1, .stale (twoPieces .issued .done)⟩
                         timers := put live.timers 0 (.reclaim 1) }
    (Running s ∧ (openAt s 5).isSome = true ∧ pick s.timers 5 = .deadline 9) ∧
    (Running x ∧ (staleAt x 0).isSome = true ∧ pick x.timers 0 = .reclaim 1) ∧
    (∃ l, s.mgmt.lease = some l ∧ l.timer = 9) ∧
    (s.notice.outstanding.isSome = true ∧ s.notice.resendTimer = some 5) ∧
    (({ live with up := training 7 }.port .up).link = .training ∧
      ({ live with up := training 7 }.port .up).trainingTimer = some 7) ∧
    (({ live with down := { coldPort with holdOffTimer := some 3 } }.port .down).link = .down ∧
      ({ live with down := { coldPort with holdOffTimer := some 3 } }.port .down).holdOffTimer = some 3) ∧
    (RolesLaw { live with commit := filling 0 false } ∧ (filling 0 false).condition = .filling ∧
      (filling 0 false).fillProgress < 64 ∧ (filling 0 false).fillStepDue = false) :=
  ⟨by decide +kernel, by decide +kernel, ⟨_, rfl, by decide +kernel⟩, by decide +kernel, by decide +kernel,
    by decide +kernel, by decide +kernel⟩

theorem witness_EveryCommand_at_heads :
    (∃ m rest, { live with intake := { live.intake with queue := [.mcmd ⟨0, 0#16, 0#8, []⟩] } }.intake.queue
      = .mcmd m :: rest) ∧
    ∃ q rest, (asking (ask .rdreq 0) live).intake.queue = .request q :: rest :=
  ⟨⟨_, _, rfl⟩, _, _, rfl⟩

theorem witness_IdlePartDoesItsOwnWork :
    (State.reset.pending = [] ∧ State.reset.resetHeld = true) ∧
    (live.pending = [] ∧ Running live ∧ nextDue live = none ∧ live.up.tx = [] ∧ live.down.tx = []) ∧
    { upPort with tx := [.cret 1] }.tx ≠ [] ∧ dueWork live = [] ∧
    nextDue (asking (ask .rdreq 0) live) = some .headExamination := by decide +kernel

theorem witness_ProducedPacketJoinsItsPort :
    live.up.link = .up ∧ live.down.link = .up ∧ ({ live with up := training 1 }.port .up).link ≠ .up ∧
    (State.reset.port .down).link ≠ .up := by decide +kernel

theorem witness_FaultAppendKeepsOrCounts :
    (logOf 30).records.length ≤ 30 ∧ (logOf 31).records.length = 31 ∧
    ∃ older newest, (logOf 32).records = older ++ [newest] ∧ older.length = 31 :=
  ⟨by decide, by decide, (logOf 31).records, ⟨31#32, { kind := .timeout, port := .down }, 0⟩, by decide, by decide⟩

theorem witness_ClassRaiseJoinsPending :
    (∃ c, ¬ masked c { live with mgmt := { live.mgmt with config := { live.mgmt.config with classMask := 0x1F#6 } } }) ∧
    (masked .link live ∧ live.mgmt.lease = none) ∧
    (masked .fault (noticing 0#6 5 (leasing .up 9 live)) ∧
      (noticing 0#6 5 (leasing .up 9 live)).notice.outstanding ≠ none) ∧
    ∃ l, masked .exhaust (leasing .up 9 live) ∧ (leasing .up 9 live).mgmt.lease = some l ∧
      (leasing .up 9 live).notice.outstanding = none :=
  ⟨⟨.link, by decide +kernel⟩, by decide +kernel, by decide +kernel, _, by decide +kernel, rfl, by decide +kernel⟩

theorem witness_ClosingFreesTheSlot :
    { twoPieces .done .done with failure := some .aborted }.failure = some .aborted ∧
    ({ twoPieces .done .done with kind := .write }.failure = none ∧
      { twoPieces .done .done with kind := .write }.kind = .write) ∧
    (twoPieces .done .done).failure = none ∧ (twoPieces .done .done).kind = .read := by decide

theorem witness_WithdrawalEmptiesOneFifo :
    fifoOf live 31 = [] ∧ fifoOf (setFifo 3 [.tracked 5 1 none, .posted 0 0#48 1 [1#8]] live) 3 ≠ [] := by
  decide +kernel

theorem witness_ActionsStrikeAndQuarantine :
    min 15 (({ coldRequester with strikes := 1 } : RequesterEntry).strikes + 1) < coldRequester.strikeLimit ∧
    coldRequester.strikeLimit ≤ min 15 (({ coldRequester with strikes := 2 } : RequesterEntry).strikes + 1) ∧
    ({ coldRequester with strikeLimit := 15 } : RequesterEntry).strikeLimit
      ≤ min 15 (({ coldRequester with strikes := 15 } : RequesterEntry).strikes + 1) := by decide

theorem witness_LookupYieldsTheLowestIndex :
    lookup testBank 3 0x0FFF = some 2 ∧ lookup testBank 31 0x1000 = some 3 ∧ lookup testBank 3 0x3000 = none := by
  decide +kernel

theorem witness_RequestSplitsAtTheGranule :
    (formGood { ask .rdreq 0 with length := 1#16 } ∧
      lookup testBank 3 0 = lookup testBank 3 (0 + 1 - 1)) ∧
    (formGood { ask .rdreq 0xF01 with length := 256#16 } ∧
      lookup testBank 3 0xF01 ≠ lookup testBank 3 (0xF01 + 256 - 1)) ∧
    formGood { ask .rdreq 0xFFFFFFFFFFFF with length := 1#16 } ∧
    ∀ i, (pick testBank i).valid = true →
      (pick testBank i).base.toNat % 256 = 0 ∧ (pick testBank i).limit % 256 = 0 := by decide +kernel

theorem witness_GrantedPiecesLieInTheirTargets :
    WindowLaw live ∧ formGood (ask .wrreq 0xFC1) ∧ ∃ ps g, windowCheck live (ask .wrreq 0xFC1) = .granted ps g :=
  ⟨by decide +kernel, by decide,
    [⟨0, 0xFC1#48, 2, .t1, 0x40000FC1#48, 63, 0⟩, ⟨1, 0x1000#48, 3, .t0, 0x50000000#48, 1, 63⟩], 0#8, by decide +kernel⟩

theorem witness_RefusalNamesCodeActionAndRecord :
    (∃ r, windowCheck live (ask .rdreq 0x2000) = .refused r ∧ r.code = .noRight) ∧
    ∃ r, windowCheck live (ask .pwreq 0x3000) = .refused r ∧ r.code = .noWindow :=
  ⟨⟨_, rfl, rfl⟩, _, rfl, rfl⟩

theorem witness_ArbiterChoosesAnEligibleHead :
    live.mgmt.config.arbiterMode = .rotate ∧
    { live.mgmt.config with arbiterMode := .fixed }.arbiterMode = .fixed ∧
    headEligible (setFifo 31 [.posted 0 0#48 1 [1#8]] live) 31 = true := by decide +kernel

theorem witness_PayloadsAndFramesReadBack :
    (LinkState.training ≠ .down ∧ LinkState.up ≠ .down) ∧
    (1 ≤ (1#16).toNat ∧ (255#16).toNat ≤ 255) ∧ { clearedEntry with limit := 2 ^ 48 }.limit ≤ 2 ^ 48 ∧
    (let w : RqWrite := ⟨31, .unchanged, 128, 15, .quarantine, true, true⟩
     1 ≤ w.openLimit ∧ w.openLimit ≤ 128 ∧ 1 ≤ w.strikeLimit ∧ w.strikeLimit ≤ 15) ∧
    let c : GlobalConfig := ⟨1, 65535, 1, 1, 65535, 10000, 5000, 255, 0x3F#6, .fixed, true⟩
    (∀ t ∈ [c.t0, c.t1, c.t2, c.t3, c.reclaimPeriod], 1 ≤ t ∧ t ≤ 65535) ∧ 10 ≤ c.leasePeriod ∧
      c.leasePeriod ≤ 10000 ∧ c.minimumSpacing * 2 ≤ c.leasePeriod ∧ 1 ≤ c.resendPeriod ∧
      c.resendPeriod ≤ 255 := by decide

/-- A received header of a kind byte, byte 4, and bytes 12 and 13; every other byte is 0EEh. -/
def received (kind byte4 high low : Byte) : Frame :=
  ⟨#v[kind, 0xEE, 0xEE, 0xEE, byte4, 0xEE, 0xEE, 0xEE, 0xEE, 0xEE, 0xEE, 0xEE, high, low, 0xEE, 0xEE], []⟩

/-- R192 at the bounds of a CRET's count and class, R24's strays, and the bits that R193 leaves unused. -/
theorem witness_ReceivedFrames :
    instrOfFrame .down .up (received 0xC0 2 0 0) = some (.downstreamStrayPacket (.cret .request 0#16)) ∧
    instrOfFrame .down .up (received 0xCF 2 0 1) = some (.downstreamCret .request 1#16) ∧
    instrOfFrame .down .up (received 0xC0 3 0 255) = some (.downstreamCret .posted 255#16) ∧
    instrOfFrame .down .up (received 0xC0 3 1 0) = some (.downstreamStrayPacket (.cret .posted 256#16)) ∧
    instrOfFrame .down .up (received 0xC0 1 0 1) = some (.downstreamStrayPacket (.cret .intake 1#16)) ∧
    instrOfFrame .down .up (received 0xC0 4 0 1) = some (.downstreamStrayPacket (.cret .none 1#16)) ∧
    instrOfFrame .down .training (received 0x10 0 0 1) = some (.downstreamStrayPacket .rdreq) ∧
    instrOfFrame .up .up (received 0x41 0 0 1) = some (.upstreamStrayPacket .rdrsp 14) ∧
    instrOfFrame .up .up (received 0x70 0 0 1) = some (.upstreamStrayPacket (.unassigned 0x7#4) 14) ∧
    instrOfFrame .up .up (received 0xD0 0 0 1) = some (.initWhileUp .up) := by decide

theorem witness_SentFramesFollowTheLayout :
    255 < 256 ∧ 32 ≤ 32 ∧ (ErrCode.aborted, 0x0B#8) ∈ [(ErrCode.malformed, 0x01#8), (ErrCode.aborted, 0x0B#8)] := by
  decide

theorem witness_UpstreamPacketJoinsOrIsDiscarded :
    Running live ∧ live.up.link = .up ∧ (List.replicate 31 (IntakePacket.request (ask .rdreq 0))).length < 32 ∧
    32 ≤ (List.replicate 32 (IntakePacket.request (ask .rdreq 0))).length ∧
    (Running { live with up := training 1 } ∧ { live with up := training 1 }.up.link ≠ .up) := by decide +kernel

/-- The part with the state and the limit of requester 3 replaced. -/
def requester3 (x : RequesterState) (limit : Nat) (s : State) : State :=
  { s with requesters := put s.requesters 3 { coldRequester with state := x, openLimit := limit } }

theorem witness_RefusedRequest_form :
    atHead { ask .rdreq 0 with length := 0#16 } [] (asking { ask .rdreq 0 with length := 0#16 } live) ∧
    ¬ formGood { ask .rdreq 0 with length := 0#16 } ∧ ¬ formGood { ask .rdreq 0 with length := 257#16 } ∧
    ¬ formGood { ask .rdreq 0xFFFFFFFFFFFF with length := 2#16 } ∧ ¬ formGood { ask .wrreq 0 with data := [] } ∧
    formGood (ask .pwreq 0) := by decide +kernel

theorem witness_RefusedRequest_states :
    (pick (requester3 .disabled 8 live).requesters 3).state = .disabled ∧
    (pick (requester3 .quarantined 8 live).requesters 3).state = .quarantined ∧
    (pick live.requesters 3).state = .active ∧ { live with down := training 1 }.down.link ≠ .up ∧
    live.intake.linkDownLogged = false ∧ { live.intake with linkDownLogged := true }.linkDownLogged = true := by
  decide +kernel

theorem witness_RefusedRequest_tag :
    atHead (ask .rdreq 0) [] (asking (ask .rdreq 0) (tracking (twoPieces .issued .issued) live)) ∧
    tagTaken (ask .rdreq 0) (asking (ask .rdreq 0) (tracking (twoPieces .issued .issued) live)) :=
  ⟨by decide +kernel, 5, twoPieces .issued .issued, by decide +kernel, by decide, by decide⟩

theorem witness_RefusedRequest_limit :
    let q := { ask .wrreq 0 with tag := 22#8 }
    let s := asking q (requester3 .active 1 (tracking (twoPieces .issued .issued) live))
    formGood q ∧ ¬ tagTaken q s ∧ (pick s.requesters q.requester).openLimit ≤ openCount s q.requester := by
  decide +kernel

/-- The request of `ask` passes checks 1 to 6 in `live`. -/
theorem passes_live (kind : ReqKind) (a : Nat) (s : State) (h : formGood (ask kind a))
    (h1 : (pick s.requesters 3).state = .active ∧ s.down.link = .up ∧
      (∀ i, (pick s.ort i).occ.openRecord.all (fun t => t.tag != 21#8) = true) ∧
      openCount s 3 < (pick s.requesters 3).openLimit) :
    passesSix (ask kind a) s := by
  refine ⟨h, h1.1, h1.2.1, fun _ => ⟨?_, h1.2.2.2⟩⟩
  rintro ⟨i, t, ht, _, hg⟩
  have := h1.2.2.1 i
  simp only [openAt, Option.mem_def] at ht
  simp [ht] at this
  exact this (by simpa [ask] using hg)

theorem witness_RefusedRequest_window :
    let s := asking (ask .rdreq 0x2000) live
    atHead (ask .rdreq 0x2000) [] s ∧ passesSix (ask .rdreq 0x2000) s ∧
      ∃ r, windowCheck s (ask .rdreq 0x2000) = .refused r :=
  ⟨by decide +kernel, passes_live _ _ _ (by decide) (by decide +kernel), _, rfl⟩

/-- A FIFO of `n` posted entries. -/
def postedQueue (n : Nat) : List FifoEntry := List.replicate n (.posted 0 0#48 1 [1#8])

/-- `live` with every slot OPEN for requester 9. -/
def crowded : State :=
  { live with ort := Vector.replicate 128 ⟨0, .opened { twoPieces .issued .issued with requester := 9, tag := 20#8 }⟩ }

theorem witness_MissingResources_room :
    let s := asking (ask .pwreq 0) (setFifo 3 (postedQueue 8) live)
    atHead (ask .pwreq 0) [] s ∧ passesSix (ask .pwreq 0) s ∧ (∃ ps g, windowCheck s (ask .pwreq 0) = .granted ps g) ∧
      ¬ ((ask .pwreq 0).kind ≠ .pwreq ∧ noFreeSlot s) ∧ 8 < (fifoOf s 3).length + 1 :=
  ⟨by decide +kernel, passes_live _ _ _ (by decide) (by decide +kernel), ⟨_, _, rfl⟩, by decide +kernel,
    by decide +kernel⟩

theorem witness_MissingResources_slot :
    let s := asking (ask .rdreq 0) crowded
    atHead (ask .rdreq 0) [] s ∧ passesSix (ask .rdreq 0) s ∧ (∃ ps g, windowCheck s (ask .rdreq 0) = .granted ps g) ∧
      ((ask .rdreq 0).kind ≠ .pwreq ∧ noFreeSlot s) ∧ ¬ 8 < (fifoOf s 3).length + 1 ∧
      8 < (fifoOf (setFifo 3 (postedQueue 8) s) 3).length + 1 ∧ s.intake.exhaustRaised = false ∧
      { s.intake with exhaustRaised := true }.exhaustRaised = true :=
  ⟨by decide +kernel, passes_live _ _ _ (by decide) (by decide +kernel), ⟨_, _, rfl⟩, by decide +kernel,
    by decide +kernel, by decide +kernel, by decide +kernel, by decide⟩

theorem witness_AcceptedRequestTakesSlotAndPlaces :
    let s := asking (ask .wrreq 0xFFF) (setFifo 3 (postedQueue 6) live)
    atHead (ask .wrreq 0xFFF) [] s ∧ passesSix (ask .wrreq 0xFFF) s ∧
      (∃ ps g, windowCheck s (ask .wrreq 0xFFF) = .granted ps g ∧ (fifoOf s 3).length + ps.length ≤ 8) ∧
      (ask .wrreq 0xFFF).kind ≠ .pwreq ∧ (pick s.ort 0).occ = .free ∧ (∀ j, j < 0 → (pick s.ort j).occ ≠ .free) ∧
      (ask .pwreq 0xFFF).kind = .pwreq :=
  ⟨by decide +kernel, passes_live _ _ _ (by decide) (by decide +kernel), ⟨_, _, rfl, by decide +kernel⟩, by decide,
    by decide +kernel, by decide +kernel, by decide⟩

theorem witness_CommandsReachTheManagementQueue :
    let m : Mcmd := ⟨0, 7#16, 0x02#8, []⟩
    (Running live ∧ live.down.link = .up) ∧
    { live.intake with queue := [.mcmd m] }.queue = .mcmd m :: [] ∧
    (List.replicate 15 (order .status [])).length < 16 ∧ 16 ≤ (List.replicate 16 (order .status [])).length ∧
    { live with down := training 1 }.down.link ≠ .up := by decide +kernel

theorem witness_GrantSends_after_a_grant :
    let s := setFifo 3 [.tracked 5 1 none] (tracking (twoPieces .issued .queued) live)
    let b := { s with issue := { s.issue with sendPathBusy := true } }
    Running b ∧ b.issue.sendPathBusy = true ∧ chooseFifo b = some 3 := by decide +kernel

theorem witness_GrantSendsTheHeadPiece :
    let s := setFifo 3 [.tracked 5 1 none] (tracking (twoPieces .issued .queued) live)
    let u := setFifo 31 [.posted 0 0#48 1 [1#8]] live
    (Running s ∧ s.issue.sendPathBusy = false ∧ chooseFifo s = some 3 ∧ fifoOf s 3 = .tracked 5 1 none :: [] ∧
      (pick s.ort 5).occ = .opened (twoPieces .issued .queued) ∧
      (twoPieces .issued .queued).piece 1 = some ⟨1, 3, 0x50000000#48, 64, 64, .queued⟩) ∧
    Running u ∧ u.issue.sendPathBusy = false ∧ chooseFifo u = some 31 ∧
      fifoOf u 31 = .posted 0 0#48 1 [1#8] :: [] := by decide +kernel

theorem witness_ResponseResolves_read :
    let s := tracking (twoPieces .issued .done) live
    let r : Response := ⟨⟨5, 0, 2⟩, .rdrsp 64#16 (List.replicate 64 0#8)⟩
    arrives r s ∧ (pick s.ort 5).occ = .opened (twoPieces .issued .done) ∧
    fitsPiece r (twoPieces .issued .done) ⟨0, 2, 0x40000FC0#48, 64, 0, .issued⟩ :=
  ⟨by decide +kernel, by decide +kernel, by decide, by decide, by decide, by decide, by decide⟩

theorem witness_ResponseResolves_write :
    let t := { twoPieces .issued .done with kind := .write }
    let s := tracking t live
    let r : Response := ⟨⟨5, 0, 2⟩, .wrrsp⟩
    arrives r s ∧ (pick s.ort 5).occ = .opened t ∧ fitsPiece r t ⟨0, 2, 0x40000FC0#48, 64, 0, .issued⟩ :=
  ⟨by decide +kernel, by decide +kernel, by decide, by decide, by decide⟩

theorem witness_ResponseResolves_error :
    let s := tracking (twoPieces .issued .issued) live
    let r : Response := ⟨⟨5, 0, 2⟩, .errsp 17#8⟩
    let c := { draining 1 false with liveGeneration := 1#8 }
    arrives r s ∧ fitsPiece r (twoPieces .issued .issued) ⟨0, 2, 0x40000FC0#48, 64, 0, .issued⟩ ∧
    ((twoPieces .issued .issued).generation = s.commit.liveGeneration ∧ (0 : BankNum) = s.commit.liveBank) ∧
    ((twoPieces .issued .issued).generation = c.liveGeneration - 1 ∧ c.drainingBank = some 2) ∧
    (pick (pick s.banks 0) 2).errorHandling = .log ∧ (pick (pick s.banks 0) 3).errorHandling = .pass :=
  ⟨by decide +kernel, ⟨by decide, by decide, trivial⟩, by decide +kernel, by decide +kernel, by decide +kernel,
    by decide +kernel⟩

theorem witness_LateResponse :
    let t := { twoPieces .done .issued with failure := some .timeout }
    let s := { live with ort := put live.ort 5 ⟨1, .stale t⟩ }
    let r : Response := ⟨⟨5, 1, 1⟩, .errsp 0#8⟩
    arrives r s ∧ (pick s.ort 5).occ = .stale t ∧ fitsPiece r t ⟨1, 3, 0x50000000#48, 64, 64, .issued⟩ :=
  ⟨by decide +kernel, by decide +kernel, by decide, by decide, trivial⟩

theorem witness_StrayResponse :
    let r : Response := ⟨⟨127, 1, 3⟩, .wrrsp⟩
    Running live ∧ live.down.link = .up ∧ ¬ Claims.answersAPiece r live ∧
    { live with down := training 1 }.down.link ≠ .up :=
  ⟨by decide +kernel, by decide +kernel, fun h => absurd h.1 (by decide +kernel), by decide +kernel⟩

theorem witness_CreditReturnsAreCapped :
    (3 : Nat) + 1 ≤ 4 ∧ (4 : Nat) < 4 + 1 ∧ Running live ∧ live.down.link = .up ∧ 1 ≤ (1#16).toNat ∧
    (255#16).toNat ≤ 255 ∧ live.issue.postedPool.maximum < live.issue.postedPool.available + (1#16).toNat ∧
    { live.issue.postedPool with available := 3 }.available + (1#16).toNat ≤ live.issue.postedPool.maximum ∧
    (0#16).toNat = 0 ∧ 255 < (256#16).toNat := by decide +kernel

theorem witness_DeadlineExpiryAnswersTheRequester :
    let t := twoPieces .queued .issued
    let s := tracking t live
    let u := { s with timers := put s.timers 5 (.deadline 0) }
    Running u ∧ (pick u.ort 5).occ = .opened t ∧ pick u.timers 5 = .deadline 0 ∧
    t.pieces.any (fun p => p.state == .issued) = true ∧
    (twoPieces .queued .done).pieces.any (fun p => p.state == .issued) = false := by decide +kernel

theorem witness_ReclaimExpiryFreesTheSlot :
    let t := { twoPieces .done .issued with failure := some .timeout }
    let s := { live with ort := put live.ort 127 ⟨3, .stale t⟩, timers := put live.timers 127 (.reclaim 0) }
    Running s ∧ (pick s.ort 127).occ = .stale t ∧ pick s.timers 127 = .reclaim 0 := by decide +kernel

theorem witness_DrainsEndAndFillsComplete :
    (Running live ∧ (draining 0 false).drainingBank = some 2 ∧ (draining 0 false).drainingOpen = 0 ∧
      (draining 0 false).heldCommit = false ∧ (draining 0 true).heldCommit = true) ∧
    (filling 0 true).condition = .filling ∧ (filling 0 true).fillStepDue = true ∧
    (filling 63 true).fillProgress = (63 : WinIndex).val ∧ (filling 64 false).fillProgress = 64 := by
  decide +kernel

theorem witness_LeaseTimerExpiryLapsesTheLease : live.mgmt.lease = none ∧
    ∃ l, (leasing .up 0 live).mgmt.lease = some l ∧ Running (leasing .up 0 live) ∧ l.timer = 0 ∧
      PortId.down ≠ l.holder.port := ⟨rfl, _, rfl, by decide +kernel, rfl, by decide⟩

theorem witness_PortsTrainOrFail :
    (Running live ∧ (fallen none false).link = .down ∧ (fallen none false).holdOffTimer = none) ∧
    upPort.link ≠ .down ∧ (fallen (some 1) true).holdOffTimer ≠ none ∧
    ((fallen (some 0) true).holdOffTimer = some 0 ∧ (fallen (some 0) true).signal = true) ∧
    (fallen (some 0) false).signal = false ∧ (training 0).link = .training ∧
    (training 0).trainingTimer = some 0 ∧ upPort.link ≠ .training ∧ (1 ≤ (1#16).toNat ∧ (255#16).toNat ≤ 255) ∧
    ¬ (1 ≤ (0#16).toNat) ∧ ¬ (256#16).toNat ≤ 255 := by decide +kernel

theorem witness_PortsFall :
    Running live ∧ live.up.link = .up ∧ live.down.link = .up ∧ Instr.initWhileUp .up ∈ leavesUp .up ∧
    Instr.lossOfSignal .down ∈ leavesUp .down := by decide +kernel

theorem witness_DownstreamFall_lapse :
    (∃ l ∈ (leasing .down 9 live).mgmt.lease, l.holder.port = .down) ∧
    drainDue { live with commit := draining 0 true } = true :=
  ⟨⟨_, rfl, rfl⟩, by decide +kernel⟩

theorem witness_PinsResetThePart : State.reset.resetHeld = true ∧ live.resetHeld = false := by decide +kernel

/-! ### Management commands -/

theorem witness_RefusedCommandsChangeNothing :
    (∀ c, headCommand (order c []) [] (ordered c [] live)) ∧
    (mayCommand ⟨.up, 0⟩ live ∧ ¬ mayCommand ⟨.up, 31⟩ live ∧ ¬ mayCommand ⟨.down, 0⟩ live) ∧
    (List.replicate 29 (0#8)).length ≠ Command.wtWrite.payloadBytes ∧ Command.renew.leaseBound = true ∧
    (holds ⟨.up, 0⟩ (leasing .up 9 live) ∧ ¬ holds ⟨.down, 0⟩ (leasing .up 9 live)) ∧
    (∀ k : Command, 0x00#8 ≠ k.code) ∧ (∀ k : Command, 0x16#8 ≠ k.code) ∧ Command.noteAck.code = 0x15#8 ∧
    Command.identify.code = 0x01#8 := by
  refine ⟨fun c => ⟨rfl, rfl⟩, ⟨?_, ?_, ?_⟩, by decide, rfl, by decide +kernel,
    fun k => by cases k <;> decide, fun k => by cases k <;> decide, rfl, rfl⟩
  · exact (by decide +kernel : (pick live.requesters 0).mayManage = true)
  · exact (by decide +kernel : ¬ (pick live.requesters 31).mayManage = true)
  · exact (by decide +kernel : ¬ live.mgmt.config.downstreamManagement = true)

/-- Every command row's command is executed somewhere, whatever its operands. -/
theorem witness_every_command_executes (k : Command) :
    ∃ c s, executes k c [] s ∧ c.payload = List.replicate k.payloadBytes 0#8 :=
  ⟨_, _, executes_ordered k _ (by simp), rfl⟩

theorem witness_ReadCommands_operands :
    (31#8).toNat = (31 : ReqNum).val ∧ 32 ≤ (32#8).toNat ∧ (127#8).toNat = (127 : SlotNum).val ∧
    128 ≤ (128#8).toNat := by decide

theorem witness_WindowReadAnswersByRole :
    executes .wtRead (order .wtRead [2#8, 63#8]) [] (ordered .wtRead [2#8, 63#8] live) ∧
    64 ≤ (64#8).toNat ∧ 3 ≤ (3#8).toNat ∧ (63#8).toNat = (63 : WinIndex).val ∧
    live.commit.drainingBank = none ∧ (draining 1 false).drainingBank = some 2 ∧
    (filling 0 true).condition = .filling ∧ live.commit.condition ≠ .filling :=
  ⟨executes_ordered _ _ rfl, by decide, by decide, by decide, by decide +kernel, by decide, by decide,
    by decide +kernel⟩

/-- CLAIM's hypotheses with no lease. -/
theorem witness_ClaimGrantsAFreeLease :
    let s := { live with mgmt := { live.mgmt with queue := [order .claim []] } }
    executes .claim (order .claim []) [] s ∧ s.mgmt.lease = none ∧ s.notice.outstanding = none ∧
    s.notice.pending = 0#6 ∧ { s.notice with pending := 0x20#6 }.pending ≠ 0#6 :=
  ⟨executes_of (by decide +kernel), rfl, by decide +kernel, by decide +kernel, by decide⟩

/-- CLAIM's hypotheses with another holder, and with the sender as the holder. -/
theorem witness_Claim_held :
    let s := { live with mgmt := { live.mgmt with queue := [order .claim []], lease := some ⟨⟨.down, 0⟩, 5, 0, 0⟩ } }
    (executes .claim (order .claim []) [] s ∧ (⟨.down, 0⟩ : Party) ≠ (order .claim []).sender) ∧
    executes .claim (order .claim []) [] (ordered .claim [] live) ∧ (⟨.up, 0⟩ : Party) = (order .claim []).sender :=
  ⟨⟨executes_of (by decide +kernel), by decide⟩, executes_ordered _ _ rfl, rfl⟩

theorem witness_RenewRestartsOrRevokes :
    let s := ordered .renew [] live
    executes .renew (order .renew []) [] { s with now := 100000 } ∧
    (∃ l, s.mgmt.lease = some l ∧ s.mgmt.config.minimumSpacing * 1000 ≤ 100000 - l.lastRenewal ∧
      99999 - l.lastRenewal < s.mgmt.config.minimumSpacing * 1000 ∧ l.earlyCount = 0) ∧
    ({ holder := ⟨.up, 0⟩, timer := 5, lastRenewal := 0, earlyCount := 1 } : Lease).earlyCount = 1 :=
  ⟨executes_of (by decide +kernel), ⟨_, rfl, by decide +kernel, by decide +kernel, rfl⟩, rfl⟩

theorem witness_FaultLogIsReadAndPopped :
    let s := { ordered .flogPop [32#8] live with flog := logOf 32 }
    executes .flogPop (order .flogPop [32#8]) [] s ∧ (order .flogPop [32#8]).payload = [32#8] ∧
    (0#8).toNat = 0 ∧ 32 < (33#8).toNat ∧ 1 ≤ (1#8).toNat ∧ (32#8).toNat ≤ 32 ∧ (logOf 0).records = [] ∧
    (s.flog.records = s.flog.records ++ [] ∧ s.flog.records.length ≤ (32#8).toNat) ∧
    ((logOf 2).records = (logOf 1).records ++ [⟨1#32, { kind := .timeout, port := .down }, 0⟩] ∧
      (logOf 1).records ≠ [] ∧ (logOf 1).records.length ≤ (1#8).toNat) :=
  ⟨executes_of (by decide +kernel), rfl, by decide, by decide, by decide, by decide, by decide,
    ⟨(List.append_nil _).symm, by decide⟩, by decide, by decide, by decide⟩

/-- A WT_WRITE's payload reads back, and one with Index 64 does not. -/
theorem witness_WindowWriteReplacesAStagedEntry :
    let e := openWindow 0xFFFFFFFFFF00 (2 ^ 48) 0
    (∃ c s, executes .wtWrite c [] s ∧ wtWriteOf c.payload = some (63, e) ∧ s.commit.condition = .writable) ∧
    wtWriteOf (wtWriteBytes 0 e |>.set 0 64#8) = none ∧ e.valid = true ∧ entryBounded e ∧
    ¬ entryBounded { e with base := 0x80#48 } ∧ clearedEntry.valid = false ∧
    (draining 1 true).condition ≠ .writable :=
  ⟨⟨_, _, executes_ordered .wtWrite (wtWriteBytes 63 (openWindow 0xFFFFFFFFFF00 (2 ^ 48) 0)) (by decide),
      by decide +kernel, by decide +kernel⟩, by decide +kernel, by decide, by decide, by decide, by decide, by decide⟩

theorem witness_CommitsAndClears :
    (executes .wtClear (order .wtClear []) [] (ordered .wtClear [] live) ∧
      (ordered .wtClear [] live).commit.condition = .writable) ∧
    (executes .commit (order .commit []) [] (ordered .commit [] live) ∧ (draining 1 false).condition = .writable ∧
      (draining 1 false).drainingBank = some 2 ∧ live.commit.drainingBank = none ∧
      live.commit.freeBank = some 2) ∧
    executes .commitCancel (order .commitCancel []) [] (ordered .commitCancel [] live) ∧
    (draining 1 true).heldCommit = true ∧ live.commit.heldCommit = false :=
  ⟨⟨executes_ordered _ _ rfl, by decide +kernel⟩, ⟨executes_ordered _ _ rfl, by decide, by decide, by decide +kernel,
    by decide +kernel⟩, executes_ordered _ _ rfl, by decide, by decide +kernel⟩

theorem witness_RequesterCommandsWriteTheEntry :
    let w : RqWrite := ⟨31, .active, 128, 15, .reject, false, true⟩
    (executes .rqWrite (order .rqWrite (rqWriteBytes w)) [] (ordered .rqWrite (rqWriteBytes w) live) ∧
      rqWriteOf (rqWriteBytes w) = some w ∧ rqWriteOf (rqWriteBytes { w with openLimit := 129 }) = none) ∧
    (pick (requester3 .quarantined 8 live).requesters 3).state = .quarantined ∧
    (pick live.requesters 31).state ≠ .quarantined ∧
    executes .reinstate (order .reinstate [3#8]) [] (ordered .reinstate [3#8] live) ∧ 32 ≤ (32#8).toNat :=
  ⟨⟨executes_ordered _ _ (by decide), by decide, by decide⟩, by decide +kernel, by decide +kernel,
    executes_ordered _ _ rfl, by decide⟩

theorem witness_NoticesAreRepeatedUntilAcknowledged :
    let s := noticing 0x04#6 0 (leasing .up 9 live)
    (∃ l n, Running s ∧ s.mgmt.lease = some l ∧ s.notice.outstanding = some n ∧ s.notice.resendTimer = some 0) ∧
    (executes .noteAck (order .noteAck [7#8]) [] (noticing 0#6 5 (ordered .noteAck [7#8] live)) ∧
      (noticing 0#6 5 live).notice.outstanding = some 7#8 ∧ (8#8 : Byte) ≠ 7#8 ∧
      (noticing 0#6 5 live).notice.pending = 0#6 ∧ s.notice.pending ≠ 0#6 ∧ live.notice.outstanding = none) :=
  ⟨⟨_, _, by decide +kernel, rfl, rfl, rfl⟩, executes_of (by decide +kernel), rfl, by decide, rfl, by decide +kernel,
    by decide +kernel⟩

theorem witness_ConfigIsReplacedAndCountersAreRead :
    let g := { Config.coldConfig with leasePeriod := 10, minimumSpacing := 5 }
    (executes .configWrite (order .configWrite (configWriteBytes g)) [] (ordered .configWrite (configWriteBytes g) live) ∧
      configWriteOf (configWriteBytes g) = some g ∧
      configWriteOf (configWriteBytes { g with minimumSpacing := 6 }) = none) ∧
    (order .configWrite (configWriteBytes g)).sender.port = .up :=
  ⟨⟨executes_ordered _ _ (by decide), by decide, by decide⟩, rfl⟩

/-- A lease holder on the downstream port turns downstream management off. -/
theorem witness_ConfigWrite_downstream :
    let c : QueuedCommand := ⟨⟨.down, 0⟩, 7#16, 0x0B#8, configWriteBytes Config.coldConfig⟩
    let s := leasing .down 9 { live with mgmt := { live.mgmt with
      queue := [c], config := { Config.coldConfig with downstreamManagement := true } } }
    executes .configWrite c [] s ∧ configWriteOf c.payload = some Config.coldConfig ∧
    Config.coldConfig.downstreamManagement = false ∧ c.sender.port = .down :=
  ⟨executes_of (by decide +kernel), by decide +kernel, rfl, rfl⟩

/-- The other executed commands with one-byte operands, and those without operands. -/
theorem witness_other_commands :
    executes .countersRead (order .countersRead [1#8]) [] (ordered .countersRead [1#8] live) ∧
    executes .partReset (order .partReset []) [] (ordered .partReset [] live) ∧
    executes .status (order .status []) [] (ordered .status [] live) ∧
    executes .release (order .release []) [] (ordered .release [] live) ∧
    executes .rqRead (order .rqRead [31#8]) [] (ordered .rqRead [31#8] live) ∧
    executes .ortRead (order .ortRead [127#8]) [] (ordered .ortRead [127#8] live) :=
  ⟨executes_ordered _ _ rfl, executes_ordered _ _ rfl, executes_ordered _ _ rfl, executes_ordered _ _ rfl,
    executes_ordered _ _ rfl, executes_ordered _ _ rfl⟩

/-! ### Laws that every step keeps -/

/-- A state with an OPEN slot whose second piece is queued, and the step that grants it. -/
def busy : State := setFifo 3 [.tracked 5 1 none] (tracking (twoPieces .issued .queued) live)

theorem witness_KeptLaws_log :
    LogLaw busy ∧ NoticeLaw busy ∧ RolesLaw busy ∧ GenerationLaw busy ∧ DrainLaw busy := by decide +kernel

theorem witness_KeptLaws_slots : WindowLaw busy ∧ SlotLaw busy ∧ TimerLaw busy := by decide +kernel

theorem witness_KeptLaws_tags : TagLaw busy := by
  have h : ∀ i, (openAt busy i).isSome = true → i = 5 := by decide +kernel
  intro i j t ht u hu _ _
  rw [h i (by simp [Option.mem_def.mp ht]), h j (by simp [Option.mem_def.mp hu])]

/-- The pieces of `busy`'s slot lie in windows 2 and 3 of bank 0, the live one. -/
theorem witness_KeptLaws_targets : TargetLaw busy := by
  have h : ∀ i, (openAt busy i).isSome = true → i = 5 := by decide +kernel
  have ho : openAt busy 5 = some (twoPieces .issued .queued) := by decide +kernel
  have hb : bankOfGeneration busy (twoPieces .issued .queued).generation = some 0 := by decide +kernel
  intro i t ht b hb' p hp
  obtain rfl : i = 5 := h i (by simp [Option.mem_def.mp ht])
  obtain rfl : twoPieces .issued .queued = t := by simpa [ho] using ht
  obtain rfl : (0 : BankNum) = b := by simpa [hb] using hb'
  revert p
  simp only [twoPieces, List.forall_mem_cons]
  exact ⟨by decide +kernel, by decide +kernel, by simp⟩

theorem witness_KeptLaws_issue :
    DownLaw busy ∧ PoolLaw busy ∧ SendPathLaw busy ∧ FifoLaw busy ∧ QuarantineLaw busy ∧ QueueLaw busy := by
  decide +kernel

theorem witness_KeptLaws_rest :
    RequesterLaw busy ∧ ConfigLaw busy ∧ LinkLaw busy.up ∧ LinkLaw busy.down ∧ HeadLaw busy ∧ PortLaw busy := by
  decide +kernel

/-- The step of `busy` is its grant, which answers a next state; `step` of any state here does. -/
theorem witness_KeptLaws_step : nextDue busy = some .grant ∧ ∃ t, step busy = .next t := by
  refine ⟨by decide +kernel, ?_⟩
  have h : busy.pending = [] ∧ busy.resetHeld = false ∧ canTransmit busy = false ∧ nextDue busy = some .grant := by
    decide +kernel
  exact ⟨_, by simp only [step, idle, h]; rfl⟩

/-- A response that closes a slot: both links stay UP, and the command is no cold reset. -/
theorem witness_EventLaws :
    let c := Instr.responseArrival ⟨⟨5, 0, 2⟩, .rdrsp 64#16 (List.replicate 64 0#8)⟩
    (∃ t, exec c busy = .next t ∧ t.up.link = .up) ∧ busy.up.link = .up ∧ SlotLaw busy ∧ FifoLaw busy ∧
    ∀ x h, c ≠ .resetNAssert ∧ c ≠ .powerUp x h :=
  ⟨⟨_, rfl, by decide +kernel⟩, by decide +kernel, by decide +kernel, by decide +kernel, fun _ _ => by simp⟩

end Sys2Proof.Tests
end

