-- ==== Sys2Proof/Proofs/WindowLookup.lean ====
section
/-! PROOFS. Lookup and split (R6, R8, R9): which entry a byte finds, that lookup is constant over a granule of an
aligned bank, and where the bytes of a request's pieces lie. -/

namespace Sys2Proof.Proofs

open Sys2Proof.Machine Sys2Proof.Safety Sys2Proof.Claims Sys2Proof.Laws

/-! ## Lookup -/

theorem covers_iff (b : Bank) (r : ReqNum) (a : Nat) (i : WinIndex) :
    (pick b i).covers r a = true ↔ matchesByte b r a i := by
  simp [WindowEntry.covers, WindowEntry.serves, matchesByte, and_assoc]

theorem lookup_eq_none_iff (b : Bank) (r : ReqNum) (a : Nat) :
    lookup b r a = none ↔ ∀ i, ¬ matchesByte b r a i := by
  simp only [lookup, List.find?_eq_none, List.mem_finRange, true_imp_iff, covers_iff]

theorem lookup_eq_some_iff (b : Bank) (r : ReqNum) (a : Nat) (i : WinIndex) :
    lookup b r a = some i ↔ matchesByte b r a i ∧ ∀ j, j < i → ¬ matchesByte b r a j := by
  simp only [lookup, List.find?_eq_some_iff_getElem, covers_iff, List.getElem_finRange, Bool.not_eq_true']
  constructor
  · rintro ⟨hi, n, hn, rfl, hlow⟩
    refine ⟨hi, fun j hj hm => ?_⟩
    have := hlow j.val hj
    simp_all [← covers_iff]
  · rintro ⟨hi, hlow⟩
    refine ⟨hi, i.val, by simp, by simp, fun j hj => ?_⟩
    have := hlow ⟨j, by omega⟩ hj
    simp_all [← covers_iff]

/-- Settles O10, from the first index that `find?` meets in ascending order. -/
theorem lookupYieldsTheLowestIndex : Obligations.LookupYieldsTheLowestIndex :=
  fun b r a => ⟨lookup_eq_some_iff b r a, lookup_eq_none_iff b r a⟩

theorem matchesByte_of_lookup {b : Bank} {r : ReqNum} {a : Nat} {i : WinIndex} (h : lookup b r a = some i) :
    matchesByte b r a i :=
  ((lookup_eq_some_iff b r a i).mp h).1

/-! ## Granules -/

/-- Base and Limit of every valid entry are whole granules (R2). -/
def Aligned (b : Bank) : Prop :=
  ∀ i, (pick b i).valid = true → (pick b i).base.toNat % 256 = 0 ∧ (pick b i).limit % 256 = 0

/-- No window of an aligned bank begins or ends inside a granule. -/
theorem matchesByte_of_sameGranule {b : Bank} (hb : Aligned b) {r : ReqNum} {x y : Nat} (h : x / 256 = y / 256)
    {i : WinIndex} (hx : matchesByte b r x i) : matchesByte b r y i := by
  obtain ⟨hv, hr, hbase, hlimit⟩ := hx
  obtain ⟨halign, halign'⟩ := hb i hv
  exact ⟨hv, hr, by omega, by omega⟩

theorem lookup_of_sameGranule {b : Bank} (hb : Aligned b) (r : ReqNum) {x y : Nat} (h : x / 256 = y / 256) :
    lookup b r x = lookup b r y := by
  have same : ∀ i, matchesByte b r x i ↔ matchesByte b r y i := fun i =>
    ⟨matchesByte_of_sameGranule hb h, matchesByte_of_sameGranule hb h.symm⟩
  cases hy : lookup b r y with
  | none => rw [lookup_eq_none_iff] at hy ⊢; simpa only [same] using hy
  | some i => rw [lookup_eq_some_iff] at hy ⊢; simpa only [same] using hy

/-! ## The split -/

theorem splitRequest_of_agree {b : Bank} {q : Request}
    (h : lookup b q.requester q.address.toNat = lookup b q.requester (lastByte q)) :
    splitRequest b q = [⟨0, q.address, q.length.toNat, 0, lookup b q.requester q.address.toNat⟩] := by
  simp only [splitRequest, if_pos h]

theorem splitRequest_of_differ {b : Bank} {q : Request}
    (h : lookup b q.requester q.address.toNat ≠ lookup b q.requester (lastByte q)) :
    splitRequest b q =
      [⟨0, q.address, splitPoint q - q.address.toNat, 0, lookup b q.requester q.address.toNat⟩,
        ⟨1, BitVec.ofNat 48 (splitPoint q), lastByte q - splitPoint q + 1, splitPoint q - q.address.toNat,
          lookup b q.requester (lastByte q)⟩] := by
  simp only [splitRequest, if_neg h]

/-- A request of at most 256 bytes reaches two granules at most: each of its bytes lies in the granule of its first byte
or in that of its last. -/
theorem byte_in_endGranule {q : Request} (hq : formGood q) {k : Nat} (hk : k < q.length.toNat) :
    (q.address.toNat + k) / 256 = q.address.toNat / 256 ∨ (q.address.toNat + k) / 256 = lastByte q / 256 := by
  obtain ⟨hpos, hmax, -, -⟩ := hq
  unfold lastByte
  omega

/-- When the ends of a request find different windows, the split point lies above its first byte, in the next
granule. -/
theorem splitPoint_of_differ {b : Bank} {q : Request} (hb : Aligned b) (hq : formGood q)
    (h : lookup b q.requester q.address.toNat ≠ lookup b q.requester (lastByte q)) :
    q.address.toNat < splitPoint q ∧ splitPoint q ≤ lastByte q ∧
      q.address.toNat / 256 = (splitPoint q - 1) / 256 ∧ splitPoint q / 256 = lastByte q / 256 := by
  obtain ⟨hpos, hmax, -, -⟩ := hq
  have granules : q.address.toNat / 256 ≠ lastByte q / 256 := fun e => h (lookup_of_sameGranule hb _ e)
  unfold splitPoint
  have hlast : lastByte q = q.address.toNat + q.length.toNat - 1 := rfl
  omega

/-- What R8 and R9 promise of the pieces of a request: every byte of a piece finds the piece's window, which covers
all of it. -/
def Whole (b : Bank) (q : Request) (p : CheckedPiece) : Prop :=
  (∀ k, k < p.length → lookup b q.requester (q.address.toNat + p.offset + k) = p.window) ∧
    ∀ w, p.window = some w →
      (pick b w).base.toNat ≤ q.address.toNat + p.offset ∧
        q.address.toNat + p.offset + p.length ≤ (pick b w).limit

/-- A piece whose every byte finds its window is covered by it: the first and the last byte say so. -/
theorem whole_of_lookups {b : Bank} {q : Request} {p : CheckedPiece} (hp : 1 ≤ p.length)
    (h : ∀ k, k < p.length → lookup b q.requester (q.address.toNat + p.offset + k) = p.window) :
    Whole b q p := by
  refine ⟨h, fun w hw => ?_⟩
  obtain ⟨-, -, hbase, -⟩ := matchesByte_of_lookup ((h 0 (by omega)).trans hw)
  obtain ⟨-, -, -, hlimit⟩ := matchesByte_of_lookup ((h (p.length - 1) (by omega)).trans hw)
  omega

theorem splitRequest_whole {b : Bank} {q : Request} (hb : Aligned b) (hq : formGood q) :
    ∀ p ∈ splitRequest b q, Whole b q p := by
  have hpos := hq.1
  by_cases h : lookup b q.requester q.address.toNat = lookup b q.requester (lastByte q)
  · rw [splitRequest_of_agree h, List.forall_mem_singleton]
    refine whole_of_lookups hpos fun k hk => ?_
    rcases byte_in_endGranule hq hk with hg | hg
    · exact lookup_of_sameGranule hb _ hg
    · exact (lookup_of_sameGranule hb _ hg).trans h.symm
  · obtain ⟨hlt, hle, hfirst, hlast⟩ := splitPoint_of_differ hb hq h
    rw [splitRequest_of_differ h, List.forall_mem_cons, List.forall_mem_singleton]
    constructor
    · refine whole_of_lookups (by dsimp only; omega) fun k hk => lookup_of_sameGranule hb _ ?_
      dsimp only at hk ⊢
      omega
    · refine whole_of_lookups (by dsimp only; omega) fun k hk => lookup_of_sameGranule hb _ ?_
      dsimp only at hk ⊢
      omega

theorem splitRequest_lengths {b : Bank} {q : Request} (hb : Aligned b) (hq : formGood q) :
    ((splitRequest b q).map CheckedPiece.length).sum = q.length.toNat := by
  by_cases h : lookup b q.requester q.address.toNat = lookup b q.requester (lastByte q)
  · simp [splitRequest_of_agree h]
  · obtain ⟨hlt, hle, -, -⟩ := splitPoint_of_differ hb hq h
    have hpos := hq.1
    have hlast : lastByte q = q.address.toNat + q.length.toNat - 1 := rfl
    simp only [splitRequest_of_differ h, List.map_cons, List.map_nil, List.sum_cons, List.sum_nil]
    omega

/-- Settles O11, from the two forms of the split and the granules of its bytes. -/
theorem requestSplitsAtTheGranule : Obligations.RequestSplitsAtTheGranule := by
  intro b q hq
  refine ⟨splitRequest_of_agree, splitRequest_of_differ, fun hb => ⟨splitRequest_lengths hb hq, ?_, ?_, ?_⟩⟩
  · intro hg
    rw [splitRequest_of_agree (lookup_of_sameGranule hb _ hg)]
    rfl
  · intro h
    obtain ⟨hlt, -, hfirst, hlast⟩ := splitPoint_of_differ hb hq h
    exact ⟨Nat.sub_pos_of_lt hlt, hfirst, hlast⟩
  · exact splitRequest_whole hb hq

end Sys2Proof.Proofs
end

