-- ==== Sys2Proof/Proofs/WindowCheck.lean ====
section
/-! PROOFS. The window check (R10 to R15): when a request is granted, what each granted piece is, and what a refusal
carries. -/

namespace Sys2Proof.Proofs

open Sys2Proof.Machine Sys2Proof.Safety Sys2Proof.Claims Sys2Proof.Laws

/-! ## The check's two answers -/

theorem fails_eq_lacksRight (b : Bank) (k : ReqKind) (p : CheckedPiece) : p.fails b k = lacksRight b k p := by
  unfold CheckedPiece.fails lacksRight
  cases p.window <;> cases k <;> rfl

theorem windowCheck_of_passes {s : State} {q : Request}
    (h : ∀ p ∈ splitRequest (liveBank s) q, lacksRight (liveBank s) q.kind p = false) :
    windowCheck s q =
      .granted ((splitRequest (liveBank s) q).filterMap fun p => p.granted (liveBank s))
        s.commit.liveGeneration := by
  refine if_neg ?_
  simpa [fails_eq_lacksRight] using h

theorem windowCheck_of_fails {s : State} {q : Request} {p : CheckedPiece}
    (hp : p ∈ splitRequest (liveBank s) q) (h : lacksRight (liveBank s) q.kind p = true) :
    windowCheck s q =
      .refused (refusal (liveBank s) (entryOf s q.requester).missAction s.commit.liveGeneration q
        (splitRequest (liveBank s) q)) := by
  refine if_pos ?_
  rw [List.any_eq_true]
  exact ⟨p, hp, (fails_eq_lacksRight _ _ _).trans h⟩

theorem windowCheck_eq_granted_iff {s : State} {q : Request} {ps : List GrantedPiece} {g : Generation} :
    windowCheck s q = .granted ps g ↔
      (∀ p ∈ splitRequest (liveBank s) q, lacksRight (liveBank s) q.kind p = false) ∧
        ps = (splitRequest (liveBank s) q).filterMap (fun p => p.granted (liveBank s)) ∧
        g = s.commit.liveGeneration := by
  by_cases h : ∀ p ∈ splitRequest (liveBank s) q, lacksRight (liveBank s) q.kind p = false
  · rw [windowCheck_of_passes h, CheckResult.granted.injEq]
    exact ⟨fun ⟨hp, hg⟩ => ⟨h, hp.symm, hg.symm⟩, fun ⟨_, hp, hg⟩ => ⟨hp.symm, hg.symm⟩⟩
  · obtain ⟨p, hp, hf⟩ : ∃ p ∈ splitRequest (liveBank s) q, lacksRight (liveBank s) q.kind p = true := by
      simpa using h
    rw [windowCheck_of_fails hp hf]
    exact ⟨fun hc => (nomatch hc), fun hc => absurd hc.1 h⟩

theorem windowCheck_eq_refused_iff {s : State} {q : Request} {r : Refused} :
    windowCheck s q = .refused r ↔
      (∃ p ∈ splitRequest (liveBank s) q, lacksRight (liveBank s) q.kind p = true) ∧
        r = refusal (liveBank s) (entryOf s q.requester).missAction s.commit.liveGeneration q
          (splitRequest (liveBank s) q) := by
  by_cases h : ∃ p ∈ splitRequest (liveBank s) q, lacksRight (liveBank s) q.kind p = true
  · obtain ⟨p, hp, hf⟩ := h
    rw [windowCheck_of_fails hp hf, CheckResult.refused.injEq]
    exact ⟨fun hr => ⟨⟨p, hp, hf⟩, hr.symm⟩, fun hr => hr.2.symm⟩
  · rw [windowCheck_of_passes (by simpa using h)]
    exact ⟨fun hc => (nomatch hc), fun hc => absurd hc.1 h⟩

/-! ## Granted pieces -/

/-- A granted piece with the fields of R9. -/
def asChecked (p : GrantedPiece) : CheckedPiece := ⟨p.index, p.upstream, p.length, p.offset, some p.window⟩

theorem granted_eq_some {b : Bank} {p : CheckedPiece} {g : GrantedPiece} (h : p.granted b = some g) :
    asChecked g = p ∧ g.deadlineClass = (pick b g.window).deadlineClass ∧
      g.address = translate (pick b g.window) g.upstream := by
  obtain ⟨w, hw, rfl⟩ := Option.map_eq_some_iff.mp h
  refine ⟨?_, rfl, rfl⟩
  cases p
  simp_all [asChecked]

/-- A piece that passes has a window, so that it is granted as it stands. -/
theorem granted_of_passes {b : Bank} {k : ReqKind} {p : CheckedPiece} (h : lacksRight b k p = false) :
    (p.granted b).map asChecked = some p := by
  obtain ⟨index, upstream, length, offset, _ | w⟩ := p
  · simp [lacksRight] at h
  · rfl

theorem map_asChecked_granted {b : Bank} {k : ReqKind} {l : List CheckedPiece}
    (h : ∀ p ∈ l, lacksRight b k p = false) : (l.filterMap fun p => p.granted b).map asChecked = l := by
  rw [List.map_filterMap]
  calc l.filterMap (fun p => (p.granted b).map asChecked)
      = l.filterMap some := List.filterMap_congr fun p hp => granted_of_passes (h p hp)
    _ = l := List.filterMap_some

/-! ## Where a granted piece goes -/

/-- R15 in the numbers of the manual: inside a bounded window the translation does not wrap. -/
theorem translate_toNat {e : WindowEntry} (he : e.bounded = true) {a : Addr} (hbase : e.base.toNat ≤ a.toNat)
    (hlimit : a.toNat < e.limit) : (translate e a).toNat = e.target.toNat + (a.toNat - e.base.toNat) := by
  simp only [WindowEntry.bounded, addrEnd, Bool.and_eq_true, beq_iff_eq, decide_eq_true_eq] at he
  obtain ⟨⟨⟨⟨⟨-, -⟩, -⟩, -⟩, -⟩, hfits⟩ := he
  rw [Machine.translate, BitVec.toNat_add, BitVec.toNat_sub_of_le (by rwa [BitVec.le_def]), Nat.mod_eq_of_lt (by omega)]

theorem aligned_of_windowLaw {s : State} (h : WindowLaw s) (b : BankNum) : Aligned (bankOf s b) := by
  intro i hv
  have hb := h b i hv
  simp only [WindowEntry.bounded, Bool.and_eq_true, beq_iff_eq] at hb
  obtain ⟨⟨⟨⟨⟨hbase, hlimit⟩, -⟩, -⟩, -⟩, -⟩ := hb
  exact ⟨hbase, hlimit⟩

/-- The upstream address of a piece is the request's Address plus its Offset. -/
theorem splitRequest_upstream {b : Bank} {q : Request} (hb : Aligned b) (hq : formGood q) :
    ∀ p ∈ splitRequest b q, p.upstream.toNat = q.address.toNat + p.offset := by
  by_cases h : lookup b q.requester q.address.toNat = lookup b q.requester (lastByte q)
  · simp [splitRequest_of_agree h]
  · obtain ⟨hlt, hle, -, -⟩ := splitPoint_of_differ hb hq h
    have hsmall : splitPoint q < 2 ^ 48 := by
      have hlast : lastByte q = q.address.toNat + q.length.toNat - 1 := rfl
      have := hq.1
      have := hq.2.2.1
      omega
    rw [splitRequest_of_differ h, List.forall_mem_cons, List.forall_mem_singleton]
    refine ⟨rfl, ?_⟩
    simp only [BitVec.toNat_ofNat, Nat.mod_eq_of_lt hsmall]
    omega

theorem splitRequest_length_pos {b : Bank} {q : Request} (hb : Aligned b) (hq : formGood q) :
    ∀ p ∈ splitRequest b q, 1 ≤ p.length := by
  by_cases h : lookup b q.requester q.address.toNat = lookup b q.requester (lastByte q)
  · simpa [splitRequest_of_agree h] using hq.1
  · obtain ⟨hlt, -, -, -⟩ := splitPoint_of_differ hb hq h
    rw [splitRequest_of_differ h, List.forall_mem_cons, List.forall_mem_singleton]
    exact ⟨Nat.sub_pos_of_lt hlt, Nat.succ_pos _⟩

/-- What R15 says of a granted piece `p` of request `q` and its window `w`: the window serves the piece and covers it,
and the piece goes to the same place of the Target range. -/
structure GoesThrough (q : Request) (p : GrantedPiece) (w : WindowEntry) : Prop where
  valid : w.valid = true
  serves : w.requesters.getLsbD q.requester.val = true
  grants : w.rights.grants q.kind = true
  base : w.base.toNat ≤ q.address.toNat + p.offset
  limit : q.address.toNat + p.offset + p.length ≤ w.limit
  deadlineClass : p.deadlineClass = w.deadlineClass
  address : p.address.toNat = w.target.toNat + (q.address.toNat + p.offset - w.base.toNat)

theorem GoesThrough.inTarget {q : Request} {p : GrantedPiece} {w : WindowEntry} (h : GoesThrough q p w) :
    p.address.toNat + p.length ≤ w.target.toNat + (w.limit - w.base.toNat) := by
  have := h.base
  have := h.limit
  have := h.address
  omega

theorem grants_of_passes {b : Bank} {k : ReqKind} {g : GrantedPiece} (h : lacksRight b k (asChecked g) = false) :
    (pick b g.window).rights.grants k = true := by
  cases k <;> simpa [lacksRight, asChecked, Rights.grants] using h

/-- A granted piece is a piece of the split that passed, found its window by lookup, and goes through it. -/
theorem granted_piece {s : State} {q : Request} {ps : List GrantedPiece} {g : Generation} (hw : WindowLaw s)
    (hq : formGood q) (hc : windowCheck s q = .granted ps g) {p : GrantedPiece} (hp : p ∈ ps) :
    lookup (liveBank s) q.requester (q.address.toNat + p.offset) = some p.window ∧
      lacksRight (liveBank s) q.kind (asChecked p) = false ∧
      GoesThrough q p (pick (liveBank s) p.window) := by
  obtain ⟨hpass, rfl, -⟩ := windowCheck_eq_granted_iff.mp hc
  obtain ⟨c, hcm, hcg⟩ := List.mem_filterMap.mp hp
  obtain ⟨rfl, hclass, haddr⟩ := granted_eq_some hcg
  have hb : Aligned (liveBank s) := aligned_of_windowLaw hw _
  obtain ⟨hbytes, hcover⟩ := splitRequest_whole hb hq _ hcm
  obtain ⟨hbase, hlimit⟩ := hcover p.window rfl
  have hlook : lookup (liveBank s) q.requester (q.address.toNat + p.offset) = some p.window :=
    hbytes 0 (splitRequest_length_pos hb hq _ hcm)
  obtain ⟨hvalid, hserves, -, hbelow⟩ := matchesByte_of_lookup hlook
  have hup : p.upstream.toNat = q.address.toNat + p.offset := splitRequest_upstream hb hq _ hcm
  refine ⟨hlook, hpass _ hcm, hvalid, hserves, grants_of_passes (hpass _ hcm), hbase, hlimit, hclass, ?_⟩
  rw [haddr, translate_toNat (e := pick (liveBank s) p.window) (hw _ _ hvalid) (hup ▸ hbase) (hup ▸ hbelow), hup]

/-- Settles O12, from what the check answers and where each granted piece goes. -/
theorem grantedPiecesLieInTheirTargets : Obligations.GrantedPiecesLieInTheirTargets := by
  intro s q hw hq
  refine ⟨⟨?_, fun h => ⟨_, _, windowCheck_of_passes h⟩⟩, fun ps g hc => ?_⟩
  · rintro ⟨ps, g, hc⟩
    exact (windowCheck_eq_granted_iff.mp hc).1
  · obtain ⟨hpass, hps, hg⟩ := windowCheck_eq_granted_iff.mp hc
    refine ⟨hg, ?_, fun p hp => ?_⟩
    · rw [hps]
      exact map_asChecked_granted hpass
    · obtain ⟨hlook, hright, hgo⟩ := granted_piece hw hq hc hp
      exact ⟨hlook, hright, hgo.deadlineClass, hgo.address, hgo.address ▸ Nat.le_add_right _ _, hgo.inTarget⟩

/-! ## Refusals -/

theorem rank_stronger (x y : Action) : rank (x.stronger y) = max (rank x) (rank y) := by
  cases x <;> cases y <;> rfl

theorem rank_injective {x y : Action} (h : rank x = rank y) : x = y := by
  cases x <;> cases y <;> simp_all [rank]

theorem stronger_eq (x y : Action) : x.stronger y = x ∨ x.stronger y = y := by
  unfold Action.stronger
  split
  · exact .inr rfl
  · exact .inl rfl

/-- The strongest of a list of actions, from a first one on: above each of them, and one of them. -/
theorem foldl_stronger {α : Type} (f : α → Action) (l : List α) (x : Action) :
    let y := l.foldl (fun x p => x.stronger (f p)) x
    rank x ≤ rank y ∧ (∀ p ∈ l, rank (f p) ≤ rank y) ∧ (y = x ∨ ∃ p ∈ l, f p = y) := by
  induction l generalizing x with
  | nil => exact ⟨le_refl _, by simp, .inl rfl⟩
  | cons p l ih =>
    obtain ⟨hx, hl, hy⟩ := ih (x.stronger (f p))
    rw [rank_stronger] at hx
    refine ⟨le_trans (le_max_left _ _) hx, ?_, ?_⟩
    · rw [List.forall_mem_cons]
      exact ⟨le_trans (le_max_right _ _) hx, hl⟩
    · rcases hy with hy | ⟨p', hp', hy⟩
      · rcases stronger_eq x (f p) with e | e
        · exact .inl (hy.trans e)
        · exact .inr ⟨p, List.mem_cons_self .., e.symm.trans hy.symm⟩
      · exact .inr ⟨p', List.mem_cons_of_mem _ hp', hy⟩

/-- REJECT is the weakest action: over a list that is not empty, starting from it adds none. -/
theorem foldl_stronger_attained {α : Type} (f : α → Action) {l : List α} (hl : l ≠ []) :
    ∃ p ∈ l, f p = l.foldl (fun x p => x.stronger (f p)) .reject := by
  obtain ⟨-, hle, hy⟩ := foldl_stronger f l .reject
  rcases hy with hy | hy
  · obtain ⟨p, hp⟩ := List.exists_mem_of_ne_nil l hl
    refine ⟨p, hp, rank_injective (le_antisymm (hle p hp) ?_)⟩
    rw [hy]
    exact Nat.zero_le _
  · exact hy

theorem recordTag_eq (q : Request) : recordTag q = if q.kind = .pwreq then none else some q.tag := by
  unfold recordTag
  cases q.kind <;> rfl

theorem logs_eq (b : Bank) (p : CheckedPiece) : p.logs b = p.window.any fun w => (pick b w).logViolations := by
  unfold CheckedPiece.logs
  cases p.window <;> rfl

/-- The reported piece (R13): the first without a window when there is one, else the first whose window logs. -/
theorem reported_eq (b : Bank) (l : List CheckedPiece) :
    (if l.any fun p => p.window.isNone then l.find? fun p => p.window.isNone else l.find? fun p => p.logs b) =
    l.find? fun p =>
      if l.any fun p => p.window.isNone then p.window.isNone else p.window.any fun w => (pick b w).logViolations := by
  split <;> simp only [*, logs_eq]

/-- Settles O13, from the branches of `refusal` and the strongest action of the failing pieces. -/
theorem refusalNamesCodeActionAndRecord : Obligations.RefusalNamesCodeActionAndRecord := by
  intro s q r hc
  obtain ⟨⟨p, hp, hf⟩, hr⟩ := windowCheck_eq_refused_iff.mp hc
  simp only [refusal, fails_eq_lacksRight, List.isSome_find?] at hr
  have hne : (splitRequest (liveBank s) q).filter (lacksRight (liveBank s) q.kind) ≠ [] :=
    List.ne_nil_of_mem (List.mem_filter.mpr ⟨hp, hf⟩)
  rw [hr]
  refine ⟨hne, rfl, rfl, ?_, ?_, ?_, rfl⟩
  · exact (foldl_stronger _ _ _).2.1
  · exact foldl_stronger_attained _ hne
  · simp only [← recordTag_eq]
    exact congrArg (Option.map _) (reported_eq _ _)

end Sys2Proof.Proofs
end

