-- ==== Sys2Proof/Proofs/WindowCommands.lean ====
section
/-! PROOFS. The commands of the window store (R17 to R20): what a command that passes the engine's checks executes, the
operands of WT_READ and WT_WRITE, and their answers. -/

namespace Sys2Proof.Proofs

open Sys2Proof.Machine Sys2Proof.Safety Sys2Proof.Claims Sys2Proof.Laws

/-! ## Taking a command -/

theorem authorised_of_mayCommand {p : Party} {s : State} (h : mayCommand p s) : authorised s p = true := by
  obtain ⟨_ | _, r⟩ := p <;> exact h

theorem isHolder_of_holds {p : Party} {s : State} (h : holds p s) : isHolder s p = true := by
  obtain ⟨l, hl, rfl⟩ := Option.map_eq_some_iff.mp h
  simp [isHolder, hl]

theorem popCommand_eq_taken {c : QueuedCommand} {rest : List QueuedCommand} {s : State}
    (h : s.mgmt.queue = c :: rest) : popCommand s = taken rest s := by
  simp [popCommand, taken, h]

/-- A command that passes the engine's checks is executed by its owner, with the queue's rest (R168). -/
theorem takeCommand_of_executes {k : Command} {c : QueuedCommand} {rest : List QueuedCommand} {s : State}
    (body : QueuedCommand → State → State) (h : executes k c rest s) :
    whenRunning (takeCommand k body) s = .next (body c (taken rest s)) := by
  obtain ⟨⟨hrun, hqueue⟩, hcode, hmay, hbytes, hlease⟩ := h
  have hauth : authorised (taken rest s) c.sender = true := authorised_of_mayCommand hmay
  have hbound : (k.leaseBound && !isHolder (taken rest s) c.sender) = false := by
    cases hk : k.leaseBound with
    | false => rfl
    | true => rw [isHolder_of_holds (s := taken rest s) (hlease hk)]; rfl
  simp [whenRunning, show s.resetHeld = false from hrun, takeCommand, hqueue, hcode, decideCommand,
    popCommand_eq_taken hqueue, hauth, hbytes, hbound]

/-! ## Operands -/

theorem index?_eq (n x : Nat) [NeZero n] : index? n x = if x < n then some (Fin.ofNat n x) else none := by
  unfold index?
  split
  · exact congrArg some (Fin.ext (Nat.mod_eq_of_lt ‹_›).symm)
  · rfl

theorem actionOf_eq (b : Byte) : actionOf b = if b.toNat < 3 then some (actionNamed b) else none := by
  unfold actionOf actionNamed
  split_ifs <;> first | rfl | (exfalso; bv_omega)

theorem classOf_eq (b : Byte) : classOf b = if b.toNat < 4 then some (classNamed b) else none := by
  unfold classOf classNamed
  split_ifs <;> first | rfl | (exfalso; bv_omega)

theorem handlingOf_eq (b : Byte) :
    handlingOf b = if b.toNat < 2 then some (if b = 0x00#8 then .pass else .log) else none := by
  unfold handlingOf
  split_ifs <;> first | rfl | (exfalso; bv_omega)

theorem roleOf_eq_none {b : Byte} (h : 3 ≤ b.toNat) : roleOf b = none := by
  unfold roleOf
  split_ifs <;> first | rfl | (exfalso; bv_omega)

/-! ## Numbers of several bytes -/

theorem wire_succ (n : Nat) {w : Nat} (x : BitVec w) : wire (n + 1) x = x.extractLsb' (8 * n) 8 :: wire n x := by
  simp [wire, List.range_succ]

/-- The bytes of a number read back as the number, as far as they go. -/
theorem foldl_wire (n : Nat) {w : Nat} (x : BitVec w) (m : Nat) :
    (wire n x).foldl (fun n b => n * 256 + b.toNat) m = m * 2 ^ (8 * n) + x.toNat % 2 ^ (8 * n) := by
  induction n generalizing m with
  | zero => simp [wire, Nat.mod_one]
  | succ n ih =>
    rw [wire_succ, List.foldl_cons, ih, BitVec.extractLsb'_toNat, Nat.shiftRight_eq_div_pow,
      show 8 * (n + 1) = 8 * n + 8 by ring, pow_add, Nat.mod_mul]
    ring

theorem beNat_wire (n : Nat) {w : Nat} (x : BitVec w) (h : w ≤ 8 * n) : beNat (wire n x) = x.toNat := by
  have hx : x.toNat < 2 ^ (8 * n) := lt_of_lt_of_le x.isLt (Nat.pow_le_pow_right (by decide) h)
  rw [beNat, foldl_wire, Nat.zero_mul, Nat.zero_add, Nat.mod_eq_of_lt hx]

/-! ## WT_READ -/

/-- Settles O39, role by role. -/
theorem windowReadAnswersByRole : Obligations.WindowReadAnswersByRole := by
  intro c rest s role index he hp leads entry
  have run : exec .wtRead s = .next (doWtRead c (taken rest s)) := takeCommand_of_executes doWtRead he
  have hrole : byteAt c.payload 0 = role := by rw [hp]; rfl
  have hindex : field c.payload 1 1 = index.toNat := by rw [hp]; simp [field, beNat]
  have bank : ∀ b, bankOf (taken rest s) b = pick s.banks b := fun _ => rfl
  constructor
  · intro hout
    simp only [leads, run, doWtRead, hrole, hindex]
    rcases hout with hout | hout
    · rw [index?_eq, if_neg (by omega)]
      cases roleOf role <;> rfl
    · rw [roleOf_eq_none hout]
      rfl
  · intro i hi
    have hi' : index? 64 index.toNat = some i := by rw [hi]; exact dif_pos i.isLt
    simp only [leads, run, doWtRead, hrole, hindex, hi']
    refine ⟨?_, ?_, ?_, ?_, ?_⟩
    · rintro rfl
      rfl
    · rintro rfl hd
      simp [roleOf, taken, hd, answer, replied]
    · rintro d rfl hd
      simp [roleOf, taken, hd, answer, replied, windowResult, CommitUnit.drainingGeneration, entry, bankOf]
    · rintro rfl hf
      simp [roleOf, taken, hf, answer, replied]
    · rintro rfl hf
      simp [roleOf, taken, hf, answer, replied, windowResult, entry, bankOf]

/-! ## WT_WRITE -/

theorem bounded_iff (e : WindowEntry) : e.bounded = true ↔ entryBounded e := by
  simp [WindowEntry.bounded, addrEnd, and_assoc]

/-- The operands of WT_WRITE in the bytes of its payload, each by its own range (R194). -/
theorem wtWriteOf_wire (i v : Byte) (set : BitVec 32) (base : Addr) (limit : BitVec 56) (target : Addr)
    (rg va lv dc eh : Byte) :
    wtWriteOf ([i, v] ++ wire 4 set ++ wire 6 base ++ wire 7 limit ++ wire 6 target ++ [rg, va, lv, dc, eh]) =
      if i.toNat < 64 ∧ limit.toNat ≤ 2 ^ 48 ∧ va.toNat < 3 ∧ dc.toNat < 4 ∧ eh.toNat < 2 then
        some (Fin.ofNat 64 i.toNat,
          { valid := v != 0#8, requesters := set, base := base, limit := limit.toNat, target := target
            rights := ⟨rg.getLsbD 0, rg.getLsbD 1, rg.getLsbD 2⟩
            violation := actionNamed va, logViolations := lv != 0#8, deadlineClass := classNamed dc
            errorHandling := if eh = 0x00#8 then .pass else .log })
      else none := by
  generalize hp : [i, v] ++ wire 4 set ++ wire 6 base ++ wire 7 limit ++ wire 6 target ++ [rg, va, lv, dc, eh] = p
  have hindex : field p 0 1 = i.toNat := by subst hp; simp [field, beNat]
  have hset : field p 2 4 = set.toNat := by subst hp; exact beNat_wire 4 set (by decide)
  have hbase : field p 6 6 = base.toNat := by subst hp; exact beNat_wire 6 base (by decide)
  have hlimit : field p 12 7 = limit.toNat := by subst hp; exact beNat_wire 7 limit (by decide)
  have htarget : field p 19 6 = target.toNat := by subst hp; exact beNat_wire 6 target (by decide)
  have hbytes : byteAt p 1 = v ∧ byteAt p 25 = rg ∧ byteAt p 26 = va ∧ byteAt p 27 = lv ∧ byteAt p 28 = dc ∧
      byteAt p 29 = eh := by subst hp; exact ⟨rfl, rfl, rfl, rfl, rfl, rfl⟩
  obtain ⟨hv, hrg, hva, hlv, hdc, heh⟩ := hbytes
  simp only [wtWriteOf, hindex, hset, hbase, hlimit, htarget, hv, hrg, hva, hlv, hdc, heh, index?_eq, actionOf_eq,
    classOf_eq, handlingOf_eq, BitVec.ofNat_toNat, BitVec.setWidth_eq, yesNo, rightsOf, addrEnd]
  by_cases hi : i.toNat < 64 <;> by_cases ha : va.toNat < 3 <;> by_cases hd : dc.toNat < 4 <;>
    by_cases he : eh.toNat < 2 <;> simp [hi, ha, hd, he]

/-- Settles O44, from the operands of the payload and the cases of WT_WRITE. -/
theorem windowWriteReplacesAStagedEntry : Obligations.WindowWriteReplacesAStagedEntry := by
  refine ⟨wtWriteOf_wire, fun c rest s he => ?_⟩
  have run : exec .wtWrite s = .next (doWtWrite c (taken rest s)) := takeCommand_of_executes doWtWrite he
  have hcond : (taken rest s).commit.condition = s.commit.condition := rfl
  constructor
  · intro hnone
    rw [run, doWtWrite, hnone]
    rfl
  · intro i e hsome
    simp only [run, doWtWrite, hsome, hcond]
    refine ⟨fun hc => ?_, fun hc hv hb => ?_, fun hc hok => ?_⟩
    · rw [if_pos hc]
      rfl
    · have hbad : (e.valid && !e.bounded) = true := by simp [hv, ← bounded_iff] at hb ⊢; exact hb
      rw [if_neg (not_not.mpr hc), if_pos hbad]
      rfl
    · have hgood : ¬ (e.valid && !e.bounded) = true := by
        rw [← bounded_iff] at hok
        rcases hok with h | h <;> simp [h]
      rw [if_neg (not_not.mpr hc), if_neg hgood]
      rfl

/-! ## WT_CLEAR -/

theorem pick_clearedBank (i : WinIndex) : pick clearedBank i = clearedEntry := pick_replicate _ _

theorem lookup_clearedBank (r : ReqNum) (a : Nat) : lookup clearedBank r a = none := by
  rw [lookup_eq_none_iff]
  rintro i ⟨hv, -⟩
  rw [pick_clearedBank] at hv
  exact Bool.noConfusion hv

/-- Settles O45: the staged bank becomes the cleared bank, in which no entry is valid. -/
theorem windowClearClearsTheStagedBank : Obligations.WindowClearClearsTheStagedBank := by
  intro c rest s he
  have run : exec .wtClear s = .next (doWtClear c (taken rest s)) := takeCommand_of_executes doWtClear he
  have hcond : (taken rest s).commit.condition = s.commit.condition := rfl
  simp only [run, doWtClear, hcond]
  refine ⟨fun hc => ?_, fun hc => ⟨setBank s.commit.stagedBank clearedBank (taken rest s), ?_, ?_, ?_, ?_, rfl⟩⟩
  · rw [if_pos hc]
    rfl
  · rw [if_neg (not_not.mpr hc)]
    rfl
  · intro i
    rw [setBank_banks, pick_put_same, pick_clearedBank]
    rfl
  · intro b hb
    rw [setBank_banks, pick_put_other _ _ hb]
    rfl
  · intro r a
    rw [setBank_banks, pick_put_same, lookup_clearedBank]

end Sys2Proof.Proofs
end

