-- ==== Sys2Proof/Proofs/Work.lean ====
section
/-! PROOFS. What an event does to the banks, the commit unit and the outstanding request table: `Work s d t` says that
the state `t` comes from `s` by the moves that events are made of. Every operation is shown to be such work once, and
every law that the events keep is then proved by an induction over the moves. -/

namespace Sys2Proof.Proofs

open Sys2Proof.Machine Sys2Proof.Safety Sys2Proof.Claims Sys2Proof.Laws

/-! ## The moves -/

/-- Two records of one request: only the Failure and the States of the pieces may differ (R44). -/
structure SameWork (t u : Tracked) : Prop where
  fields : u = { t with failure := u.failure, pieces := u.pieces }
  pieces : List.Forall₂ (fun p p' => p' = { p with state := p'.state }) t.pieces u.pieces

/-- No piece is QUEUED. -/
def NoneQueued (t : Tracked) : Prop := t.pieces.all (fun p => p.state != .queued) = true

/-- What an event does to one slot's occupancy and timer, with the commit unit's record beside them; the Bool says
whether the slot's hold is released (R43, R52, R101, R117). -/
inductive SlotMove (c : CommitUnit) :
    Bool → Occupancy → SlotTimer → Occupancy → SlotTimer → CommitUnit → Prop
  | goesOn {t u : Tracked} {z : SlotTimer} (same : SameWork t u) (waits : u.resolved = false) :
      SlotMove c false (.opened t) z (.opened u) z c
  | staysStale {t u : Tracked} {z : SlotTimer} (same : SameWork t u) (failure : u.failure = t.failure)
      (issued : u.hasIssued = true) (queued : NoneQueued t → NoneQueued u) :
      SlotMove c false (.stale t) z (.stale u) z c
  | freed {t : Tracked} {z : SlotTimer} : SlotMove c false (.stale t) z .free .none c
  | closes {t : Tracked} {z : SlotTimer} : SlotMove c true (.opened t) z .free .none (released t.generation c)
  | becomesStale {t u : Tracked} {z : SlotTimer} {n : Nat} (same : SameWork t u) (issued : u.hasIssued = true)
      (queued : NoneQueued u) (failure : u.failure.isSome = true) :
      SlotMove c true (.opened t) z (.stale u) (.reclaim n) (released t.generation c)

/-- Slot `i` moves and the other slots, their timers and the banks stay. -/
structure MovesSlot (i : SlotNum) (r : Bool) (x u : State) : Prop where
  banks : u.banks = x.banks
  slots : ∀ j, j ≠ i → pick u.ort j = pick x.ort j
  timers : ∀ j, j ≠ i → pick u.timers j = pick x.timers j
  move : SlotMove x.commit r (pick x.ort i).occ (pick x.timers i) (pick u.ort i).occ (pick u.timers i) u.commit

/-- The FREE slot `i` is allocated to the granted request `q`, whose Tag no OPEN slot of its requester has
(R30, R47, R102, R117). -/
structure Allocates (i : SlotNum) (q : Request) (ps : List GrantedPiece) (x u : State) : Prop where
  form : formGood q
  nonPosted : q.kind ≠ .pwreq
  unused : duplicateTag x q = false
  granted : windowCheck x q = .granted ps x.commit.liveGeneration
  banks : u.banks = x.banks
  slots : ∀ j, j ≠ i → pick u.ort j = pick x.ort j
  timers : ∀ j, j ≠ i → pick u.timers j = pick x.timers j
  free : (pick x.ort i).occ = .free
  opened : (pick u.ort i).occ = .opened (newRecord x q ps x.commit.liveGeneration)
  timer : ∃ n, pick u.timers i = .deadline n
  commit : u.commit = { x.commit with liveOpen := x.commit.liveOpen + 1 }

/-- The banks, the table, its timers and the commit unit's record stay. -/
structure Still (x u : State) : Prop where
  banks : u.banks = x.banks
  ort : u.ort = x.ort
  timers : u.timers = x.timers
  commit : u.commit = x.commit

/-- The STAGED bank alone is written, and with entries that R2 allows (R18, R20, R124). -/
structure Stages (x u : State) : Prop where
  banks : ∀ b, b ≠ x.commit.stagedBank → pick u.banks b = pick x.banks b
  bounded : WindowLaw x → ∀ i, (pick (bankOf u x.commit.stagedBank) i).valid = true →
    (pick (bankOf u x.commit.stagedBank) i).bounded = true
  ort : u.ort = x.ort
  timers : u.timers = x.timers
  commit : u.commit = x.commit

/-- The moves of the commit unit's record within its roles: a fill's step and completion, and the cancelling of a held
commit (R124, R125, R127, R128). -/
inductive CommitMove (c : CommitUnit) : CommitUnit → Prop
  | copied (filling : c.condition = .filling) (more : c.fillProgress < 64) :
      CommitMove c { c with fillProgress := c.fillProgress + 1, fillStepDue := false }
  | filled (filling : c.condition = .filling) (all : c.fillProgress = 64) :
      CommitMove c { c with condition := .writable, fillStepDue := false }
  | cancelled (held : c.heldCommit = true) : CommitMove c { c with heldCommit := false, condition := .writable }

/-- The drain end, when it is due, with the swap of a held commit (R118, R122). -/
inductive DrainMove (c : CommitUnit) : CommitUnit → Prop
  | notDue (going : ∀ d, c.drainingBank = some d → c.drainingOpen ≠ 0) : DrainMove c c
  | freed {d : BankNum} (drains : c.drainingBank = some d) (empty : c.drainingOpen = 0) (idle : c.heldCommit = false) :
      DrainMove c { c with drainingBank := none, freeBank := some d }
  | swapped {d : BankNum} (drains : c.drainingBank = some d) (empty : c.drainingOpen = 0) (held : c.heldCommit = true) :
      DrainMove c (c.swapped d)

/-- The banks, the table and its timers stay. -/
structure SameSlots (x u : State) : Prop where
  banks : u.banks = x.banks
  ort : u.ort = x.ort
  timers : u.timers = x.timers

/-- A warm reset (R61, R112, R129). -/
structure WarmMove (x u : State) : Prop where
  banks : u.banks = x.banks
  slots : ∀ i, (pick u.ort i).occ = .free
  timers : ∀ i, pick u.timers i = .none
  commit : u.commit = x.commit.warm

/-- The states that an event begun in `s` passes through. The Bool is true while a hold may have been released and the
drain end, which follows as the event's last part, is still to be taken (log entry 4). -/
inductive Work (s : State) : Bool → State → Prop
  | start : Work s false s
  | drainLater {x : State} (h : Work s false x) : Work s true x
  | still {d : Bool} {x u : State} (h : Work s d x) (m : Still x u) : Work s d u
  | time {d : Bool} {x : State} (n : Nat) (h : Work s d x) : Work s d (passTime n x)
  | slot {d : Bool} {i : SlotNum} {x u : State} (h : Work s d x) (m : MovesSlot i false x u) : Work s d u
  | release {d : Bool} {i : SlotNum} {x u : State} (h : Work s d x) (m : MovesSlot i true x u) : Work s true u
  | allocate {d : Bool} {i : SlotNum} {q : Request} {ps : List GrantedPiece} {x u : State} (h : Work s d x)
      (m : Allocates i q ps x u) : Work s d u
  | stage {d : Bool} {x u : State} (h : Work s d x) (m : Stages x u) : Work s d u
  | commit {d : Bool} {x u : State} (h : Work s d x) (k : SameSlots x u) (m : CommitMove x.commit u.commit) :
      Work s d u
  | drain {d : Bool} {x u : State} (h : Work s d x) (k : SameSlots x u) (m : DrainMove x.commit u.commit) :
      Work s false u
  | warm {d : Bool} {x u : State} (h : Work s d x) (m : WarmMove x u) : Work s false u

/-- The two moves of an OK COMMIT, which no other event makes (R119, R121). -/
inductive Ordered (c : CommitUnit) : CommitUnit → Prop
  | held (writable : c.condition = .writable) (drains : c.drainingBank.isSome = true) :
      Ordered c { c with heldCommit := true, condition := .frozen }
  | swapped {f : BankNum} (writable : c.condition = .writable) (idle : c.drainingBank = none)
      (free : c.freeBank = some f) : Ordered c (c.swapped f)

/-! ## Operations that leave banks, table and commit unit as they are -/

variable {s x y u : State} {d : Bool}

theorem Still.refl (x : State) : Still x x := ⟨rfl, rfl, rfl, rfl⟩

theorem Still.trans (h : Still x y) (k : Still y u) : Still x u :=
  ⟨k.banks.trans h.banks, k.ort.trans h.ort, k.timers.trans h.timers, k.commit.trans h.commit⟩

theorem still_setEntry (r : ReqNum) (e : RequesterEntry) (x : State) : Still x (setEntry r e x) :=
  ⟨rfl, rfl, rfl, rfl⟩

theorem still_setFifo (r : ReqNum) (q : List FifoEntry) (x : State) : Still x (setFifo r q x) :=
  ⟨rfl, rfl, rfl, rfl⟩

theorem still_discardPosted (n : Nat) (x : State) : Still x (discardPosted n x) := ⟨rfl, rfl, rfl, rfl⟩

theorem still_setLease (l : Option Lease) (x : State) : Still x (setLease l x) := ⟨rfl, rfl, rfl, rfl⟩

theorem still_noticeLeaseEnd (x : State) : Still x (noticeLeaseEnd x) := ⟨rfl, rfl, rfl, rfl⟩

theorem still_produce (p : PortId) (k : OutPacket) (x : State) : Still x (produce p k x) := by
  obtain ⟨_, _, h⟩ := produce_shape p k x
  rw [h]
  exact ⟨rfl, rfl, rfl, rfl⟩

theorem still_testSend (x : State) : Still x (testSend x) := by
  obtain ⟨_, _, _, h⟩ := testSend_shape x
  rw [h]
  exact ⟨rfl, rfl, rfl, rfl⟩

theorem still_raiseClass (c : EventClass) (x : State) : Still x (raiseClass c x) := by
  obtain ⟨_, _, _, h⟩ := raiseClass_shape c x
  rw [h]
  exact ⟨rfl, rfl, rfl, rfl⟩

theorem still_appendFault (r : FaultReport) (x : State) : Still x (appendFault r x) := by
  obtain ⟨_, _, _, _, h⟩ := appendFault_shape r x
  rw [h]
  exact ⟨rfl, rfl, rfl, rfl⟩

theorem still_notifyHead (x : State) : Still x (notifyHead x) := by
  obtain ⟨_, h⟩ := notifyHead_shape x
  rw [h]
  exact ⟨rfl, rfl, rfl, rfl⟩

theorem still_notifyHeadOf (r : ReqNum) (x : State) : Still x (notifyHeadOf r x) := by
  obtain ⟨_, h⟩ := notifyHeadOf_shape r x
  rw [h]
  exact ⟨rfl, rfl, rfl, rfl⟩

theorem still_leaveQueue (x : State) : Still x (leaveQueue x) := by
  obtain ⟨_, h⟩ := leaveQueue_shape x
  rw [h]
  exact ⟨rfl, rfl, rfl, rfl⟩

theorem still_takePiece (x : State) : Still x (takePiece x) := by
  obtain ⟨_, _, _, h⟩ := takePiece_shape x
  rw [h]
  exact ⟨rfl, rfl, rfl, rfl⟩

theorem still_setPort (p : PortId) (k : Port) (x : State) : Still x (x.setPort p k) := by
  cases p <;> exact ⟨rfl, rfl, rfl, rfl⟩

theorem still_linkChanged (p : PortId) (x : State) : Still x (linkChanged p x) :=
  (still_appendFault _ x).trans (still_raiseClass _ _)

theorem still_linkNotice (p : PortId) (x : State) : Still x (linkNotice p x) := by
  cases p
  · exact .refl x
  · exact still_notifyHead x

theorem still_returnRequest (n : Nat) (w : Option WinIndex) (g : Option Generation) (x : State) :
    Still x (returnRequest n w g x) := by
  obtain ⟨_, _, _, _, _, h⟩ := returnRequest_shape n w g x
  rw [h]
  exact ⟨rfl, rfl, rfl, rfl⟩

theorem still_returnPosted (n : Nat) (x : State) : Still x (returnPosted n x) := by
  obtain ⟨_, _, _, _, _, h⟩ := returnPosted_shape n x
  rw [h]
  exact ⟨rfl, rfl, rfl, rfl⟩

theorem still_removeEntries (i : SlotNum) (r : ReqNum) (x : State) : Still x (removeEntries i r x) := by
  unfold removeEntries
  dsimp only
  split
  · exact (still_setFifo r _ x).trans (still_notifyHeadOf r _)
  · exact .refl x

theorem still_answer (c : QueuedCommand) (st : Status) (res : Results) (x : State) : Still x (answer c st res x) :=
  still_produce _ _ x

theorem still_discardIntake (x : State) : Still x (discardIntake x) := ⟨rfl, rfl, rfl, rfl⟩

theorem still_purgeCommands (p : PortId) (x : State) : Still x (purgeCommands p x) := ⟨rfl, rfl, rfl, rfl⟩

theorem still_cutIssue (x : State) : Still x (cutIssue x) := ⟨rfl, rfl, rfl, rfl⟩

/-- An operation after an update of other fields. -/
theorem Still.ofUpdate (h : Still y u) (hb : y.banks = x.banks := by rfl) (ho : y.ort = x.ort := by rfl)
    (ht : y.timers = x.timers := by rfl) (hc : y.commit = x.commit := by rfl) : Still x u :=
  Still.trans ⟨hb, ho, ht, hc⟩ h

/-- An update of other fields. -/
theorem Work.same (h : Work s d x) (hb : u.banks = x.banks := by rfl) (ho : u.ort = x.ort := by rfl)
    (ht : u.timers = x.timers := by rfl) (hc : u.commit = x.commit := by rfl) : Work s d u :=
  h.still ⟨hb, ho, ht, hc⟩

/-! ## Records of one request -/

theorem sameWork_map (t : Tracked) (f : Piece → Piece) (e : Option Failure)
    (hf : ∀ p, f p = { p with state := (f p).state }) :
    SameWork t { t with pieces := t.pieces.map f, failure := e } where
  fields := rfl
  pieces := by
    rw [List.forall₂_map_right_iff]
    exact List.forall₂_same.mpr fun p _ => hf p

theorem sameWork_setPiece (t : Tracked) (i : PieceIndex) (x : PieceState) : SameWork t (t.setPiece i x) :=
  sameWork_map t _ t.failure fun p => by split <;> rfl

theorem sameWork_setPiece_fail (t : Tracked) (i : PieceIndex) (x : PieceState) (f : Failure) :
    SameWork t ((t.setPiece i x).fail f) :=
  sameWork_map t _ _ fun p => by split <;> rfl

theorem sameWork_expireRecord (t : Tracked) : SameWork t (expireRecord t) :=
  sameWork_map t _ _ fun p => by unfold expirePiece; split <;> rfl

theorem sameWork_withdrawRecord (q : List FifoEntry) (i : SlotNum) (t : Tracked) :
    SameWork t (withdrawRecord q i t) :=
  sameWork_map t _ _ fun p => by split <;> rfl

theorem sameWork_cutRecord (t : Tracked) : SameWork t (cutRecord t) :=
  sameWork_map t _ _ fun p => by unfold cutPiece; split <;> rfl

variable {t v : Tracked}

theorem SameWork.generation (h : SameWork t v) : v.generation = t.generation := by rw [h.fields]
theorem SameWork.requester (h : SameWork t v) : v.requester = t.requester := by rw [h.fields]
theorem SameWork.tag (h : SameWork t v) : v.tag = t.tag := by rw [h.fields]
theorem SameWork.kind (h : SameWork t v) : v.kind = t.kind := by rw [h.fields]
theorem SameWork.address (h : SameWork t v) : v.address = t.address := by rw [h.fields]
theorem SameWork.length (h : SameWork t v) : v.length = t.length := by rw [h.fields]

/-- Each piece of the later record is a piece of the earlier one in its State of then. -/
theorem SameWork.piece (h : SameWork t v) {p' : Piece} (hp : p' ∈ v.pieces) :
    ∃ p ∈ t.pieces, p' = { p with state := p'.state } := by
  obtain ⟨k, hk, rfl⟩ := List.getElem_of_mem hp
  have hlen := h.pieces.length_eq
  exact ⟨t.pieces[k], List.getElem_mem _, (List.forall₂_iff_get.mp h.pieces).2 k (hlen ▸ hk) hk⟩

theorem SameWork.piecesFit (h : SameWork t v) : piecesFit v = piecesFit t := by
  have hlen := h.length
  have hp := h.pieces
  unfold Safety.piecesFit
  rw [hlen]
  generalize t.pieces = l at hp
  generalize v.pieces = m at hp
  rcases hp with _ | ⟨hp, _ | ⟨hq, _ | _⟩⟩
  · rfl
  · rw [hp]
  · rw [hp, hq]
  · rfl

end Sys2Proof.Proofs
end

