-- ==== Sys2Proof/Proofs/WorkOfOperations.lean ====
section
/-! PROOFS. Each shared operation of an event is work: the slots' operations, the commit unit's, the lease's end, the
withdrawal, the falls of a link, time and the warm reset. -/

namespace Sys2Proof.Proofs

open Sys2Proof.Machine Sys2Proof.Safety Sys2Proof.Claims Sys2Proof.Laws

variable {s x y : State} {d : Bool} {i : SlotNum} {t t' : Tracked}

/-! ## One slot -/

theorem openAt_eq_some : openAt x i = some t ↔ (pick x.ort i).occ = .opened t := by
  unfold openAt Occupancy.openRecord
  cases (pick x.ort i).occ <;> simp

theorem staleAt_eq_some : staleAt x i = some t ↔ (pick x.ort i).occ = .stale t := by
  unfold staleAt
  cases (pick x.ort i).occ <;> simp

/-- An operation that writes slot `i` and its timer, and nothing else of the table. -/
theorem movesSlot_of_put {r : Bool} {u : State} {c : Slot} {z : SlotTimer} (hb : u.banks = x.banks)
    (ho : u.ort = put x.ort i c) (ht : u.timers = put x.timers i z)
    (m : SlotMove x.commit r (pick x.ort i).occ (pick x.timers i) c.occ z u.commit) : MovesSlot i r x u where
  banks := hb
  slots j hj := by rw [ho, pick_put_other _ _ hj]
  timers j hj := by rw [ht, pick_put_other _ _ hj]
  move := by rw [ho, ht, pick_put_same, pick_put_same]; exact m

theorem movesSlot_setOcc {r : Bool} {o : Occupancy}
    (m : SlotMove x.commit r (pick x.ort i).occ (pick x.timers i) o (pick x.timers i) x.commit) :
    MovesSlot i r x (setOcc i o x) :=
  movesSlot_of_put rfl rfl (put_pick x.timers i).symm m

theorem work_goesOn (h : Work s d x) (ho : (pick x.ort i).occ = .opened t) (hs : SameWork t t')
    (hw : t'.resolved = false) : Work s d (setOcc i (.opened t') x) :=
  h.slot (movesSlot_setOcc (by rw [ho]; exact .goesOn hs hw))

theorem movesSlot_freeSlot {r : Bool}
    (m : SlotMove x.commit r (pick x.ort i).occ (pick x.timers i) .free .none x.commit) :
    MovesSlot i r x (freeSlot i x) := by
  obtain ⟨_, h⟩ := freeSlot_shape i x
  rw [h]
  exact movesSlot_of_put rfl rfl rfl m

theorem work_freeStale (h : Work s d x) (ho : (pick x.ort i).occ = .stale t) : Work s d (freeSlot i x) :=
  h.slot (movesSlot_freeSlot (by rw [ho]; exact .freed))

theorem drainingGeneration_eq_some (c : CommitUnit) (g : Generation) :
    c.drainingGeneration = some g ↔ c.drainingBank.isSome = true ∧ g = c.liveGeneration - 1 := by
  unfold CommitUnit.drainingGeneration
  cases c.drainingBank <;> simp [eq_comm]

theorem holdReleased_eq (g : Generation) (x : State) :
    holdReleased g x = { x with commit := released g x.commit } := by
  unfold holdReleased released
  simp only [drainingGeneration_eq_some]
  split_ifs <;> rfl

/-- The slot `i` OPEN with `t` becomes FREE and its hold is released. -/
theorem work_closes (h : Work s d x) (ho : (pick x.ort i).occ = .opened t) :
    Work s true (freeSlot i (holdReleased t.generation x)) := by
  obtain ⟨_, hf⟩ := freeSlot_shape i (holdReleased t.generation x)
  rw [hf, holdReleased_eq]
  exact h.release (movesSlot_of_put rfl rfl rfl (by rw [ho]; exact .closes))

theorem work_closeSlot (h : Work s d x) (ho : (pick x.ort i).occ = .opened t) (hs : SameWork t t') :
    Work s true (closeSlot i t' x) := by
  have told : ∀ y, Still x y → Work s true (freeSlot i (holdReleased t'.generation y)) := by
    intro y hy
    rw [hs.generation]
    exact work_closes (h.still hy) (by rw [hy.ort]; exact ho)
  unfold closeSlot
  dsimp only
  split
  · exact told _ (still_produce _ _ _)
  · exact told _ (.refl x)

theorem work_settleOpen (h : Work s false x) (ho : (pick x.ort i).occ = .opened t) (hs : SameWork t t') :
    Work s true (settleOpen i t' x) := by
  unfold settleOpen
  split
  · exact work_closeSlot h ho hs
  · exact (work_goesOn h ho hs (Bool.not_eq_true _ ▸ ‹_›)).drainLater

/-- Work done slot by slot. -/
theorem work_forSlots {f : SlotNum → State → State} (hf : ∀ i x, Work s true x → Work s true (f i x))
    (h : Work s true x) : Work s true (forSlots f x) :=
  forSlots_induct f (Work s true) x h hf

/-! ## Acceptance -/

theorem form_of_wellFormed {q : Request} (h : malformedRequest q = false) : formGood q := by
  obtain ⟨kind, _, _, _, _, _⟩ := q
  cases kind <;> simp [malformedRequest, addrEnd, formGood] at h ⊢ <;> omega

theorem work_enqueueAccepted (r : ReqNum) (l : List FifoEntry) (h : Work s d x) :
    Work s d (enqueueAccepted r l x) :=
  Work.still h.same (still_leaveQueue _)

theorem allocates_allocate {q : Request} {ps : List GrantedPiece} (form : formGood q) (hk : q.kind ≠ .pwreq)
    (fresh : duplicateTag x q = false) (hw : windowCheck x q = .granted ps x.commit.liveGeneration)
    (free : (pick x.ort i).occ = .free) :
    Allocates i q ps x (allocate i (newRecord x q ps x.commit.liveGeneration) x) where
  form := form
  nonPosted := hk
  unused := fresh
  granted := hw
  banks := rfl
  slots _ hj := pick_put_other _ _ hj
  timers _ hj := pick_put_other _ _ hj
  free := free
  opened := congrArg Slot.occ (pick_put_same _ _ _)
  timer := ⟨_, pick_put_same _ _ _⟩
  commit := rfl

theorem firstFree_free (h : firstFree x = some i) : (pick x.ort i).occ = .free := by
  simpa using List.find?_some h

/-! ## The commit unit -/

theorem work_swapBanks {f : BankNum} (hf : x.commit.freeBank = some f) :
    SameSlots x (swapBanks x) ∧ (swapBanks x).commit = x.commit.swapped f := by
  have hs := still_notifyHead { x with commit := x.commit.swapped f }
  simp only [swapBanks, hf]
  exact ⟨⟨hs.banks, hs.ort, hs.timers⟩, hs.commit⟩

theorem takeDrainEnd_move (x : State) :
    SameSlots x (takeDrainEnd x) ∧ DrainMove x.commit (takeDrainEnd x).commit := by
  unfold takeDrainEnd
  split
  · rename_i hdue
    obtain ⟨hsome, hempty⟩ : x.commit.drainingBank.isSome = true ∧ x.commit.drainingOpen = 0 := by
      simpa [drainDue] using hdue
    obtain ⟨b, hb⟩ := Option.isSome_iff_exists.mp hsome
    unfold endDrain
    dsimp only
    split
    · obtain ⟨hs, hc⟩ := work_swapBanks (f := b)
        (x := { x with commit := { x.commit with freeBank := x.commit.drainingBank, drainingBank := none } }) hb
      rw [hc]
      exact ⟨⟨hs.banks, hs.ort, hs.timers⟩, .swapped hb hempty ‹_›⟩
    · refine ⟨⟨rfl, rfl, rfl⟩, ?_⟩
      have hfreed := DrainMove.freed hb hempty (Bool.not_eq_true _ ▸ ‹_›)
      rwa [← hb] at hfreed
  · rename_i hdue
    refine ⟨⟨rfl, rfl, rfl⟩, .notDue fun b hb hempty => hdue ?_⟩
    simp [drainDue, hb, hempty]

theorem work_takeDrainEnd (h : Work s d x) : Work s false (takeDrainEnd x) :=
  h.drain (takeDrainEnd_move x).1 (takeDrainEnd_move x).2

theorem work_cancelHeld (h : Work s d x) : Work s d (cancelHeld x) := by
  unfold cancelHeld
  split
  · exact h.commit ⟨rfl, rfl, rfl⟩ (.cancelled ‹_›)
  · exact h

theorem work_completeFill (h : Work s d x) (hf : x.commit.condition = .filling) (hp : x.commit.fillProgress = 64) :
    Work s d (completeFill x) :=
  (h.commit (u := { x with commit := { x.commit with condition := .writable, fillStepDue := false } })
    ⟨rfl, rfl, rfl⟩ (.filled hf hp)).still (still_raiseClass _ _)

/-- A write of the staged bank by entries that R2 allows. -/
theorem stages_setBank {B : Bank}
    (hB : WindowLaw x → ∀ i, (pick B i).valid = true → (pick B i).bounded = true) :
    Stages x (setBank x.commit.stagedBank B x) where
  banks b hb := pick_put_other _ _ hb
  bounded hw := by
    have hsame : bankOf (setBank x.commit.stagedBank B x) x.commit.stagedBank = B := pick_put_same _ _ _
    rw [hsame]
    exact hB hw
  ort := rfl
  timers := rfl
  commit := rfl

theorem stages_put {j : WinIndex} {e : WindowEntry} (he : WindowLaw x → e.valid = true → e.bounded = true) :
    Stages x (setBank x.commit.stagedBank (put (bankOf x x.commit.stagedBank) j e) x) := by
  refine stages_setBank fun hw k hv => ?_
  by_cases hk : k = j
  · subst hk
    rw [pick_put_same] at hv ⊢
    exact he hw hv
  · rw [pick_put_other _ _ hk] at hv ⊢
    exact hw _ _ hv

theorem work_copyNext (h : Work s d x) (hf : x.commit.condition = .filling) (hp : x.commit.fillProgress < 64) :
    Work s d (copyNext x) :=
  (h.stage (stages_put fun hw hv => hw _ _ hv)).commit ⟨rfl, rfl, rfl⟩ (.copied hf hp)

/-! ## The lease -/

theorem work_endLease (k : FaultKind) (h : Work s d x) : Work s d (endLease k x) := by
  unfold endLease
  split
  · exact h
  · have cancelled := work_cancelHeld (h.still (still_setLease none x))
    exact (cancelled.still (still_noticeLeaseEnd _)).still (still_appendFault _ _)

theorem work_lapseThrough (p : PortId) (h : Work s d x) : Work s d (lapseThrough p x) := by
  unfold lapseThrough
  split
  · exact h
  · split
    · exact work_endLease _ h
    · exact h

/-! ## Withdrawal and quarantine -/

theorem work_withdrawSlot (q : List FifoEntry) (i : SlotNum) (x : State) (h : Work s true x) :
    Work s true (withdrawSlot q i x) := by
  unfold withdrawSlot
  split
  · exact h
  · rename_i t ho
    rw [openAt_eq_some] at ho
    split
    · dsimp only
      split
      · exact work_closeSlot h ho (sameWork_withdrawRecord q i t)
      · exact work_goesOn h ho (sameWork_withdrawRecord q i t) (Bool.not_eq_true _ ▸ ‹_›)
    · exact h

theorem work_withdraw (r : ReqNum) (h : Work s false x) : Work s true (withdraw r x) := by
  unfold withdraw
  dsimp only
  split
  · exact h.drainLater
  · have emptied := h.drainLater.still (still_setFifo r [] x)
    exact ((work_forSlots (work_withdrawSlot (fifoOf x r)) emptied).still (still_discardPosted _ _)).still
      (still_notifyHeadOf r _)

theorem work_enterQuarantine (o : Offence) (h : Work s false x) : Work s false (enterQuarantine o x) := by
  have marked := (h.still (still_setEntry o.requester { entryOf x o.requester with state := .quarantined } x)).still
    (still_notifyHeadOf o.requester _)
  exact work_takeDrainEnd
    (((work_withdraw o.requester marked).still (still_appendFault _ _)).still (still_raiseClass _ _))

theorem work_applyAction (a : Action) (o : Offence) (h : Work s false x) : Work s false (applyAction a o x) := by
  cases a with
  | reject => exact h
  | strike =>
    simp only [applyAction]
    split
    · exact work_enterQuarantine o (h.still (still_setEntry _ _ x))
    · exact h.still (still_setEntry _ _ x)
  | quarantine => exact work_enterQuarantine o h

/-! ## Expiries -/

theorem noneQueued_expireRecord (t : Tracked) : NoneQueued (expireRecord t) := by
  simp only [NoneQueued, expireRecord, Tracked.fail, List.all_map, List.all_eq_true]
  intro p _
  by_cases h : p.state = .queued <;> simp [expirePiece, h]

/-- What follows a slot's expiry: the hold is released, and the slot is STALE or FREE. -/
theorem work_leaveOpen {t0 : Tracked} (h : Work s d x) (ho : (pick x.ort i).occ = .opened t0) (hs : SameWork t0 t)
    (hq : NoneQueued t) (hf : t.failure.isSome = true)
    (hy : Still (setOcc i (.opened t) x) y) : Work s true (leaveOpen i t (holdReleased t.generation y)) := by
  have others : ∀ j, j ≠ i → pick y.ort j = pick x.ort j := fun j hj => by
    rw [hy.ort, setOcc_ort, pick_put_other _ _ hj]
  have hc : y.commit = x.commit := hy.commit
  rw [holdReleased_eq, hs.generation, hc]
  unfold leaveOpen
  split
  · refine h.release (i := i) ⟨hy.banks, fun j hj => ?_, fun j hj => ?_, ?_⟩
    · exact (pick_put_other _ _ hj).trans (others j hj)
    · exact (pick_put_other _ _ hj).trans (congrArg (pick · j) hy.timers)
    · simp only [setTimer_ort, setOcc_ort, setTimer_timers, pick_put_same, ho]
      exact .becomesStale hs ‹_› hq hf
  · obtain ⟨_, hfree⟩ := freeSlot_shape i { y with commit := released t0.generation x.commit }
    rw [hfree]
    refine h.release (i := i) ⟨hy.banks, fun j hj => ?_, fun j hj => ?_, ?_⟩
    · exact (pick_put_other _ _ hj).trans (others j hj)
    · exact (pick_put_other _ _ hj).trans (congrArg (pick · j) hy.timers)
    · simp only [pick_put_same, ho]
      exact .closes

theorem work_expireDeadline {t0 : Tracked} (h : Work s d x) (ho : (pick x.ort i).occ = .opened t0) :
    Work s false (expireDeadline i t0 x) := by
  have removed := still_removeEntries i (expireRecord t0).requester x
  refine work_takeDrainEnd (work_leaveOpen (h.still removed) (by rw [removed.ort]; exact ho)
    (sameWork_expireRecord t0) (noneQueued_expireRecord t0) rfl ?_)
  exact (still_produce _ _ _).trans (still_appendFault _ _)

theorem work_expireReclaim (h : Work s d x) (ho : (pick x.ort i).occ = .stale t) :
    Work s d (expireReclaim i t x) := by
  have returned := still_returnRequest (t.pieces.countP fun p => p.state == .issued)
    (t.firstIssued.map Piece.window) (some t.generation) x
  exact (work_freeStale (h.still returned) (by rw [returned.ort]; exact ho)).still (still_appendFault _ _)

/-! ## The links -/

theorem still_enterTraining (p : PortId) (x : State) : Still x (enterTraining p x) :=
  ((still_setPort p _ x).trans (still_linkChanged p _)).trans (still_linkNotice p _)

theorem still_failTraining (p : PortId) (x : State) : Still x (failTraining p x) :=
  ((still_setPort p _ x).trans (still_linkChanged p _)).trans (still_linkNotice p _)

theorem work_cutSlot (i : SlotNum) (x : State) (h : Work s true x) : Work s true (cutSlot i x) := by
  unfold cutSlot
  split
  · exact h
  · exact work_freeStale h ‹_›
  · exact work_closeSlot h ‹_› (sameWork_cutRecord _)

theorem drainDue_lapseThrough (p : PortId) (x : State) : drainDue (lapseThrough p x) = drainDue x := by
  obtain ⟨_, _, _, _, _, _, _, h⟩ := lapseThrough_shape p x
  rw [h]
  rfl

theorem endDrain_of_due (h : drainDue x = true) : endDrain x = takeDrainEnd x := (if_pos h).symm

theorem work_lapseAtFall (h : Work s d x) : Work s false (lapseAtFall x) := by
  unfold lapseAtFall
  split
  · rename_i hcond
    have hdue : drainDue x = true := (Bool.and_eq_true_iff.mp hcond).2
    have drawn : Work s d { x with freeCount := x.freeCount + 1 } := Work.same h
    have hdue' : drainDue { x with freeCount := x.freeCount + 1 } = true := hdue
    dsimp only
    split
    · rw [endDrain_of_due hdue']
      exact work_lapseThrough _ (work_takeDrainEnd drawn)
    · rw [endDrain_of_due ((drainDue_lapseThrough _ _).trans hdue')]
      exact work_takeDrainEnd (work_lapseThrough _ drawn)
  · exact work_takeDrainEnd (work_lapseThrough _ h)

theorem work_downstreamLost (h : Work s false x) : Work s false (downstreamLost x) := by
  have cut := (work_forSlots work_cutSlot h.drainLater).still (still_cutIssue _)
  exact work_lapseAtFall ((cut.still (still_notifyHead _)).still (still_purgeCommands .down _))

theorem work_leaveUp (p : PortId) (h : Work s false x) : Work s false (leaveUp p x) := by
  have fallen := (h.still (still_setPort p (x.port p).lost x)).still (still_linkChanged p _)
  unfold leaveUp ownersLost
  cases p
  · exact work_lapseThrough .up ((fallen.still (still_discardIntake _)).still (still_purgeCommands .up _))
  · exact work_downstreamLost fallen

theorem work_dropLink (p : PortId) (h : Work s false x) : Work s false (dropLink p x) := by
  unfold dropLink
  split
  · exact h
  · exact h.still (still_failTraining p x)
  · exact work_leaveUp p h

theorem still_enterUp (p : PortId) (c : InitCounts) (x : State) : Still x (enterUp p c x) := by
  have changed := (still_setPort p (x.port p).trained x).trans (still_linkChanged p _)
  have owners : ∀ y, Still y (ownersUp p c y) := fun y => by cases p <;> exact ⟨rfl, rfl, rfl, rfl⟩
  exact (changed.trans (owners _)).trans (still_linkNotice p _)

theorem still_endHoldOff (p : PortId) (x : State) : Still x (endHoldOff p x) := by
  unfold endHoldOff
  dsimp only
  split
  · exact (still_setPort p _ x).trans (still_enterTraining p _)
  · exact still_setPort p _ x

/-! ## Time -/

theorem work_happen (e : TimedEvent) (x : State) (h : Work s false x) (hdue : e.left x = some 0) :
    Work s false (e.happen x) := by
  cases e with
  | fillStep =>
    by_cases hc : x.commit.condition = .filling ∧ x.commit.fillProgress < 64
    · exact work_copyNext h hc.1 hc.2
    · simp [TimedEvent.left, hc] at hdue
  | fillCompletion =>
    by_cases hc : x.commit.condition = .filling ∧ x.commit.fillProgress = 64
    · exact work_completeFill h hc.1 hc.2
    · simp [TimedEvent.left, hc] at hdue
  | deadline i =>
    simp only [TimedEvent.happen, happenDeadline]
    split
    · exact h
    · exact work_expireDeadline h (openAt_eq_some.mp ‹_›)
  | reclaim i =>
    simp only [TimedEvent.happen, happenReclaim]
    split
    · exact h
    · exact work_expireReclaim h (staleAt_eq_some.mp ‹_›)
  | resend =>
    simp only [TimedEvent.happen, happenResend]
    split
    · exact (h.still (still_produce _ _ x)).same
    · exact h
    · exact h
  | lease => exact work_endLease _ h
  | training p => exact h.still (still_failTraining p x)
  | holdOff p => exact h.still (still_endHoldOff p x)

theorem work_takeTimed (e : TimedEvent) (h : Work s false x) : Work s false (takeTimed e x) :=
  takeTimed_keeps work_happen (fun n _ hx => (Work.same hx).time n) e x h

end Sys2Proof.Proofs
end

