-- ==== Sys2Proof/Proofs/WorkOfCommands.lean ====
section
/-! PROOFS. Each command of the table is work, but for an OK COMMIT and the cold resets; so is a step. -/

namespace Sys2Proof.Proofs

open Sys2Proof.Machine Sys2Proof.Safety Sys2Proof.Claims Sys2Proof.Laws

variable {s x y : State} {d : Bool} {i : SlotNum}

/-! ## Intake -/

theorem still_arriveUpstream (p : IntakePacket) (x : State) : Still x (arriveUpstream p x) := by
  unfold arriveUpstream
  split_ifs
  · exact ⟨rfl, rfl, rfl, rfl⟩
  · exact still_appendFault _ x
  · exact .refl x

theorem still_strayUpstream (r : ReqNum) (x : State) : Still x (strayUpstream r x) := by
  unfold strayUpstream
  split_ifs
  · exact still_appendFault _ x
  · exact .refl x

theorem still_refuseRequest (q : Request) (code : ErrCode) (report : Option FaultReport) (x : State) :
    Still x (refuseRequest q code report x) := by
  have counted : ∀ y, Still x y → Still x (match report with
      | some f => appendFault f (leaveQueue y)
      | none => leaveQueue y) := by
    intro y hy
    have left := hy.trans (still_leaveQueue y)
    cases report with
    | none => exact left
    | some f => exact left.trans (still_appendFault f _)
  unfold refuseRequest
  refine counted _ ?_
  cases q.kind with
  | pwreq => exact still_discardPosted 1 x
  | rdreq => exact (still_produce _ _ x).trans (still_setEntry _ _ _)
  | wrreq => exact (still_produce _ _ x).trans (still_setEntry _ _ _)

theorem still_stallHead (a b : Bool) (r : ReqNum) (x : State) : Still x (stallHead a b r x) := by
  unfold stallHead
  dsimp only
  split
  · exact (still_raiseClass .exhaust _).ofUpdate
  · exact ⟨rfl, rfl, rfl, rfl⟩

/-- A request that passes checks 1 to 7 is well formed, is no duplicate, and is granted by the window check
(R26 to R32). -/
theorem judge_pass {q : Request} {ps : List GrantedPiece} {g : Generation} (h : judge x q = .pass ps g) :
    formGood q ∧ (nonPosted q = true → duplicateTag x q = false) ∧ windowCheck x q = .granted ps g := by
  unfold judge at h
  dsimp only at h
  split_ifs at h with hform _ _ _ _ hdup
  cases hw : windowCheck x q with
  | refused r => simp [hw] at h
  | granted ps' g' =>
    obtain ⟨rfl, rfl⟩ : ps' = ps ∧ g' = g := by simpa [hw] using h
    exact ⟨form_of_wellFormed (Bool.not_eq_true _ ▸ hform), fun hn => by simpa [hn] using hdup, rfl⟩

theorem work_resourceCheck {q : Request} {ps : List GrantedPiece} {g : Generation} (h : Work s d x)
    (hj : judge x q = .pass ps g) : Work s d (resourceCheck q ps g x) := by
  obtain ⟨form, fresh, hw⟩ := judge_pass hj
  obtain ⟨-, -, rfl⟩ := windowCheck_eq_granted_iff.mp hw
  unfold resourceCheck
  dsimp only
  split
  · rename_i hnp
    have hk : q.kind ≠ .pwreq := fun e => by simp [nonPosted, e] at hnp
    split
    · split
      · have allocated := allocates_allocate form hk (fresh hnp) hw (firstFree_free ‹_›)
        exact work_enqueueAccepted _ _ (h.allocate allocated)
      · exact h.still (still_stallHead _ _ _ x)
    · exact h.still (still_stallHead _ _ _ x)
  · split
    · exact work_enqueueAccepted _ _ h
    · exact h.still (still_stallHead _ _ _ x)

theorem work_examine (q : Request) (h : Work s false x) : Work s false (examine q x) := by
  unfold examine
  split
  · exact h.still (still_refuseRequest _ _ _ _).ofUpdate
  · exact work_applyAction _ _ (h.still (still_refuseRequest _ _ _ x))
  · exact work_resourceCheck h ‹_›

theorem work_examineHead (h : Work s false x) : Work s false (examineHead x) := by
  unfold examineHead
  split
  · split
    · exact work_examine _ h
    · exact h
  · exact h
  · exact h

theorem still_reachManagement (p : PortId) (m : Mcmd) (x : State) : Still x (reachManagement p m x) := by
  unfold reachManagement
  split
  · exact ⟨rfl, rfl, rfl, rfl⟩
  · exact still_produce _ _ x

theorem still_moveHead (x : State) : Still x (moveHead x) := by
  unfold moveHead
  split
  · exact (still_reachManagement _ _ x).trans (still_leaveQueue _)
  · exact .refl x
  · exact .refl x

/-! ## Issue -/

theorem still_granted (r : ReqNum) (rest : List FifoEntry) (x : State) : Still x (granted r rest x) :=
  (still_notifyHeadOf r _).ofUpdate

/-- A record with a piece just issued waits for its response. -/
theorem waits_setPiece_issued {t : Tracked} {k : PieceIndex} {p : Piece} (hp : t.piece k = some p) :
    (t.setPiece p.index .issued).resolved = false := by
  have hmem : p ∈ t.pieces := List.mem_of_find?_eq_some hp
  rw [Tracked.resolved, List.all_eq_false]
  exact ⟨{ p with state := .issued }, List.mem_map.mpr ⟨p, hmem, if_pos rfl⟩, by simp [PieceState.resolved]⟩

theorem work_grantTo (r : ReqNum) (h : Work s d x) : Work s d (grantTo r x) := by
  unfold grantTo
  split
  · exact h
  · unfold sendPosted
    exact h.still ((still_produce _ _ _).trans (still_granted _ _ _)).ofUpdate
  · rename_i i k data rest _
    split
    · exact h
    · rename_i t ho
      split
      · exact h
      · rename_i p hp
        unfold sendTracked
        dsimp only
        have sent := still_produce .down (pieceRequest ⟨i, p.index, (pick x.ort i).incarnation⟩ t p data)
          { x with issue := { x.issue with requestPool := x.issue.requestPool.spend } }
        have waits := waits_setPiece_issued hp
        exact (work_goesOn (h.still sent.ofUpdate) (by rw [sent.ort]; exact openAt_eq_some.mp ho)
          (sameWork_setPiece t _ _) waits).still (still_granted _ _ _)

theorem work_grantNext (h : Work s d x) : Work s d (grantNext x) := by
  unfold grantNext
  split
  · exact h
  · exact work_grantTo _ (h.still (still_takePiece x))

theorem still_takeCret (cls : PoolClass) (count : BitVec 16) (x : State) : Still x (takeCret cls count x) := by
  unfold takeCret
  split
  · cases cls
    · exact still_returnRequest _ _ _ x
    · exact still_returnPosted _ x
  · exact .refl x

/-! ## Responses -/

/-- A response that matches an OPEN or a STALE slot names one. -/
theorem matchResponse_toOpen {r : Response} {t : Tracked} {p : Piece} (h : matchResponse x r = .toOpen t p) :
    (pick x.ort r.tag.slot).occ = .opened t := by
  simp only [matchResponse] at h
  split at h
  · cases ho : (pick x.ort r.tag.slot).occ with
    | free => simp [ho] at h
    | opened v => cases ha : awaited v r <;> simp_all
    | stale v => cases ha : awaited v r <;> simp_all
  · exact nomatch h

theorem matchResponse_toStale {r : Response} {t : Tracked} {p : Piece} (h : matchResponse x r = .toStale t p) :
    (pick x.ort r.tag.slot).occ = .stale t := by
  simp only [matchResponse] at h
  split at h
  · cases ho : (pick x.ort r.tag.slot).occ with
    | free => simp [ho] at h
    | opened v => cases ha : awaited v r <;> simp_all
    | stale v => cases ha : awaited v r <;> simp_all
  · exact nomatch h

theorem work_answerOpen {t : Tracked} (p : Piece) (body : ResponseBody) (h : Work s false x)
    (ho : (pick x.ort i).occ = .opened t) : Work s true (answerOpen i t p body x) := by
  cases body with
  | rdrsp length data =>
    have told := still_produce .up (forwardedRead (t.setPiece p.index .done) p data) x
    exact work_settleOpen (h.still told) (by rw [told.ort]; exact ho) (sameWork_setPiece t _ _)
  | wrrsp => exact work_settleOpen h ho (sameWork_setPiece t _ _)
  | errsp c =>
    have logged : Still x (if logsError x t p then appendFault (downstreamErrorReport t p c) x else x) := by
      split
      · exact still_appendFault _ x
      · exact .refl x
    exact work_settleOpen (h.still logged) (by rw [logged.ort]; exact ho) (sameWork_setPiece_fail t _ _ _)

theorem noneQueued_setPiece {t : Tracked} {k : PieceIndex} {z : PieceState} (hz : z ≠ .queued) (h : NoneQueued t) :
    NoneQueued (t.setPiece k z) := by
  simp only [NoneQueued, Tracked.setPiece, List.all_map, List.all_eq_true] at h ⊢
  intro p hp
  by_cases hk : p.index = k
  · simpa [hk] using hz
  · simpa [hk] using h p hp

theorem work_answerStale {t : Tracked} (p : Piece) (body : ResponseBody) (h : Work s d x)
    (ho : (pick x.ort i).occ = .stale t) : Work s d (answerStale i t p body x) := by
  have answered : answeredState body ≠ .queued := by cases body <;> simp [answeredState]
  unfold answerStale
  dsimp only
  split
  · exact h.slot (movesSlot_setOcc (by
      rw [ho]
      exact .staysStale (sameWork_setPiece t _ _) rfl ‹_› (noneQueued_setPiece answered)))
  · exact work_freeStale h ho

theorem work_takeResponse (r : Response) (h : Work s false x) : Work s false (takeResponse r x) := by
  unfold takeResponse
  split
  · split
    · exact work_takeDrainEnd
        ((work_answerOpen _ _ h (matchResponse_toOpen ‹_›)).still (still_returnRequest _ _ _ _))
    · exact (work_answerStale _ _ h (matchResponse_toStale ‹_›)).still (still_returnRequest _ _ _ _)
    · unfold discardResponse
      exact h.still ((still_appendFault _ _).trans (still_returnRequest _ _ _ _)).ofUpdate
  · exact h

/-! ## The links' events -/

theorem still_setSignal (p : PortId) (b : Bool) (x : State) : Still x (setSignal p b x) := still_setPort p _ x

theorem still_detectPeer (p : PortId) (x : State) : Still x (detectPeer p x) := by
  unfold detectPeer
  dsimp only
  split
  · exact (still_setSignal p true x).trans (still_enterTraining p _)
  · exact still_setSignal p true x

theorem still_takeInit (p : PortId) (c : InitCounts) (x : State) : Still x (takeInit p c x) := by
  unfold takeInit
  split_ifs
  · exact still_enterUp p c x
  · exact still_failTraining p x
  · exact .refl x

theorem work_takeInitWhileUp (p : PortId) (h : Work s false x) : Work s false (takeInitWhileUp p x) := by
  unfold takeInitWhileUp
  split
  · exact work_leaveUp p h
  · exact h

/-! ## Management commands -/

theorem still_popCommand (x : State) : Still x (popCommand x) := ⟨rfl, rfl, rfl, rfl⟩

theorem work_takeCommand {k : Command} {body : QueuedCommand → State → State}
    (hbody : ∀ c x, Work s false x → Work s false (body c x)) (h : Work s false x) :
    Work s false (takeCommand k body x) := by
  have popped := h.still (still_popCommand x)
  unfold takeCommand
  split
  · exact h
  · split
    · unfold decideCommand
      split_ifs
      · exact popped.still (still_answer _ _ _ _)
      · exact popped.still (still_answer _ _ _ _)
      · exact popped.still (still_answer _ _ _ _)
      · exact hbody _ _ popped
    · exact h

theorem still_takeUnknown (x : State) : Still x (takeUnknown x) := by
  unfold takeUnknown
  split
  · exact .refl x
  · split
    · dsimp only
      split
      · exact (still_popCommand x).trans (still_answer _ _ _ _)
      · exact (still_popCommand x).trans (still_answer _ _ _ _)
    · exact .refl x

section Bodies

variable (c : QueuedCommand)

theorem work_renewLease (l : Lease) (h : Work s d x) : Work s d (renewLease c l x) := by
  unfold renewLease
  split
  · unfold earlyRenewal
    dsimp only
    split
    · exact h.still ((still_answer _ _ _ _).trans (still_setLease _ _)).ofUpdate
    · exact work_endLease _ (h.still (still_answer _ _ _ _).ofUpdate)
  · exact (h.still (still_setLease _ x)).still (still_answer _ _ _ _)

theorem work_doClaim (h : Work s d x) : Work s d (doClaim c x) := by
  unfold doClaim
  split
  · exact ((h.still (still_setLease _ x)).still (still_answer _ _ _ _)).still (still_testSend _)
  · split
    · exact work_renewLease c _ h
    · exact h.still (still_answer _ _ _ x)

theorem work_doRenew (h : Work s d x) : Work s d (doRenew c x) := by
  unfold doRenew
  split
  · exact h.still (still_answer _ _ _ x)
  · exact work_renewLease c _ h

theorem still_doRelease (x : State) : Still x (doRelease c x) :=
  ((still_setLease none x).trans (still_answer c _ _ _)).trans (still_noticeLeaseEnd _)

theorem still_doRqRead (x : State) : Still x (doRqRead c x) := by
  unfold doRqRead
  split <;> exact still_answer _ _ _ x

theorem still_doOrtRead (x : State) : Still x (doOrtRead c x) := by
  unfold doOrtRead
  split <;> exact still_answer _ _ _ x

theorem still_doFlogRead (x : State) : Still x (doFlogRead c x) := by
  unfold doFlogRead
  split <;> exact still_answer _ _ _ x

theorem still_doFlogPop (x : State) : Still x (doFlogPop c x) := by
  unfold doFlogPop
  dsimp only
  split_ifs
  · exact still_answer _ _ _ x
  · exact still_answer _ _ _ x
  · exact (still_answer _ _ _ _).ofUpdate

theorem still_doWtRead (x : State) : Still x (doWtRead c x) := by
  unfold doWtRead
  split
  · split
    · exact still_answer _ _ _ x
    · split <;> exact still_answer _ _ _ x
    · split <;> exact still_answer _ _ _ x
  · exact still_answer _ _ _ x

theorem work_doWtWrite (h : Work s d x) : Work s d (doWtWrite c x) := by
  unfold doWtWrite
  split
  · exact h.still (still_answer _ _ _ x)
  · split_ifs with hc hv
    · exact h.still (still_answer _ _ _ x)
    · exact h.still (still_answer _ _ _ x)
    · refine (h.stage (stages_put fun _ hvalid => ?_)).still (still_answer _ _ _ _)
      simpa [hvalid] using hv

theorem work_doWtClear (h : Work s d x) : Work s d (doWtClear c x) := by
  unfold doWtClear
  split
  · exact h.still (still_answer _ _ _ x)
  · refine (h.stage (stages_setBank fun _ i hv => ?_)).still (still_answer _ _ _ _)
    rw [pick_clearedBank] at hv
    exact Bool.noConfusion hv

theorem work_doCommitCancel (h : Work s d x) : Work s d (doCommitCancel c x) := by
  unfold doCommitCancel
  split
  · exact (work_cancelHeld h).still (still_answer _ _ _ _)
  · exact h.still (still_answer _ _ _ x)

/-- An OK COMMIT is a move of its own; any other has no effect on banks, table and record. -/
theorem doCommit_does (x : State) :
    Still x (doCommit c x) ∨ SameSlots x (doCommit c x) ∧ Ordered x.commit (doCommit c x).commit := by
  unfold doCommit
  split
  · exact .inl (still_answer _ _ _ x)
  · have hw : x.commit.condition = .writable := not_not.mp ‹_›
    split
    · rename_i g hg
      have told := still_answer c .ok (.commitHeld x.commit.liveGeneration g x.commit.drainingOpen) (holdCommit x)
      refine .inr ⟨⟨told.banks, told.ort, told.timers⟩, ?_⟩
      rw [told.commit]
      exact .held hw ((drainingGeneration_eq_some _ _).mp hg).1
    · rename_i hg
      have hidle : x.commit.drainingBank = none := Option.map_eq_none_iff.mp hg
      have told := still_answer c .ok (swappedResult x.commit.liveBank (swapBanks x)) (swapBanks x)
      cases hf : x.commit.freeBank with
      | none =>
        have hsame : swapBanks x = x := by simp [swapBanks, hf]
        rw [hsame] at told ⊢
        exact .inl told
      | some f =>
        obtain ⟨hs, hc⟩ := work_swapBanks hf
        refine .inr ⟨⟨told.banks.trans hs.banks, told.ort.trans hs.ort, told.timers.trans hs.timers⟩, ?_⟩
        rw [told.commit, hc]
        exact .swapped hw hidle hf

theorem work_writeRequester (w : RqWrite) (h : Work s false x) :
    Work s true (writeRequester w x) ∧
      (¬ (w.state = .disabled ∧ (entryOf x w.requester).state = .active) → Work s false (writeRequester w x)) := by
  have limits : ∀ {d y}, Work s d y → Work s d (notifyHeadOf w.requester
      (setEntry w.requester (writeLimits w (entryOf y w.requester)) y)) := fun hy =>
    (hy.still (still_setEntry _ _ _)).still (still_notifyHeadOf _ _)
  unfold writeRequester writeState
  dsimp only
  split
  · exact ⟨limits h.drainLater, fun _ => limits h⟩
  · exact ⟨limits (h.still (still_setEntry _ _ x)).drainLater, fun _ => limits (h.still (still_setEntry _ _ x))⟩
  · rename_i hdis
    split
    · exact ⟨limits (work_withdraw _ (h.still (still_setEntry _ _ x))), fun hn => absurd ⟨hdis, ‹_›⟩ hn⟩
    · exact ⟨limits (h.still (still_setEntry _ _ x)).drainLater, fun _ => limits (h.still (still_setEntry _ _ x))⟩

theorem work_doRqWrite (h : Work s false x) : Work s false (doRqWrite c x) := by
  unfold doRqWrite
  split
  · exact h.still (still_answer _ _ _ x)
  · rename_i w _
    obtain ⟨later, settled⟩ := work_writeRequester w h
    dsimp only
    split_ifs with h1 h2
    · exact h.still (still_answer _ _ _ x)
    · exact work_takeDrainEnd (later.still (still_answer _ _ _ _))
    · exact (settled h2).still (still_answer _ _ _ _)

theorem still_doReinstate (x : State) : Still x (doReinstate c x) := by
  unfold doReinstate
  split
  · exact still_answer _ _ _ x
  · split
    · exact ((still_setEntry _ _ x).trans (still_notifyHeadOf _ _)).trans (still_answer _ _ _ _)
    · exact still_answer _ _ _ x

theorem still_doNoteAck (x : State) : Still x (doNoteAck c x) := by
  unfold doNoteAck
  split
  · exact still_answer _ _ _ x
  · split
    · have acknowledged : Still x (acknowledge x) := ⟨rfl, rfl, rfl, rfl⟩
      exact (acknowledged.trans (still_answer _ _ _ _)).trans (still_testSend _)
    · exact still_answer _ _ _ x

theorem work_doConfigWrite (h : Work s d x) : Work s d (doConfigWrite c x) := by
  unfold doConfigWrite
  split
  · exact h.still (still_answer _ _ _ x)
  · rename_i g _
    have told : Work s d (answer c .ok (.config g) { x with mgmt := { x.mgmt with config := g } }) :=
      h.still (still_answer _ _ _ _).ofUpdate
    dsimp only
    split
    · exact told
    · exact work_lapseThrough .down told

theorem still_clearCounters (x : State) : Still x (clearCounters x) := ⟨rfl, rfl, rfl, rfl⟩

theorem still_doCountersRead (x : State) : Still x (doCountersRead c x) := by
  unfold doCountersRead
  dsimp only
  split
  · exact (still_answer _ _ _ x).trans (still_clearCounters _)
  · exact still_answer _ _ _ x

end Bodies

/-! ## Resets -/

/-- What is made of each slot in its turn, and kept in the others' turns, holds of every slot at the end. -/
theorem forSlots_each {f : SlotNum → State → State} {Q : SlotNum → State → Prop} (made : ∀ i x, Q i (f i x))
    (kept : ∀ i j x, Q j x → Q j (f i x)) (x : State) (j : SlotNum) : Q j (forSlots f x) := by
  have key : ∀ (l : List SlotNum) (x : State), j ∈ l ∨ Q j x → Q j (l.foldl (fun x i => f i x) x) := by
    intro l
    induction l with
    | nil => exact fun x h => h.resolve_left List.not_mem_nil
    | cons i l ih =>
      intro x h
      refine ih _ ?_
      by_cases hi : j = i
      · exact .inr (hi ▸ made i x)
      · exact h.imp (fun hm => (List.mem_cons.mp hm).resolve_left hi) (kept i j x)
  exact key _ x (.inl (List.mem_finRange j))

theorem warmSlot_ort (i : SlotNum) (x : State) :
    (pick (warmSlot i x).ort i).occ = .free ∧ ∀ j, j ≠ i → pick (warmSlot i x).ort j = pick x.ort j := by
  have freed : ∀ y : State, y.ort = x.ort →
      (pick (freeSlot i y).ort i).occ = .free ∧ ∀ j, j ≠ i → pick (freeSlot i y).ort j = pick x.ort j := by
    intro y hy
    obtain ⟨_, h⟩ := freeSlot_shape i y
    rw [h, ← hy]
    exact ⟨by simp only [pick_put_same], fun j hj => pick_put_other _ _ hj⟩
  unfold warmSlot
  split
  · exact ⟨‹_›, fun _ _ => rfl⟩
  · exact freed x rfl
  · exact freed _ (still_produce _ _ x).ort

theorem forSlots_warmSlot_free (x : State) (j : SlotNum) : (pick (forSlots warmSlot x).ort j).occ = .free := by
  refine forSlots_each (Q := fun j x => (pick x.ort j).occ = .free) (fun i x => (warmSlot_ort i x).1) ?_ x j
  intro i j x h
  by_cases hj : j = i
  · exact hj ▸ (warmSlot_ort i x).1
  · exact (congrArg Slot.occ ((warmSlot_ort i x).2 j hj)).trans h

theorem still_warmIntake (x : State) : Still x (warmIntake x) := by
  unfold warmIntake
  dsimp only
  split
  · exact ⟨rfl, rfl, rfl, rfl⟩
  · exact (still_produce _ _ _).ofUpdate

/-- The timers, the issue unit and the commit unit at a warm reset, after the slots' part of it. -/
theorem warmMove_of_freed {n m : Nat} (hb : y.banks = x.banks) (hf : ∀ i, (pick y.ort i).occ = .free)
    (hc : y.commit = { x.commit with liveOpen := n, drainingOpen := m }) :
    WarmMove x (warmCommit (warmIssue (cancelTimers y))) where
  banks := hb
  slots := hf
  timers i := pick_replicate _ i
  commit := by
    have hwarm : (warmCommit (warmIssue (cancelTimers y))).commit = y.commit.warm := rfl
    rw [hwarm, hc]
    rfl

theorem still_zeroCounters (x : State) : Still x (zeroResponseCounters (zeroRequesterCounters x)) :=
  ⟨rfl, rfl, rfl, rfl⟩

theorem still_warmManagement (x : State) : Still x (warmManagement x) := ⟨rfl, rfl, rfl, rfl⟩

theorem still_warmNotice (x : State) : Still x (warmNotice x) := ⟨rfl, rfl, rfl, rfl⟩

theorem work_warmReset (p : Party) (h : Work s d x) : Work s false (warmReset p x) := by
  obtain ⟨_, n, m, _, _, _, hshape⟩ := forSlots_shape warmSlot warmSlot_shape (warmIntake x)
  have begun := still_warmIntake x
  have hb : (forSlots warmSlot (warmIntake x)).banks = x.banks := by rw [hshape]; exact begun.banks
  have hc : (forSlots warmSlot (warmIntake x)).commit = { x.commit with liveOpen := n, drainingOpen := m } := by
    rw [hshape, ← begun.commit]
  have warmed := h.warm (warmMove_of_freed hb (forSlots_warmSlot_free _) hc)
  exact (((warmed.still (still_zeroCounters _)).still (still_warmManagement _)).still (still_warmNotice _)).still
    (still_appendFault _ _)

theorem still_startPart (a : Straps) (x : State) : Still x (startPart a x) := ⟨rfl, rfl, rfl, rfl⟩

theorem still_reset_coldReset (x : State) : Still State.reset (coldReset x) := ⟨rfl, rfl, rfl, rfl⟩

theorem still_releaseReset (a : Straps) (x : State) : Still x (releaseReset a x) := by
  unfold releaseReset
  split
  · exact still_startPart a x
  · exact .refl x

theorem still_reset_powerUp (a : Straps) (b : Bool) (x : State) : Still State.reset (powerUp a b x) := by
  unfold powerUp
  split
  · exact (still_reset_coldReset x).trans (still_startPart a _)
  · exact still_reset_coldReset x

/-! ## Every command -/

/-- What a command does: work, or an OK COMMIT, or a cold reset. -/
inductive Does (c : Instr) (s t : State) : Prop
  | work (h : Work s false t)
  | ordered (k : SameSlots s t) (m : Ordered s.commit t.commit)
  | cold (hc : c = .resetNAssert ∨ ∃ a b, c = .powerUp a b) (h : Still State.reset t)

/-- While RESET_N is low a command has no effect, and work does none. -/
theorem does_whenRunning {c : Instr} {f : State → State} {t : State} (h : whenRunning f s = .next t)
    (hf : Work s false (f s)) : Does c s t := by
  obtain rfl : (if s.resetHeld then s else f s) = t := Host.Outcome.next.inj h
  split
  · exact .work .start
  · exact .work hf

theorem does_still {c : Instr} {f : State → State} {t : State} (h : whenRunning f s = .next t)
    (hf : Still s (f s)) : Does c s t :=
  does_whenRunning h (Work.start.still hf)

theorem does_command {c : Instr} {k : Command} {body : QueuedCommand → State → State} {t : State}
    (h : whenRunning (takeCommand k body) s = .next t)
    (hbody : ∀ c x, Work s false x → Work s false (body c x)) : Does c s t :=
  does_whenRunning h (work_takeCommand hbody .start)

theorem does_commit {t : State} (h : exec .commit s = .next t) : Does .commit s t := by
  obtain rfl : (if s.resetHeld then s else takeCommand .commit doCommit s) = t := Host.Outcome.next.inj h
  have popped := still_popCommand s
  unfold takeCommand
  split
  · exact .work .start
  · split
    · exact .work .start
    · rename_i c _ _
      split
      · unfold decideCommand
        split_ifs
        · exact .work (Work.start.still (popped.trans (still_answer _ _ _ _)))
        · exact .work (Work.start.still (popped.trans (still_answer _ _ _ _)))
        · exact .work (Work.start.still (popped.trans (still_answer _ _ _ _)))
        · rcases doCommit_does c (popCommand s) with hs | ⟨hs, hm⟩
          · exact .work (Work.start.still (popped.trans hs))
          · exact .ordered ⟨hs.banks, hs.ort, hs.timers⟩ hm
      · exact .work .start

theorem exec_does {c : Instr} {s t : State} (h : exec c s = .next t) : Does c s t := by
  cases c with
  | upstreamPacketArrival p => exact does_still h (still_arriveUpstream p s)
  | upstreamStrayPacket k r => exact does_still h (still_strayUpstream r s)
  | upstreamCretDiscard cls n => exact does_still (f := fun x => x) h (.refl s)
  | headExamination => exact does_whenRunning h (work_examineHead .start)
  | mcmdAtHead => exact does_still h (still_moveHead s)
  | grant => exact does_whenRunning h (work_grantNext .start)
  | responseArrival r => exact does_whenRunning h (work_takeResponse r .start)
  | downstreamCret cls n => exact does_still h (still_takeCret cls n s)
  | downstreamStrayPacket k => exact does_still (f := fun x => x) h (.refl s)
  | downstreamMcmdArrival m =>
    refine does_still h ?_
    unfold arriveDownstream
    split
    · exact still_reachManagement .down m s
    · exact .refl s
  | deadlineExpiry i => exact does_whenRunning h (work_takeTimed (.deadline i) .start)
  | reclaimExpiry i => exact does_whenRunning h (work_takeTimed (.reclaim i) .start)
  | drainEnd => exact does_whenRunning h (work_takeDrainEnd .start)
  | fillStep => exact does_whenRunning h (work_takeTimed .fillStep .start)
  | fillCompletion => exact does_whenRunning h (work_takeTimed .fillCompletion .start)
  | resendExpiry => exact does_whenRunning h (work_takeTimed .resend .start)
  | leaseTimerExpiry => exact does_whenRunning h (work_takeTimed .lease .start)
  | identify => exact does_command h fun c x hx => hx.still (still_answer c _ _ x)
  | status => exact does_command h fun c x hx => hx.still (still_answer c _ _ x)
  | claim => exact does_command h fun c _ hx => work_doClaim c hx
  | renew => exact does_command h fun c _ hx => work_doRenew c hx
  | release => exact does_command h fun c x hx => hx.still (still_doRelease c x)
  | rqRead => exact does_command h fun c x hx => hx.still (still_doRqRead c x)
  | ortRead => exact does_command h fun c x hx => hx.still (still_doOrtRead c x)
  | flogRead => exact does_command h fun c x hx => hx.still (still_doFlogRead c x)
  | flogPop => exact does_command h fun c x hx => hx.still (still_doFlogPop c x)
  | wtRead => exact does_command h fun c x hx => hx.still (still_doWtRead c x)
  | wtWrite => exact does_command h fun c _ hx => work_doWtWrite c hx
  | wtClear => exact does_command h fun c _ hx => work_doWtClear c hx
  | commit => exact does_commit h
  | commitCancel => exact does_command h fun c _ hx => work_doCommitCancel c hx
  | rqWrite => exact does_command h fun c _ hx => work_doRqWrite c hx
  | reinstate => exact does_command h fun c x hx => hx.still (still_doReinstate c x)
  | noteAck => exact does_command h fun c x hx => hx.still (still_doNoteAck c x)
  | configRead => exact does_command h fun c x hx => hx.still (still_answer c _ _ x)
  | configWrite => exact does_command h fun c _ hx => work_doConfigWrite c hx
  | countersRead => exact does_command h fun c x hx => hx.still (still_doCountersRead c x)
  | partReset => exact does_command h fun c x hx => work_warmReset _ (hx.still (still_answer c _ _ x))
  | peerDetect p =>
    obtain rfl := Host.Outcome.next.inj h
    split
    · exact .work (Work.start.still (still_setSignal p true s))
    · exact .work (Work.start.still (still_detectPeer p s))
  | initReceived p n => exact does_still h (still_takeInit p n s)
  | initWhileUp p => exact does_whenRunning h (work_takeInitWhileUp p .start)
  | trainingTimerExpiry p => exact does_whenRunning h (work_takeTimed (.training p) .start)
  | holdOffExpiry p => exact does_whenRunning h (work_takeTimed (.holdOff p) .start)
  | lossOfSignal p =>
    obtain rfl := Host.Outcome.next.inj h
    split
    · exact .work (Work.start.still (still_setSignal p false s))
    · exact .work (work_dropLink p (Work.start.still (still_setSignal p false s)))
  | errorBurst p => exact does_whenRunning h (work_dropLink p .start)
  | resetNAssert =>
    obtain rfl := Host.Outcome.next.inj h
    exact .cold (.inl rfl) (still_reset_coldReset s)
  | resetNRelease a =>
    obtain rfl := Host.Outcome.next.inj h
    exact .work (Work.start.still (still_releaseReset a s))
  | powerUp a b =>
    obtain rfl := Host.Outcome.next.inj h
    exact .cold (.inr ⟨a, b, rfl⟩) (still_reset_powerUp a b s)
  | unknownCommand => exact does_still h (still_takeUnknown s)

end Sys2Proof.Proofs
end

