-- ==== Sys2Proof/Proofs/SlotLaws.lean ====
section
/-! PROOFS. The laws of windows, slots, timers and tags along an event's work (R2, R43 to R45, R49, R57, R101), and how
a step keeps a law that work, an OK COMMIT and a cold reset keep. -/

namespace Sys2Proof.Proofs

open Sys2Proof.Machine Sys2Proof.Safety Sys2Proof.Claims Sys2Proof.Laws

variable {s x u t : State} {d : Bool} {i : SlotNum}

/-! ## A step keeps what its work keeps -/

theorem kept_of {law : State → Prop} (work : ∀ s t, Work s false t → law s → law t)
    (ordered : ∀ s t, SameSlots s t → Ordered s.commit t.commit → law s → law t)
    (reset : ∀ t, Still State.reset t → law t) : Kept law := by
  have command : ∀ c s t, law s → exec c s = .next t → law t := by
    intro c s t hs h
    rcases exec_does h with hw | ⟨hk, hm⟩ | ⟨-, hr⟩
    · exact work s t hw hs
    · exact ordered s t hk hm hs
    · exact reset t hr
  intro s t hs h
  unfold step at h
  split at h
  · unfold idle at h
    split at h
    · exact Host.Outcome.next.inj h ▸ hs
    · split at h
      · exact Host.Outcome.next.inj h ▸ work s _ Work.start.same hs
      · split at h
        · exact command _ s t hs h
        · exact Host.Outcome.next.inj h ▸ work s _ (Work.start.time 1) hs
  · exact command _ _ t (work s _ Work.start.same hs) h

/-! ## Windows (R2) -/

theorem windowLaw_of_banks (h : u.banks = x.banks) (hx : WindowLaw x) : WindowLaw u := by
  intro b
  rw [show bankOf u b = bankOf x b from congrArg (pick · b) h]
  exact hx b

theorem windowLaw_of_stages (m : Stages x u) (hx : WindowLaw x) : WindowLaw u := by
  intro b
  by_cases hb : b = x.commit.stagedBank
  · rw [hb]
    exact m.bounded hx
  · rw [show bankOf u b = bankOf x b from m.banks b hb]
    exact hx b

theorem work_windowLaw (h : Work s d t) (hs : WindowLaw s) : WindowLaw t := by
  induction h with
  | start => exact hs
  | drainLater _ ih => exact ih
  | still _ m ih => exact windowLaw_of_banks m.banks ih
  | time n _ ih => exact windowLaw_of_banks rfl ih
  | slot _ m ih => exact windowLaw_of_banks m.banks ih
  | release _ m ih => exact windowLaw_of_banks m.banks ih
  | allocate _ m ih => exact windowLaw_of_banks m.banks ih
  | stage _ m ih => exact windowLaw_of_stages m ih
  | commit _ k _ ih => exact windowLaw_of_banks k.banks ih
  | drain _ k _ ih => exact windowLaw_of_banks k.banks ih
  | warm _ m ih => exact windowLaw_of_banks m.banks ih

theorem windowLaw_of_reset (h : Still State.reset t) : WindowLaw t := by
  refine windowLaw_of_banks h.banks fun b i hv => ?_
  have hcleared : bankOf State.reset b = clearedBank := pick_replicate _ b
  rw [hcleared, pick_clearedBank] at hv
  exact Bool.noConfusion hv

theorem windowLaw_kept : Kept WindowLaw :=
  kept_of (fun _ _ => work_windowLaw) (fun _ _ k _ => windowLaw_of_banks k.banks) fun _ => windowLaw_of_reset

/-! ## Laws of each slot and its timer -/

/-- A property of a slot's occupancy and timer, kept by the moves of a slot and given at its allocation, holds along an
event's work. -/
theorem work_slotwise {P : Occupancy → SlotTimer → Prop} (free : P .free .none)
    (fall : ∀ n o z, P o z → P o (z.fall n))
    (move : ∀ {c r o z o' z' c'}, SlotMove c r o z o' z' c' → P o z → P o' z')
    (allocated : ∀ {d i q ps x u}, Work s d x → Allocates i q ps x u → P (pick u.ort i).occ (pick u.timers i))
    (h : Work s d t) (hs : ∀ i, P (pick s.ort i).occ (pick s.timers i)) (j : SlotNum) :
    P (pick t.ort j).occ (pick t.timers j) := by
  have slots : ∀ {i r x u}, MovesSlot i r x u → P (pick x.ort j).occ (pick x.timers j) →
      P (pick u.ort j).occ (pick u.timers j) := by
    intro i r x u m hx
    by_cases hj : j = i
    · subst hj
      exact move m.move hx
    · rw [m.slots j hj, m.timers j hj]
      exact hx
  induction h with
  | start => exact hs j
  | drainLater _ ih => exact ih
  | still _ m ih => rw [m.ort, m.timers]; exact ih
  | time n _ ih => rw [pick_passTime_timers]; exact fall n _ _ ih
  | slot _ m ih => exact slots m ih
  | release _ m ih => exact slots m ih
  | @allocate _ i _ _ _ _ h m ih =>
    by_cases hj : j = i
    · subst hj
      exact allocated h m
    · rw [m.slots j hj, m.timers j hj]
      exact ih
  | stage _ m ih => rw [m.ort, m.timers]; exact ih
  | commit _ k _ ih => rw [k.ort, k.timers]; exact ih
  | drain _ k _ ih => rw [k.ort, k.timers]; exact ih
  | warm _ m ih => rw [m.slots j, m.timers j]; exact free

theorem slot_of_reset (h : Still State.reset t) (i : SlotNum) :
    (pick t.ort i).occ = .free ∧ pick t.timers i = .none := by
  rw [h.ort, h.timers]
  exact ⟨congrArg Slot.occ (pick_replicate _ i), pick_replicate _ i⟩

/-! ## Timers (R101) -/

theorem timerFits_fall (n : Nat) (o : Occupancy) (z : SlotTimer) : timerFits o (z.fall n) = timerFits o z := by
  cases o <;> cases z <;> rfl

theorem SlotMove.timerFits {c c' : CommitUnit} {r : Bool} {o o' : Occupancy} {z z' : SlotTimer}
    (m : SlotMove c r o z o' z' c') (h : timerFits o z = true) : timerFits o' z' = true := by
  cases m with
  | goesOn | staysStale => cases z <;> exact h
  | freed | closes | becomesStale => rfl

theorem work_timerLaw (h : Work s d t) (hs : TimerLaw s) : TimerLaw t := by
  refine work_slotwise (P := fun o z => timerFits o z = true) rfl ?_ SlotMove.timerFits ?_ h hs
  · intro n o z hz
    rwa [timerFits_fall]
  · intro d i q ps x u _ m
    obtain ⟨n, hn⟩ := m.timer
    rw [m.opened, hn]
    rfl

theorem timerLaw_of_sameSlots (k : SameSlots x u) (hx : TimerLaw x) : TimerLaw u := by
  intro i
  rw [k.ort, k.timers]
  exact hx i

theorem timerLaw_of_reset (h : Still State.reset t) : TimerLaw t := by
  intro i
  rw [(slot_of_reset h i).1, (slot_of_reset h i).2]
  rfl

theorem timerLaw_kept : Kept TimerLaw :=
  kept_of (fun _ _ => work_timerLaw) (fun _ _ k _ => timerLaw_of_sameSlots k) fun _ => timerLaw_of_reset

/-! ## Slot records (R43, R44, R45, R57) -/

theorem SlotMove.occupancyFits {c c' : CommitUnit} {r : Bool} {o o' : Occupancy} {z z' : SlotTimer}
    (m : SlotMove c r o z o' z' c') (h : occupancyFits o = true) : occupancyFits o' = true := by
  cases m with
  | goesOn same waits =>
    simp only [Safety.occupancyFits, Bool.and_eq_true, same.piecesFit, waits] at h ⊢
    exact ⟨h.1, rfl⟩
  | staysStale same failure issued queued =>
    simp only [Safety.occupancyFits, Bool.and_eq_true, same.piecesFit, issued, failure] at h ⊢
    obtain ⟨⟨⟨hfit, -⟩, hq⟩, hf⟩ := h
    exact ⟨⟨⟨hfit, trivial⟩, queued hq⟩, hf⟩
  | freed | closes => rfl
  | becomesStale same issued queued failure =>
    simp only [Safety.occupancyFits, Bool.and_eq_true, same.piecesFit, issued, failure] at h ⊢
    exact ⟨⟨⟨h.1, trivial⟩, queued⟩, trivial⟩

/-- The record of a new slot has the pieces of the split, each QUEUED. -/
theorem newRecord_fits {q : Request} {ps : List GrantedPiece} {g : Generation} (hw : WindowLaw x) (hq : formGood q)
    (hc : windowCheck x q = .granted ps g) : occupancyFits (.opened (newRecord x q ps g)) = true := by
  obtain ⟨hpass, rfl, -⟩ := windowCheck_eq_granted_iff.mp hc
  have hb : Aligned (liveBank x) := aligned_of_windowLaw hw _
  have hps := map_asChecked_granted hpass
  generalize (splitRequest (liveBank x) q).filterMap (fun p => p.granted (liveBank x)) = ps at hps
  by_cases h : lookup (liveBank x) q.requester q.address.toNat = lookup (liveBank x) q.requester (lastByte q)
  · rw [splitRequest_of_agree h] at hps
    obtain ⟨p, rfl, hp⟩ := List.map_eq_singleton_iff.mp hps
    obtain ⟨hi, -, hl, ho, -⟩ : _ ∧ _ ∧ _ ∧ _ ∧ _ := CheckedPiece.mk.inj hp
    simp [Safety.occupancyFits, piecesFit, newRecord, GrantedPiece.record, Tracked.resolved, PieceState.resolved,
      hi, hl, ho]
  · have hlen := splitRequest_lengths hb hq
    rw [splitRequest_of_differ h] at hps hlen
    obtain ⟨p, l, rfl, hp, hl⟩ := List.map_eq_cons_iff.mp hps
    obtain ⟨p', rfl, hp'⟩ := List.map_eq_singleton_iff.mp hl
    obtain ⟨hi, -, hl, ho, -⟩ : _ ∧ _ ∧ _ ∧ _ ∧ _ := CheckedPiece.mk.inj hp
    obtain ⟨hi', -, hl', ho', -⟩ : _ ∧ _ ∧ _ ∧ _ ∧ _ := CheckedPiece.mk.inj hp'
    simp only [List.map_cons, List.map_nil, List.sum_cons, List.sum_nil, Nat.add_zero] at hlen
    simp [Safety.occupancyFits, piecesFit, newRecord, GrantedPiece.record, Tracked.resolved, PieceState.resolved,
      hi, hl, ho, hi', hl', ho', hlen]

theorem work_slotLaw (h : Work s d t) (hw : WindowLaw s) (hs : SlotLaw s) : SlotLaw t := by
  refine work_slotwise (P := fun o _ => Safety.occupancyFits o = true) rfl (fun _ _ _ ho => ho)
    SlotMove.occupancyFits ?_ h hs
  intro d i q ps x u hx m
  rw [m.opened]
  exact newRecord_fits (work_windowLaw hx hw) m.form m.granted

theorem slotLaw_of_sameSlots (k : SameSlots x u) (hx : SlotLaw x) : SlotLaw u := by
  intro i
  rw [k.ort]
  exact hx i

theorem slotLaw_of_reset (h : Still State.reset t) : SlotLaw t := by
  intro i
  rw [(slot_of_reset h i).1]
  rfl

theorem slotLaw_kept : Kept fun s => WindowLaw s ∧ SlotLaw s :=
  kept_of (fun _ _ h ⟨hw, hs⟩ => ⟨work_windowLaw h hw, work_slotLaw h hw hs⟩)
    (fun _ _ k _ ⟨hw, hs⟩ => ⟨windowLaw_of_banks k.banks hw, slotLaw_of_sameSlots k hs⟩)
    fun _ h => ⟨windowLaw_of_reset h, slotLaw_of_reset h⟩

/-! ## The records of OPEN slots -/

/-- Every OPEN slot of `u` was OPEN in `x` with a record of the same request. -/
def OpenFrom (x u : State) : Prop :=
  ∀ i, ∀ v ∈ openAt u i, ∃ t ∈ openAt x i, SameWork t v

theorem SameWork.refl (t : Tracked) : SameWork t t :=
  ⟨rfl, List.forall₂_same.mpr fun _ _ => rfl⟩

theorem openFrom_of_ort (h : u.ort = x.ort) : OpenFrom x u := by
  intro i v hv
  exact ⟨v, by rwa [openAt, ← h], .refl v⟩

theorem SlotMove.openFrom {c c' : CommitUnit} {r : Bool} {o o' : Occupancy} {z z' : SlotTimer}
    (m : SlotMove c r o z o' z' c') {v : Tracked} (h : o' = .opened v) : ∃ t, o = .opened t ∧ SameWork t v := by
  cases m with
  | goesOn same _ =>
    obtain rfl := Occupancy.opened.inj h
    exact ⟨_, rfl, same⟩
  | staysStale | freed | closes | becomesStale => exact nomatch h

theorem MovesSlot.openFrom {r : Bool} (m : MovesSlot i r x u) : OpenFrom x u := by
  intro j v hv
  by_cases hj : j = i
  · subst hj
    obtain ⟨t, ht, hs⟩ := m.move.openFrom (openAt_eq_some.mp hv)
    exact ⟨t, openAt_eq_some.mpr ht, hs⟩
  · exact ⟨v, by rwa [openAt, ← m.slots j hj], .refl v⟩

theorem openFrom_of_free (h : ∀ i, (pick u.ort i).occ = .free) : OpenFrom x u := by
  intro i v hv
  exact nomatch (h i).symm.trans (openAt_eq_some.mp hv)

/-- After an allocation an OPEN slot is the allocated one or was OPEN before. -/
theorem Allocates.openAt {q : Request} {ps : List GrantedPiece} (m : Allocates i q ps x u) {j : SlotNum} {v : Tracked}
    (hv : v ∈ openAt u j) :
    (j = i ∧ v = newRecord x q ps x.commit.liveGeneration) ∨ (j ≠ i ∧ v ∈ openAt x j) := by
  by_cases hj : j = i
  · subst hj
    exact .inl ⟨rfl, Occupancy.opened.inj ((openAt_eq_some.mp hv).symm.trans m.opened)⟩
  · exact .inr ⟨hj, by rwa [Machine.openAt, ← m.slots j hj]⟩

/-! ## Tags (R49) -/

theorem tagLaw_of_openFrom (h : OpenFrom x u) (hx : TagLaw x) : TagLaw u := by
  intro i j v hv w hw hr ht
  obtain ⟨v', hv', sv⟩ := h i v hv
  obtain ⟨w', hw', sw⟩ := h j w hw
  exact hx i j v' hv' w' hw' (by rw [← sv.requester, ← sw.requester, hr]) (by rw [← sv.tag, ← sw.tag, ht])

/-- Check 5 passes: no OPEN slot has the Requester and Tag of the request (R30). -/
theorem unused_tag {q : Request} (h : duplicateTag x q = false) {j : SlotNum} {v : Tracked} (hv : v ∈ openAt x j)
    (hr : v.requester = q.requester) : v.tag ≠ q.tag := by
  intro ht
  rw [duplicateTag, List.any_eq_false] at h
  refine h j (List.mem_finRange j) ?_
  simp [Slot.openWith, openAt_eq_some.mp hv, hr, ht]

theorem tagLaw_of_allocates {q : Request} {ps : List GrantedPiece} (m : Allocates i q ps x u) (hx : TagLaw x) :
    TagLaw u := by
  intro j k v hv w hw hr ht
  rcases m.openAt hv with ⟨rfl, rfl⟩ | ⟨hj, hv⟩
  · rcases m.openAt hw with ⟨rfl, -⟩ | ⟨hk, hw⟩
    · rfl
    · exact absurd ht.symm (unused_tag m.unused hw hr.symm)
  · rcases m.openAt hw with ⟨rfl, rfl⟩ | ⟨hk, hw⟩
    · exact absurd ht (unused_tag m.unused hv hr)
    · exact hx j k v hv w hw hr ht

theorem work_tagLaw (h : Work s d t) (hs : TagLaw s) : TagLaw t := by
  induction h with
  | start => exact hs
  | drainLater _ ih => exact ih
  | still _ m ih => exact tagLaw_of_openFrom (openFrom_of_ort m.ort) ih
  | time n _ ih => exact tagLaw_of_openFrom (openFrom_of_ort rfl) ih
  | slot _ m ih => exact tagLaw_of_openFrom m.openFrom ih
  | release _ m ih => exact tagLaw_of_openFrom m.openFrom ih
  | allocate _ m ih => exact tagLaw_of_allocates m ih
  | stage _ m ih => exact tagLaw_of_openFrom (openFrom_of_ort m.ort) ih
  | commit _ k _ ih => exact tagLaw_of_openFrom (openFrom_of_ort k.ort) ih
  | drain _ k _ ih => exact tagLaw_of_openFrom (openFrom_of_ort k.ort) ih
  | warm _ m ih => exact tagLaw_of_openFrom (openFrom_of_free m.slots) ih

theorem tagLaw_of_reset (h : Still State.reset t) : TagLaw t := by
  intro i _ v hv
  exact nomatch (slot_of_reset h i).1.symm.trans (openAt_eq_some.mp hv)

theorem tagLaw_kept : Kept TagLaw :=
  kept_of (fun _ _ => work_tagLaw) (fun _ _ k _ => tagLaw_of_openFrom (openFrom_of_ort k.ort))
    fun _ => tagLaw_of_reset

end Sys2Proof.Proofs
end

