-- ==== Sys2Proof/Proofs/CommitLaws.lean ====
section
/-! PROOFS. The laws of roles and of drains, which rest on the commit unit's record alone, along an event's work (R114,
R115, R118). -/

namespace Sys2Proof.Proofs

open Sys2Proof.Machine Sys2Proof.Safety Sys2Proof.Claims Sys2Proof.Laws

variable {s x u t : State} {d : Bool} {i : SlotNum} {c c' : CommitUnit}

/-! ## The commit unit's record under a slot's move -/

/-- The records agree but for the open counts (R117). -/
structure SameRoles (c c' : CommitUnit) : Prop where
  liveBank : c'.liveBank = c.liveBank
  stagedBank : c'.stagedBank = c.stagedBank
  drainingBank : c'.drainingBank = c.drainingBank
  freeBank : c'.freeBank = c.freeBank
  liveGeneration : c'.liveGeneration = c.liveGeneration
  condition : c'.condition = c.condition
  heldCommit : c'.heldCommit = c.heldCommit
  fillProgress : c'.fillProgress = c.fillProgress

theorem SameRoles.refl (c : CommitUnit) : SameRoles c c := ⟨rfl, rfl, rfl, rfl, rfl, rfl, rfl, rfl⟩

theorem sameRoles_of_eq (h : c' = c) : SameRoles c c' := h ▸ .refl c

theorem sameRoles_released (g : Generation) (c : CommitUnit) : SameRoles c (released g c) := by
  unfold released
  split_ifs <;> exact ⟨rfl, rfl, rfl, rfl, rfl, rfl, rfl, rfl⟩

theorem MovesSlot.sameRoles {r : Bool} (m : MovesSlot i r x u) : SameRoles x.commit u.commit := by
  have key : ∀ {o z o' z' c'}, SlotMove x.commit r o z o' z' c' → SameRoles x.commit c' := by
    intro o z o' z' c' h
    cases h with
    | goesOn | staysStale | freed => exact .refl _
    | closes | becomesStale => exact sameRoles_released _ _
  exact key m.move

theorem sameRoles_passTime (n : Nat) (x : State) : SameRoles x.commit (passTime n x).commit :=
  ⟨rfl, rfl, rfl, rfl, rfl, rfl, rfl, rfl⟩

theorem Allocates.sameRoles {q : Request} {ps : List GrantedPiece} (m : Allocates i q ps x u) :
    SameRoles x.commit u.commit := by
  rw [m.commit]
  exact ⟨rfl, rfl, rfl, rfl, rfl, rfl, rfl, rfl⟩

/-! ## Roles (R114, R115) -/

/-- The law of roles, of the commit unit's record alone. -/
structure RolesOf (c : CommitUnit) : Prop where
  distinct : c.liveBank ≠ c.stagedBank
  third : c.drainingBank.isSome = !c.freeBank.isSome
  other : ∀ b, c.drainingBank = some b ∨ c.freeBank = some b → b ≠ c.liveBank ∧ b ≠ c.stagedBank
  held : c.heldCommit = true ↔ c.condition = .frozen
  frozen : c.condition = .frozen → c.drainingBank.isSome = true
  progress : c.fillProgress ≤ 64
  filled : c.condition ≠ .filling → c.fillProgress = 64

theorem rolesLaw_iff (s : State) : RolesLaw s ↔ RolesOf s.commit :=
  ⟨fun ⟨h1, h2, h3, h4, h5, h6, h7⟩ => ⟨h1, h2, h3, h4, h5, h6, h7⟩,
    fun ⟨h1, h2, h3, h4, h5, h6, h7⟩ => ⟨h1, h2, h3, h4, h5, h6, h7⟩⟩

theorem SameRoles.rolesOf (k : SameRoles c c') (h : RolesOf c) : RolesOf c' := by
  obtain ⟨h1, h2, h3, h4, h5, h6, h7⟩ := h
  constructor <;> simp only [k.liveBank, k.stagedBank, k.drainingBank, k.freeBank, k.condition, k.heldCommit,
    k.fillProgress] <;> assumption

/-- After a swap with the third bank as the FREE one each bank has another role (R119). -/
theorem rolesOf_swapped {f : BankNum} (h : RolesOf c) (hl : f ≠ c.liveBank) (hs : f ≠ c.stagedBank) :
    RolesOf (c.swapped f) where
  distinct := hs.symm
  third := by
    simp only [CommitUnit.swapped]
    split_ifs <;> rfl
  other b hb := by
    have hlive : b = c.liveBank := by
      simp only [CommitUnit.swapped] at hb
      split_ifs at hb <;> simp_all
    rw [hlive]
    exact ⟨h.distinct, hl.symm⟩
  held := by simp [CommitUnit.swapped]
  frozen hf := by simp [CommitUnit.swapped] at hf
  progress := by simp [CommitUnit.swapped]
  filled hf := by simp [CommitUnit.swapped] at hf

theorem CommitMove.rolesOf (m : CommitMove c c') (h : RolesOf c) : RolesOf c' := by
  obtain ⟨h1, h2, h3, h4, h5, h6, h7⟩ := h
  cases m with
  | copied filling more => exact ⟨h1, h2, h3, h4, h5, more, fun hf => absurd filling hf⟩
  | filled filling all =>
    exact ⟨h1, h2, h3, by simp [filling] at h4 ⊢; exact h4, fun hf => (nomatch hf), h6, fun _ => all⟩
  | cancelled held =>
    exact ⟨h1, h2, h3, by simp, fun hf => (nomatch hf), h6, fun _ => h7 (by rw [h4.mp held]; decide)⟩

theorem DrainMove.rolesOf (m : DrainMove c c') (h : RolesOf c) : RolesOf c' := by
  cases m with
  | notDue => exact h
  | @freed d drains empty idle =>
    have hthaw : c.condition ≠ .frozen := fun hf => by simp [h.held.mpr hf] at idle
    exact ⟨h.distinct, rfl, fun b hb => h.other b (.inl (drains.trans (hb.resolve_left (by simp)))), h.held,
      fun hf => absurd hf hthaw, h.progress, h.filled⟩
  | @swapped d drains empty held =>
    obtain ⟨hl, hs⟩ := h.other d (.inl drains)
    exact rolesOf_swapped h hl hs

theorem Ordered.rolesOf (m : Ordered c c') (h : RolesOf c) : RolesOf c' := by
  cases m with
  | held writable drains =>
    exact ⟨h.distinct, h.third, h.other, by simp, fun _ => drains, h.progress,
      fun _ => h.filled (by rw [writable]; decide)⟩
  | @swapped f writable idle free =>
    obtain ⟨hl, hs⟩ := h.other f (.inr free)
    exact rolesOf_swapped h hl hs

theorem rolesOf_warm (h : RolesOf c) : RolesOf c.warm := by
  have hfree : ∀ b, (c.freeBank <|> c.drainingBank) = some b → c.drainingBank = some b ∨ c.freeBank = some b := by
    intro b hb
    cases hf : c.freeBank <;> simp_all
  have hsome : (c.freeBank <|> c.drainingBank).isSome = true := by
    have := h.third
    cases hf : c.freeBank <;> cases hd : c.drainingBank <;> simp_all
  refine ⟨h.distinct, ?_, fun b hb => h.other b (hfree b (hb.resolve_left ?_)), ?_, ?_, ?_, ?_⟩
  · simp only [CommitUnit.warm, hsome]
    rfl
  · simp [CommitUnit.warm]
  all_goals
    have hp := h.progress
    have hfilled := h.filled
    cases hc : c.condition <;> simp_all [CommitUnit.warm]

theorem work_rolesOf (h : Work s d t) (hs : RolesOf s.commit) : RolesOf t.commit := by
  induction h with
  | start => exact hs
  | drainLater _ ih => exact ih
  | still _ m ih => rw [m.commit]; exact ih
  | time n _ ih => exact (sameRoles_passTime n _).rolesOf ih
  | slot _ m ih => exact m.sameRoles.rolesOf ih
  | release _ m ih => exact m.sameRoles.rolesOf ih
  | allocate _ m ih => exact m.sameRoles.rolesOf ih
  | stage _ m ih => rw [m.commit]; exact ih
  | commit _ _ m ih => exact m.rolesOf ih
  | drain _ _ m ih => exact m.rolesOf ih
  | warm _ m ih => rw [m.commit]; exact rolesOf_warm ih

theorem rolesOf_reset : RolesOf State.reset.commit :=
  ⟨by decide, by decide, by decide, by decide, by decide, by decide, by decide⟩

/-! ## Drains (R118) -/

/-- The law of drains, of the commit unit's record alone. -/
def DrainOf (c : CommitUnit) : Prop := c.drainingBank.isSome = true ↔ 1 ≤ c.drainingOpen

/-- The half of the law of drains that holds within an event too. -/
def DrainHalf (c : CommitUnit) : Prop := 1 ≤ c.drainingOpen → c.drainingBank.isSome = true

theorem drainOf_swapped (c : CommitUnit) (f : BankNum) : DrainOf (c.swapped f) := by
  unfold DrainOf
  simp only [CommitUnit.swapped]
  split_ifs <;> simp_all
  omega

theorem DrainMove.drainOf (m : DrainMove c c') (h : DrainHalf c) : DrainOf c' := by
  cases m with
  | notDue going =>
    refine ⟨fun hs => ?_, h⟩
    obtain ⟨b, hb⟩ := Option.isSome_iff_exists.mp hs
    exact Nat.one_le_iff_ne_zero.mpr (going b hb)
  | freed _ empty _ => simp [DrainOf, empty]
  | swapped => exact drainOf_swapped _ _

theorem CommitMove.drains (m : CommitMove c c') :
    c'.drainingBank = c.drainingBank ∧ c'.drainingOpen = c.drainingOpen := by
  cases m <;> exact ⟨rfl, rfl⟩

/-- A release takes nothing but an open count down. -/
theorem MovesSlot.drains {r : Bool} (m : MovesSlot i r x u) :
    u.commit.drainingOpen ≤ x.commit.drainingOpen ∧ (r = false → u.commit = x.commit) := by
  have counts : ∀ g, (released g x.commit).drainingOpen ≤ x.commit.drainingOpen := by
    intro g
    unfold released
    split_ifs <;> simp
  have key : ∀ {o z o' z' c'}, SlotMove x.commit r o z o' z' c' →
      c'.drainingOpen ≤ x.commit.drainingOpen ∧ (r = false → c' = x.commit) := by
    intro o z o' z' c' h
    cases h with
    | goesOn | staysStale | freed => exact ⟨le_refl _, fun _ => rfl⟩
    | closes | becomesStale => exact ⟨counts _, fun h => nomatch h⟩
  exact key m.move

theorem work_drain (h : Work s d t) (hs : DrainOf s.commit) :
    DrainHalf t.commit ∧ (d = false → DrainOf t.commit) := by
  have whole : ∀ {c}, DrainOf c → ∀ {d : Bool}, DrainHalf c ∧ (d = false → DrainOf c) :=
    fun h => ⟨h.mpr, fun _ => h⟩
  have same : ∀ {c c' : CommitUnit} {d : Bool}, c'.drainingBank = c.drainingBank →
      c'.drainingOpen = c.drainingOpen → DrainHalf c ∧ (d = false → DrainOf c) →
      DrainHalf c' ∧ (d = false → DrainOf c') := by
    intro c c' d hb ho h
    unfold DrainHalf DrainOf
    rw [hb, ho]
    exact h
  induction h with
  | start => exact whole hs
  | drainLater _ ih => exact ⟨ih.1, fun h => nomatch h⟩
  | still _ m ih => rw [m.commit]; exact ih
  | time n _ ih => exact same (by rfl) (by rfl) ih
  | slot _ m ih => rw [m.drains.2 rfl]; exact ih
  | release _ m ih =>
    refine ⟨fun ho => ?_, fun h => nomatch h⟩
    rw [m.sameRoles.drainingBank]
    exact ih.1 (le_trans ho m.drains.1)
  | allocate _ m ih => rw [m.commit]; exact same rfl rfl ih
  | stage _ m ih => rw [m.commit]; exact ih
  | commit _ _ m ih => exact same m.drains.1 m.drains.2 ih
  | drain _ _ m ih => exact whole (m.drainOf ih.1)
  | warm _ m _ =>
    rw [m.commit]
    exact whole (by simp [DrainOf, CommitUnit.warm])

theorem Ordered.drainOf (m : Ordered c c') (h : DrainOf c) : DrainOf c' := by
  cases m with
  | held => exact h
  | swapped => exact drainOf_swapped _ _

end Sys2Proof.Proofs
end

