-- ==== Sys2Proof/Proofs/GenerationLaws.lean ====
section
/-! PROOFS. The law of open counts and the law of Target ranges along an event's work (R15, R51, R117), and the entries
of LIVE and DRAINING banks (R4). -/

namespace Sys2Proof.Proofs

open Sys2Proof.Machine Sys2Proof.Safety Sys2Proof.Claims Sys2Proof.Laws

variable {s x u t : State} {d : Bool} {i : SlotNum} {c c' : CommitUnit} {g : Generation}

/-! ## Counting slots -/

/-- The number of slots of a kind after a move of one slot. -/
theorem countSlots_of_slot {f : Slot → Bool} (h : ∀ j, j ≠ i → pick u.ort j = pick x.ort j) :
    countSlots f u + (if f (pick x.ort i) then 1 else 0) = countSlots f x + (if f (pick u.ort i) then 1 else 0) := by
  have hperm := List.perm_cons_erase (List.mem_finRange i)
  have hrest : ((List.finRange 128).erase i).countP (fun j => f (pick u.ort j)) =
      ((List.finRange 128).erase i).countP (fun j => f (pick x.ort j)) := by
    refine List.countP_congr fun j hj => ?_
    rw [h j ((List.nodup_finRange 128).mem_erase_iff.mp hj).1]
  unfold countSlots
  rw [hperm.countP_eq, hperm.countP_eq, List.countP_cons, List.countP_cons, hrest]
  omega

theorem countSlots_of_ort {f : Slot → Bool} (h : u.ort = x.ort) : countSlots f u = countSlots f x := by
  unfold countSlots
  rw [h]

theorem openOfGeneration_of_free (h : ∀ i, (pick u.ort i).occ = .free) : openOfGeneration u g = 0 := by
  refine List.countP_eq_zero.mpr fun i _ => ?_
  simp [Slot.openWith, h i]

theorem openOfGeneration_pos {v : Tracked} (hv : v ∈ openAt x i) : 1 ≤ openOfGeneration x v.generation := by
  refine List.countP_pos_iff.mpr ⟨i, List.mem_finRange i, ?_⟩
  simp [Slot.openWith, openAt_eq_some.mp hv]

theorem openOfGeneration_eq_zero (h : ∀ i, ∀ v ∈ openAt x i, v.generation ≠ g) : openOfGeneration x g = 0 := by
  refine List.countP_eq_zero.mpr fun i _ => ?_
  cases ho : (pick x.ort i).occ with
  | opened v => simpa [Slot.openWith, ho] using h i v (openAt_eq_some.mpr ho)
  | free | stale => simp [Slot.openWith, ho]

/-- A slot that goes on, or was not OPEN, leaves the numbers of OPEN slots as they are. -/
theorem MovesSlot.openOfGeneration (m : MovesSlot i false x u) (g : Generation) :
    openOfGeneration u g = openOfGeneration x g := by
  have count := countSlots_of_slot (f := Slot.openWith fun t => t.generation = g) m.slots
  have key : ∀ {o z o' z' c'}, SlotMove x.commit false o z o' z' c' → ∀ n n', Slot.openWith
      (fun t => t.generation = g) ⟨n', o'⟩ = Slot.openWith (fun t => t.generation = g) ⟨n, o⟩ := by
    intro o z o' z' c' h n n'
    cases h with
    | goesOn same _ => simp [Slot.openWith, same.generation]
    | staysStale | freed => rfl
  rw [key m.move (pick x.ort i).incarnation (pick u.ort i).incarnation] at count
  exact Nat.add_right_cancel count

/-- A slot that leaves OPEN takes one from the number of OPEN slots of its generation, whose hold is released. -/
theorem MovesSlot.released (m : MovesSlot i true x u) :
    ∃ v ∈ openAt x i, u.commit = released v.generation x.commit ∧
      ∀ g, Safety.openOfGeneration u g + (if v.generation = g then 1 else 0) = Safety.openOfGeneration x g := by
  have key : ∀ {o z o' z' c'}, SlotMove x.commit true o z o' z' c' →
      ∃ v, o = .opened v ∧ c' = Claims.released v.generation x.commit ∧
        ∀ f n, Slot.openWith f ⟨n, o'⟩ = false := by
    intro o z o' z' c' h
    cases h with
    | closes | becomesStale => exact ⟨_, rfl, rfl, fun _ _ => rfl⟩
  obtain ⟨v, hv, hc, hleft⟩ := key m.move
  refine ⟨v, openAt_eq_some.mpr hv, hc, fun g => ?_⟩
  have count := countSlots_of_slot (f := Slot.openWith fun t => t.generation = g) m.slots
  rw [hleft _ (pick u.ort i).incarnation] at count
  simpa [Safety.openOfGeneration, Slot.openWith, hv] using count

theorem Allocates.openOfGeneration {q : Request} {ps : List GrantedPiece} (m : Allocates i q ps x u) (g : Generation) :
    openOfGeneration u g = openOfGeneration x g + (if x.commit.liveGeneration = g then 1 else 0) := by
  have count := countSlots_of_slot (f := Slot.openWith fun t => t.generation = g) m.slots
  simpa [Safety.openOfGeneration, Slot.openWith, m.free, m.opened, newRecord] using count

/-! ## Open counts (R51, R117) -/

theorem pred_ne (g : Generation) : g - 1 ≠ g := by bv_omega

/-- The law of generations in the draining bank's presence. -/
structure GenerationOf (x : State) : Prop where
  named : ∀ i, ∀ v ∈ openAt x i, v.generation = x.commit.liveGeneration ∨
    x.commit.drainingBank.isSome = true ∧ v.generation = x.commit.liveGeneration - 1
  live : x.commit.liveOpen = openOfGeneration x x.commit.liveGeneration
  draining : x.commit.drainingBank.isSome = true →
    x.commit.drainingOpen = openOfGeneration x (x.commit.liveGeneration - 1)
  none : x.commit.drainingBank.isSome = false → x.commit.drainingOpen = 0

theorem generationLaw_iff (x : State) : GenerationLaw x ↔ GenerationOf x := by
  constructor
  · rintro ⟨hn, hl, hd⟩
    refine ⟨fun i v hv => (hn i v hv).imp_right (drainingGeneration_eq_some _ _).mp, hl, fun h => ?_, fun h => ?_⟩
    · rwa [if_pos h] at hd
    · rwa [if_neg (by simp [h])] at hd
  · rintro ⟨hn, hl, hd, h0⟩
    refine ⟨fun i v hv => (hn i v hv).imp_right (drainingGeneration_eq_some _ _).mpr, hl, ?_⟩
    split
    · exact hd ‹_›
    · exact h0 (Bool.not_eq_true _ ▸ ‹_›)

/-- The records agree in what the law of generations speaks of. -/
structure SameCounts (c c' : CommitUnit) : Prop where
  liveGeneration : c'.liveGeneration = c.liveGeneration
  drainingBank : c'.drainingBank = c.drainingBank
  liveOpen : c'.liveOpen = c.liveOpen
  drainingOpen : c'.drainingOpen = c.drainingOpen

theorem sameCounts_of_eq (h : c' = c) : SameCounts c c' := by
  rw [h]
  exact ⟨rfl, rfl, rfl, rfl⟩

theorem CommitMove.sameCounts (m : CommitMove c c') : SameCounts c c' := by
  cases m <;> exact ⟨rfl, rfl, rfl, rfl⟩

theorem generationOf_congr (hx : GenerationOf x) (goOn : OpenFrom x u)
    (count : ∀ g, openOfGeneration u g = openOfGeneration x g) (hc : SameCounts x.commit u.commit) :
    GenerationOf u := by
  obtain ⟨hn, hlive, hdrain, hnone⟩ := hx
  obtain ⟨hg, hb, hl, ho⟩ := hc
  constructor
  · intro i v hv
    obtain ⟨w, hw, same⟩ := goOn i v hv
    rw [hg, hb, same.generation]
    exact hn i w hw
  · rw [hl, hg, count, hlive]
  · rw [hb, ho, hg, count]
    exact hdrain
  · rw [hb, ho]
    exact hnone

theorem generationOf_of_ort (hx : GenerationOf x) (h : u.ort = x.ort) (hc : SameCounts x.commit u.commit) :
    GenerationOf u :=
  generationOf_congr hx (openFrom_of_ort h) (fun _ => countSlots_of_ort h) hc

theorem released_live (c : CommitUnit) : released c.liveGeneration c = { c with liveOpen := c.liveOpen - 1 } :=
  if_pos rfl

theorem released_draining (h : c.drainingBank.isSome = true) :
    released (c.liveGeneration - 1) c = { c with drainingOpen := c.drainingOpen - 1 } := by
  rw [released, if_neg (pred_ne _), if_pos ⟨h, rfl⟩]

theorem generationOf_release (hx : GenerationOf x) (m : MovesSlot i true x u) : GenerationOf u := by
  obtain ⟨v, hv, hc, count⟩ := m.released
  have hpred := pred_ne x.commit.liveGeneration
  have named : ∀ j, ∀ w ∈ openAt u j, w.generation = x.commit.liveGeneration ∨
      x.commit.drainingBank.isSome = true ∧ w.generation = x.commit.liveGeneration - 1 := by
    intro j w hw
    obtain ⟨w', hw', same⟩ := m.openFrom j w hw
    rw [same.generation]
    exact hx.named j w' hw'
  have hlive := count x.commit.liveGeneration
  have hdrain := count (x.commit.liveGeneration - 1)
  rw [← hx.live] at hlive
  rcases hx.named i v hv with hg | ⟨hb, hg⟩
  · rw [hg, if_pos rfl] at hlive
    rw [hg, if_neg hpred.symm] at hdrain
    rw [hg, released_live] at hc
    constructor <;> rw [hc]
    · exact named
    · exact (Nat.eq_sub_of_add_eq hlive).symm
    · exact fun h => (hx.draining h).trans hdrain.symm
    · exact hx.none
  · rw [hg, if_neg hpred] at hlive
    rw [hg, if_pos rfl, ← hx.draining hb] at hdrain
    rw [hg, released_draining hb] at hc
    constructor <;> rw [hc]
    · exact named
    · exact hlive.symm
    · exact fun _ => (Nat.eq_sub_of_add_eq hdrain).symm
    · exact fun h => absurd hb (by simp [h])

theorem generationOf_allocate {q : Request} {ps : List GrantedPiece} (hx : GenerationOf x) (m : Allocates i q ps x u) :
    GenerationOf u := by
  have roles := m.sameRoles
  have hpred := pred_ne x.commit.liveGeneration
  have count := m.openOfGeneration
  constructor
  · intro j w hw
    rw [roles.liveGeneration, roles.drainingBank]
    rcases m.openAt hw with ⟨rfl, rfl⟩ | ⟨-, hw⟩
    · exact .inl rfl
    · exact hx.named j w hw
  · rw [roles.liveGeneration, count, if_pos rfl, m.commit, ← hx.live]
  · intro hb
    rw [roles.drainingBank] at hb
    rw [roles.liveGeneration, count, if_neg hpred.symm, m.commit]
    exact hx.draining hb
  · intro hb
    rw [roles.drainingBank] at hb
    rw [m.commit]
    exact hx.none hb

/-- Without a hold of the draining generation every OPEN slot is of the live one. -/
theorem live_of_drained (hx : GenerationOf x) (h : x.commit.drainingBank.isSome = true → x.commit.drainingOpen = 0) :
    ∀ i, ∀ v ∈ openAt x i, v.generation = x.commit.liveGeneration := by
  intro i v hv
  rcases hx.named i v hv with hg | ⟨hd, hg⟩
  · exact hg
  · have := openOfGeneration_pos hv
    rw [hg, ← hx.draining hd, h hd] at this
    exact absurd this (by decide)

/-- The swap names the OPEN slots' generation, the live one till then, the draining one (R116, R119). -/
theorem generationOf_swapped {f : BankNum} (hx : GenerationOf x)
    (hlive : ∀ i, ∀ v ∈ openAt x i, v.generation = x.commit.liveGeneration) (h : u.ort = x.ort)
    (hc : u.commit = x.commit.swapped f) : GenerationOf u := by
  have back : x.commit.liveGeneration + 1 - 1 = x.commit.liveGeneration := by bv_omega
  have hlive' : ∀ i, ∀ v ∈ openAt u i, v.generation = x.commit.liveGeneration := by
    intro i v hv
    exact hlive i v (by rwa [openAt, ← h])
  have count : ∀ g, openOfGeneration u g = openOfGeneration x g := fun _ => countSlots_of_ort h
  constructor <;> rw [hc] <;> simp only [CommitUnit.swapped, back]
  · intro i v hv
    have hpos := openOfGeneration_pos hv
    rw [hlive' i v hv, count, ← hx.live] at hpos
    exact .inr ⟨by rw [if_pos (Nat.lt_of_succ_le hpos)]; rfl, hlive' i v hv⟩
  · refine (openOfGeneration_eq_zero fun i v hv => ?_).symm
    rw [hlive' i v hv]
    bv_omega
  · rw [count]
    exact fun _ => hx.live
  · intro hnone
    by_contra hpos
    rw [if_pos (Nat.pos_of_ne_zero hpos)] at hnone
    exact nomatch hnone

theorem generationOf_drain (hx : GenerationOf x) (k : SameSlots x u) (m : DrainMove x.commit u.commit) :
    GenerationOf u := by
  generalize hc : u.commit = c' at m
  cases m with
  | notDue => exact generationOf_of_ort hx k.ort (sameCounts_of_eq hc)
  | @freed b drains empty idle =>
    have hlive := live_of_drained hx fun _ => empty
    constructor <;> rw [hc]
    · intro i v hv
      exact .inl (hlive i v (by rwa [openAt, ← k.ort]))
    · exact hx.live.trans (countSlots_of_ort k.ort).symm
    · exact fun h => nomatch h
    · exact fun _ => empty
  | swapped drains empty held => exact generationOf_swapped hx (live_of_drained hx fun _ => empty) k.ort hc

theorem generationOf_ordered (hx : GenerationOf x) (k : SameSlots x u) (m : Ordered x.commit u.commit) :
    GenerationOf u := by
  generalize hc : u.commit = c' at m
  cases m with
  | held => exact generationOf_of_ort hx k.ort (by rw [hc]; exact ⟨rfl, rfl, rfl, rfl⟩)
  | swapped writable idle free =>
    exact generationOf_swapped hx (live_of_drained hx fun h => by simp [idle] at h) k.ort hc

/-- With no slot in use and no bank draining both counts are 0. -/
theorem generationOf_of_free (h : ∀ i, (pick u.ort i).occ = .free) (hb : u.commit.drainingBank = none)
    (hl : u.commit.liveOpen = 0) (ho : u.commit.drainingOpen = 0) : GenerationOf u where
  named i v hv := nomatch (h i).symm.trans (openAt_eq_some.mp hv)
  live := by rw [hl, openOfGeneration_of_free h]
  draining hs := by simp [hb] at hs
  none _ := ho

theorem work_generationOf (h : Work s d t) (hs : GenerationOf s) : GenerationOf t := by
  induction h with
  | start => exact hs
  | drainLater _ ih => exact ih
  | still _ m ih => exact generationOf_of_ort ih m.ort (sameCounts_of_eq m.commit)
  | time n _ ih => exact generationOf_of_ort ih rfl ⟨rfl, rfl, rfl, rfl⟩
  | slot _ m ih => exact generationOf_congr ih m.openFrom m.openOfGeneration (sameCounts_of_eq (m.drains.2 rfl))
  | release _ m ih => exact generationOf_release ih m
  | allocate _ m ih => exact generationOf_allocate ih m
  | stage _ m ih => exact generationOf_of_ort ih m.ort (sameCounts_of_eq m.commit)
  | commit _ k m ih => exact generationOf_of_ort ih k.ort m.sameCounts
  | drain _ k m ih => exact generationOf_drain ih k m
  | warm _ m _ =>
    exact generationOf_of_free m.slots (by rw [m.commit]; rfl) (by rw [m.commit]; rfl) (by rw [m.commit]; rfl)

theorem generationOf_reset (h : Still State.reset t) : GenerationOf t :=
  generationOf_of_free (fun i => (slot_of_reset h i).1) (by rw [h.commit]; rfl) (by rw [h.commit]; rfl)
    (by rw [h.commit]; rfl)

/-! ## Target ranges (R15) -/

/-- The records agree in what names the bank of a generation (R5). -/
structure SameBanks (c c' : CommitUnit) : Prop where
  liveBank : c'.liveBank = c.liveBank
  liveGeneration : c'.liveGeneration = c.liveGeneration
  drainingBank : c'.drainingBank = c.drainingBank

theorem SameRoles.sameBanks (h : SameRoles c c') : SameBanks c c' :=
  ⟨h.liveBank, h.liveGeneration, h.drainingBank⟩

theorem sameBanks_of_eq (h : c' = c) : SameBanks c c' := (sameRoles_of_eq h).sameBanks

theorem CommitMove.sameBanks (m : CommitMove c c') : SameBanks c c' := by
  cases m <;> exact ⟨rfl, rfl, rfl⟩

theorem bankOfGeneration_congr (h : SameBanks x.commit u.commit) (g : Generation) :
    bankOfGeneration u g = bankOfGeneration x g := by
  unfold bankOfGeneration CommitUnit.drainingGeneration
  rw [h.liveGeneration, h.liveBank, h.drainingBank]

theorem bankOfGeneration_live (x : State) : bankOfGeneration x x.commit.liveGeneration = some x.commit.liveBank :=
  if_pos rfl

/-- The bank of a generation is the LIVE one or the DRAINING one. -/
theorem bankOfGeneration_cases {b : BankNum} (h : bankOfGeneration x g = some b) :
    (g = x.commit.liveGeneration ∧ b = x.commit.liveBank) ∨ x.commit.drainingBank = some b := by
  unfold bankOfGeneration at h
  split_ifs at h with hg
  · exact .inl ⟨hg, (Option.some.inj h).symm⟩
  · exact .inr h

theorem bankOfGeneration_ne_staged {b : BankNum} (hr : RolesOf x.commit) (h : bankOfGeneration x g = some b) :
    b ≠ x.commit.stagedBank := by
  rcases bankOfGeneration_cases h with ⟨-, rfl⟩ | hd
  · exact hr.distinct
  · exact (hr.other b (.inl hd)).2

/-- A piece stays in its Target range while its slot goes on. -/
theorem SameWork.pieceInTarget {w : WindowEntry} {v v' : Tracked} {p : Piece} {z : PieceState} (h : SameWork v v')
    (hp : pieceInTarget w v p) : pieceInTarget w v' { p with state := z } := by
  unfold Safety.pieceInTarget
  rw [h.requester, h.kind, h.address]
  exact hp

/-- The law of Target ranges is kept when the OPEN slots stay on the banks and entries they had. -/
theorem targetLaw_congr (hx : TargetLaw x) (goOn : OpenFrom x u)
    (banks : ∀ i, ∀ v ∈ openAt x i, ∀ b ∈ bankOfGeneration u v.generation,
      bankOfGeneration x v.generation = some b ∧ bankOf u b = bankOf x b) : TargetLaw u := by
  intro i v hv b hb p hp
  obtain ⟨v', hv', same⟩ := goOn i v hv
  obtain ⟨p', hp', hstate⟩ := same.piece hp
  rw [same.generation] at hb
  obtain ⟨hb', hbank⟩ := banks i v' hv' b hb
  rw [hbank, hstate]
  exact same.pieceInTarget (hx i v' hv' b hb' p' hp')

theorem targetLaw_of_sameBanks (hx : TargetLaw x) (goOn : OpenFrom x u) (hb : u.banks = x.banks)
    (hr : SameBanks x.commit u.commit) : TargetLaw u :=
  targetLaw_congr hx goOn fun _ v _ b h =>
    ⟨(bankOfGeneration_congr hr v.generation).symm.trans h, congrArg (pick · b) hb⟩

theorem targetLaw_of_stages (hx : TargetLaw x) (hr : RolesOf x.commit) (m : Stages x u) : TargetLaw u := by
  refine targetLaw_congr hx (openFrom_of_ort m.ort) fun _ v _ b h => ?_
  have h' : bankOfGeneration x v.generation = some b :=
    (bankOfGeneration_congr (sameBanks_of_eq m.commit) v.generation).symm.trans h
  exact ⟨h', m.banks b (bankOfGeneration_ne_staged hr h')⟩

/-- A granted piece lies in its Target range when its slot is allocated. -/
theorem newRecord_inTarget {q : Request} {ps : List GrantedPiece} (hw : WindowLaw x) (hq : formGood q)
    (hk : q.kind ≠ .pwreq) (hc : windowCheck x q = .granted ps x.commit.liveGeneration) {p : Piece}
    (hp : p ∈ (newRecord x q ps x.commit.liveGeneration).pieces) :
    pieceInTarget (pick (liveBank x) p.window) (newRecord x q ps x.commit.liveGeneration) p := by
  obtain ⟨a, ha, rfl⟩ := List.mem_map.mp hp
  obtain ⟨-, -, hgo⟩ := granted_piece hw hq hc ha
  have hkind := hgo.grants
  refine ⟨hgo.valid, hgo.serves, ?_, hgo.base, hgo.limit, hgo.address, hgo.inTarget⟩
  simp only [newRecord]
  cases hkq : q.kind with
  | rdreq | wrreq =>
    rw [hkq] at hkind
    exact hkind
  | pwreq => exact absurd hkq hk

theorem targetLaw_of_allocates {q : Request} {ps : List GrantedPiece} (hx : TargetLaw x) (hw : WindowLaw x)
    (m : Allocates i q ps x u) : TargetLaw u := by
  intro j v hv b hb p hp
  rw [Option.mem_def, bankOfGeneration_congr m.sameRoles.sameBanks] at hb
  rw [show bankOf u b = bankOf x b from congrArg (pick · b) m.banks]
  rcases m.openAt hv with ⟨rfl, rfl⟩ | ⟨-, hv⟩
  · obtain rfl : x.commit.liveBank = b := Option.some.inj ((bankOfGeneration_live x).symm.trans hb)
    exact newRecord_inTarget hw m.form m.nonPosted m.granted hp
  · exact hx j v hv b hb p hp

/-- A swap leaves the OPEN slots, of the live generation till then, on the bank that leaves LIVE (R5, R119). -/
theorem targetLaw_of_swapped {f : BankNum} (hx : TargetLaw x)
    (hlive : ∀ i, ∀ v ∈ openAt x i, v.generation = x.commit.liveGeneration) (k : SameSlots x u)
    (hc : u.commit = x.commit.swapped f) : TargetLaw u := by
  refine targetLaw_congr hx (openFrom_of_ort k.ort) fun i v hv b h => ⟨?_, congrArg (pick · b) k.banks⟩
  rw [hlive i v hv] at h ⊢
  rw [bankOfGeneration_live]
  rcases bankOfGeneration_cases h with ⟨hg, -⟩ | hd
  · rw [hc] at hg
    exact absurd hg (by simp only [CommitUnit.swapped]; bv_omega)
  · rw [hc] at hd
    simp only [CommitUnit.swapped] at hd
    split_ifs at hd
    exact hd

theorem targetLaw_of_drain (hx : TargetLaw x) (hg : GenerationOf x) (k : SameSlots x u)
    (m : DrainMove x.commit u.commit) : TargetLaw u := by
  generalize hc : u.commit = c' at m
  cases m with
  | notDue => exact targetLaw_of_sameBanks hx (openFrom_of_ort k.ort) k.banks (sameBanks_of_eq hc)
  | freed drains empty idle =>
    refine targetLaw_congr hx (openFrom_of_ort k.ort) fun i v hv b h => ⟨?_, congrArg (pick · b) k.banks⟩
    rw [live_of_drained hg (fun _ => empty) i v hv] at h ⊢
    rw [bankOfGeneration_live]
    rcases bankOfGeneration_cases h with ⟨-, rfl⟩ | hd
    · rw [hc]
    · rw [hc] at hd
      exact nomatch hd
  | swapped drains empty held => exact targetLaw_of_swapped hx (live_of_drained hg fun _ => empty) k hc

theorem targetLaw_of_ordered (hx : TargetLaw x) (hg : GenerationOf x) (k : SameSlots x u)
    (m : Ordered x.commit u.commit) : TargetLaw u := by
  generalize hc : u.commit = c' at m
  cases m with
  | held =>
    exact targetLaw_of_sameBanks hx (openFrom_of_ort k.ort) k.banks (by rw [hc]; exact ⟨rfl, rfl, rfl⟩)
  | swapped writable idle free =>
    exact targetLaw_of_swapped hx (live_of_drained hg fun h => by simp [idle] at h) k hc

theorem targetLaw_of_free (h : ∀ i, (pick u.ort i).occ = .free) : TargetLaw u := by
  intro i v hv
  exact nomatch (h i).symm.trans (openAt_eq_some.mp hv)

theorem work_targetLaw (h : Work s d t) (hw : WindowLaw s) (hr : RolesOf s.commit) (hg : GenerationOf s)
    (hs : TargetLaw s) : TargetLaw t := by
  induction h with
  | start => exact hs
  | drainLater _ ih => exact ih
  | still _ m ih => exact targetLaw_of_sameBanks ih (openFrom_of_ort m.ort) m.banks (sameBanks_of_eq m.commit)
  | time n _ ih => exact targetLaw_of_sameBanks ih (openFrom_of_ort rfl) rfl (sameRoles_passTime n _).sameBanks
  | slot _ m ih => exact targetLaw_of_sameBanks ih m.openFrom m.banks m.sameRoles.sameBanks
  | release _ m ih => exact targetLaw_of_sameBanks ih m.openFrom m.banks m.sameRoles.sameBanks
  | allocate h m ih => exact targetLaw_of_allocates ih (work_windowLaw h hw) m
  | stage h m ih => exact targetLaw_of_stages ih (work_rolesOf h hr) m
  | commit _ k m ih => exact targetLaw_of_sameBanks ih (openFrom_of_ort k.ort) k.banks m.sameBanks
  | drain h k m ih => exact targetLaw_of_drain ih (work_generationOf h hg) k m
  | warm _ m _ => exact targetLaw_of_free m.slots

/-- The laws that the law of Target ranges rests on are kept with it. -/
theorem targetLaw_kept :
    Kept fun s => WindowLaw s ∧ RolesLaw s ∧ GenerationLaw s ∧ DrainLaw s ∧ TargetLaw s := by
  have whole : ∀ t, WindowLaw t → RolesOf t.commit → GenerationOf t → DrainOf t.commit → TargetLaw t →
      WindowLaw t ∧ RolesLaw t ∧ GenerationLaw t ∧ DrainLaw t ∧ TargetLaw t := fun t hw hr hg hd ht =>
    ⟨hw, (rolesLaw_iff t).mpr hr, (generationLaw_iff t).mpr hg, hd, ht⟩
  refine kept_of ?_ ?_ ?_
  · rintro s t h ⟨hw, hr, hg, hd, ht⟩
    rw [rolesLaw_iff] at hr
    rw [generationLaw_iff] at hg
    exact whole t (work_windowLaw h hw) (work_rolesOf h hr) (work_generationOf h hg) ((work_drain h hd).2 rfl)
      (work_targetLaw h hw hr hg ht)
  · rintro s t k m ⟨hw, hr, hg, hd, ht⟩
    rw [rolesLaw_iff] at hr
    rw [generationLaw_iff] at hg
    exact whole t (windowLaw_of_banks k.banks hw) (m.rolesOf hr) (generationOf_ordered hg k m) (m.drainOf hd)
      (targetLaw_of_ordered ht hg k m)
  · intro t h
    exact whole t (windowLaw_of_reset h) (by rw [h.commit]; exact rolesOf_reset) (generationOf_reset h)
      (by rw [h.commit]; simp [DrainOf, State.reset, coldCommit]) (targetLaw_of_free fun i => (slot_of_reset h i).1)

/-! ## The entries of LIVE and DRAINING banks (R4) -/

/-- Where the LIVE and the DRAINING bank of `s` stand in the course of an event: in their roles with their entries, but
for a drain that has ended, or, when a held commit has swapped, the one not STAGED and with its entries, the other no
longer DRAINING, and no second swap to come. -/
inductive BanksStand (s x : State) : Prop
  | before (live : x.commit.liveBank = s.commit.liveBank) (staged : x.commit.stagedBank = s.commit.stagedBank)
      (draining : x.commit.drainingBank = s.commit.drainingBank ∨ x.commit.drainingBank = none)
      (entries : ∀ b, b ≠ s.commit.stagedBank → pick x.banks b = pick s.banks b)
  | after (idle : x.commit.heldCommit = false) (staged : x.commit.stagedBank ≠ s.commit.liveBank)
      (draining : ∀ b, s.commit.drainingBank = some b → x.commit.drainingBank ≠ some b)
      (entries : pick x.banks s.commit.liveBank = pick s.banks s.commit.liveBank)

theorem banksStand_of_sameRoles (h : BanksStand s x) (hb : u.banks = x.banks) (hr : SameRoles x.commit u.commit) :
    BanksStand s u := by
  cases h with
  | before live staged draining entries =>
    refine .before (hr.liveBank.trans live) (hr.stagedBank.trans staged) ?_ (by rw [hb]; exact entries)
    rw [hr.drainingBank]
    exact draining
  | after idle staged draining entries =>
    refine .after (hr.heldCommit.trans idle) (by rw [hr.stagedBank]; exact staged) ?_ (by rw [hb]; exact entries)
    rw [hr.drainingBank]
    exact draining

theorem banksStand_of_stages (h : BanksStand s x) (m : Stages x u) : BanksStand s u := by
  cases h with
  | before live staged draining entries =>
    refine .before (by rw [m.commit]; exact live) (by rw [m.commit]; exact staged) (by rw [m.commit]; exact draining) ?_
    intro b hb
    rw [m.banks b (by rwa [staged]), entries b hb]
  | after idle staged draining entries =>
    refine .after (by rw [m.commit]; exact idle) (by rw [m.commit]; exact staged) (by rw [m.commit]; exact draining) ?_
    rw [m.banks _ staged.symm, entries]

theorem banksStand_of_commit (h : BanksStand s x) (k : SameSlots x u) (m : CommitMove x.commit u.commit) :
    BanksStand s u := by
  obtain ⟨hs, hh⟩ : u.commit.stagedBank = x.commit.stagedBank ∧
      (x.commit.heldCommit = false → u.commit.heldCommit = false) := by
    generalize u.commit = c' at m
    cases m <;> simp
  obtain ⟨hl, -, hd⟩ := m.sameBanks
  cases h with
  | before live staged draining entries =>
    exact .before (hl.trans live) (hs.trans staged) (by rw [hd]; exact draining) (by rw [k.banks]; exact entries)
  | after idle staged draining entries =>
    exact .after (hh idle) (by rw [hs]; exact staged) (by rw [hd]; exact draining) (by rw [k.banks]; exact entries)

/-- The one swap within an event is that of a held commit at the drain end: the bank that was DRAINING becomes STAGED,
the bank that was LIVE leaves LIVE and is not written. -/
theorem banksStand_of_drain (hr : RolesOf s.commit) (h : BanksStand s x) (k : SameSlots x u)
    (m : DrainMove x.commit u.commit) : BanksStand s u := by
  generalize hc : u.commit = c' at m
  cases h with
  | before live staged draining entries =>
    cases m with
    | notDue => exact banksStand_of_sameRoles (.before live staged draining entries) k.banks (sameRoles_of_eq hc)
    | freed =>
      exact .before (by rw [hc]; exact live) (by rw [hc]; exact staged) (.inr (by rw [hc]))
        (by rw [k.banks]; exact entries)
    | @swapped b drains empty held =>
      have hb : s.commit.drainingBank = some b :=
        draining.elim (fun e => e.symm.trans drains) fun e => nomatch e.symm.trans drains
      have hne := (hr.other b (.inl hb)).1
      refine .after (by rw [hc]; rfl) (by rw [hc]; exact hne) ?_ (by rw [k.banks]; exact entries _ hr.distinct)
      intro b' hb' hu
      rw [hc] at hu
      simp only [CommitUnit.swapped] at hu
      split_ifs at hu
      obtain rfl : b = b' := Option.some.inj (hb.symm.trans hb')
      exact hne ((Option.some.inj hu).symm.trans live)
  | after idle staged draining entries =>
    cases m with
    | notDue => exact banksStand_of_sameRoles (.after idle staged draining entries) k.banks (sameRoles_of_eq hc)
    | freed =>
      exact .after (by rw [hc]; exact idle) (by rw [hc]; exact staged) (by rw [hc]; exact fun _ _ h => nomatch h)
        (by rw [k.banks]; exact entries)
    | swapped drains empty held => exact absurd held (by simp [idle])

theorem banksStand_of_warm (h : BanksStand s x) (m : WarmMove x u) : BanksStand s u := by
  have hc := m.commit
  cases h with
  | before live staged draining entries =>
    exact .before (by rw [hc]; exact live) (by rw [hc]; exact staged) (.inr (by rw [hc]; rfl))
      (by rw [m.banks]; exact entries)
  | after idle staged draining entries =>
    exact .after (by rw [hc]; rfl) (by rw [hc]; exact staged) (by rw [hc]; exact fun _ _ h => nomatch h)
      (by rw [m.banks]; exact entries)

theorem work_banksStand (h : Work s d t) (hr : RolesOf s.commit) : BanksStand s t := by
  induction h with
  | start => exact .before rfl rfl (.inl rfl) fun _ _ => rfl
  | drainLater _ ih => exact ih
  | still _ m ih => exact banksStand_of_sameRoles ih m.banks (sameRoles_of_eq m.commit)
  | time n _ ih => exact banksStand_of_sameRoles ih rfl (sameRoles_passTime n _)
  | slot _ m ih => exact banksStand_of_sameRoles ih m.banks m.sameRoles
  | release _ m ih => exact banksStand_of_sameRoles ih m.banks m.sameRoles
  | allocate _ m ih => exact banksStand_of_sameRoles ih m.banks m.sameRoles
  | stage _ m ih => exact banksStand_of_stages ih m
  | commit _ k m ih => exact banksStand_of_commit ih k m
  | drain _ k m ih => exact banksStand_of_drain hr ih k m
  | warm _ m ih => exact banksStand_of_warm ih m

/-- No command but a cold reset writes the LIVE bank, nor a bank that is DRAINING and goes on DRAINING (R4). -/
theorem entries_kept {c : Instr} (hr : RolesLaw s) (h : exec c s = .next t)
    (hc : ∀ x h, c ≠ .resetNAssert ∧ c ≠ .powerUp x h) :
    pick t.banks s.commit.liveBank = pick s.banks s.commit.liveBank ∧
      ∀ b, s.commit.drainingBank = some b → t.commit.drainingBank = some b → pick t.banks b = pick s.banks b := by
  rw [rolesLaw_iff] at hr
  rcases exec_does h with hw | ⟨hk, -⟩ | ⟨hcold, -⟩
  · cases work_banksStand hw hr with
    | before live staged draining entries =>
      exact ⟨entries _ hr.distinct, fun b hb _ => entries b (hr.other b (.inl hb)).2⟩
    | after idle staged draining entries => exact ⟨entries, fun b hb ht => absurd ht (draining b hb)⟩
  · rw [hk.banks]
    exact ⟨rfl, fun _ _ _ => rfl⟩
  · rcases hcold with rfl | ⟨a, b, rfl⟩
    · exact absurd rfl (hc ⟨0, false⟩ false).1
    · exact absurd rfl (hc a b).2

/-- Settles O53: each law is kept by the moves that every event's work is made of, by an OK COMMIT and by a cold reset;
the entries of the LIVE and the DRAINING bank stand in every such move. -/
theorem slotLawsAreKept : Obligations.SlotLawsAreKept :=
  ⟨⟨windowLaw_kept, slotLaw_kept⟩, ⟨tagLaw_kept, timerLaw_kept⟩, targetLaw_kept,
    fun _ _ _ hr h hc => entries_kept hr h hc⟩

end Sys2Proof.Proofs
end

