-- ==== Sys2Proof/Proofs/IdleWork.lean ====
section
/-! PROOFS. The part's own work on an empty queue (R89, R101, log entry 2): which events are due, in what order they
are taken, and what one µs changes. -/

namespace Sys2Proof.Proofs

open Sys2Proof.Machine Sys2Proof.Safety Sys2Proof.Claims Sys2Proof.Laws

variable {s : State}

/-! ## Timed events -/

/-- The command of a timed event is due when the event's time has passed. -/
theorem isDue_command (e : TimedEvent) (s : State) : isDue e.command s = (e.left s == some 0) := by
  cases e with
  | fillStep =>
    simp only [TimedEvent.command, isDue, TimedEvent.left]
    cases s.commit.fillStepDue <;> split_ifs <;> simp_all
  | fillCompletion =>
    simp only [TimedEvent.command, isDue, TimedEvent.left]
    split_ifs <;> simp_all
  | deadline i =>
    simp only [TimedEvent.command, isDue, TimedEvent.left, deadlineLeft]
    cases openAt s i <;> cases pick s.timers i <;> simp
  | reclaim i =>
    simp only [TimedEvent.command, isDue, TimedEvent.left, reclaimLeft]
    cases staleAt s i <;> cases pick s.timers i <;> simp
  | resend =>
    simp only [TimedEvent.command, isDue, TimedEvent.left]
    split_ifs <;> simp_all
  | lease =>
    simp only [TimedEvent.command, isDue, TimedEvent.left]
    cases s.mgmt.lease <;> simp
  | training p =>
    simp only [TimedEvent.command, isDue, TimedEvent.left]
    split_ifs <;> simp_all
  | holdOff p =>
    simp only [TimedEvent.command, isDue, TimedEvent.left]
    split_ifs <;> simp_all

theorem timedCommands_eq :
    timedCommands = (fillEvents ++ (List.finRange 128).map TimedEvent.deadline
      ++ (List.finRange 128).map TimedEvent.reclaim ++ unitEvents).map TimedEvent.command := by
  simp only [List.map_append, List.map_map]
  rfl

theorem timers_zipIdx (s : State) :
    s.timers.toList.zipIdx = (List.finRange 128).map fun i => (pick s.timers i, i.val) := by
  apply List.ext_getElem <;> simp [pick, Vector.get_eq_getElem]

theorem slotEvents_eq (event : SlotNum → TimedEvent) (x : SlotTimer) (s : State) :
    slotEvents event x s = ((List.finRange 128).filter fun i => pick s.timers i = x).map event := by
  rw [slotEvents, timers_zipIdx, List.filterMap_map, ← List.filterMap_eq_map, List.filterMap_filter]
  refine List.filterMap_congr fun i _ => ?_
  simp

/-- Searching the slots whose timers stand at `x` for a due event finds what searching all slots finds. -/
theorem find?_slotEvents {event : SlotNum → TimedEvent} {x : SlotTimer}
    (h : ∀ i, (event i).left s = some 0 → pick s.timers i = x) :
    (slotEvents event x s).find? (fun e => e.left s == some 0) =
      ((List.finRange 128).map event).find? fun e => e.left s == some 0 := by
  rw [slotEvents_eq, List.find?_map, List.find?_map, List.find?_filter]
  congr 2
  funext i
  by_cases hd : (event i).left s = some 0
  · simp [hd, h i hd]
  · simp [hd]

theorem timer_of_deadline_due {i : SlotNum} (h : (TimedEvent.deadline i).left s = some 0) :
    pick s.timers i = .deadline 0 := by
  simp only [TimedEvent.left, deadlineLeft] at h
  split at h <;> simp_all

theorem timer_of_reclaim_due {i : SlotNum} (h : (TimedEvent.reclaim i).left s = some 0) :
    pick s.timers i = .reclaim 0 := by
  simp only [TimedEvent.left, reclaimLeft] at h
  split at h <;> simp_all

theorem dueTimed_eq (s : State) : dueTimed s = (timedCommands.filter fun c => isDue c s).head? := by
  rw [timedCommands_eq, List.head?_filter, List.find?_map]
  simp only [dueTimed, Function.comp_def, isDue_command, List.find?_append,
    find?_slotEvents fun _ => timer_of_deadline_due, find?_slotEvents fun _ => timer_of_reclaim_due]

/-! ## The other due events -/

/-- The rows of `commandRows` are the commands in their order, each with its own code and taking. -/
theorem commandRows_commands : commandRows.map CommandRow.command = Command.all := rfl

theorem commandRows_fields : ∀ r ∈ commandRows, r.code = r.command.code ∧ r.taking = r.command.taking := by
  simp [commandRows, Command.code, Command.taking]

/-- The opcode row that takes a command is that of the command its code names (R168, R193). -/
theorem takingOf_eq (code : Byte) :
    takingOf code = ((Command.ofCode code).map Command.taking).getD .unknownCommand := by
  have named : Command.ofCode code = (commandRows.find? fun r => r.code == code).map CommandRow.command := by
    rw [Command.ofCode, ← commandRows_commands, List.find?_map]
    refine congrArg _ (List.find?_congr fun r hr => ?_)
    rw [(commandRows_fields r hr).1]
    rfl
  rw [named, takingOf]
  cases hr : commandRows.find? fun r => r.code == code with
  | none => rfl
  | some r => exact (commandRows_fields r (List.mem_of_find?_eq_some hr)).2

theorem dueCommand_eq (s : State) :
    dueCommand s = ((s.mgmt.queue.take 1).map fun c => takingOf c.command).head? := by
  unfold dueCommand
  cases s.mgmt.queue with
  | nil => rfl
  | cons c rest => exact congrArg some (takingOf_eq c.command).symm

theorem dueAtHead_eq (s : State) : dueAtHead s = (headWork s).head? := by
  unfold dueAtHead headWork
  rcases s.intake.queue with _ | ⟨_ | _, _⟩
  · rfl
  · cases s.intake.examDue <;> rfl
  · rfl

theorem dueDrain_eq (s : State) : dueDrain s = (if drainEnded s then [Instr.drainEnd] else []).head? := by
  simp only [dueDrain, drainDue, drainEnded, Bool.and_eq_true, beq_iff_eq]
  split_ifs <;> rfl

theorem duePeer_eq (p : PortId) (s : State) :
    duePeer p s = (if peerPresent p s then [Instr.peerDetect p] else []).head? := by
  unfold duePeer
  dsimp only
  split_ifs <;> rfl

theorem dueGrant_eq (s : State) :
    dueGrant s =
      (if s.issue.sendPathBusy = false ∧ (chooseFifo s).isSome = true then [Instr.grant] else []).head? := by
  simp only [dueGrant, Bool.and_eq_true, Bool.not_eq_true']
  split_ifs <;> rfl

/-- The event taken is the first of the due work (log entry 2). -/
theorem nextDue_eq_head (s : State) : nextDue s = (dueWork s).head? := by
  simp only [nextDue, dueWork, List.head?_append, Option.or_assoc, Option.orElse_eq_orElse, Option.orElse_eq_or,
    dueDrain_eq, dueTimed_eq, duePeer_eq, dueCommand_eq, dueAtHead_eq, dueGrant_eq]

/-! ## The step on an empty queue -/

theorem sendOldest_eq (x : Port) : x.sendOldest = portSent x := by
  obtain ⟨link, training, holdOff, signal, _ | ⟨k, rest⟩, sent⟩ := x
  · simp [Port.sendOldest, portSent]
  · rfl

theorem oldestIsPiece_eq (x : Port) : oldestIsPiece x = x.tx.head?.any OutPacket.isPiece := by
  unfold oldestIsPiece
  cases x.tx <;> rfl

theorem canTransmit_iff (s : State) : canTransmit s = true ↔ s.up.tx ≠ [] ∨ s.down.tx ≠ [] := by
  simp [canTransmit]

theorem step_of_empty (h : s.pending = []) : step s = idle s := by
  rw [step, h]

theorem idle_of_held (h : s.resetHeld = true) : idle s = .next s := if_pos h

theorem idle_of_packet (hr : Running s) (h : canTransmit s = true) : idle s = .next (transmit s) := by
  simp [idle, hr, h]

theorem idle_of_due {c : Instr} (hr : Running s) (ht : canTransmit s = false) (h : nextDue s = some c) :
    idle s = exec c s := by
  simp [idle, hr, ht, h]

theorem idle_of_quiet (hr : Running s) (ht : canTransmit s = false) (h : nextDue s = none) :
    idle s = .next (tick s) := by
  simp [idle, hr, ht, h]

/-- Settles O2, from the order of the due events and the branches of the step on an empty queue. -/
theorem idlePartDoesItsOwnWork : Obligations.IdlePartDoesItsOwnWork := by
  refine ⟨nextDue_eq_head, fun s hp => ?_⟩
  rw [step_of_empty hp]
  have silent : s.up.tx = [] → s.down.tx = [] → canTransmit s = false := fun hu hd => by
    simp [canTransmit, hu, hd]
  refine ⟨idle_of_held, fun hr ht => ?_, fun c hr hu hd => idle_of_due hr (silent hu hd), fun hr hu hd hn =>
    ⟨tick s, idle_of_quiet hr (silent hu hd) hn, rfl, fun i => ?_, rfl⟩⟩
  · rw [idle_of_packet hr ((canTransmit_iff s).mpr ht), transmit, sendOldest_eq, sendOldest_eq, oldestIsPiece_eq]
  · rw [tick, pick_passTime_timers]
    cases pick s.timers i <;> rfl

end Sys2Proof.Proofs
end

