-- ==== Sys2Proof/Proofs/IntakeArrival.lean ====
section
/-! PROOFS. Packets that arrive (R22, R24, R167, R188, R191, R192), the management commands at intake's head (R39), and
how the head packet leaves the queue (R22, R23). -/

namespace Sys2Proof.Proofs

open Sys2Proof.Machine Sys2Proof.Safety Sys2Proof.Claims Sys2Proof.Laws

variable {s : State}

theorem whenRunning_of_running (f : State → State) (h : Running s) : whenRunning f s = .next (f s) := by
  simp [whenRunning, h]

/-! ## Arrival upstream -/

theorem arriveUpstream_of_room (p : IntakePacket) (hup : s.up.link = .up) (h : s.intake.queue.length < 32) :
    arriveUpstream p s =
      { s with intake := { s.intake with
        queue := s.intake.queue ++ [p], examDue := s.intake.examDue || s.intake.queue.isEmpty } } := by
  rw [arriveUpstream, if_pos hup, if_pos h]

theorem arriveUpstream_of_full (p : IntakePacket) (hup : s.up.link = .up) (h : 32 ≤ s.intake.queue.length) :
    arriveUpstream p s = appendFault (uncreditedReport p) s := by
  rw [arriveUpstream, if_pos hup, if_neg (Nat.not_lt.mpr h)]

theorem arriveUpstream_of_notUp (p : IntakePacket) (hup : s.up.link ≠ .up) : arriveUpstream p s = s :=
  if_neg hup

theorem uncreditedReport_request (q : Request) :
    uncreditedReport (.request q) = requestReport .malformed .up q none := by
  rw [uncreditedReport, recordTag_eq]
  rfl

theorem strayUpstream_of_up (r : ReqNum) (hup : s.up.link = .up) :
    strayUpstream r s = appendFault { kind := .malformed, port := .up, requester := some r } s :=
  if_pos hup

theorem strayUpstream_of_notUp (r : ReqNum) (hup : s.up.link ≠ .up) : strayUpstream r s = s := if_neg hup

/-- Settles O17, from the branches of the arrival at the upstream port. -/
theorem upstreamPacketJoinsOrIsDiscarded : Obligations.UpstreamPacketJoinsOrIsDiscarded := by
  constructor
  · intro p s hr
    have run : exec (.upstreamPacketArrival p) s = .next (arriveUpstream p s) := whenRunning_of_running _ hr
    rw [run]
    refine ⟨fun hup h => ?_, fun hup h => ?_, fun hup => ?_⟩
    · rw [arriveUpstream_of_room p hup h]
    · rw [arriveUpstream_of_full p hup h]
      cases p with
      | request q => rw [uncreditedReport_request]
      | mcmd m => rfl
    · rw [arriveUpstream_of_notUp p hup]
  · intro s hr
    have stray : ∀ k r, exec (.upstreamStrayPacket k r) s = .next (strayUpstream r s) := fun _ _ =>
      whenRunning_of_running _ hr
    refine ⟨fun k r hup => ?_, fun k r hup => ?_, fun _ _ => whenRunning_of_running (fun x => x) hr, fun _ =>
      whenRunning_of_running (fun x => x) hr⟩
    · rw [stray, strayUpstream_of_up r hup]
    · rw [stray, strayUpstream_of_notUp r hup]

/-! ## The head leaves -/

theorem leaveQueue_eq {p : IntakePacket} {rest : List IntakePacket} (h : s.intake.queue = p :: rest) :
    leaveQueue s = produce .up (.cret 1) { s with intake := intakeLeft rest s.intake } := by
  rw [leaveQueue, h]
  rfl

theorem produce_intake (p : PortId) (k : OutPacket) (s : State) : (produce p k s).intake = s.intake := by
  rw [produce_eq]

/-! ## Management commands -/

theorem reachManagement_of_room (p : PortId) (m : Mcmd) (h : s.mgmt.queue.length < 16) :
    reachManagement p m s =
      { s with mgmt := { s.mgmt with
        queue := s.mgmt.queue ++ [⟨⟨p, m.requester⟩, m.sequence, m.command, m.payload⟩] } } :=
  if_pos h

theorem reachManagement_of_full (p : PortId) (m : Mcmd) (h : 16 ≤ s.mgmt.queue.length) :
    reachManagement p m s = produce p (.mresp m.requester m.sequence .qfull .none) s :=
  if_neg (Nat.not_lt.mpr h)

theorem reachManagement_intake (p : PortId) (m : Mcmd) (s : State) :
    (reachManagement p m s).intake = s.intake := by
  unfold reachManagement
  split
  · rfl
  · exact produce_intake _ _ s

theorem moveHead_of_mcmd {m : Mcmd} {rest : List IntakePacket} (h : s.intake.queue = .mcmd m :: rest) :
    moveHead s =
      produce .up (.cret 1) { reachManagement .up m s with intake := intakeLeft rest s.intake } := by
  have kept := reachManagement_intake .up m s
  rw [moveHead, h]
  dsimp only
  rw [leaveQueue_eq (kept ▸ h), kept]

theorem arriveDownstream_of_up (m : Mcmd) (hup : s.down.link = .up) :
    arriveDownstream m s = reachManagement .down m s :=
  if_pos hup

theorem arriveDownstream_of_notUp (m : Mcmd) (hup : s.down.link ≠ .up) : arriveDownstream m s = s := if_neg hup

/-- Settles O21: from either port the command reaches the management queue by `reachManagement`, with room or
without. -/
theorem commandsReachTheManagementQueue : Obligations.CommandsReachTheManagementQueue := by
  intro m s hr joined full
  have head : exec .mcmdAtHead s = .next (moveHead s) := whenRunning_of_running _ hr
  have arrival : exec (.downstreamMcmdArrival m) s = .next (arriveDownstream m s) := whenRunning_of_running _ hr
  rw [head, arrival]
  refine ⟨fun rest hq => ?_, fun hup => ?_, fun hup => ?_⟩
  · rw [moveHead_of_mcmd hq]
    exact ⟨fun h => by rw [reachManagement_of_room _ _ h], fun h => by rw [reachManagement_of_full _ _ h]⟩
  · rw [arriveDownstream_of_up m hup]
    exact ⟨fun h => by rw [reachManagement_of_room _ _ h], fun h => by rw [reachManagement_of_full _ _ h]⟩
  · rw [arriveDownstream_of_notUp m hup]

end Sys2Proof.Proofs
end

