-- ==== Sys2Proof/Proofs/IntakeChecks.lean ====
section
/-! PROOFS. Checks 1 to 7 of an examination in the words of the manual (R26 to R32), and what a refusal does (R36 to
R38). -/

namespace Sys2Proof.Proofs

open Sys2Proof.Machine Sys2Proof.Safety Sys2Proof.Claims Sys2Proof.Laws

variable {s : State} {q : Request} {rest : List IntakePacket}

/-! ## What the checks ask -/

theorem malformedRequest_iff : malformedRequest q = true ↔ ¬ formGood q := by
  cases hk : q.kind <;> simp [malformedRequest, addrEnd, formGood, hk] <;> omega

theorem malformedRequest_eq_false_iff : malformedRequest q = false ↔ formGood q := by
  rw [← Bool.not_eq_true, malformedRequest_iff, not_not]

theorem nonPosted_iff : nonPosted q = true ↔ q.kind ≠ .pwreq := by
  unfold nonPosted
  cases q.kind <;> simp

theorem openWith_iff (f : Tracked → Bool) (i : SlotNum) (s : State) :
    (pick s.ort i).openWith f = true ↔ ∃ t ∈ openAt s i, f t = true := by
  simp only [Slot.openWith, openAt, Occupancy.openRecord]
  cases (pick s.ort i).occ <;> simp

theorem duplicateTag_iff : duplicateTag s q = true ↔ tagTaken q s := by
  simp [duplicateTag, openWith_iff, tagTaken]

theorem countSlots_eq_ncard (f : Slot → Bool) (s : State) :
    countSlots f s = Set.ncard {i | f (pick s.ort i) = true} := by
  calc countSlots f s
      = ((List.finRange 128).toFinset.filter fun i => f (pick s.ort i) = true).card := by
        rw [(List.nodup_finRange 128).card_eq_countP]
        simp [countSlots]
    _ = Set.ncard {i | f (pick s.ort i) = true} := by
        rw [← Set.ncard_coe_finset]
        simp

/-- A requester's Open count is the number of its OPEN slots (R50). -/
theorem openCount_eq_ncard (s : State) (r : ReqNum) :
    openCount s r = Set.ncard {i | ∃ t ∈ openAt s i, t.requester = r} := by
  simp only [openCount, countSlots_eq_ncard, openWith_iff, decide_eq_true_eq]

theorem refusalReport_eq (kind : FaultKind) (port : PortId) (q : Request) (code : ErrCode) :
    refusalReport kind port q code = requestReport kind port q (some code) := by
  rw [refusalReport, recordTag_eq]
  rfl

/-! ## The first check that fails -/

theorem judge_of_malformed (h : ¬ formGood q) :
    judge s q = .refuse .malformed (some (requestReport .malformed .up q (some .malformed))) false := by
  rw [judge, if_pos (malformedRequest_iff.mpr h), refusalReport_eq]

theorem judge_of_disabled (hform : formGood q) (h : (entryOf s q.requester).state = .disabled) :
    judge s q = .refuse .disabled none false := by
  simp [judge, malformedRequest_eq_false_iff.mpr hform, h]

theorem judge_of_quarantined (hform : formGood q) (h : (entryOf s q.requester).state = .quarantined) :
    judge s q = .refuse .quarantined none false := by
  simp [judge, malformedRequest_eq_false_iff.mpr hform, h]

section Active

variable (hform : formGood q) (hactive : (entryOf s q.requester).state = .active)
include hform hactive

theorem judge_of_firstLinkDown (h : s.down.link ≠ .up) (hflag : s.intake.linkDownLogged = false) :
    judge s q = .refuse .linkDown (some (requestReport .linkChange .down q (some .linkDown))) true := by
  simp [judge, malformedRequest_eq_false_iff.mpr hform, hactive, h, hflag, refusalReport_eq]

theorem judge_of_linkDown (h : s.down.link ≠ .up) (hflag : s.intake.linkDownLogged = true) :
    judge s q = .refuse .linkDown none false := by
  simp [judge, malformedRequest_eq_false_iff.mpr hform, hactive, h, hflag]

theorem judge_of_duplicate (hup : s.down.link = .up) (hk : q.kind ≠ .pwreq) (h : tagTaken q s) :
    judge s q = .refuse .dupTag (some (requestReport .dupTag .up q (some .dupTag))) false := by
  simp [judge, malformedRequest_eq_false_iff.mpr hform, hactive, hup, nonPosted_iff.mpr hk,
    duplicateTag_iff.mpr h, refusalReport_eq]

theorem judge_of_overLimit (hup : s.down.link = .up) (hk : q.kind ≠ .pwreq) (hfresh : ¬ tagTaken q s)
    (h : (entryOf s q.requester).openLimit ≤ openCount s q.requester) :
    judge s q = .refuse .overLimit (some (requestReport .overLimit .up q (some .overLimit))) false := by
  have fresh : duplicateTag s q = false := Bool.eq_false_iff.mpr (mt duplicateTag_iff.mp hfresh)
  simp [judge, malformedRequest_eq_false_iff.mpr hform, hactive, hup, nonPosted_iff.mpr hk, fresh, h,
    refusalReport_eq]

end Active

section PassesSix

variable (h : passesSix q s)
include h

theorem notDuplicate_of_passesSix : (nonPosted q && duplicateTag s q) = false := by
  obtain ⟨-, -, -, hnp⟩ := h
  rw [Bool.and_eq_false_imp, nonPosted_iff]
  exact fun hk => Bool.eq_false_iff.mpr (mt duplicateTag_iff.mp (hnp hk).1)

theorem belowLimit_of_passesSix :
    (nonPosted q && decide ((entryOf s q.requester).openLimit ≤ openCount s q.requester)) = false := by
  obtain ⟨-, -, -, hnp⟩ := h
  rw [Bool.and_eq_false_imp, nonPosted_iff]
  exact fun hk => decide_eq_false (Nat.not_le.mpr (hnp hk).2)

/-- A request that passes checks 1 to 6 comes to the window check (R26), which refuses it (R32). -/
theorem judge_of_refused {r : Refused} (hw : windowCheck s q = .refused r) : judge s q = .violate r := by
  obtain ⟨hform, hactive, hup, -⟩ := id h
  simp [judge, malformedRequest_eq_false_iff.mpr hform, show (entryOf s q.requester).state = _ from hactive, hup,
    notDuplicate_of_passesSix h, belowLimit_of_passesSix h, hw]

/-- A request that passes checks 1 to 6 comes to the window check (R26), which grants it. -/
theorem judge_of_granted {ps : List GrantedPiece} {g : Generation} (hw : windowCheck s q = .granted ps g) :
    judge s q = .pass ps g := by
  obtain ⟨hform, hactive, hup, -⟩ := id h
  simp [judge, malformedRequest_eq_false_iff.mpr hform, show (entryOf s q.requester).state = _ from hactive, hup,
    notDuplicate_of_passesSix h, belowLimit_of_passesSix h, hw]

end PassesSix

/-! ## Refusal -/

theorem queue_of_atHead (h : atHead q rest s) : s.intake.queue = .request q :: rest := h.2.1

theorem exec_headExamination (h : atHead q rest s) : exec .headExamination s = .next (examine q s) := by
  obtain ⟨hr, hq, hdue⟩ := h
  have head : examineHead s = examine q s := by
    rw [examineHead, hq]
    exact if_pos hdue
  rw [← head]
  exact whenRunning_of_running _ hr

/-- A refused request is turned away, whatever is recorded after it (R36, R37). -/
theorem refuseRequest_none (code : ErrCode) (h : s.intake.queue = .request q :: rest) :
    refuseRequest q code none s = turnedAway q code rest s := by
  cases hk : q.kind <;>
    simp [refuseRequest, turnedAway, hk, leaveQueue_eq (rest := rest), h, produce_eq, entryOf,
      discardPosted, setEntry]

theorem refuseRequest_some (code : ErrCode) (f : FaultReport) (h : s.intake.queue = .request q :: rest) :
    refuseRequest q code (some f) s = appendFault f (turnedAway q code rest s) :=
  congrArg (appendFault f) (refuseRequest_none code h)

theorem examine_of_refuse {code : ErrCode} {report : Option FaultReport}
    (hj : judge s q = .refuse code report false) : examine q s = refuseRequest q code report s := by
  simp only [examine, hj, Bool.or_false]

theorem headExamination_of_refuse {code : ErrCode} (h : atHead q rest s)
    (hj : judge s q = .refuse code none false) :
    exec .headExamination s = .next (turnedAway q code rest s) := by
  rw [exec_headExamination h, examine_of_refuse hj, refuseRequest_none code (queue_of_atHead h)]

theorem headExamination_of_recordedRefuse {code : ErrCode} {f : FaultReport} (h : atHead q rest s)
    (hj : judge s q = .refuse code (some f) false) :
    exec .headExamination s = .next (appendFault f (turnedAway q code rest s)) := by
  rw [exec_headExamination h, examine_of_refuse hj, refuseRequest_some code f (queue_of_atHead h)]

/-- The refusal that sets the link-down logged flag (R29). -/
theorem headExamination_of_flaggedRefuse {code : ErrCode} {f : FaultReport} (h : atHead q rest s)
    (hj : judge s q = .refuse code (some f) true) :
    exec .headExamination s =
      .next (appendFault f
        (turnedAway q code rest { s with intake := { s.intake with linkDownLogged := true } })) := by
  rw [exec_headExamination h, examine, hj]
  simp only [Bool.or_true]
  exact congrArg _ (refuseRequest_some code f (queue_of_atHead h))

/-- The action follows the answer and the record (R32). -/
theorem headExamination_of_violate {r : Refused} (h : atHead q rest s) (hj : judge s q = .violate r) :
    exec .headExamination s =
      .next (applyAction r.action (offenceOf q r) (refuseRequest q r.code r.record s)) := by
  rw [exec_headExamination h, examine, hj]

theorem offenceOf_eq (q : Request) (r : Refused) :
    offenceOf q r =
      { requester := q.requester, tag := reportTag q, address := q.address, window := r.actionWindow
        code := r.code } := by
  rw [offenceOf, recordTag_eq]
  rfl

/-- Settles O18: the first check that fails decides, and its refusal turns the request away with its own record and
action. -/
theorem refusedRequestIsAnsweredAndRecorded : Obligations.RefusedRequestIsAnsweredAndRecorded := by
  constructor
  · intro q rest s h e leads
    refine ⟨openCount_eq_ncard s q.requester, fun hf => ?_, fun hf he => ?_, fun hf he => ?_, fun hf he hdown =>
      ⟨fun hflag => ?_, fun hflag => ?_⟩, fun hf he hup hk => ⟨fun htaken => ?_, fun hfresh hlimit => ?_⟩⟩
    · exact headExamination_of_recordedRefuse h (judge_of_malformed hf)
    · exact headExamination_of_refuse h (judge_of_disabled hf he)
    · exact headExamination_of_refuse h (judge_of_quarantined hf he)
    · exact headExamination_of_flaggedRefuse h (judge_of_firstLinkDown hf he hdown hflag)
    · exact headExamination_of_refuse h (judge_of_linkDown hf he hdown hflag)
    · exact headExamination_of_recordedRefuse h (judge_of_duplicate hf he hup hk htaken)
    · exact headExamination_of_recordedRefuse h (judge_of_overLimit hf he hup hk hfresh hlimit)
  · intro q rest s r h hsix hw
    rw [headExamination_of_violate h (judge_of_refused hsix hw), offenceOf_eq]
    cases r.record with
    | none => rw [refuseRequest_none r.code (queue_of_atHead h)]
    | some f => rw [refuseRequest_some r.code f (queue_of_atHead h)]

end Sys2Proof.Proofs
end

