-- ==== Sys2Proof/Proofs/IntakeResources.lean ====
section
/-! PROOFS. Checks 8 and 9 of a granted request: the stall without resources (R33, R34), and the acceptance into a slot
and FIFO places (R35, R47, R48, R102). -/

namespace Sys2Proof.Proofs

open Sys2Proof.Machine Sys2Proof.Safety Sys2Proof.Claims Sys2Proof.Laws

variable {s : State} {q : Request} {rest : List IntakePacket} {ps : List GrantedPiece} {g : Generation} {i : SlotNum}

theorem headExamination_of_granted (h : atHead q rest s) (hsix : passesSix q s)
    (hw : windowCheck s q = .granted ps g) :
    exec .headExamination s = .next (resourceCheck q ps g s) := by
  rw [exec_headExamination h, examine, judge_of_granted hsix hw]

/-! ## FREE slots -/

theorem firstFree_eq_none_iff : firstFree s = none ↔ noFreeSlot s := by
  simp [firstFree, noFreeSlot]

/-- The lowest-numbered FREE slot is found (R47). -/
theorem firstFree_of_lowest (hfree : (pick s.ort i).occ = .free)
    (hlow : ∀ j, j < i → (pick s.ort j).occ ≠ .free) : firstFree s = some i := by
  simp only [firstFree, List.find?_eq_some_iff_getElem, List.getElem_finRange, Bool.not_eq_true', beq_iff_eq,
    beq_eq_false_iff_ne]
  exact ⟨hfree, i.val, by simp, by simp, fun j hj => hlow ⟨j, by omega⟩ hj⟩

/-! ## What the resource check decides -/

/-- The FIFO lacks places for the pieces (R33). -/
abbrev LacksRoom (q : Request) (ps : List GrantedPiece) (s : State) : Prop :=
  8 < (fifoOf s q.requester).length + ps.length

theorem resourceCheck_of_slot (hk : q.kind ≠ .pwreq) (hi : firstFree s = some i) (hroom : ¬ LacksRoom q ps s) :
    resourceCheck q ps g s = acceptTracked i q ps g s := by
  simp [resourceCheck, nonPosted_iff.mpr hk, hi, Nat.not_lt.mp hroom]

theorem resourceCheck_of_posted (hk : q.kind = .pwreq) (hroom : ¬ LacksRoom q ps s) :
    resourceCheck q ps g s = acceptPosted q ps s := by
  simp [resourceCheck, nonPosted, hk, Nat.not_lt.mp hroom]

theorem resourceCheck_of_noSlot (hk : q.kind ≠ .pwreq) (hnone : noFreeSlot s) :
    resourceCheck q ps g s = stallHead true (decide (LacksRoom q ps s)) q.requester s := by
  have room : (!decide ((fifoOf s q.requester).length + ps.length ≤ 8)) = decide (LacksRoom q ps s) := by
    rw [← decide_not, decide_eq_decide, Nat.not_le]
  simp only [resourceCheck, nonPosted_iff.mpr hk, firstFree_eq_none_iff.mpr hnone, room, if_true]

theorem resourceCheck_of_noRoom (hslot : ¬ (q.kind ≠ .pwreq ∧ noFreeSlot s)) (hroom : LacksRoom q ps s) :
    resourceCheck q ps g s = stallHead false true q.requester s := by
  have full : ¬ (fifoOf s q.requester).length + ps.length ≤ 8 := Nat.not_le.mpr hroom
  by_cases hk : q.kind = .pwreq
  · simp [resourceCheck, nonPosted, hk, full]
  · have found : firstFree s ≠ none := fun e => hslot ⟨hk, firstFree_eq_none_iff.mp e⟩
    obtain ⟨i, hi⟩ := Option.ne_none_iff_exists'.mp found
    simp [resourceCheck, nonPosted_iff.mpr hk, hi, full]

/-! ## The stall -/

/-- A stall that raises nothing: a FREE slot is left, or EXHAUST was raised before in the episode (R34). -/
theorem stallHead_quiet {noSlot noRoom : Bool} (r : ReqNum)
    (h : noSlot = false ∨ s.intake.exhaustRaised = true) :
    stallHead noSlot noRoom r s =
      { s with intake := { s.intake with stall := stallOf noSlot noRoom r, examDue := false } } := by
  rcases h with h | h <;> simp [stallHead, h]

/-- The first examination of the episode that finds no FREE slot (R34). -/
theorem stallHead_exhausted (noRoom : Bool) (r : ReqNum) (h : s.intake.exhaustRaised = false) :
    stallHead true noRoom r s =
      raiseClass .exhaust
        { s with intake := { s.intake with
          stall := stallOf true noRoom r, examDue := false, exhaustRaised := true } } := by
  simp [stallHead, h]

/-- Settles O19, from what the resource check decides and what a stall raises. -/
theorem missingResourcesStallTheHead : Obligations.MissingResourcesStallTheHead := by
  intro q rest s ps g h hsix hw stalled exhausted noSlot noRoom
  rw [headExamination_of_granted h hsix hw]
  constructor
  · intro hslot hroom
    rw [resourceCheck_of_noRoom hslot hroom, stallHead_quiet q.requester (.inl rfl)]
    rfl
  · intro c hc
    obtain ⟨⟨hk, hnone⟩, names⟩ : noSlot ∧ stallOf true (decide (LacksRoom q ps s)) q.requester = c := by
      rcases hc with ⟨hslot, hroom, rfl⟩ | ⟨hslot, hroom, rfl⟩
      · exact ⟨hslot, by rw [decide_eq_false hroom]; rfl⟩
      · exact ⟨hslot, by rw [decide_eq_true hroom]; rfl⟩
    rw [resourceCheck_of_noSlot hk hnone]
    refine ⟨fun hfirst => ?_, fun hraised => ?_⟩
    · rw [stallHead_exhausted _ _ hfirst, names]
    · rw [stallHead_quiet _ (.inr hraised), names]

/-! ## The deadline class -/

theorem classTime_eq (c : GlobalConfig) (x : DeadlineClass) : c.classTime x = classValue c x := by
  cases x <;> rfl

theorem number_eq (x : DeadlineClass) : x.number = classPlace x := by
  cases x <;> rfl

theorem splitRequest_length_le (b : Bank) (q : Request) : (splitRequest b q).length ≤ 2 := by
  by_cases h : lookup b q.requester q.address.toNat = lookup b q.requester (lastByte q)
  · simp [splitRequest_of_agree h]
  · simp [splitRequest_of_differ h]

theorem granted_length_le (hw : windowCheck s q = .granted ps g) : ps.length ≤ 2 := by
  obtain ⟨-, rfl, -⟩ := windowCheck_eq_granted_iff.mp hw
  exact (List.length_filterMap_le ..).trans (splitRequest_length_le _ _)

/-- Of two classes the shorter in the words of R48. -/
theorem shorterClass_eq (c : GlobalConfig) (x y : DeadlineClass) :
    shorterClass c x y =
      if classValue c x < classValue c y then x
      else if classValue c y < classValue c x then y
      else if classPlace x ≤ classPlace y then x else y := by
  rw [shorterClass, classTime_eq, classTime_eq, number_eq, number_eq]
  rcases lt_trichotomy (classValue c x) (classValue c y) with h | h | h
  · rw [if_pos h, if_neg (by omega)]
  · simp only [h, lt_irrefl, true_and, false_or, if_false, ← not_le, ite_not]
  · rw [if_neg h.not_gt, if_pos h, if_pos (.inl h)]

/-- Of the one or two pieces that the split makes, the class is R48's. -/
theorem chooseClass_eq (c : GlobalConfig) (h : ps.length ≤ 2) : chooseClass c ps = slotClass c ps := by
  match ps, h with
  | [], _ => rfl
  | [p], _ => rfl
  | [p, p'], _ => exact shorterClass_eq c p.deadlineClass p'.deadlineClass

/-! ## Acceptance -/

theorem enqueueAccepted_eq {p : IntakePacket} (r : ReqNum) (es : List FifoEntry)
    (h : s.intake.queue = p :: rest) :
    enqueueAccepted r es s =
      produce .up (.cret 1)
        { s with
          issue := { s.issue with fifos := put s.issue.fifos r (fifoOf s r ++ es) }
          requesters := put s.requesters r (acceptedEntry (pick s.requesters r))
          intake := intakeLeft rest s.intake } :=
  leaveQueue_eq h

theorem newRecord_eq (hw : windowCheck s q = .granted ps g) : newRecord s q ps g = recordOf q ps s := by
  obtain ⟨-, -, rfl⟩ := windowCheck_eq_granted_iff.mp hw
  rw [newRecord, chooseClass_eq _ (granted_length_le hw)]
  rfl

theorem allocate_eq (i : SlotNum) (t : Tracked) (s : State) :
    allocate i t s =
      { s with
        ort := put s.ort i ⟨(pick s.ort i).incarnation, .opened t⟩
        timers := put s.timers i (.deadline (classValue s.mgmt.config t.deadlineClass))
        commit := { s.commit with liveOpen := s.commit.liveOpen + 1 } } := by
  rw [allocate, classTime_eq]
  rfl

/-- Settles O20, from the resource check's acceptance and the record, slot and places it takes. -/
theorem acceptedRequestTakesSlotAndPlaces : Obligations.AcceptedRequestTakesSlotAndPlaces := by
  intro q rest s ps g h hsix hw hroom fifos entries
  have room : ¬ LacksRoom q ps s := Nat.not_lt.mpr hroom
  have hq := queue_of_atHead h
  rw [headExamination_of_granted h hsix hw]
  constructor
  · intro hk
    rw [resourceCheck_of_posted hk room, acceptPosted, enqueueAccepted_eq q.requester _ hq]
    rfl
  · intro i hk hfree hlow
    rw [resourceCheck_of_slot hk (firstFree_of_lowest hfree hlow) room, acceptTracked, newRecord_eq hw, allocate_eq]
    exact congrArg _ (enqueueAccepted_eq q.requester _ hq)

end Sys2Proof.Proofs
end

