-- ==== Sys2Proof/Proofs/SlotClosing.lean ====
section
/-! PROOFS. A slot that closes (R46, R55, R88, R117), and the withdrawal of one issue FIFO as the closing or failing of
its slots one by one (R58, R73). -/

namespace Sys2Proof.Proofs

open Sys2Proof.Machine Sys2Proof.Safety Sys2Proof.Claims Sys2Proof.Laws

variable {s : State} {q : List FifoEntry} {l : List SlotNum} {i : SlotNum} {t : Tracked}

/-! ## What intake is told, and a slot freed -/

theorem notifyHead_eq (s : State) : notifyHead s = { s with intake := headNotified s.intake } := by
  unfold notifyHead headNotified
  split <;> rfl

theorem notifyHeadOf_eq (r : ReqNum) (s : State) :
    notifyHeadOf r s = { s with intake := spaceFreed r s.intake } := by
  unfold notifyHeadOf spaceFreed
  split <;> rfl

theorem headNotified_idem (k : Intake) : headNotified (headNotified k) = headNotified k := by
  unfold headNotified
  split_ifs <;> rfl

theorem freeSlot_eq (i : SlotNum) (s : State) :
    freeSlot i s =
      { s with
        ort := put s.ort i (slotFreed (pick s.ort i))
        timers := put s.timers i .none
        intake := headNotified s.intake } :=
  notifyHead_eq _

/-! ## A slot that closes -/

/-- The part after slot `i`, whose hold is of generation `g`, has closed, but for its answer (R55, R46, R117). -/
def slotClosed (i : SlotNum) (g : Generation) (s : State) : State :=
  { s with
    ort := put s.ort i (slotFreed (pick s.ort i))
    timers := put s.timers i .none
    commit := released g s.commit
    intake := headNotified s.intake }

theorem failureCode_eq (f : Failure) : failureCode f = f.code := by cases f <;> rfl

theorem closeSlot_of_none (h : closingPacket t = none) : closeSlot i t s = slotClosed i t.generation s := by
  rw [closeSlot, h]
  dsimp only
  rw [freeSlot_eq, holdReleased_eq]
  rfl

theorem closeSlot_of_some {k : OutPacket} (h : closingPacket t = some k) :
    closeSlot i t s = slotClosed i t.generation (produce .up k s) := by
  rw [closeSlot, h]
  dsimp only
  rw [freeSlot_eq, holdReleased_eq]
  rfl

/-- The rest of the closing leaves the port as it is. -/
theorem slotClosed_produce (i : SlotNum) (g : Generation) (k : OutPacket) (s : State) :
    slotClosed i g (produce .up k s) = produce .up k (slotClosed i g s) := by
  rw [produce_eq, produce_eq]
  rfl

theorem closingPacket_of_failure {f : Failure} (h : t.failure = some f) :
    closingPacket t = some (.errsp t.requester t.tag (failureCode f)) := by
  rw [closingPacket, h, failureCode_eq]

/-- Settles O7, by the closing packet of the record. -/
theorem closingFreesTheSlot : Obligations.ClosingFreesTheSlot := by
  intro i t s closed
  have answered : ∀ {k}, closingPacket t = some k → closeSlot i t s = produce .up k closed := fun hk =>
    (closeSlot_of_some hk).trans (slotClosed_produce _ _ _ _)
  refine ⟨fun f hf => answered (closingPacket_of_failure hf), fun hf hk => answered ?_, fun hf hk =>
    closeSlot_of_none ?_⟩
  · rw [closingPacket, hf, hk]
  · rw [closingPacket, hf, hk]

/-! ## One slot at a withdrawal -/

theorem takenBack_eq (q : List FifoEntry) (i : SlotNum) : takenBack q i = withdrawn i q := by
  funext p
  rw [withdrawn, Bool.and_comm]
  refine congrArg (fun named => p.state == .queued && q.any named) (funext fun e => ?_)
  cases e <;> rfl

theorem abortedRecord_eq (q : List FifoEntry) (i : SlotNum) (t : Tracked) :
    abortedRecord q i t = withdrawRecord q i t := by
  simp only [abortedRecord, withdrawRecord, Tracked.fail, takenBack_eq]

theorem allResolved_eq (t : Tracked) : allResolved t = t.resolved := by
  rw [allResolved, Tracked.resolved]
  congr 1
  funext p
  cases p.state <;> rfl

theorem closingPacket_abortedRecord (q : List FifoEntry) (i : SlotNum) (t : Tracked) :
    closingPacket (abortedRecord q i t) = some (failureAnswer (abortedRecord q i t)) :=
  closingPacket_of_failure rfl

/-- What the withdrawal of `q` does to slot `i` when it does not close the slot. -/
theorem withdrawSlot_of_stays (h : closedByWithdrawal q s i = none) :
    withdrawSlot q i s = { s with ort := put s.ort i (slotWithdrawn q i (pick s.ort i)) } := by
  have same : s = { s with ort := put s.ort i (pick s.ort i) } := by rw [put_pick]
  unfold withdrawSlot openAt slotWithdrawn
  unfold closedByWithdrawal at h
  cases ho : (pick s.ort i).occ with
  | free | stale => exact same
  | opened t =>
    simp only [ho, takenBack_eq, abortedRecord_eq, allResolved_eq, Occupancy.openRecord] at h ⊢
    cases ht : t.pieces.any (withdrawn i q) with
    | false => exact same
    | true =>
      cases hr : (withdrawRecord q i t).resolved with
      | false => rfl
      | true =>
        rw [ht, hr] at h
        exact nomatch h

/-- What it does when it closes the slot. -/
theorem withdrawSlot_of_closes (h : closedByWithdrawal q s i = some t) :
    withdrawSlot q i s = produce .up (failureAnswer t) (slotClosed i t.generation s) ∧
      slotWithdrawn q i (pick s.ort i) = slotFreed (pick s.ort i) := by
  unfold closedByWithdrawal at h
  unfold withdrawSlot openAt slotWithdrawn
  cases ho : (pick s.ort i).occ with
  | free | stale => simp [ho] at h
  | opened v =>
    simp only [ho] at h
    split at h
    · obtain rfl := Option.some.inj h
      rename_i hcond
      obtain ⟨hany, hres⟩ := Bool.and_eq_true_iff.mp hcond
      have hany' : v.pieces.any (withdrawn i q) = true := by rw [← takenBack_eq, hany]
      have hres' : (withdrawRecord q i v).resolved = true := by rw [← abortedRecord_eq, ← allResolved_eq, hres]
      have closed := (closeSlot_of_some (i := i) (s := s) (closingPacket_abortedRecord q i v)).trans
        (slotClosed_produce _ _ _ _)
      simp only [Occupancy.openRecord, hany, hany', hres, hres', if_true]
      exact ⟨by rw [← abortedRecord_eq, closed], trivial⟩
    · exact nomatch h

/-! ## The slots in turn -/

/-- The part after the withdrawal of `q` has reached the slots `l` in their order, read off the part before. -/
def slotsWithdrawn (q : List FifoEntry) (l : List SlotNum) (s : State) : State :=
  let closed := l.filterMap (closedByWithdrawal q s)
  { s with
    ort := mapAll (fun i x => if i ∈ l then slotWithdrawn q i x else x) s.ort
    timers := mapAll (fun i z => if i ∈ l ∧ (closedByWithdrawal q s i).isSome then .none else z) s.timers
    up := { s.up with tx := if s.up.link = .up then s.up.tx ++ closed.map failureAnswer else s.up.tx }
    commit := closed.foldl (fun c x => released x.generation c) s.commit
    intake := if closed = [] then s.intake else headNotified s.intake }

theorem slotsWithdrawn_nil (q : List FifoEntry) (s : State) : slotsWithdrawn q [] s = s := by
  have hort : mapAll (fun i x => if i ∈ ([] : List SlotNum) then slotWithdrawn q i x else x) s.ort = s.ort :=
    pick_ext fun i => by simp
  have htimers : mapAll (fun i z => if i ∈ ([] : List SlotNum) ∧ (closedByWithdrawal q s i).isSome then
      SlotTimer.none else z) s.timers = s.timers := pick_ext fun i => by simp
  simp only [slotsWithdrawn, hort, htimers, List.filterMap_nil, List.map_nil, List.append_nil, List.foldl_nil,
    ite_self, if_true]

/-- The withdrawal's next slot, which it has left as it was till then. -/
theorem withdrawSlot_slotsWithdrawn (hi : i ∉ l) :
    withdrawSlot q i (slotsWithdrawn q l s) = slotsWithdrawn q (l ++ [i]) s := by
  have hslot : pick (slotsWithdrawn q l s).ort i = pick s.ort i := by simp [slotsWithdrawn, hi]
  have hclosed : closedByWithdrawal q (slotsWithdrawn q l s) i = closedByWithdrawal q s i := by
    rw [closedByWithdrawal, hslot, ← closedByWithdrawal]
  have hort : put (slotsWithdrawn q l s).ort i (slotWithdrawn q i (pick s.ort i)) =
      (slotsWithdrawn q (l ++ [i]) s).ort := by
    refine pick_ext fun j => ?_
    by_cases hj : j = i
    · subst hj; simp [slotsWithdrawn]
    · rw [pick_put_other _ _ hj]; simp [slotsWithdrawn, hj]
  cases hc : closedByWithdrawal q s i with
  | none =>
    have htimers : (slotsWithdrawn q (l ++ [i]) s).timers = (slotsWithdrawn q l s).timers := by
      refine pick_ext fun j => ?_
      by_cases hj : j = i
      · subst hj; simp [slotsWithdrawn, hc]
      · simp [slotsWithdrawn, hj]
    rw [withdrawSlot_of_stays (hclosed.trans hc), hslot, hort]
    simp only [slotsWithdrawn] at htimers ⊢
    rw [htimers, List.filterMap_append]
    simp [hc]
  | some t =>
    obtain ⟨hw, hfreed⟩ := withdrawSlot_of_closes (hclosed.trans hc)
    have htimers : put (slotsWithdrawn q l s).timers i .none = (slotsWithdrawn q (l ++ [i]) s).timers := by
      refine pick_ext fun j => ?_
      by_cases hj : j = i
      · subst hj; simp [slotsWithdrawn, hc]
      · rw [pick_put_other _ _ hj]; simp [slotsWithdrawn, hj]
    rw [hslot] at hfreed
    rw [hw, produce_eq, slotClosed, hslot, ← hfreed, hort, htimers]
    simp only [slotsWithdrawn]
    rw [List.filterMap_append]
    by_cases hup : s.up.link = .up <;>
      by_cases hnone : l.filterMap (closedByWithdrawal q s) = [] <;>
      simp [hc, hup, hnone, headNotified_idem]

theorem forSlots_withdrawSlot (q : List FifoEntry) (s : State) :
    forSlots (withdrawSlot q) s = slotsWithdrawn q (List.finRange 128) s := by
  have key : ∀ l : List SlotNum, l.Nodup →
      l.foldl (fun x i => withdrawSlot q i x) s = slotsWithdrawn q l s := by
    intro l
    induction l using List.reverseRecOn with
    | nil => exact fun _ => (slotsWithdrawn_nil q s).symm
    | append_singleton l i ih =>
      intro hl
      obtain ⟨hl, -, hi⟩ := List.nodup_append.mp hl
      rw [List.foldl_append, List.foldl_cons, List.foldl_nil, ih hl]
      exact withdrawSlot_slotsWithdrawn fun hm => hi i hm i (List.mem_singleton_self i) rfl
  exact key _ (List.nodup_finRange 128)

/-! ## The withdrawal -/

theorem withdraw_of_empty {r : ReqNum} (h : fifoOf s r = []) : withdraw r s = s := by
  simp [withdraw, h]

theorem withdraw_of_entries {r : ReqNum} (h : fifoOf s r ≠ []) :
    withdraw r s =
      notifyHeadOf r (discardPosted ((fifoOf s r).countP FifoEntry.isPosted)
        (slotsWithdrawn (fifoOf s r) (List.finRange 128) (setFifo r [] s))) := by
  rw [withdraw, ← forSlots_withdrawSlot]
  exact if_neg (by simpa using h)

/-- Settles O8, from the slots that the withdrawal reaches in turn. -/
theorem withdrawalEmptiesOneFifo : Obligations.WithdrawalEmptiesOneFifo := by
  intro r s
  refine ⟨withdraw_of_empty, fun h => ?_⟩
  intro q t closed
  have ht : t = notifyHeadOf r (discardPosted (q.countP FifoEntry.isPosted)
      (slotsWithdrawn q (List.finRange 128) (setFifo r [] s))) := withdraw_of_entries h
  rw [notifyHeadOf_eq] at ht
  have hfifos : t.issue.fifos = put s.issue.fifos r [] := by rw [ht]; rfl
  refine ⟨?_, fun r' hr' => ?_, fun i => ?_, fun i => ?_, ?_, ?_, ?_, ?_, ?_⟩
  · rw [fifoOf, hfifos, pick_put_same]
  · rw [fifoOf, hfifos, pick_put_other _ _ hr']
    rfl
  · rw [ht]
    simp [slotsWithdrawn]
  · have same : closedByWithdrawal q (setFifo r [] s) = closedByWithdrawal q s := rfl
    rw [ht]
    simp [slotsWithdrawn, same]
  all_goals rw [ht]; rfl

end Sys2Proof.Proofs
end

