-- ==== Sys2Proof/Proofs/ReadCommands.lean ====
section
/-! PROOFS. The commands that read the tables and the configuration: IDENTIFY, CONFIG_READ, RQ_READ and ORT_READ (R63,
R144, R179, R181). -/

namespace Sys2Proof.Proofs

open Sys2Proof.Machine Sys2Proof.Safety Sys2Proof.Claims Sys2Proof.Laws

variable {c : QueuedCommand} {rest : List QueuedCommand} {s : State} {b : Byte}

/-! ## A one-byte operand -/

theorem field_of_byte (h : c.payload = [b]) : field c.payload 0 1 = b.toNat := by
  rw [h]
  simp [field, beNat]

theorem index?_of_val {n x : Nat} (i : Fin n) (h : x = i.val) : index? n x = some i := by
  subst h
  exact dif_pos i.isLt

theorem index?_of_le {n x : Nat} (h : n ≤ x) : index? n x = none := dif_neg (Nat.not_lt.mpr h)

/-! ## RQ_READ and ORT_READ -/

theorem doRqRead_of_requester (h : c.payload = [b]) (r : ReqNum) (hb : b.toNat = r.val) :
    doRqRead c s = replied c .ok (.requester (viewOf s r)) s := by
  rw [doRqRead, field_of_byte h, index?_of_val r hb]
  rfl

theorem doRqRead_of_outside (h : c.payload = [b]) (hb : 32 ≤ b.toNat) : doRqRead c s = replied c .badArg .none s := by
  rw [doRqRead, field_of_byte h, index?_of_le hb]
  rfl

theorem doOrtRead_of_slot (h : c.payload = [b]) (i : SlotNum) (hb : b.toNat = i.val) :
    doOrtRead c s = replied c .ok (.slot ⟨i, pick s.ort i, (pick s.timers i).remaining⟩) s := by
  rw [doOrtRead, field_of_byte h, index?_of_val i hb]
  rfl

theorem doOrtRead_of_outside (h : c.payload = [b]) (hb : 128 ≤ b.toNat) :
    doOrtRead c s = replied c .badArg .none s := by
  rw [doOrtRead, field_of_byte h, index?_of_le hb]
  rfl

/-- Settles O38: each command is executed by its owner, which answers from the state as it stands. -/
theorem readCommandsAnswerAsItStands : Obligations.ReadCommandsAnswerAsItStands := by
  refine ⟨fun c rest s => ⟨fun h => takeCommand_of_executes doIdentify h,
    fun h => takeCommand_of_executes doConfigRead h⟩, fun c rest s b hb => ⟨fun h => ?_, fun h => ?_⟩⟩
  · have run : exec .rqRead s = .next (doRqRead c (taken rest s)) := takeCommand_of_executes doRqRead h
    rw [run]
    refine ⟨fun r hr => ?_, fun hout => ?_⟩
    · rw [doRqRead_of_requester hb r hr]
      rfl
    · rw [doRqRead_of_outside hb hout]
  · have run : exec .ortRead s = .next (doOrtRead c (taken rest s)) := takeCommand_of_executes doOrtRead h
    rw [run]
    refine ⟨fun i hi => ?_, fun hout => ?_⟩
    · rw [doOrtRead_of_slot hb i hi]
      have timers : (taken rest s).timers = s.timers := rfl
      rw [timers]
      cases pick s.timers i <;> rfl
    · rw [doOrtRead_of_outside hb hout]

end Sys2Proof.Proofs
end

