-- ==== Sys2Proof/Proofs/QuietOperations.lean ====
section
/-! PROOFS. The operations that leave the outstanding request table as it is and produce no Final upstream (R56): all
but those that open, answer or move a slot or refuse a request. -/

namespace Sys2Proof.Proofs

open Sys2Proof.Machine Sys2Proof.Safety Sys2Proof.Claims Sys2Proof.Laws

variable {x y u : State}

/-! ## Finals -/

/-- The Finals to a requester with a Tag that the upstream port has sent or is to send. -/
def finals (r : ReqNum) (g : Tag) (x : State) : Nat := (x.up.sent ++ x.up.tx).countP (isFinalOf r g)

/-- A packet without Final set. -/
def NotFinal (k : OutPacket) : Prop := ∀ r g, isFinalOf r g k = false

theorem finals_of_packets (h : u.up.sent ++ u.up.tx = x.up.sent ++ x.up.tx) (r : ReqNum) (g : Tag) :
    finals r g u = finals r g x :=
  congrArg (List.countP _) h

theorem produce_link (p : PortId) (k : OutPacket) (x : State) : (produce p k x).up.link = x.up.link := by
  rw [produce_eq]

theorem finals_produce (k : OutPacket) (h : x.up.link = .up) (r : ReqNum) (g : Tag) :
    finals r g (produce .up k x) = finals r g x + if isFinalOf r g k then 1 else 0 := by
  simp only [finals, produce_eq, h, and_self, if_true, List.countP_append, List.countP_singleton, Nat.add_assoc]

/-! ## Quiet operations -/

/-- The table stays; and the upstream link stays UP, if it was, with no new Final. -/
structure Quiet (x u : State) : Prop where
  ort : u.ort = x.ort
  link : x.up.link = .up → u.up.link = .up
  finals : x.up.link = .up → ∀ r g, finals r g u = finals r g x

theorem Quiet.refl (x : State) : Quiet x x := ⟨rfl, id, fun _ _ _ => rfl⟩

theorem Quiet.trans (h : Quiet x y) (k : Quiet y u) : Quiet x u :=
  ⟨k.ort.trans h.ort, fun e => k.link (h.link e), fun e r g => (k.finals (h.link e) r g).trans (h.finals e r g)⟩

theorem Quiet.of_packets (ho : u.ort = x.ort) (hl : u.up.link = x.up.link)
    (hp : u.up.sent ++ u.up.tx = x.up.sent ++ x.up.tx) : Quiet x u :=
  ⟨ho, fun e => hl.trans e, fun _ => finals_of_packets hp⟩

/-- An update of other fields. -/
theorem Quiet.same (ho : u.ort = x.ort) (hu : u.up = x.up) : Quiet x u :=
  .of_packets ho (by rw [hu]) (by rw [hu])

/-- An operation after an update of other fields. -/
theorem Quiet.ofUpdate (h : Quiet y u) (ho : y.ort = x.ort) (hu : y.up = x.up) : Quiet x u :=
  Quiet.trans (.same ho hu) h

/-- What happens while the upstream link is not UP. -/
theorem quiet_of_notUp (h : x.up.link ≠ .up) (ho : u.ort = x.ort) : Quiet x u :=
  ⟨ho, fun e => absurd e h, fun e => absurd e h⟩

theorem quiet_of_port {p : PortId} (h : (x.port p).link ≠ .up) (up : p = .up → u.ort = x.ort)
    (down : p = .down → Quiet x u) : Quiet x u := by
  cases p
  · exact quiet_of_notUp h (up rfl)
  · exact down rfl

/-! ## Packets, notices and records -/

theorem quiet_produce (p : PortId) {k : OutPacket} (hk : NotFinal k) (x : State) : Quiet x (produce p k x) := by
  cases p with
  | up =>
    refine ⟨(still_produce .up k x).ort, fun e => (produce_link .up k x).trans e, fun e r g => ?_⟩
    rw [finals_produce k e, hk r g]
    rfl
  | down =>
    rw [produce_eq]
    exact .of_packets rfl rfl (by simp)

theorem quiet_sendNotice (h : Party) (x : State) : Quiet x (sendNotice h x) :=
  (quiet_produce h.port (k := notePacket h x.notice.nextNumber x.notice.pending x) (fun _ _ => rfl) x).trans
    (.same rfl rfl)

theorem quiet_testSend (x : State) : Quiet x (testSend x) := by
  unfold testSend
  split
  · exact .refl x
  · split
    · exact quiet_sendNotice _ x
    · exact .refl x

theorem quiet_raiseClass (c : EventClass) (x : State) : Quiet x (raiseClass c x) := by
  unfold raiseClass
  split
  · exact (quiet_testSend _).ofUpdate rfl rfl
  · exact .refl x

theorem quiet_appendFault (r : FaultReport) (x : State) : Quiet x (appendFault r x) := by
  have kept : Quiet x (raiseClass .fault (keepRecord r x)) := (quiet_raiseClass .fault _).ofUpdate rfl rfl
  unfold appendFault
  split
  · dsimp only
    split
    · exact kept.trans (quiet_raiseClass .logFull _)
    · exact kept
  · exact .same rfl rfl

theorem quiet_answer (c : QueuedCommand) (st : Status) (res : Results) (x : State) : Quiet x (answer c st res x) :=
  quiet_produce _ (fun _ _ => rfl) x

/-! ## Intake and the issue unit -/

theorem quiet_notifyHead (x : State) : Quiet x (notifyHead x) := by
  rw [notifyHead_eq]
  exact .same rfl rfl

theorem quiet_notifyHeadOf (r : ReqNum) (x : State) : Quiet x (notifyHeadOf r x) := by
  rw [notifyHeadOf_eq]
  exact .same rfl rfl

theorem quiet_leaveQueue (x : State) : Quiet x (leaveQueue x) :=
  (quiet_produce .up (k := .cret 1) (fun _ _ => rfl) _).ofUpdate rfl rfl

theorem quiet_takePiece (x : State) : Quiet x (takePiece x) := by
  obtain ⟨_, _, _, h⟩ := takePiece_shape x
  rw [h]
  exact .same rfl rfl

theorem quiet_granted (r : ReqNum) (rest : List FifoEntry) (x : State) : Quiet x (granted r rest x) :=
  (quiet_notifyHeadOf r _).ofUpdate rfl rfl

theorem quiet_discardPosted (n : Nat) (x : State) : Quiet x (discardPosted n x) := .same rfl rfl

theorem quiet_cutIssue (x : State) : Quiet x (cutIssue x) := .same rfl rfl

theorem quiet_purgeCommands (p : PortId) (x : State) : Quiet x (purgeCommands p x) := .same rfl rfl

theorem quiet_removeEntries (i : SlotNum) (r : ReqNum) (x : State) : Quiet x (removeEntries i r x) := by
  unfold removeEntries
  dsimp only
  split
  · exact (quiet_notifyHeadOf r _).ofUpdate rfl rfl
  · exact .refl x

theorem quiet_creditExcess (n : Nat) (w : Option WinIndex) (g : Option Generation) (x : State) :
    Quiet x (creditExcess n w g x) := by
  unfold creditExcess
  split
  · exact .refl x
  · exact (quiet_appendFault _ _).ofUpdate rfl rfl

theorem quiet_returnRequest (n : Nat) (w : Option WinIndex) (g : Option Generation) (x : State) :
    Quiet x (returnRequest n w g x) :=
  (quiet_creditExcess _ w g _).ofUpdate rfl rfl

theorem quiet_returnPosted (n : Nat) (x : State) : Quiet x (returnPosted n x) :=
  (quiet_creditExcess _ none none _).ofUpdate rfl rfl

theorem quiet_takeCret (cls : PoolClass) (count : BitVec 16) (x : State) : Quiet x (takeCret cls count x) := by
  unfold takeCret
  split
  · cases cls
    · exact quiet_returnRequest _ _ _ x
    · exact quiet_returnPosted _ x
  · exact .refl x

theorem quiet_arriveUpstream (p : IntakePacket) (x : State) : Quiet x (arriveUpstream p x) := by
  unfold arriveUpstream
  split_ifs
  · exact .same rfl rfl
  · exact quiet_appendFault _ x
  · exact .refl x

theorem quiet_strayUpstream (r : ReqNum) (x : State) : Quiet x (strayUpstream r x) := by
  unfold strayUpstream
  split_ifs
  · exact quiet_appendFault _ x
  · exact .refl x

theorem quiet_reachManagement (p : PortId) (m : Mcmd) (x : State) : Quiet x (reachManagement p m x) := by
  unfold reachManagement
  split
  · exact .same rfl rfl
  · exact quiet_produce p (fun _ _ => rfl) x

theorem quiet_moveHead (x : State) : Quiet x (moveHead x) := by
  unfold moveHead
  split
  · exact (quiet_reachManagement _ _ x).trans (quiet_leaveQueue _)
  · exact .refl x
  · exact .refl x

theorem quiet_arriveDownstream (m : Mcmd) (x : State) : Quiet x (arriveDownstream m x) := by
  unfold arriveDownstream
  split
  · exact quiet_reachManagement .down m x
  · exact .refl x

theorem quiet_stallHead (a b : Bool) (r : ReqNum) (x : State) : Quiet x (stallHead a b r x) := by
  unfold stallHead
  dsimp only
  split
  · exact (quiet_raiseClass .exhaust _).ofUpdate rfl rfl
  · exact .same rfl rfl

/-! ## The commit unit and the lease -/

theorem quiet_takeDrainEnd (x : State) : Quiet x (takeDrainEnd x) := by
  obtain ⟨_, _, h⟩ := takeDrainEnd_shape x
  rw [h]
  exact .same rfl rfl

theorem quiet_endDrain (x : State) : Quiet x (endDrain x) := by
  obtain ⟨_, _, h⟩ := endDrain_shape x
  rw [h]
  exact .same rfl rfl

theorem quiet_swapBanks (x : State) : Quiet x (swapBanks x) := by
  obtain ⟨_, _, h⟩ := swapBanks_shape x
  rw [h]
  exact .same rfl rfl

theorem quiet_cancelHeld (x : State) : Quiet x (cancelHeld x) := by
  obtain ⟨_, _, h⟩ := cancelHeld_shape x
  rw [h]
  exact .same rfl rfl

theorem quiet_completeFill (x : State) : Quiet x (completeFill x) :=
  (quiet_raiseClass .stagedReady _).ofUpdate rfl rfl

theorem quiet_setLease (l : Option Lease) (x : State) : Quiet x (setLease l x) := .same rfl rfl

theorem quiet_noticeLeaseEnd (x : State) : Quiet x (noticeLeaseEnd x) := .same rfl rfl

theorem quiet_endLease (k : FaultKind) (x : State) : Quiet x (endLease k x) := by
  unfold endLease
  split
  · exact .refl x
  · have ended := ((quiet_setLease none x).trans (quiet_cancelHeld _)).trans (quiet_noticeLeaseEnd _)
    exact ended.trans (quiet_appendFault _ _)

theorem quiet_lapseThrough (p : PortId) (x : State) : Quiet x (lapseThrough p x) := by
  unfold lapseThrough
  split
  · exact .refl x
  · split
    · exact quiet_endLease _ x
    · exact .refl x

/-! ## The links -/

theorem quiet_linkChanged (p : PortId) (x : State) : Quiet x (linkChanged p x) :=
  (quiet_appendFault _ x).trans (quiet_raiseClass .link _)

theorem quiet_linkNotice (p : PortId) (x : State) : Quiet x (linkNotice p x) := by
  cases p
  · exact .refl x
  · exact quiet_notifyHead x

theorem quiet_setSignal (p : PortId) (b : Bool) (x : State) : Quiet x (setSignal p b x) := by
  cases p <;> exact .of_packets rfl rfl rfl

theorem quiet_enterTraining {p : PortId} (h : (x.port p).link ≠ .up) : Quiet x (enterTraining p x) := by
  refine quiet_of_port h (fun _ => (still_enterTraining p x).ort) ?_
  rintro rfl
  exact ((quiet_linkChanged .down _).trans (quiet_linkNotice .down _)).ofUpdate rfl rfl

theorem quiet_failTraining {p : PortId} (h : (x.port p).link ≠ .up) : Quiet x (failTraining p x) := by
  refine quiet_of_port h (fun _ => (still_failTraining p x).ort) ?_
  rintro rfl
  exact ((quiet_linkChanged .down _).trans (quiet_linkNotice .down _)).ofUpdate rfl rfl

theorem quiet_enterUp {p : PortId} (c : InitCounts) (h : (x.port p).link ≠ .up) : Quiet x (enterUp p c x) := by
  refine quiet_of_port h (fun _ => (still_enterUp p c x).ort) ?_
  rintro rfl
  have changed : Quiet x (linkChanged .down (x.setPort .down (x.port .down).trained)) :=
    (quiet_linkChanged .down _).ofUpdate rfl rfl
  have owners : ∀ y, Quiet y (ownersUp .down c y) := fun _ => .same rfl rfl
  exact (changed.trans (owners _)).trans (quiet_linkNotice .down _)

theorem quiet_endHoldOff {p : PortId} (h : (x.port p).link ≠ .up) : Quiet x (endHoldOff p x) := by
  refine quiet_of_port h (fun _ => (still_endHoldOff p x).ort) ?_
  rintro rfl
  unfold endHoldOff
  dsimp only
  split
  · exact Quiet.ofUpdate (y := x.setPort .down { x.port .down with holdOffTimer := none }) (quiet_enterTraining h)
      rfl rfl
  · exact .same rfl rfl

theorem quiet_detectPeer (p : PortId) (x : State) : Quiet x (detectPeer p x) := by
  have reported := quiet_setSignal p true x
  unfold detectPeer
  dsimp only
  split
  · rename_i h
    exact reported.trans (quiet_enterTraining (by rw [h.1]; decide))
  · exact reported

theorem quiet_takeInit (p : PortId) (c : InitCounts) (x : State) : Quiet x (takeInit p c x) := by
  unfold takeInit
  split
  · have h : (x.port p).link ≠ .up := by simp [*]
    split
    · exact quiet_enterUp c h
    · exact quiet_failTraining h
  · exact .refl x

/-! ## Time -/

theorem quiet_sendHeld (x : State) : Quiet x (sendHeld x) := .of_packets rfl rfl (List.append_nil _)

theorem quiet_passTime (n : Nat) (x : State) : Quiet x (passTime n x) := .of_packets rfl rfl rfl

theorem quiet_happenResend (x : State) : Quiet x (happenResend x) := by
  unfold happenResend
  split
  · rename_i l n _ _
    exact (quiet_produce l.holder.port (k := notePacket l.holder n (x.notice.reported ||| x.notice.pending) x)
      (fun _ _ => rfl) x).trans (.same rfl rfl)
  · exact .refl x
  · exact .refl x

/-! ## Management commands -/

theorem quiet_takeUnknown (x : State) : Quiet x (takeUnknown x) := by
  unfold takeUnknown
  split
  · exact .refl x
  · split
    · dsimp only
      split
      · exact (quiet_answer _ _ _ _).ofUpdate rfl rfl
      · exact (quiet_answer _ _ _ _).ofUpdate rfl rfl
    · exact .refl x

section Bodies

variable (c : QueuedCommand) (x : State)

theorem quiet_renewLease (l : Lease) : Quiet x (renewLease c l x) := by
  unfold renewLease
  split
  · have told : Quiet x (answer c .tooEarly (.spacingRemaining (spacing x - (x.now - l.lastRenewal)))
        { x with mgmt := { x.mgmt with earlyRenewals := x.mgmt.earlyRenewals + 1 } }) :=
      (quiet_answer c _ _ _).ofUpdate rfl rfl
    unfold earlyRenewal
    dsimp only
    split
    · exact told.trans (.same rfl rfl)
    · exact told.trans (quiet_endLease _ _)
  · exact (quiet_answer c _ _ _).ofUpdate rfl rfl

theorem quiet_doClaim : Quiet x (doClaim c x) := by
  unfold doClaim
  split
  · exact ((quiet_answer c _ _ _).trans (quiet_testSend _)).ofUpdate rfl rfl
  · split
    · exact quiet_renewLease c x _
    · exact quiet_answer c _ _ x

theorem quiet_doRenew : Quiet x (doRenew c x) := by
  unfold doRenew
  split
  · exact quiet_answer c _ _ x
  · exact quiet_renewLease c x _

theorem quiet_doRelease : Quiet x (doRelease c x) :=
  ((quiet_setLease none x).trans (quiet_answer c _ _ _)).trans (quiet_noticeLeaseEnd _)

theorem quiet_doRqRead : Quiet x (doRqRead c x) := by
  unfold doRqRead
  split <;> exact quiet_answer c _ _ x

theorem quiet_doOrtRead : Quiet x (doOrtRead c x) := by
  unfold doOrtRead
  split <;> exact quiet_answer c _ _ x

theorem quiet_doFlogRead : Quiet x (doFlogRead c x) := by
  unfold doFlogRead
  split <;> exact quiet_answer c _ _ x

theorem quiet_doFlogPop : Quiet x (doFlogPop c x) := by
  unfold doFlogPop
  dsimp only
  split_ifs
  · exact quiet_answer c _ _ x
  · exact quiet_answer c _ _ x
  · exact (quiet_answer c _ _ _).ofUpdate rfl rfl

theorem quiet_doWtRead : Quiet x (doWtRead c x) := by
  unfold doWtRead
  split
  · split
    · exact quiet_answer c _ _ x
    · split <;> exact quiet_answer c _ _ x
    · split <;> exact quiet_answer c _ _ x
  · exact quiet_answer c _ _ x

theorem quiet_doWtWrite : Quiet x (doWtWrite c x) := by
  unfold doWtWrite
  split
  · exact quiet_answer c _ _ x
  · split_ifs
    · exact quiet_answer c _ _ x
    · exact quiet_answer c _ _ x
    · exact (quiet_answer c _ _ _).ofUpdate rfl rfl

theorem quiet_doWtClear : Quiet x (doWtClear c x) := by
  unfold doWtClear
  split
  · exact quiet_answer c _ _ x
  · exact (quiet_answer c _ _ _).ofUpdate rfl rfl

theorem quiet_doCommit : Quiet x (doCommit c x) := by
  unfold doCommit
  split
  · exact quiet_answer c _ _ x
  · split
    · exact (quiet_answer c _ _ (holdCommit x)).ofUpdate rfl rfl
    · exact (quiet_swapBanks x).trans (quiet_answer c _ _ _)

theorem quiet_doCommitCancel : Quiet x (doCommitCancel c x) := by
  unfold doCommitCancel
  split
  · exact (quiet_cancelHeld x).trans (quiet_answer c _ _ _)
  · exact quiet_answer c _ _ x

theorem quiet_doReinstate : Quiet x (doReinstate c x) := by
  unfold doReinstate
  split
  · exact quiet_answer c _ _ x
  · split
    · exact ((quiet_notifyHeadOf _ _).trans (quiet_answer c _ _ _)).ofUpdate rfl rfl
    · exact quiet_answer c _ _ x

theorem quiet_doNoteAck : Quiet x (doNoteAck c x) := by
  unfold doNoteAck
  split
  · exact quiet_answer c _ _ x
  · split
    · exact ((quiet_answer c _ _ (acknowledge x)).trans (quiet_testSend _)).ofUpdate rfl rfl
    · exact quiet_answer c _ _ x

theorem quiet_doConfigWrite : Quiet x (doConfigWrite c x) := by
  unfold doConfigWrite
  split
  · exact quiet_answer c _ _ x
  · dsimp only
    split
    · exact (quiet_answer c _ _ _).ofUpdate rfl rfl
    · exact ((quiet_answer c _ _ _).trans (quiet_lapseThrough .down _)).ofUpdate rfl rfl

theorem quiet_doCountersRead : Quiet x (doCountersRead c x) := by
  unfold doCountersRead
  dsimp only
  split
  · exact (quiet_answer c _ _ x).trans (.same rfl rfl)
  · exact quiet_answer c _ _ x

end Bodies

end Sys2Proof.Proofs
end

