-- ==== Sys2Proof/Proofs/SlotEnds.lean ====
section
/-! PROOFS. Events that end the waiting of slots: expiries, withdrawals, the fall of the downstream link and the warm
reset. Through any number of them a slot goes on with pieces failed, becomes STALE, or is freed, and every OPEN slot
that leaves OPEN is answered with one Final (R46, R53, R56). -/

namespace Sys2Proof.Proofs

open Sys2Proof.Machine Sys2Proof.Safety Sys2Proof.Claims Sys2Proof.Laws

variable {x y z u s : State} {i : SlotNum} {t v : Tracked} {a b : Slot}

/-! ## Records whose pieces move by a relation -/

/-- Two records of one request: the fields of allocation kept, a Failure that is set kept, each piece's State moved by
the relation `R` (R44, R45, R53). -/
structure RequestMoves (R : PieceState → PieceState → Prop) (t u : Tracked) : Prop where
  fields : u = { t with failure := u.failure, pieces := u.pieces }
  failure : ∀ f, t.failure = some f → u.failure = some f
  pieces : List.Forall₂ (fun p p' => p' = { p with state := p'.state } ∧ R p.state p'.state) t.pieces u.pieces

variable {R S : PieceState → PieceState → Prop}

theorem RequestMoves.mono (hR : ∀ p q, R p q → S p q) (h : RequestMoves R t v) : RequestMoves S t v :=
  ⟨h.fields, h.failure, h.pieces.imp fun _ _ hp => ⟨hp.1, hR _ _ hp.2⟩⟩

theorem RequestMoves.trans {w : Tracked} (hR : ∀ {p q r}, R p q → R q r → R p r) (h : RequestMoves R t v)
    (k : RequestMoves R v w) : RequestMoves R t w where
  fields := by rw [k.fields, h.fields]
  failure f hf := k.failure f (h.failure f hf)
  pieces := by
    obtain ⟨hlen, hp⟩ := List.forall₂_iff_get.mp h.pieces
    obtain ⟨klen, kp⟩ := List.forall₂_iff_get.mp k.pieces
    refine List.forall₂_iff_get.mpr ⟨hlen.trans klen, fun n hn kn => ?_⟩
    obtain ⟨hsame, hmove⟩ := hp n hn (hlen ▸ hn)
    obtain ⟨ksame, kmove⟩ := kp n (hlen ▸ hn) kn
    exact ⟨by rw [ksame, hsame], hR hmove kmove⟩

theorem requestMoves_map {f : Piece → Piece} {e : Option Failure}
    (hf : ∀ p ∈ t.pieces, f p = { p with state := (f p).state } ∧ R p.state (f p).state)
    (he : ∀ c, t.failure = some c → e = some c) :
    RequestMoves R t { t with pieces := t.pieces.map f, failure := e } where
  fields := rfl
  failure := he
  pieces := by
    rw [List.forall₂_map_right_iff]
    exact List.forall₂_same.mpr hf

/-- A Failure that is set is kept, whatever fails then (R53). -/
theorem failure_kept {e : Option Failure} (f : Failure) : ∀ c, e = some c → some (e.getD f) = some c := by
  rintro c rfl
  rfl

theorem RequestMoves.sameWork (h : RequestMoves R t v) : SameWork t v :=
  ⟨h.fields, h.pieces.imp fun _ _ hp => hp.1⟩

theorem sameRequest_iff :
    sameRequest t v ↔ RequestMoves (fun p q => pieceMoves p q = true) t v :=
  ⟨fun ⟨h1, h2, h3⟩ => ⟨h1, h2, h3⟩, fun ⟨h1, h2, h3⟩ => ⟨h1, h2, h3⟩⟩

/-- A piece's State when its waiting has ended or goes on: a QUEUED piece may have FAILED with ABORTED or TIMEOUT. -/
def PieceEnds (p q : PieceState) : Prop := q = p ∨ p = .queued ∧ (q = .failed .aborted ∨ q = .failed .timeout)

theorem PieceEnds.trans {p q r : PieceState} (h : PieceEnds p q) (k : PieceEnds q r) : PieceEnds p r := by
  rcases h with rfl | ⟨rfl, h⟩
  · exact k
  · rcases k with rfl | ⟨rfl, -⟩
    · exact .inr ⟨rfl, h⟩
    · rcases h with h | h <;> exact nomatch h

theorem pieceMoves_refl (p : PieceState) : pieceMoves p p = true := by
  cases p <;> simp [pieceMoves]

theorem pieceMoves_of_ends {p q : PieceState} (h : PieceEnds p q) : pieceMoves p q = true := by
  rcases h with rfl | ⟨rfl, rfl | rfl⟩
  · exact pieceMoves_refl _
  · rfl
  · rfl

theorem requestEnds_refl (t : Tracked) : RequestMoves PieceEnds t t :=
  ⟨rfl, fun _ h => h, List.forall₂_same.mpr fun _ _ => ⟨rfl, .inl rfl⟩⟩

theorem requestEnds_expireRecord (t : Tracked) : RequestMoves PieceEnds t (expireRecord t) := by
  refine requestMoves_map (fun p _ => ?_) (failure_kept .timeout)
  unfold expirePiece
  split
  · exact ⟨rfl, .inr ⟨‹_›, .inr rfl⟩⟩
  · exact ⟨rfl, .inl rfl⟩

theorem requestEnds_withdrawRecord (q : List FifoEntry) (i : SlotNum) (t : Tracked) :
    RequestMoves PieceEnds t (withdrawRecord q i t) := by
  refine requestMoves_map (fun p _ => ?_) (failure_kept .aborted)
  split
  · rename_i h
    exact ⟨rfl, .inr ⟨by simpa using (Bool.and_eq_true_iff.mp h).2, .inl rfl⟩⟩
  · exact ⟨rfl, .inl rfl⟩

/-! ## Slots -/

/-- What the ending of waits makes of a slot (R43, R46). -/
inductive SlotEnds (a b : Slot) : Prop
  | stays (h : b = a)
  | goesOn {t u : Tracked} (was : a.occ = .opened t) (same : RequestMoves PieceEnds t u)
      (is : b = ⟨a.incarnation, .opened u⟩)
  | expires {t u : Tracked} (was : a.occ = .opened t) (same : RequestMoves PieceEnds t u)
      (is : b = ⟨a.incarnation, .stale u⟩)
  | freed (used : a.occ ≠ .free) (is : b = slotFreed a)

theorem SlotEnds.trans {c : Slot} (h : SlotEnds a b) (k : SlotEnds b c) : SlotEnds a c := by
  cases h with
  | stays h => exact h ▸ k
  | @goesOn t u was same is =>
    subst is
    cases k with
    | stays h => exact .goesOn was same h
    | goesOn was' same' is' =>
      obtain rfl := Occupancy.opened.inj was'
      exact .goesOn was (same.trans .trans same') is'
    | expires was' same' is' =>
      obtain rfl := Occupancy.opened.inj was'
      exact .expires was (same.trans .trans same') is'
    | freed _ is' => exact .freed (by simp [was]) is'
  | @expires t u was same is =>
    subst is
    cases k with
    | stays h => exact .expires was same h
    | goesOn was' | expires was' => exact nomatch was'
    | freed _ is' => exact .freed (by simp [was]) is'
  | freed used is =>
    subst is
    cases k with
    | stays h => exact .freed used h
    | goesOn was' | expires was' => exact nomatch was'
    | freed used' => exact absurd rfl used'

/-! ## The OPEN slots that owe a Final -/

/-- The slot is OPEN with a request of a requester and Tag. -/
def slotOwes (r : ReqNum) (g : Tag) (a : Slot) : Bool := a.openWith fun t => t.requester == r && t.tag == g

theorem owes_opened (r : ReqNum) (g : Tag) (h : a.occ = .opened t) :
    slotOwes r g a = (t.requester == r && t.tag == g) := by
  simp [slotOwes, Slot.openWith, h]

theorem owes_of_notOpen (r : ReqNum) (g : Tag) (h : ∀ t, a.occ ≠ .opened t) : slotOwes r g a = false := by
  unfold slotOwes Slot.openWith
  cases ho : a.occ with
  | opened t => exact absurd ho (h t)
  | free | stale => rfl

theorem finalsAndOpen_eq (r : ReqNum) (g : Tag) (x : State) :
    finalsAndOpen r g x = finals r g x + countSlots (slotOwes r g) x := rfl

/-- Slot `i` becomes `b`, and Finals are produced for what it no longer owes; the other slots stay. -/
structure ChangesSlot (i : SlotNum) (b : Slot) (x u : State) : Prop where
  ort : u.ort = put x.ort i b
  link : x.up.link = .up → u.up.link = .up
  finals : x.up.link = .up → ∀ r g,
    finals r g u + (if slotOwes r g b then 1 else 0) =
      finals r g x + if slotOwes r g (pick x.ort i) then 1 else 0

theorem ChangesSlot.after (h : ChangesSlot i b x y) (k : Quiet y u) : ChangesSlot i b x u where
  ort := k.ort.trans h.ort
  link e := k.link (h.link e)
  finals e r g := by rw [k.finals (h.link e), h.finals e]

theorem ChangesSlot.before (k : Quiet x y) (h : ChangesSlot i b y u) : ChangesSlot i b x u where
  ort := by rw [h.ort, k.ort]
  link e := h.link (k.link e)
  finals e r g := by rw [h.finals (k.link e), k.finals e, k.ort]

theorem ChangesSlot.conserved (h : ChangesSlot i b x u) (e : x.up.link = .up) (r : ReqNum) (g : Tag) :
    finalsAndOpen r g u = finalsAndOpen r g x := by
  have count := countSlots_of_slot (f := slotOwes r g) (i := i) (x := x) (u := u) fun j hj => by
    rw [h.ort, pick_put_other _ _ hj]
  have same := h.finals e r g
  rw [h.ort, pick_put_same] at count
  rw [finalsAndOpen_eq, finalsAndOpen_eq]
  omega

/-- A slot that owes the same Final as before. -/
theorem changesSlot_setOcc {o : Occupancy} (h : ∀ r g, slotOwes r g ⟨(pick x.ort i).incarnation, o⟩ =
    slotOwes r g (pick x.ort i)) : ChangesSlot i ⟨(pick x.ort i).incarnation, o⟩ x (setOcc i o x) :=
  ⟨rfl, id, fun _ r g => by rw [h r g]; rfl⟩

theorem changesSlot_goesOn (was : (pick x.ort i).occ = .opened t) (same : SameWork t v) :
    ChangesSlot i ⟨(pick x.ort i).incarnation, .opened v⟩ x (setOcc i (.opened v) x) :=
  changesSlot_setOcc fun r g => by rw [owes_opened r g was, owes_opened r g rfl, same.requester, same.tag]

/-- A slot that is not OPEN owes nothing. -/
theorem changesSlot_of_notOpen (was : ∀ t, (pick x.ort i).occ ≠ .opened t) (is : ∀ t, b.occ ≠ .opened t)
    (h : Quiet { x with ort := put x.ort i b } u) : ChangesSlot i b x u where
  ort := h.ort
  link := h.link
  finals e r g := by
    rw [owes_of_notOpen r g was, owes_of_notOpen r g is]
    exact h.finals e r g

/-- An OPEN slot that leaves OPEN after its Final has been produced. -/
theorem changesSlot_of_answered {k : OutPacket} (was : (pick x.ort i).occ = .opened t)
    (answers : ∀ r g, isFinalOf r g k = (t.requester == r && t.tag == g)) (is : ∀ t, b.occ ≠ .opened t)
    (h : Quiet { produce .up k x with ort := put x.ort i b } u) : ChangesSlot i b x u where
  ort := h.ort
  link e := h.link ((produce_link .up k x).trans e)
  finals e r g := by
    have told := finals_produce k e r g
    rw [owes_of_notOpen r g is, owes_opened r g was, ← answers r g]
    exact (h.finals ((produce_link .up k x).trans e) r g).trans told

/-! ## Closing -/

theorem closingPacket_answers {k : OutPacket} (h : closingPacket t = some k) (r : ReqNum) (g : Tag) :
    isFinalOf r g k = (t.requester == r && t.tag == g) := by
  unfold closingPacket at h
  split at h
  · obtain rfl := Option.some.inj h
    rfl
  · obtain rfl := Option.some.inj h
    rfl
  · exact nomatch h

/-- An OPEN slot that closes with a packet of the table's own (R55). -/
theorem changesSlot_closeSlot {k : OutPacket} (was : (pick x.ort i).occ = .opened t) (same : SameWork t v)
    (hk : closingPacket v = some k) : ChangesSlot i (slotFreed (pick x.ort i)) x (closeSlot i v x) := by
  have told := (still_produce .up k x).ort
  refine changesSlot_of_answered was (fun r g => ?_) (fun _ => nofun) ?_ (k := k)
  · rw [closingPacket_answers hk, same.requester, same.tag]
  · rw [closeSlot_of_some hk, slotClosed, told]
    exact .same rfl rfl

theorem changesSlot_freeSlot (was : ∀ t, (pick x.ort i).occ ≠ .opened t) :
    ChangesSlot i (slotFreed (pick x.ort i)) x (freeSlot i x) := by
  refine changesSlot_of_notOpen was (fun _ => nofun) ?_
  rw [freeSlot_eq]
  exact .same rfl rfl

/-! ## What an event that ends waits does -/

/-- Every slot is as the ending of waits leaves it; and while the upstream link is UP it stays UP and the Finals and
OPEN slots together stay the same (R56). -/
structure Ends (x u : State) : Prop where
  slots : ∀ j, SlotEnds (pick x.ort j) (pick u.ort j)
  link : x.up.link = .up → u.up.link = .up
  conserved : x.up.link = .up → ∀ r g, finalsAndOpen r g u = finalsAndOpen r g x

theorem Ends.trans (h : Ends x y) (k : Ends y u) : Ends x u :=
  ⟨fun j => (h.slots j).trans (k.slots j), fun e => k.link (h.link e),
    fun e r g => (k.conserved (h.link e) r g).trans (h.conserved e r g)⟩

theorem Quiet.conserved (h : Quiet x u) (e : x.up.link = .up) (r : ReqNum) (g : Tag) :
    finalsAndOpen r g u = finalsAndOpen r g x := by
  rw [finalsAndOpen_eq, finalsAndOpen_eq, h.finals e, countSlots_of_ort h.ort]

theorem Quiet.ends (h : Quiet x u) : Ends x u :=
  ⟨fun j => .stays (by rw [h.ort]), h.link, h.conserved⟩

theorem Ends.refl (x : State) : Ends x x := (Quiet.refl x).ends

theorem Ends.quiet (h : Ends x y) (k : Quiet y u) : Ends x u := h.trans k.ends

theorem ChangesSlot.ends (h : ChangesSlot i b x u) (hb : SlotEnds (pick x.ort i) b) : Ends x u where
  slots j := by
    rw [h.ort]
    by_cases hj : j = i
    · subst hj
      rwa [pick_put_same]
    · rw [pick_put_other _ _ hj]
      exact .stays rfl
  link := h.link
  conserved := h.conserved

theorem ends_forSlots {f : SlotNum → State → State} (h : ∀ i x, Ends x (f i x)) (x : State) :
    Ends x (forSlots f x) :=
  forSlots_induct f (Ends x) x (.refl x) fun i y hy => hy.trans (h i y)

theorem ends_closeSlot {k : OutPacket} (was : (pick x.ort i).occ = .opened t) (same : SameWork t v)
    (hk : closingPacket v = some k) : Ends x (closeSlot i v x) :=
  (changesSlot_closeSlot was same hk).ends (.freed (by simp [was]) rfl)

theorem ends_freeStale (was : (pick x.ort i).occ = .stale t) : Ends x (freeSlot i x) :=
  (changesSlot_freeSlot (by simp [was])).ends (.freed (by simp [was]) rfl)

/-! ## Withdrawal and quarantine -/

theorem closingPacket_of_fail (t : Tracked) (f : Failure) : ∃ k, closingPacket (t.fail f) = some k :=
  ⟨_, closingPacket_of_failure rfl⟩

theorem ends_withdrawSlot (q : List FifoEntry) (i : SlotNum) (x : State) : Ends x (withdrawSlot q i x) := by
  unfold withdrawSlot
  split
  · exact .refl x
  · rename_i t ho
    have was := openAt_eq_some.mp ho
    have same := requestEnds_withdrawRecord q i t
    split
    · dsimp only
      split
      · obtain ⟨k, hk⟩ : ∃ k, closingPacket (withdrawRecord q i t) = some k := closingPacket_of_fail _ _
        exact ends_closeSlot was same.sameWork hk
      · exact (changesSlot_goesOn was same.sameWork).ends (.goesOn was same rfl)
    · exact .refl x

theorem ends_withdraw (r : ReqNum) (x : State) : Ends x (withdraw r x) := by
  unfold withdraw
  dsimp only
  split
  · exact .refl x
  · have emptied : Quiet x (setFifo r [] x) := .same rfl rfl
    exact (emptied.ends.trans (ends_forSlots (ends_withdrawSlot _) _)).quiet
      ((quiet_discardPosted _ _).trans (quiet_notifyHeadOf r _))

theorem ends_enterQuarantine (o : Offence) (x : State) : Ends x (enterQuarantine o x) := by
  have marked : Quiet x (notifyHeadOf o.requester
      (setEntry o.requester { entryOf x o.requester with state := .quarantined } x)) :=
    (quiet_notifyHeadOf _ _).ofUpdate rfl rfl
  exact (marked.ends.trans (ends_withdraw _ _)).quiet
    (((quiet_appendFault _ _).trans (quiet_raiseClass _ _)).trans (quiet_takeDrainEnd _))

theorem ends_applyAction (a : Action) (o : Offence) (x : State) : Ends x (applyAction a o x) := by
  cases a with
  | reject => exact .refl x
  | strike =>
    have struck : Quiet x (setEntry o.requester
        { entryOf x o.requester with strikes := min 15 ((entryOf x o.requester).strikes + 1) } x) := .same rfl rfl
    simp only [applyAction]
    split
    · exact struck.ends.trans (ends_enterQuarantine o _)
    · exact struck.ends
  | quarantine => exact ends_enterQuarantine o x

theorem ends_writeState (w : RqWrite) (x : State) : Ends x (writeState w x) := by
  unfold writeState
  dsimp only
  split
  · exact .refl x
  · exact Quiet.ends (.same rfl rfl)
  · have disabled : Quiet x (setEntry w.requester { entryOf x w.requester with state := .disabled } x) := .same rfl rfl
    split
    · exact disabled.ends.trans (ends_withdraw _ _)
    · exact disabled.ends

theorem ends_writeRequester (w : RqWrite) (x : State) : Ends x (writeRequester w x) :=
  (ends_writeState w x).quiet ((quiet_notifyHeadOf _ _).ofUpdate rfl rfl)

theorem ends_doRqWrite (c : QueuedCommand) (x : State) : Ends x (doRqWrite c x) := by
  unfold doRqWrite
  split
  · exact (quiet_answer c _ _ x).ends
  · rename_i w _
    have written := fun res => (ends_writeRequester w x).quiet (quiet_answer c .ok res _)
    dsimp only
    split_ifs
    · exact (quiet_answer c _ _ x).ends
    · exact (written _).quiet (quiet_takeDrainEnd _)
    · exact written _

/-! ## Expiries -/

/-- An OPEN slot's deadline expires: the slot is answered with its Failure and leaves OPEN (R104). -/
theorem ends_leaveOpen (was : (pick x.ort i).occ = .opened t) {k : OutPacket}
    (answers : ∀ r g, isFinalOf r g k = (t.requester == r && t.tag == g)) (h : Quiet (produce .up k x) y) :
    Ends x (leaveOpen i t y) := by
  have ort : y.ort = x.ort := h.ort.trans (still_produce .up k x).ort
  have told : ∀ b, Quiet { produce .up k x with ort := put x.ort i b } { y with ort := put y.ort i b } :=
    fun b => ⟨by rw [ort], h.link, h.finals⟩
  have used : (pick x.ort i).occ ≠ .free := by simp [was]
  unfold leaveOpen
  split
  · refine (changesSlot_of_answered (b := ⟨(pick x.ort i).incarnation, .stale t⟩) was answers (fun _ => nofun)
      ((told _).trans ?_)).ends (.expires was (requestEnds_refl t) rfl)
    exact .same (by rw [setTimer_ort, setOcc_ort, ort]) rfl
  · refine (changesSlot_of_answered (b := slotFreed (pick x.ort i)) was answers (fun _ => nofun)
      ((told _).trans ?_)).ends (.freed used rfl)
    rw [freeSlot_eq]
    exact .same (by rw [ort]) rfl

theorem quiet_holdReleased (g : Generation) (x : State) : Quiet x (holdReleased g x) := by
  rw [holdReleased_eq]
  exact .same rfl rfl

theorem ends_expireDeadline (was : (pick x.ort i).occ = .opened t) : Ends x (expireDeadline i t x) := by
  have same := requestEnds_expireRecord t
  have removed := quiet_removeEntries i (expireRecord t).requester x
  have was' : (pick (removeEntries i (expireRecord t).requester x).ort i).occ = .opened t := by rw [removed.ort, was]
  have expired := removed.ends.trans ((changesSlot_goesOn was' same.sameWork).ends (.goesOn was' same rfl))
  refine (expired.trans (ends_leaveOpen (congrArg Slot.occ (pick_put_same _ _ _)) (fun _ _ => rfl)
    ((quiet_appendFault _ _).trans (quiet_holdReleased _ _)))).quiet (quiet_takeDrainEnd _)

theorem ends_expireReclaim (was : (pick x.ort i).occ = .stale t) : Ends x (expireReclaim i t x) := by
  have returned := quiet_returnRequest (t.pieces.countP fun p => p.state == .issued)
    (t.firstIssued.map Piece.window) (some t.generation) x
  exact (returned.ends.trans (ends_freeStale (by rw [returned.ort]; exact was))).quiet (quiet_appendFault _ _)

/-! ## Time -/

theorem ends_happen (e : TimedEvent) (x : State) (hdue : e.left x = some 0) : Ends x (e.happen x) := by
  cases e with
  | fillStep => exact Quiet.ends (.same rfl rfl)
  | fillCompletion => exact (quiet_completeFill x).ends
  | deadline i =>
    simp only [TimedEvent.happen, happenDeadline]
    split
    · exact .refl x
    · exact ends_expireDeadline (openAt_eq_some.mp ‹_›)
  | reclaim i =>
    simp only [TimedEvent.happen, happenReclaim]
    split
    · exact .refl x
    · exact ends_expireReclaim (staleAt_eq_some.mp ‹_›)
  | resend => exact (quiet_happenResend x).ends
  | lease => exact (quiet_endLease _ x).ends
  | training p =>
    refine (quiet_failTraining fun h => ?_).ends
    simp [TimedEvent.left, h] at hdue
  | holdOff p =>
    refine (quiet_endHoldOff fun h => ?_).ends
    simp [TimedEvent.left, h] at hdue

theorem ends_takeTimed (e : TimedEvent) (x : State) : Ends x (takeTimed e x) :=
  takeTimed_keeps (P := Ends x) (fun e y hy hdue => hy.trans (ends_happen e y hdue))
    (fun n y hy => hy.quiet ((quiet_sendHeld y).trans (quiet_passTime n _))) e x (.refl x)

/-! ## The fall of the downstream link -/

theorem ends_cutSlot (i : SlotNum) (x : State) : Ends x (cutSlot i x) := by
  unfold cutSlot
  split
  · exact .refl x
  · exact ends_freeStale ‹_›
  · rename_i t was
    obtain ⟨k, hk⟩ : ∃ k, closingPacket (cutRecord t) = some k := closingPacket_of_fail _ _
    exact ends_closeSlot was (sameWork_cutRecord t) hk

theorem quiet_lapseAtFall (x : State) : Quiet x (lapseAtFall x) := by
  unfold lapseAtFall
  split
  · dsimp only
    split
    · exact ((quiet_endDrain _).trans (quiet_lapseThrough .down _)).ofUpdate rfl rfl
    · exact ((quiet_lapseThrough .down _).trans (quiet_endDrain _)).ofUpdate rfl rfl
  · exact (quiet_lapseThrough .down x).trans (quiet_takeDrainEnd _)

theorem ends_downstreamLost (x : State) : Ends x (downstreamLost x) := by
  have told := (quiet_cutIssue (forSlots cutSlot x)).trans (quiet_notifyHead _)
  exact (ends_forSlots ends_cutSlot x).quiet ((told.trans (quiet_purgeCommands .down _)).trans (quiet_lapseAtFall _))

theorem ends_leaveUp_down (x : State) : Ends x (leaveUp .down x) := by
  have fallen : Quiet x (linkChanged .down (x.setPort .down (x.port .down).lost)) :=
    (quiet_linkChanged _ _).ofUpdate rfl rfl
  exact fallen.ends.trans (ends_downstreamLost _)

/-! ## The warm reset -/

theorem quiet_warmIntake (x : State) : Quiet x (warmIntake x) := by
  unfold warmIntake
  dsimp only
  split
  · exact .same rfl rfl
  · exact (quiet_produce .up (fun _ _ => rfl) _).ofUpdate rfl rfl

theorem ends_warmSlot (i : SlotNum) (x : State) : Ends x (warmSlot i x) := by
  unfold warmSlot
  split
  · exact .refl x
  · exact ends_freeStale ‹_›
  · rename_i t was
    have ort := (still_produce .up (.errsp t.requester t.tag .aborted) x).ort
    refine (changesSlot_of_answered (b := slotFreed (pick x.ort i)) (k := .errsp t.requester t.tag .aborted) was
      (fun _ _ => rfl) (fun _ => nofun) ?_).ends (.freed (by simp [was]) rfl)
    rw [freeSlot_eq, ort]
    exact .same rfl rfl

/-- The issue unit's, the commit unit's and the tables' parts of a warm reset (R78, R97, R112, R129, R147). -/
theorem quiet_warmUnits (x : State) :
    Quiet x (zeroResponseCounters (zeroRequesterCounters (warmCommit (warmIssue (cancelTimers x))))) := by
  have issue : Quiet x (warmIssue (cancelTimers x)) := .same rfl rfl
  have commit : ∀ y, Quiet y (warmCommit y) := fun _ => .same rfl rfl
  have counters : ∀ y, Quiet y (zeroResponseCounters (zeroRequesterCounters y)) := fun _ => .same rfl rfl
  exact (issue.trans (commit _)).trans (counters _)

/-- The management engine's and the notice unit's (R166, R185). -/
theorem quiet_warmManagers (x : State) : Quiet x (warmNotice (warmManagement x)) := .same rfl rfl

theorem ends_warmReset (p : Party) (x : State) : Ends x (warmReset p x) := by
  have begun := (quiet_warmIntake x).ends.trans (ends_forSlots ends_warmSlot _)
  exact begun.quiet (((quiet_warmUnits _).trans (quiet_warmManagers _)).trans (quiet_appendFault _ _))

end Sys2Proof.Proofs
end

