-- ==== Sys2Proof/Proofs/SlotTransitions.lean ====
section
/-! PROOFS. The transitions of one slot (R43, R45, R46, R53), and the two events that move one slot with its request: a
grant (R71) and a response (R83 to R91). -/

namespace Sys2Proof.Proofs

open Sys2Proof.Machine Sys2Proof.Safety Sys2Proof.Claims Sys2Proof.Laws

variable {x u s : State} {i : SlotNum} {t v : Tracked} {a b : Slot} {p : Piece}

/-! ## The transitions of a slot -/

/-- A slot stays, is allocated, goes on with its request, or is freed (R43, R45, R46, R53). -/
def SlotMoves (a b : Slot) : Prop :=
  (a.occ ≠ .free ∧ b = slotFreed a) ∨
    (b.incarnation = a.incarnation ∧
      (b.occ = a.occ ∨
        (∃ u, a.occ = .free ∧ b.occ = .opened u ∧ u.failure = none ∧ ∀ p ∈ u.pieces, p.state = .queued) ∨
        (∃ r u, a.occ = .opened r ∧ (b.occ = .opened u ∨ b.occ = .stale u) ∧ sameRequest r u) ∨
        ∃ r u, a.occ = .stale r ∧ b.occ = .stale u ∧ sameRequest r u))

theorem slotMoves_refl (a : Slot) : SlotMoves a a := .inr ⟨rfl, .inl rfl⟩

theorem slotMoves_freed (used : a.occ ≠ .free) : SlotMoves a (slotFreed a) := .inl ⟨used, rfl⟩

theorem slotMoves_goesOn (was : a.occ = .opened t) (same : sameRequest t v) :
    SlotMoves a ⟨a.incarnation, .opened v⟩ :=
  .inr ⟨rfl, .inr (.inr (.inl ⟨t, v, was, .inl rfl, same⟩))⟩

theorem slotMoves_staysStale (was : a.occ = .stale t) (same : sameRequest t v) :
    SlotMoves a ⟨a.incarnation, .stale v⟩ :=
  .inr ⟨rfl, .inr (.inr (.inr ⟨t, v, was, rfl, same⟩))⟩

theorem SlotEnds.slotMoves (h : SlotEnds a b) : SlotMoves a b := by
  have moves : ∀ {t u}, RequestMoves PieceEnds t u → sameRequest t u := fun same =>
    sameRequest_iff.mpr (same.mono fun _ _ => pieceMoves_of_ends)
  cases h with
  | stays h => exact h ▸ slotMoves_refl a
  | goesOn was same is => exact is ▸ slotMoves_goesOn was (moves same)
  | expires was same is =>
    exact .inr ⟨by rw [is], .inr (.inr (.inl ⟨_, _, was, .inr (by rw [is]), moves same⟩))⟩
  | freed used is => exact .inl ⟨used, is⟩

/-- A change of slot `i` alone. -/
theorem ChangesSlot.slotMoves (h : ChangesSlot i b x u) (hb : SlotMoves (pick x.ort i) b) (j : SlotNum) :
    SlotMoves (pick x.ort j) (pick u.ort j) := by
  rw [h.ort]
  by_cases hj : j = i
  · subst hj
    rwa [pick_put_same]
  · rw [pick_put_other _ _ hj]
    exact slotMoves_refl _

/-! ## One piece moves -/

/-- The pieces of a record that fits have different indices (R44). -/
theorem piece_unique (fit : piecesFit t = true) (hp : p ∈ t.pieces) {p' : Piece} (hp' : p' ∈ t.pieces)
    (h : p'.index = p.index) : p' = p := by
  unfold piecesFit at fit
  split at fit
  · rename_i p₀ hl
    rw [hl, List.mem_singleton] at hp hp'
    rw [hp, hp']
  · rename_i p₀ p₁ hl
    obtain ⟨h0, h1⟩ : p₀.index = 0 ∧ p₁.index = 1 := by
      simp only [Bool.and_eq_true, beq_iff_eq] at fit
      exact ⟨fit.1.1.1.1, fit.1.1.1.2⟩
    rw [hl, List.mem_pair] at hp hp'
    rcases hp with rfl | rfl
    · refine hp'.resolve_right fun e => ?_
      rw [e, h0, h1] at h
      exact absurd h (by decide)
    · refine hp'.resolve_left fun e => ?_
      rw [e, h0, h1] at h
      exact absurd h (by decide)
  · exact nomatch fit

/-- The piece `p` alone moves, by a transition of Table 3-3, and a Failure that is set stays. -/
theorem sameRequest_setPiece {z : PieceState} {e : Option Failure} (fit : piecesFit t = true) (hp : p ∈ t.pieces)
    (hz : pieceMoves p.state z = true) (he : ∀ c, t.failure = some c → e = some c) :
    sameRequest t { t.setPiece p.index z with failure := e } := by
  refine sameRequest_iff.mpr (requestMoves_map (fun p' hp' => ?_) he)
  split
  · rename_i h
    rw [piece_unique fit hp hp' h]
    exact ⟨rfl, hz⟩
  · exact ⟨rfl, pieceMoves_refl _⟩

theorem piecesFit_of_opened (h : SlotLaw s) (was : (pick s.ort i).occ = .opened t) : piecesFit t = true := by
  have fits := h i
  rw [was] at fits
  exact (Bool.and_eq_true_iff.mp fits).1

theorem piecesFit_of_stale (h : SlotLaw s) (was : (pick s.ort i).occ = .stale t) : piecesFit t = true := by
  have fits := h i
  rw [was] at fits
  simp only [occupancyFits, Bool.and_eq_true] at fits
  exact fits.1.1.1

/-! ## What an event does -/

/-- What an event does, but for an examination and the cold resets: it ends waits, or it moves one slot, or the upstream
port leaves UP. -/
inductive Event (s u : State) : Prop
  | ends (h : Ends s u)
  | changes {i : SlotNum} {b : Slot} (moves : SlotLaw s → FifoLaw s → SlotMoves (pick s.ort i) b)
      (h : ChangesSlot i b s u)
  | upLost (ort : u.ort = s.ort) (link : u.up.link ≠ .up)

theorem Event.quiet (h : Quiet s u) : Event s u := .ends h.ends

theorem Event.slotMoves (h : Event s u) (hs : SlotLaw s) (hf : FifoLaw s) (j : SlotNum) :
    SlotMoves (pick s.ort j) (pick u.ort j) := by
  cases h with
  | ends h => exact (h.slots j).slotMoves
  | changes moves h => exact h.slotMoves (moves hs hf) j
  | upLost ort _ => exact ort ▸ slotMoves_refl _

theorem Event.conserved (h : Event s u) (hs : s.up.link = .up) (hu : u.up.link = .up) (r : ReqNum) (g : Tag) :
    finalsAndOpen r g u = finalsAndOpen r g s := by
  cases h with
  | ends h => exact h.conserved hs r g
  | changes _ h => exact h.conserved hs r g
  | upLost _ link => exact absurd hu link

/-! ## Grants -/

/-- A head that names a piece of an OPEN slot names a QUEUED one (R65). -/
theorem queued_of_fifoLaw {r : ReqNum} {k : PieceIndex} {data : Option (List Byte)} {rest : List FifoEntry}
    (h : FifoLaw s) (hq : fifoOf s r = .tracked i k data :: rest) (was : (pick s.ort i).occ = .opened t)
    (hp : t.piece k = some p) : p.state = .queued := by
  obtain ⟨fits, -, -⟩ := h
  have head := fits r (.tracked i k data) (hq ▸ List.mem_cons_self)
  simp only [entryFits, openAt_eq_some.mpr was, hp, Option.any_some, Bool.and_eq_true, beq_iff_eq] at head
  exact head.2

theorem pieceRequest_notFinal (tag : DTag) (t : Tracked) (p : Piece) (data : Option (List Byte)) :
    NotFinal (pieceRequest tag t p data) := by
  intro r g
  unfold pieceRequest
  split <;> rfl

/-- A grant to a non-posted piece changes its slot's record and produces no Final (R71). -/
theorem changesSlot_sendTracked (r : ReqNum) (data : Option (List Byte)) (rest : List FifoEntry)
    (was : (pick x.ort i).occ = .opened t) :
    ChangesSlot i ⟨(pick x.ort i).incarnation, .opened (t.setPiece p.index .issued)⟩ x
      (sendTracked r i t p data rest x) := by
  have sent : Quiet x (produce .down (pieceRequest ⟨i, p.index, (pick x.ort i).incarnation⟩ t p data)
      { x with issue := { x.issue with requestPool := x.issue.requestPool.spend } }) :=
    (quiet_produce .down (pieceRequest_notFinal _ t p data) _).ofUpdate rfl rfl
  have issued := changesSlot_goesOn (by rw [sent.ort]; exact was) (sameWork_setPiece t p.index .issued)
  rw [sent.ort] at issued
  exact (ChangesSlot.before sent issued).after (quiet_granted _ _ _)

theorem quiet_sendPosted (r : ReqNum) (a : Addr) (n : Nat) (data : List Byte) (rest : List FifoEntry) (x : State) :
    Quiet x (sendPosted r a n data rest x) :=
  ((quiet_produce .down (fun _ _ => rfl) _).trans (quiet_granted _ _ _)).ofUpdate rfl rfl

theorem event_grantNext (s : State) : Event s (grantNext s) := by
  unfold grantNext
  split
  · exact .quiet (.refl s)
  · rename_i r _
    have path := quiet_takePiece s
    obtain ⟨_, _, _, shape⟩ := takePiece_shape s
    have fifo : fifoOf (takePiece s) r = fifoOf s r := by rw [shape]; rfl
    unfold grantTo
    split
    · exact .quiet path
    · exact .quiet (path.trans (quiet_sendPosted _ _ _ _ _ _))
    · rename_i i k data rest hq
      split
      · exact .quiet path
      · rename_i t ho
        have was := openAt_eq_some.mp ho
        split
        · exact .quiet path
        · rename_i p hp
          have sent := changesSlot_sendTracked (p := p) r data rest was
          rw [path.ort] at sent was
          refine .changes (fun hs hf => slotMoves_goesOn was ?_) (.before path sent)
          have queued := queued_of_fifoLaw hf (fifo ▸ hq) was hp
          exact sameRequest_setPiece (piecesFit_of_opened hs was) (List.mem_of_find?_eq_some hp)
            (by rw [queued]; rfl) fun _ h => h

/-! ## Responses -/

theorem awaited_spec {r : Response} (h : awaited t r = some p) :
    p ∈ t.pieces ∧ p.state = .issued ∧ shapeFits t p r.body = true := by
  obtain ⟨hp, hfit⟩ := Option.filter_eq_some_iff.mp h
  obtain ⟨hstate, hshape⟩ := Bool.and_eq_true_iff.mp hfit
  exact ⟨List.mem_of_find?_eq_some hp, beq_iff_eq.mp hstate, hshape⟩

theorem awaited_of_toOpen {r : Response} (h : matchResponse s r = .toOpen t p) : awaited t r = some p := by
  simp only [matchResponse, matchResponse_toOpen h] at h
  split at h
  · cases ha : awaited t r <;> simp_all
  · exact nomatch h

theorem awaited_of_toStale {r : Response} (h : matchResponse s r = .toStale t p) : awaited t r = some p := by
  simp only [matchResponse, matchResponse_toStale h] at h
  split at h
  · cases ha : awaited t r <;> simp_all
  · exact nomatch h

/-- An OPEN slot after the record `v` has come of an answer (R54). -/
def settledSlot (a : Slot) (v : Tracked) : Slot :=
  if v.resolved then slotFreed a else ⟨a.incarnation, .opened v⟩

theorem slotMoves_settledSlot (was : a.occ = .opened t) (same : sameRequest t v) : SlotMoves a (settledSlot a v) := by
  unfold settledSlot
  split
  · exact slotMoves_freed (by simp [was])
  · exact slotMoves_goesOn was same

/-- An answer whose record closes, when it does, with a packet of the table's own (R55). -/
theorem changesSlot_settleOpen {k : OutPacket} (was : (pick x.ort i).occ = .opened t) (same : SameWork t v)
    (hk : closingPacket v = some k) : ChangesSlot i (settledSlot (pick x.ort i) v) x (settleOpen i v x) := by
  unfold settleOpen settledSlot
  split
  · exact changesSlot_closeSlot was same hk
  · exact changesSlot_goesOn was same

/-- A read without a Failure is closed by the RDRSP that is forwarded with Final set (R55, R83). -/
theorem changesSlot_forwardedRead (was : (pick x.ort i).occ = .opened t) (same : SameWork t v) (kind : v.kind = .read)
    (data : List Byte) : ChangesSlot i (settledSlot (pick x.ort i) v) x
      (settleOpen i v (produce .up (forwardedRead v p data) x)) := by
  have ort := (still_produce .up (forwardedRead v p data) x).ort
  have final : ∀ r g, isFinalOf r g (forwardedRead v p data) =
      (v.resolved && v.failure.isNone && (v.requester == r) && (v.tag == g)) := fun _ _ => rfl
  by_cases closes : v.resolved = true ∧ v.failure = none
  · obtain ⟨resolved, failure⟩ := closes
    have silent : closingPacket v = none := by rw [closingPacket, failure, kind]
    rw [settleOpen, if_pos resolved, settledSlot, if_pos resolved, closeSlot_of_none silent]
    refine changesSlot_of_answered was (fun r g => ?_) (fun _ => nofun) (k := forwardedRead v p data) ?_
    · simp [final, resolved, failure, same.requester, same.tag]
    · rw [slotClosed, ort]
      exact .same rfl rfl
  · have forwarded : Quiet x (produce .up (forwardedRead v p data) x) := by
      refine quiet_produce .up (fun r g => ?_) x
      rw [final, Bool.and_assoc, Bool.and_eq_false_imp]
      intro h
      exact absurd (by simpa using h) closes
    have was' := ort.symm ▸ was
    cases hf : v.failure with
    | some f =>
      have settled := changesSlot_settleOpen was' same (closingPacket_of_failure hf)
      rw [ort] at settled
      exact .before forwarded settled
    | none =>
      have waits : ¬ v.resolved = true := fun h => closes ⟨h, hf⟩
      rw [settleOpen, if_neg waits, settledSlot, if_neg waits]
      have goesOn := changesSlot_goesOn was' same
      rw [ort] at goesOn
      exact .before forwarded goesOn

theorem closingPacket_of_write (h : t.kind = .write) : ∃ k, closingPacket t = some k := by
  unfold closingPacket
  cases t.failure with
  | some f => exact ⟨_, rfl⟩
  | none => exact ⟨_, by rw [h]⟩

/-- The record that a response makes of the record of an OPEN slot (R83 to R86). -/
def answeredRecord (t : Tracked) (p : Piece) : ResponseBody → Tracked
  | .rdrsp _ _ | .wrrsp => t.setPiece p.index .done
  | .errsp c => (t.setPiece p.index (.failed (.downstream c))).fail (.downstream c)

theorem changesSlot_answerOpen (was : (pick x.ort i).occ = .opened t) {body : ResponseBody}
    (fits : shapeFits t p body = true) :
    ChangesSlot i (settledSlot (pick x.ort i) (answeredRecord t p body)) x (answerOpen i t p body x) := by
  cases body with
  | rdrsp length data =>
    have kind : t.kind = .read := by
      simp only [shapeFits, Bool.and_eq_true, beq_iff_eq] at fits
      exact fits.1.1
    exact changesSlot_forwardedRead was (sameWork_setPiece t _ _) kind data
  | wrrsp =>
    obtain ⟨k, hk⟩ := closingPacket_of_write (t := t.setPiece p.index .done) (beq_iff_eq.mp fits)
    exact changesSlot_settleOpen was (sameWork_setPiece t _ _) hk
  | errsp c =>
    have logged : Quiet x (if logsError x t p then appendFault (downstreamErrorReport t p c) x else x) := by
      split
      · exact quiet_appendFault _ x
      · exact .refl x
    obtain ⟨k, hk⟩ := closingPacket_of_fail (t.setPiece p.index (.failed (.downstream c))) (.downstream c)
    have settled := changesSlot_settleOpen (by rw [logged.ort]; exact was) (sameWork_setPiece_fail t _ _ _) hk
    rw [logged.ort] at settled
    exact .before logged settled

theorem sameRequest_answeredRecord (fit : piecesFit t = true) (hp : p ∈ t.pieces) (issued : p.state = .issued)
    (body : ResponseBody) : sameRequest t (answeredRecord t p body) := by
  have moves : ∀ {z}, pieceMoves .issued z = true → pieceMoves p.state z = true := fun h => by rwa [issued]
  cases body with
  | rdrsp | wrrsp => exact sameRequest_setPiece fit hp (moves rfl) fun _ h => h
  | errsp c => exact sameRequest_setPiece fit hp (moves rfl) (failure_kept _)

/-- A STALE slot after an answer (R91). -/
def staleAnswered (a : Slot) (v : Tracked) : Slot :=
  if v.hasIssued then ⟨a.incarnation, .stale v⟩ else slotFreed a

theorem changesSlot_answerStale (was : (pick x.ort i).occ = .stale t) (p : Piece) (body : ResponseBody) :
    ChangesSlot i (staleAnswered (pick x.ort i) (t.setPiece p.index (answeredState body))) x
      (answerStale i t p body x) := by
  have notOpen : ∀ v, (pick x.ort i).occ ≠ .opened v := by simp [was]
  unfold answerStale staleAnswered
  dsimp only
  split
  · refine changesSlot_setOcc fun r g => ?_
    rw [owes_of_notOpen r g notOpen]
    exact owes_of_notOpen r g fun _ => nofun
  · exact changesSlot_freeSlot notOpen

theorem slotMoves_staleAnswered (was : a.occ = .stale t) (same : sameRequest t v) :
    SlotMoves a (staleAnswered a v) := by
  unfold staleAnswered
  split
  · exact slotMoves_staysStale was same
  · exact slotMoves_freed (by simp [was])

theorem event_takeResponse (r : Response) (s : State) : Event s (takeResponse r s) := by
  unfold takeResponse
  split
  · split
    · rename_i t p hm
      have was := matchResponse_toOpen hm
      obtain ⟨mem, issued, fits⟩ := awaited_spec (awaited_of_toOpen hm)
      exact .changes
        (fun hs _ => slotMoves_settledSlot was
          (sameRequest_answeredRecord (piecesFit_of_opened hs was) mem issued r.body))
        ((changesSlot_answerOpen was fits).after ((quiet_returnRequest _ _ _ _).trans (quiet_takeDrainEnd _)))
    · rename_i t p hm
      have was := matchResponse_toStale hm
      obtain ⟨mem, issued, -⟩ := awaited_spec (awaited_of_toStale hm)
      refine .changes (fun hs _ => slotMoves_staleAnswered was ?_)
        ((changesSlot_answerStale was p r.body).after (quiet_returnRequest _ _ _ _))
      exact sameRequest_setPiece (piecesFit_of_stale hs was) mem (by rw [issued]; cases r.body <;> rfl) fun _ h => h
    · exact .quiet (((quiet_appendFault _ _).trans (quiet_returnRequest _ _ _ _)).ofUpdate rfl rfl)
  · exact .quiet (.refl s)

end Sys2Proof.Proofs
end

