-- ==== Sys2Proof/Proofs/SlotEvents.lean ====
section
/-! PROOFS. Each command of the table, but for an examination and the cold resets, is an event that ends waits, moves
one slot, or takes the upstream port from UP. -/

namespace Sys2Proof.Proofs

open Sys2Proof.Machine Sys2Proof.Safety Sys2Proof.Claims Sys2Proof.Laws

variable {x u s : State}

/-! ## The links -/

theorem leaveUp_up (x : State) : (leaveUp .up x).ort = x.ort ∧ (leaveUp .up x).up.link = .down := by
  obtain ⟨_, _, _, _, changed⟩ := linkChanged_shape .up (x.setPort .up (x.port .up).lost)
  obtain ⟨_, _, _, _, _, _, _, lapsed⟩ := lapseThrough_shape .up (purgeCommands .up (discardIntake
    (linkChanged .up (x.setPort .up (x.port .up).lost))))
  have whole : leaveUp .up x = lapseThrough .up (purgeCommands .up (discardIntake
    (linkChanged .up (x.setPort .up (x.port .up).lost)))) := rfl
  rw [whole, lapsed, changed]
  exact ⟨rfl, rfl⟩

theorem event_leaveUp (p : PortId) (h : Quiet s x) : Event s (leaveUp p x) := by
  cases p with
  | up =>
    obtain ⟨ort, link⟩ := leaveUp_up x
    exact .upLost (ort.trans h.ort) (by rw [link]; decide)
  | down => exact .ends (h.ends.trans (ends_leaveUp_down x))

theorem event_dropLink (p : PortId) (h : Quiet s x) : Event s (dropLink p x) := by
  unfold dropLink
  split
  · exact .quiet h
  · rename_i training
    exact .quiet (h.trans (quiet_failTraining (by rw [training]; decide)))
  · exact event_leaveUp p h

theorem event_takeInitWhileUp (p : PortId) (s : State) : Event s (takeInitWhileUp p s) := by
  unfold takeInitWhileUp
  split
  · exact event_leaveUp p (.refl s)
  · exact .quiet (.refl s)

theorem quiet_releaseReset (k : Straps) (x : State) : Quiet x (releaseReset k x) := by
  unfold releaseReset
  split
  · exact .same rfl rfl
  · exact .refl x

/-! ## Every command -/

theorem event_whenRunning {f : State → State} (h : whenRunning f s = .next u) (hf : Event s (f s)) : Event s u := by
  obtain rfl : (if s.resetHeld then s else f s) = u := Host.Outcome.next.inj h
  split
  · exact .quiet (.refl s)
  · exact hf

theorem event_quiet {f : State → State} (h : whenRunning f s = .next u) (hf : ∀ x, Quiet x (f x)) : Event s u :=
  event_whenRunning h (.quiet (hf s))

theorem ends_takeCommand {k : Command} {body : QueuedCommand → State → State} (hbody : ∀ c x, Ends x (body c x))
    (x : State) : Ends x (takeCommand k body x) := by
  have popped : Quiet x (popCommand x) := .same rfl rfl
  unfold takeCommand
  split
  · exact .refl x
  · rename_i c _ _
    split
    · unfold decideCommand
      split_ifs
      · exact (popped.trans (quiet_answer c _ _ _)).ends
      · exact (popped.trans (quiet_answer c _ _ _)).ends
      · exact (popped.trans (quiet_answer c _ _ _)).ends
      · exact popped.ends.trans (hbody c _)
    · exact .refl x

theorem event_command {k : Command} {body : QueuedCommand → State → State}
    (h : whenRunning (takeCommand k body) s = .next u) (hbody : ∀ c x, Ends x (body c x)) : Event s u :=
  event_whenRunning h (.ends (ends_takeCommand hbody s))

theorem event_quietCommand {k : Command} {body : QueuedCommand → State → State}
    (h : whenRunning (takeCommand k body) s = .next u) (hbody : ∀ c x, Quiet x (body c x)) : Event s u :=
  event_command h fun c x => (hbody c x).ends

theorem event_timed {e : TimedEvent} (h : whenRunning (takeTimed e) s = .next u) : Event s u :=
  event_whenRunning h (.ends (ends_takeTimed e s))

theorem exec_event {c : Instr} (h : exec c s = .next u) (head : c ≠ .headExamination)
    (cold : ∀ k b, c ≠ .resetNAssert ∧ c ≠ .powerUp k b) : Event s u := by
  cases c with
  | upstreamPacketArrival p => exact event_quiet h (quiet_arriveUpstream p)
  | upstreamStrayPacket _ r => exact event_quiet h (quiet_strayUpstream r)
  | upstreamCretDiscard _ _ => exact event_quiet (f := fun x => x) h .refl
  | headExamination => exact absurd rfl head
  | mcmdAtHead => exact event_quiet h quiet_moveHead
  | grant => exact event_whenRunning h (event_grantNext s)
  | responseArrival r => exact event_whenRunning h (event_takeResponse r s)
  | downstreamCret cls n => exact event_quiet h (quiet_takeCret cls n)
  | downstreamStrayPacket _ => exact event_quiet (f := fun x => x) h .refl
  | downstreamMcmdArrival m => exact event_quiet h (quiet_arriveDownstream m)
  | deadlineExpiry i => exact event_timed h
  | reclaimExpiry i => exact event_timed h
  | drainEnd => exact event_quiet h quiet_takeDrainEnd
  | fillStep => exact event_timed h
  | fillCompletion => exact event_timed h
  | resendExpiry => exact event_timed h
  | leaseTimerExpiry => exact event_timed h
  | identify => exact event_quietCommand h fun c => quiet_answer c _ _
  | status => exact event_quietCommand h fun c x => quiet_answer c _ _ x
  | claim => exact event_quietCommand h quiet_doClaim
  | renew => exact event_quietCommand h quiet_doRenew
  | release => exact event_quietCommand h quiet_doRelease
  | rqRead => exact event_quietCommand h quiet_doRqRead
  | ortRead => exact event_quietCommand h quiet_doOrtRead
  | flogRead => exact event_quietCommand h quiet_doFlogRead
  | flogPop => exact event_quietCommand h quiet_doFlogPop
  | wtRead => exact event_quietCommand h quiet_doWtRead
  | wtWrite => exact event_quietCommand h quiet_doWtWrite
  | wtClear => exact event_quietCommand h quiet_doWtClear
  | commit => exact event_quietCommand h quiet_doCommit
  | commitCancel => exact event_quietCommand h quiet_doCommitCancel
  | rqWrite => exact event_command h ends_doRqWrite
  | reinstate => exact event_quietCommand h quiet_doReinstate
  | noteAck => exact event_quietCommand h quiet_doNoteAck
  | configRead => exact event_quietCommand h fun c x => quiet_answer c _ _ x
  | configWrite => exact event_quietCommand h quiet_doConfigWrite
  | countersRead => exact event_quietCommand h quiet_doCountersRead
  | partReset => exact event_command h fun c x => (quiet_answer c _ _ x).ends.trans (ends_warmReset _ _)
  | peerDetect p =>
    obtain rfl := Host.Outcome.next.inj h
    split
    · exact .quiet (quiet_setSignal p true s)
    · exact .quiet (quiet_detectPeer p s)
  | initReceived p n => exact event_quiet h (quiet_takeInit p n)
  | initWhileUp p => exact event_whenRunning h (event_takeInitWhileUp p s)
  | trainingTimerExpiry p => exact event_timed h
  | holdOffExpiry p => exact event_timed h
  | lossOfSignal p =>
    obtain rfl := Host.Outcome.next.inj h
    split
    · exact .quiet (quiet_setSignal p false s)
    · exact event_dropLink p (quiet_setSignal p false s)
  | errorBurst p => exact event_whenRunning h (event_dropLink p (.refl s))
  | resetNAssert => exact absurd rfl (cold ⟨0, false⟩ false).1
  | resetNRelease k =>
    obtain rfl := Host.Outcome.next.inj h
    exact .quiet (quiet_releaseReset k s)
  | powerUp k b => exact absurd rfl (cold k b).2
  | unknownCommand => exact event_quiet h quiet_takeUnknown

end Sys2Proof.Proofs
end

