-- ==== Sys2Proof/Proofs/ClosingResponses.lean ====
section
/-! PROOFS. What an examination does to the queue, the slots and the Finals owed (R35, R36, R47); and the two laws that
every event keeps: the closing-response law (R56) and the transitions of the slots (R43, R45, R46, R53). -/

namespace Sys2Proof.Proofs

open Sys2Proof.Machine Sys2Proof.Safety Sys2Proof.Claims Sys2Proof.Laws

variable {x y u s : State} {i : SlotNum} {q : Request} {rest : List IntakePacket}

/-! ## Examinations -/

/-- The request is a non-posted one of a requester and Tag. -/
def asksFor (r : ReqNum) (g : Tag) (q : Request) : Bool := q.kind != .pwreq && q.requester == r && q.tag == g

/-- The request `q` leaves the head of the queue; a non-posted one with a Final produced or a slot allocated for it. -/
structure Takes (q : Request) (x u : State) : Prop where
  queue : u.intake.queue = x.intake.queue.tail
  link : x.up.link = .up → u.up.link = .up
  taken : x.up.link = .up → ∀ r g, finalsAndOpen r g u = finalsAndOpen r g x + if asksFor r g q then 1 else 0

theorem Takes.ends (h : Takes q x y) (k : Ends y u) (hq : u.intake.queue = y.intake.queue) : Takes q x u where
  queue := hq.trans h.queue
  link e := k.link (h.link e)
  taken e r g := by rw [k.conserved (h.link e), h.taken e]

theorem Takes.quiet (h : Takes q x y) (k : Quiet y u) (hq : u.intake.queue = y.intake.queue) : Takes q x u :=
  h.ends k.ends hq

theorem asksFor_of_posted (h : q.kind = .pwreq) (r : ReqNum) (g : Tag) : asksFor r g q = false := by
  simp [asksFor, h]

theorem asksFor_of_nonPosted (h : q.kind ≠ .pwreq) (r : ReqNum) (g : Tag) :
    asksFor r g q = (q.requester == r && q.tag == g) := by
  rw [asksFor, bne_iff_ne.mpr h, Bool.true_and]

theorem leaveQueue_queue (x : State) : (leaveQueue x).intake.queue = x.intake.queue.tail := by
  obtain ⟨_, h⟩ := leaveQueue_shape x
  rw [h]

theorem appendFault_intake (r : FaultReport) (x : State) : (appendFault r x).intake = x.intake := by
  obtain ⟨_, _, _, _, h⟩ := appendFault_shape r x
  rw [h]

/-- A posted request leaves the queue with no answer. -/
theorem takes_of_posted (hk : q.kind = .pwreq) (h : Quiet x y) (hq : y.intake.queue = x.intake.queue) :
    Takes q x (leaveQueue y) where
  queue := by rw [leaveQueue_queue, hq]
  link := (h.trans (quiet_leaveQueue y)).link
  taken e r g := by
    rw [asksFor_of_posted hk, (h.trans (quiet_leaveQueue y)).conserved e]
    rfl

/-- A refused non-posted request leaves the queue after its ERRSP (R36). -/
theorem takes_of_answered (hk : q.kind ≠ .pwreq) {code : ErrCode}
    (h : Quiet (produce .up (.errsp q.requester q.tag code) x) y) (hq : y.intake.queue = x.intake.queue) :
    Takes q x (leaveQueue y) := by
  have left := h.trans (quiet_leaveQueue y)
  have link := produce_link .up (.errsp q.requester q.tag code) x
  have ort := (still_produce .up (.errsp q.requester q.tag code) x).ort
  refine ⟨by rw [leaveQueue_queue, hq], fun e => left.link (link.trans e), fun e r g => ?_⟩
  rw [left.conserved (link.trans e), finalsAndOpen_eq, finalsAndOpen_eq, finals_produce _ e, countSlots_of_ort ort,
    asksFor_of_nonPosted hk]
  exact Nat.add_right_comm _ _ _

theorem takes_refuseRequest (q : Request) (code : ErrCode) (report : Option FaultReport) (x : State) :
    Takes q x (refuseRequest q code report x) := by
  have recorded : ∀ y, Takes q x (leaveQueue y) → Takes q x (match report with
      | some f => appendFault f (leaveQueue y)
      | none => leaveQueue y) := by
    intro y h
    cases report with
    | none => exact h
    | some f => exact h.quiet (quiet_appendFault f _) (congrArg Intake.queue (appendFault_intake f _))
  have answered : q.kind ≠ .pwreq → ∀ e, Takes q x (leaveQueue (setEntry q.requester e
      (produce .up (.errsp q.requester q.tag code) x))) := fun hk _ =>
    takes_of_answered hk (.same rfl rfl) (congrArg Intake.queue (produce_intake _ _ x))
  unfold refuseRequest
  refine recorded _ ?_
  cases hk : q.kind with
  | pwreq => exact takes_of_posted hk (quiet_discardPosted 1 x) rfl
  | rdreq | wrreq => exact answered (by rw [hk]; decide) _

theorem applyAction_queue (a : Action) (o : Offence) (x : State) :
    (applyAction a o x).intake.queue = x.intake.queue := by
  have entered : ∀ y, (enterQuarantine o y).intake.queue = y.intake.queue := by
    intro y
    obtain ⟨_, _, _, _, _, _, _, _, _, _, _, h⟩ := enterQuarantine_shape o y
    rw [h]
  cases a with
  | reject => rfl
  | strike =>
    simp only [applyAction]
    split
    · exact entered _
    · rfl
  | quarantine => exact entered x

theorem stallHead_queue (a b : Bool) (r : ReqNum) (x : State) :
    (stallHead a b r x).intake.queue = x.intake.queue := by
  unfold stallHead
  dsimp only
  split
  · obtain ⟨_, _, _, h⟩ := raiseClass_shape .exhaust
      { x with intake := { x.intake with stall := stallOf a b r, examDue := false, exhaustRaised := true } }
    rw [h]
  · rfl

theorem quiet_enqueueAccepted (r : ReqNum) (es : List FifoEntry) (x : State) :
    Quiet x (enqueueAccepted r es x) :=
  (quiet_leaveQueue _).ofUpdate rfl rfl

/-- An acceptance allocates one slot that was FREE, with its pieces QUEUED and no Failure (R35, R47). -/
theorem acceptTracked_allocates (ps : List GrantedPiece) (g : Generation) (free : (pick x.ort i).occ = .free)
    (hk : q.kind ≠ .pwreq) :
    Takes q x (acceptTracked i q ps g x) ∧
      ∀ j, SlotMoves (pick x.ort j) (pick (acceptTracked i q ps g x).ort j) := by
  have left := quiet_enqueueAccepted q.requester (ps.map (trackedEntry i q)) (allocate i (newRecord x q ps g) x)
  have ort : (acceptTracked i q ps g x).ort =
      put x.ort i ⟨(pick x.ort i).incarnation, .opened (newRecord x q ps g)⟩ := left.ort
  refine ⟨⟨leaveQueue_queue _, left.link, fun e r g' => ?_⟩, fun j => ?_⟩
  · have count := countSlots_of_slot (f := slotOwes r g') (i := i) (x := x) (u := acceptTracked i q ps g x)
      fun j hj => by rw [ort, pick_put_other _ _ hj]
    rw [ort, pick_put_same, owes_of_notOpen r g' (by simp [free]), owes_opened r g' rfl] at count
    have same : finals r g' (acceptTracked i q ps g x) = finals r g' x := left.finals e r g'
    rw [finalsAndOpen_eq, finalsAndOpen_eq, same, asksFor_of_nonPosted hk, Nat.add_assoc]
    exact congrArg _ count
  · rw [ort]
    by_cases hj : j = i
    · subst hj
      rw [pick_put_same]
      refine .inr ⟨rfl, .inr (.inl ⟨_, free, rfl, rfl, fun p hp => ?_⟩)⟩
      obtain ⟨_, -, rfl⟩ := List.mem_map.mp hp
      rfl
    · rw [pick_put_other _ _ hj]
      exact slotMoves_refl _

/-- What HEAD_EXAMINATION does: nothing to the queue and the table, or it takes the request at the head. -/
inductive Examined (s u : State) : Prop
  | waits (h : Quiet s u) (queue : u.intake.queue = s.intake.queue)
  | takes {q : Request} {rest : List IntakePacket} (head : s.intake.queue = .request q :: rest) (h : Takes q s u)
      (slots : ∀ i, SlotMoves (pick s.ort i) (pick u.ort i))

theorem examined_resourceCheck (ps : List GrantedPiece) (g : Generation)
    (head : s.intake.queue = .request q :: rest) : Examined s (resourceCheck q ps g s) := by
  have stalls : ∀ a b, Examined s (stallHead a b q.requester s) := fun a b =>
    .waits (quiet_stallHead a b _ s) (stallHead_queue a b _ s)
  unfold resourceCheck
  dsimp only
  split
  · rename_i hnp
    split
    · split
      · obtain ⟨taken, slots⟩ := acceptTracked_allocates ps g (firstFree_free ‹_›) (nonPosted_iff.mp hnp)
        exact .takes head taken slots
      · exact stalls _ _
    · exact stalls _ _
  · rename_i hnp
    have hk : q.kind = .pwreq := not_not.mp (mt nonPosted_iff.mpr hnp)
    split
    · have left := quiet_enqueueAccepted q.requester (ps.map (postedEntry q)) s
      exact .takes head (takes_of_posted hk (.same rfl rfl) rfl) fun i => by
        rw [show (acceptPosted q ps s).ort = s.ort from left.ort]
        exact slotMoves_refl _
    · exact stalls _ _

theorem examined_examine (head : s.intake.queue = .request q :: rest) :
    Examined s (examine q s) := by
  unfold examine
  split
  · rename_i code report flag _
    have refused := takes_refuseRequest q code report
      { s with intake := { s.intake with linkDownLogged := s.intake.linkDownLogged || flag } }
    have ort := (still_refuseRequest q code report
      { s with intake := { s.intake with linkDownLogged := s.intake.linkDownLogged || flag } }).ort
    exact .takes head ⟨refused.queue, refused.link, refused.taken⟩ fun i => by
      rw [ort]
      exact slotMoves_refl _
  · rename_i r _
    have acted := ends_applyAction r.action (offenceOf q r) (refuseRequest q r.code r.record s)
    have ort := (still_refuseRequest q r.code r.record s).ort
    exact .takes head ((takes_refuseRequest q r.code r.record s).ends acted (applyAction_queue _ _ _)) fun i =>
      (ort ▸ acted.slots i).slotMoves
  · exact examined_resourceCheck _ _ head

theorem exec_headExamined (h : exec .headExamination s = .next u) : Examined s u := by
  obtain rfl : (if s.resetHeld then s else examineHead s) = u := Host.Outcome.next.inj h
  split
  · exact .waits (.refl s) rfl
  · unfold examineHead
    split
    · split
      · exact examined_examine ‹_›
      · exact .waits (.refl s) rfl
    · exact .waits (.refl s) rfl
    · exact .waits (.refl s) rfl

/-! ## The closing-response law and the transitions of slots -/

theorem takesNonPosted_of_other {c : Instr} (h : c ≠ .headExamination) (r : ReqNum) (g : Tag) (s u : State) :
    takesNonPosted r g c s u = false := by
  unfold takesNonPosted
  split
  · exact absurd rfl h
  · rfl

/-- An event that leaves the queue as it is takes no request. -/
theorem takesNonPosted_of_waits (c : Instr) (r : ReqNum) (g : Tag) (h : u.intake.queue = s.intake.queue) :
    takesNonPosted r g c s u = false := by
  unfold takesNonPosted
  split
  · rename_i q rest head
    have stays : (u.intake.queue == rest) = false := by
      rw [h, head, beq_eq_false_iff_ne]
      exact List.cons_ne_self _ _
    rw [stays, Bool.and_false]
  · rfl

theorem takesNonPosted_of_takes (r : ReqNum) (g : Tag)
    (head : s.intake.queue = .request q :: rest) (h : Takes q s u) :
    takesNonPosted r g .headExamination s u = asksFor r g q := by
  have gone : u.intake.queue = rest := by rw [h.queue, head]; rfl
  simp [takesNonPosted, head, gone, asksFor]

/-- Settles O58: an examination that takes a request answers or allocates it, and every other event keeps the Finals and
the OPEN slots together. -/
theorem everyTakenRequestGetsOneFinal : Obligations.EveryTakenRequestGetsOneFinal := by
  intro c s u r g h cold hs hu
  by_cases head : c = .headExamination
  · subst head
    cases exec_headExamined h with
    | waits quiet queue =>
      rw [takesNonPosted_of_waits _ r g queue, quiet.conserved hs]
      rfl
    | takes head taken _ => rw [takesNonPosted_of_takes r g head taken, taken.taken hs]
  · rw [takesNonPosted_of_other head, (exec_event h head cold).conserved hs hu]
    rfl

/-- Settles O59: the slots move as the event that comes moves them. -/
theorem slotsMoveByTheirTransitions : Obligations.SlotsMoveByTheirTransitions := by
  intro c s u i hs hf h cold
  by_cases head : c = .headExamination
  · subst head
    cases exec_headExamined h with
    | waits quiet _ => exact quiet.ort ▸ slotMoves_refl (pick s.ort i)
    | takes _ _ slots => exact slots i
  · exact (exec_event h head cold).slotMoves hs hf i

end Sys2Proof.Proofs
end

