-- ==== Sys2Proof/Proofs/Issue.lean ====
section
/-! PROOFS. The issue unit's functions, each said once: eligibility and the arbiter's choice (R69, R70), what a grant
makes of the part (R71, R72), and a return of credits below and above its pool's maximum (R68, R192). -/

namespace Sys2Proof.Proofs

open Sys2Proof.Machine Sys2Proof.Safety Sys2Proof.Claims Sys2Proof.Laws

variable {s : State} {r : ReqNum} {rest : List FifoEntry} {i : SlotNum} {t : Tracked} {p : Piece}

/-! ## The arbiter -/

theorem headEligible_iff :
    headEligible s r = true ↔ ∃ e rest, fifoOf s r = e :: rest ∧ s.down.link = .up ∧
      match e with
      | .tracked _ _ _ => 1 ≤ s.issue.requestPool.available
      | .posted _ _ _ _ => 1 ≤ s.issue.postedPool.available := by
  unfold headEligible
  cases fifoOf s r with
  | nil => simp
  | cons e rest => cases e <;> simp [hasCredit, Nat.succ_le_iff]

/-- The first number in ascending order that passes a test. -/
theorem find?_finRange_eq_some_iff {n : Nat} {f : Fin n → Bool} {k : Fin n} :
    (List.finRange n).find? f = some k ↔ f k = true ∧ ∀ j, j < k → f j = false := by
  rw [← Fin.find?_eq_find?_finRange, Fin.find?_eq_some_iff]

/-- The number that ROTATE considers after `k` others (R70). -/
def rotated (s : State) (k : ReqNum) : ReqNum := s.issue.lastGranted + 1 + k

theorem rotated_eq_iff {k : ReqNum} : rotated s k = r ↔ k = r - s.issue.lastGranted - 1 := by
  unfold rotated
  constructor
  · rintro rfl; abel
  · rintro rfl; abel

theorem mem_arbiterOrder (s : State) (r : ReqNum) : r ∈ arbiterOrder s := by
  unfold arbiterOrder
  split
  · exact List.mem_finRange r
  · exact List.mem_map.mpr ⟨_, List.mem_finRange _, rotated_eq_iff.mpr rfl⟩

theorem chooseFifo_eq_none_iff : chooseFifo s = none ↔ ∀ r, headEligible s r = false := by
  simp [chooseFifo, List.find?_eq_none, mem_arbiterOrder]

theorem eligible_of_chosen (h : chooseFifo s = some r) : headEligible s r = true := List.find?_some h

theorem chooseFifo_of_fixed (h : s.mgmt.config.arbiterMode = .fixed) :
    chooseFifo s = some r ↔ headEligible s r = true ∧ ∀ r', r' < r → headEligible s r' = false := by
  rw [chooseFifo, arbiterOrder, h]
  exact find?_finRange_eq_some_iff

theorem chooseFifo_of_rotate (h : s.mgmt.config.arbiterMode = .rotate) :
    chooseFifo s = some r ↔ headEligible s r = true ∧
      ∀ r', r' - s.issue.lastGranted - 1 < r - s.issue.lastGranted - 1 → headEligible s r' = false := by
  have order : arbiterOrder s = (List.finRange 32).map (rotated s) := by rw [arbiterOrder, h]; rfl
  have place : ∀ r', rotated s (r' - s.issue.lastGranted - 1) = r' := fun _ => rotated_eq_iff.mpr rfl
  rw [chooseFifo, order, List.find?_map, Option.map_eq_some_iff]
  constructor
  · rintro ⟨k, found, rfl⟩
    obtain ⟨eligible, before⟩ := find?_finRange_eq_some_iff.mp found
    refine ⟨eligible, fun r' hr' => ?_⟩
    rw [← rotated_eq_iff.mp (rfl : rotated s k = _)] at hr'
    exact place r' ▸ before _ hr'
  · rintro ⟨eligible, before⟩
    refine ⟨_, find?_finRange_eq_some_iff.mpr ⟨?_, fun j hj => before _ ?_⟩, place r⟩
    · exact (congrArg (headEligible s) (place r)).trans eligible
    · rwa [← rotated_eq_iff.mp (rfl : rotated s j = _)]

/-- Settles O14, from the first number in the arbiter's order that is eligible. -/
theorem arbiterChoosesAnEligibleHead : Obligations.ArbiterChoosesAnEligibleHead := fun _ =>
  ⟨fun _ => headEligible_iff, chooseFifo_eq_none_iff, fun h _ => chooseFifo_of_fixed h, fun h _ =>
    chooseFifo_of_rotate h⟩

/-! ## Grants -/

theorem takePiece_of_busy (h : s.issue.sendPathBusy = true) : takePiece s = pieceTaken s := if_pos h

/-- After the port has taken the piece before it (R70), the grant is the chosen head's. -/
theorem grantNext_of_chosen (h : chooseFifo s = some r) : grantNext s = grantTo r (takePiece s) := by
  rw [grantNext, h]

/-- The grant of a posted entry, read off the part before (R72). -/
theorem sendPosted_eq (r : ReqNum) (a : Addr) (n : Nat) (data : List Byte) (rest : List FifoEntry) (s : State) :
    sendPosted r a n data rest s =
      produce .down (.pwreq a n data)
        { s with
          issue := { s.issue with
            fifos := put s.issue.fifos r rest, lastGranted := r, sendPathBusy := true
            postedPool := { s.issue.postedPool with available := s.issue.postedPool.available - 1 } }
          intake := spaceFreed r s.intake } := by
  rw [sendPosted, granted, notifyHeadOf_eq, produce_eq, produce_eq]
  rfl

/-- The grant of a piece of an OPEN slot, read off the part before (R71). -/
theorem sendTracked_eq (r : ReqNum) (i : SlotNum) (t : Tracked) (p : Piece) (data : Option (List Byte))
    (rest : List FifoEntry) (s : State) :
    sendTracked r i t p data rest s =
      produce .down (pieceRequest ⟨i, p.index, (pick s.ort i).incarnation⟩ t p data)
        { s with
          issue := { s.issue with
            fifos := put s.issue.fifos r rest, lastGranted := r, sendPathBusy := true
            requestPool := { s.issue.requestPool with available := s.issue.requestPool.available - 1 } }
          ort := put s.ort i ⟨(pick s.ort i).incarnation, .opened (withPiece p.index .issued t)⟩
          intake := spaceFreed r s.intake } := by
  rw [sendTracked, granted, notifyHeadOf_eq, produce_eq, produce_eq]
  rfl

theorem index_of_piece {x : PieceIndex} (h : t.piece x = some p) : p.index = x := by
  simpa using List.find?_some h

theorem grantTo_of_tracked {x : PieceIndex} {data : Option (List Byte)} (hq : fifoOf s r = .tracked i x data :: rest)
    (was : (pick s.ort i).occ = .opened t) (hp : t.piece x = some p) :
    grantTo r s = sendTracked r i t p data rest s := by
  simp only [grantTo, hq, openAt_eq_some.mpr was, hp]

theorem grantTo_of_posted {x : PieceIndex} {a : Addr} {n : Nat} {data : List Byte}
    (hq : fifoOf s r = .posted x a n data :: rest) : grantTo r s = sendPosted r a n data rest s := by
  simp only [grantTo, hq]

theorem pieceRequest_eq (tag : DTag) (t : Tracked) (p : Piece) (data : Option (List Byte)) :
    pieceRequest tag t p data =
      if t.kind = .read then .rdreq tag p.address p.length else .wrreq tag p.address p.length (data.getD []) := by
  cases h : t.kind <;> simp [pieceRequest, h]

theorem exec_grant (running : Running s) (h : chooseFifo s = some r) :
    exec .grant s = .next (grantTo r (takePiece s)) :=
  grantNext_of_chosen h ▸ whenRunning_of_running grantNext running

/-- Settles O22: the grant is the chosen head's, after the port has taken the piece before it. -/
theorem grantSendsTheHeadPiece : Obligations.GrantSendsTheHeadPiece := by
  refine ⟨fun r s running busy chosen => ?_, fun r rest s running free chosen => ?_⟩
  · have taken : takePiece (pieceTaken s) = pieceTaken s := takePiece_of_free rfl
    have chosen' : chooseFifo (pieceTaken s) = some r := chosen
    rw [exec_grant running chosen, exec_grant (s := pieceTaken s) running chosen', taken, takePiece_of_busy busy]
  · have grant : exec .grant s = .next (grantTo r s) := by rw [exec_grant running chosen, takePiece_of_free free]
    refine ⟨fun x a n data hq => ?_, fun i x data t p hq was hp => ?_⟩
    · rw [grant, grantTo_of_posted hq, sendPosted_eq]
    · rw [grant, grantTo_of_tracked hq was hp, sendTracked_eq, index_of_piece hp, pieceRequest_eq]

/-! ## Credits -/

section Returns

variable {n : Nat} (w : Option WinIndex) (g : Option Generation)

theorem creditExcess_of_none (s : State) : creditExcess 0 w g s = s := if_pos rfl

theorem creditExcess_of_some (h : n ≠ 0) (s : State) :
    creditExcess n w g s =
      appendFault { kind := .creditExcess, port := .down, window := w, generation := g }
        { s with responses :=
            { s.responses with excessCredits := s.responses.excessCredits + BitVec.ofNat 32 n } } := if_neg h

theorem returned_of_fits {c : CreditPool} (h : c.available + n ≤ c.maximum) :
    c.returned n = { c with available := c.available + n } ∧ c.dropped n = 0 :=
  ⟨by rw [CreditPool.returned, Nat.min_eq_right h], Nat.sub_eq_zero_of_le h⟩

theorem returned_of_excess {c : CreditPool} (h : c.maximum < c.available + n) :
    c.returned n = { c with available := c.maximum } ∧ c.dropped n ≠ 0 :=
  ⟨by rw [CreditPool.returned, Nat.min_eq_left h.le], Nat.sub_ne_zero_of_lt h⟩

theorem takeCret_of_counted (cls : PoolClass) {c : BitVec 16} (up : s.down.link = .up) (one : 1 ≤ c.toNat)
    (most : c.toNat ≤ 255) :
    takeCret cls c s =
      match cls with
      | .request => returnRequest c.toNat none none s
      | .posted => returnPosted c.toNat s := by
  cases cls <;> exact if_pos ⟨up, one, most⟩

theorem takeCret_of_other (cls : PoolClass) {c : BitVec 16}
    (h : s.down.link ≠ .up ∨ c.toNat = 0 ∨ 255 < c.toNat) : takeCret cls c s = s := by
  refine if_neg ?_
  rintro ⟨up, one, most⟩
  rcases h with h | h | h
  · exact h up
  · omega
  · omega

end Returns

/-- Settles O25, from the pool after a return and the credits that the return drops. -/
theorem creditReturnsAreCapped : Obligations.CreditReturnsAreCapped := by
  intro n w g s rq po counted requests posted
  refine ⟨fun fits => ?_, fun excess => ?_, fun c running =>
    ⟨fun up one most => ⟨?_, fun fits => ?_, fun excess => ?_⟩, fun cls h => ?_⟩⟩
  · obtain ⟨pool, dropped⟩ := returned_of_fits fits
    rw [returnRequest, pool, dropped, creditExcess_of_none]
  · obtain ⟨pool, dropped⟩ := returned_of_excess excess
    rw [returnRequest, pool, creditExcess_of_some w g dropped]
    rfl
  · exact (whenRunning_of_running _ running).trans (congrArg _ (takeCret_of_counted .request up one most))
  · obtain ⟨pool, dropped⟩ := returned_of_fits fits
    refine (whenRunning_of_running _ running).trans (congrArg _ ((takeCret_of_counted .posted up one most).trans ?_))
    dsimp only
    rw [returnPosted, pool, dropped, creditExcess_of_none]
  · obtain ⟨pool, dropped⟩ := returned_of_excess excess
    refine (whenRunning_of_running _ running).trans (congrArg _ ((takeCret_of_counted .posted up one most).trans ?_))
    dsimp only
    rw [returnPosted, pool, creditExcess_of_some none none dropped]
    rfl
  · exact (whenRunning_of_running _ running).trans (congrArg _ (takeCret_of_other cls h))

end Sys2Proof.Proofs
end

