-- ==== Sys2Proof/Proofs/CalmOperations.lean ====
section
/-! PROOFS. The operations that leave the table, the issue FIFOs and the credit pools as they are: what they keep of the
downstream link, the send path, the queues' bounds, the entries and the configuration (R22, R70, R73, R167, Tables 8-1
and 10-3). -/

namespace Sys2Proof.Proofs

open Sys2Proof.Machine Sys2Proof.Safety Sys2Proof.Claims Sys2Proof.Laws

variable {x y u : State}

/-! ## What an operation keeps beside the table, the FIFOs and the pools -/

/-- The downstream link stays UP or stays not UP, and the pools stay; the laws of the send path, of the entries' ranges,
of the two queues' bounds and of the configuration are kept, and where no piece waits at the downstream port, none comes
to wait there. -/
structure Frame (x u : State) : Prop where
  link : u.down.link = .up ↔ x.down.link = .up
  requestPool : u.issue.requestPool = x.issue.requestPool
  postedPool : u.issue.postedPool = x.issue.postedPool
  path : SendPathLaw x → SendPathLaw u
  noPiece : x.down.tx.countP OutPacket.isPiece = 0 → u.down.tx.countP OutPacket.isPiece = 0
  requesters : RequesterLaw x → RequesterLaw u
  intake : x.intake.queue.length ≤ 32 → u.intake.queue.length ≤ 32
  commands : x.mgmt.queue.length ≤ 16 → u.mgmt.queue.length ≤ 16
  config : ConfigLaw x → ConfigLaw u

/-- Beside that no requester ceases to be ACTIVE. -/
structure Steady (x u : State) : Prop extends Frame x u where
  active : ∀ r, (entryOf u r).state ≠ .active → (entryOf x r).state ≠ .active

/-- Beside that the table and the FIFOs stay. -/
structure Calm (x u : State) : Prop extends Steady x u where
  ort : u.ort = x.ort
  fifos : u.issue.fifos = x.issue.fifos

theorem Frame.refl (x : State) : Frame x x := ⟨.rfl, rfl, rfl, id, id, id, id, id, id⟩

theorem Frame.trans (h : Frame x y) (k : Frame y u) : Frame x u where
  link := k.link.trans h.link
  requestPool := k.requestPool.trans h.requestPool
  postedPool := k.postedPool.trans h.postedPool
  path := k.path ∘ h.path
  noPiece := k.noPiece ∘ h.noPiece
  requesters := k.requesters ∘ h.requesters
  intake := k.intake ∘ h.intake
  commands := k.commands ∘ h.commands
  config := k.config ∘ h.config

theorem Steady.trans (h : Steady x y) (k : Steady y u) : Steady x u :=
  ⟨h.toFrame.trans k.toFrame, fun r => h.active r ∘ k.active r⟩

theorem Calm.refl (x : State) : Calm x x := ⟨⟨.refl x, fun _ => id⟩, rfl, rfl⟩

theorem Calm.trans (h : Calm x y) (k : Calm y u) : Calm x u :=
  ⟨h.toSteady.trans k.toSteady, k.ort.trans h.ort, k.fifos.trans h.fifos⟩

/-- The send path's law looks at the downstream link, at the mark and at the pieces that wait to be sent. -/
theorem sendPathLaw_congr (link : u.down.link = .up ↔ x.down.link = .up)
    (busy : u.issue.sendPathBusy = x.issue.sendPathBusy)
    (pieces : u.down.tx.countP OutPacket.isPiece = x.down.tx.countP OutPacket.isPiece) (h : SendPathLaw x) :
    SendPathLaw u := by
  obtain ⟨waiting, free⟩ := h
  exact ⟨by rw [pieces, waiting, busy], fun e => busy.trans (free (mt link.mpr e))⟩

/-- An update of other fields, or of the table and the FIFOs. -/
theorem Steady.same (down : u.down = x.down := by rfl) (request : u.issue.requestPool = x.issue.requestPool := by rfl)
    (posted : u.issue.postedPool = x.issue.postedPool := by rfl)
    (busy : u.issue.sendPathBusy = x.issue.sendPathBusy := by rfl)
    (requesters : u.requesters = x.requesters := by rfl) (intake : u.intake.queue = x.intake.queue := by rfl)
    (commands : u.mgmt.queue = x.mgmt.queue := by rfl) (config : u.mgmt.config = x.mgmt.config := by rfl) :
    Steady x u where
  link := by rw [down]
  requestPool := request
  postedPool := posted
  path := sendPathLaw_congr (by rw [down]) busy (by rw [down])
  noPiece := by rw [down]; exact id
  requesters h := by
    intro r
    rw [entryOf, requesters]
    exact h r
  intake := by rw [intake]; exact id
  commands := by rw [commands]; exact id
  config h := (congrArg GlobalConfig.inRange config).trans h
  active r := by rw [entryOf, requesters]; exact id

/-- An update of other fields. -/
theorem Calm.same (down : u.down = x.down := by rfl) (issue : u.issue = x.issue := by rfl)
    (ort : u.ort = x.ort := by rfl) (requesters : u.requesters = x.requesters := by rfl)
    (intake : u.intake.queue = x.intake.queue := by rfl) (commands : u.mgmt.queue = x.mgmt.queue := by rfl)
    (config : u.mgmt.config = x.mgmt.config := by rfl) : Calm x u :=
  ⟨.same down (by rw [issue]) (by rw [issue]) (by rw [issue]) requesters intake commands config, ort, by rw [issue]⟩

/-- An operation after an update of other fields. -/
theorem Calm.ofUpdate (h : Calm y u) (down : y.down = x.down := by rfl) (issue : y.issue = x.issue := by rfl)
    (ort : y.ort = x.ort := by rfl) (requesters : y.requesters = x.requesters := by rfl)
    (intake : y.intake.queue = x.intake.queue := by rfl) (commands : y.mgmt.queue = x.mgmt.queue := by rfl)
    (config : y.mgmt.config = x.mgmt.config := by rfl) : Calm x u :=
  Calm.trans (.same down issue ort requesters intake commands config) h

/-- An update of the downstream port that leaves its link UP or not UP, and its waiting pieces. -/
theorem calm_setDown {k : Port} (link : k.link = .up ↔ x.down.link = .up)
    (pieces : k.tx.countP OutPacket.isPiece = x.down.tx.countP OutPacket.isPiece) : Calm x { x with down := k } :=
  ⟨⟨⟨link, rfl, rfl, sendPathLaw_congr link rfl pieces, pieces.trans, id, id, id, id⟩, fun _ => id⟩, rfl, rfl⟩

/-- An update of a port that leaves its link UP or not UP, and its waiting pieces. -/
theorem calm_setPort {p : PortId} {k : Port} (link : k.link = .up ↔ (x.port p).link = .up)
    (pieces : k.tx.countP OutPacket.isPiece = (x.port p).tx.countP OutPacket.isPiece) : Calm x (x.setPort p k) := by
  cases p with
  | up => exact .same
  | down => exact calm_setDown link pieces

/-- An update of the queue of packets or of commands that keeps its bound. -/
theorem calm_setQueues {k : Intake} {m : ManagementEngine} (intake : x.intake.queue.length ≤ 32 → k.queue.length ≤ 32)
    (commands : x.mgmt.queue.length ≤ 16 → m.queue.length ≤ 16) (config : m.config = x.mgmt.config) :
    Calm x { x with intake := k, mgmt := m } :=
  have ranges : ConfigLaw x → m.config.inRange = true := (congrArg GlobalConfig.inRange config).trans
  ⟨⟨⟨.rfl, rfl, rfl, id, id, id, intake, commands, ranges⟩, fun _ => id⟩, rfl, rfl⟩

/-- The ranges of Table 8-1. -/
abbrev EntryInRange (e : RequesterEntry) : Prop :=
  1 ≤ e.openLimit ∧ e.openLimit ≤ 128 ∧ e.strikes ≤ 15 ∧ 1 ≤ e.strikeLimit ∧ e.strikeLimit ≤ 15

theorem entryOf_setEntry (r r' : ReqNum) (e : RequesterEntry) (x : State) :
    entryOf (setEntry r e x) r' = if r' = r then e else entryOf x r' := pick_put _ _ _ _

theorem frame_setEntry {r : ReqNum} {e : RequesterEntry} (range : EntryInRange (entryOf x r) → EntryInRange e) :
    Frame x (setEntry r e x) where
  link := .rfl
  requestPool := rfl
  postedPool := rfl
  path := id
  noPiece := id
  requesters h := by
    intro r'
    rw [entryOf_setEntry]
    split
    · exact range (h r)
    · exact h r'
  intake := id
  commands := id
  config := id

/-- An entry written within its ranges, by which an ACTIVE requester stays ACTIVE. -/
theorem calm_setEntry {r : ReqNum} {e : RequesterEntry} (range : EntryInRange (entryOf x r) → EntryInRange e)
    (active : e.state ≠ .active → (entryOf x r).state ≠ .active) : Calm x (setEntry r e x) where
  toFrame := frame_setEntry range
  ort := rfl
  fifos := rfl
  active r' := by
    rw [entryOf_setEntry]
    split
    · rename_i h
      rw [h]
      exact active
    · exact id

/-! ## Packets, notices and records -/

theorem calm_produce (p : PortId) {k : OutPacket} (hk : k.isPiece = false) (x : State) : Calm x (produce p k x) := by
  unfold produce
  split
  · exact calm_setPort .rfl (by simp [hk])
  · exact .refl x

theorem calm_sendNotice (h : Party) (x : State) : Calm x (sendNotice h x) :=
  (calm_produce h.port (k := notePacket h x.notice.nextNumber x.notice.pending x) rfl x).trans .same

theorem calm_testSend (x : State) : Calm x (testSend x) := by
  unfold testSend
  split
  · exact .refl x
  · split
    · exact calm_sendNotice _ x
    · exact .refl x

theorem calm_raiseClass (c : EventClass) (x : State) : Calm x (raiseClass c x) := by
  unfold raiseClass
  split
  · exact (calm_testSend _).ofUpdate
  · exact .refl x

theorem calm_appendFault (r : FaultReport) (x : State) : Calm x (appendFault r x) := by
  have kept : Calm x (raiseClass .fault (keepRecord r x)) := (calm_raiseClass .fault _).ofUpdate
  unfold appendFault
  split
  · dsimp only
    split
    · exact kept.trans (calm_raiseClass .logFull _)
    · exact kept
  · exact .same

theorem calm_answer (c : QueuedCommand) (st : Status) (res : Results) (x : State) : Calm x (answer c st res x) :=
  calm_produce _ rfl x

/-! ## Intake -/

theorem calm_notifyHead (x : State) : Calm x (notifyHead x) := by
  obtain ⟨_, h⟩ := notifyHead_shape x
  rw [h]
  exact .same

theorem calm_notifyHeadOf (r : ReqNum) (x : State) : Calm x (notifyHeadOf r x) := by
  obtain ⟨_, h⟩ := notifyHeadOf_shape r x
  rw [h]
  exact .same

theorem calm_leaveQueue (x : State) : Calm x (leaveQueue x) :=
  Calm.trans
    (calm_setQueues (fun h => (List.length_tail ▸ Nat.sub_le _ _).trans h) id rfl)
    (calm_produce .up (k := .cret 1) rfl _)

theorem calm_arriveUpstream (p : IntakePacket) (x : State) : Calm x (arriveUpstream p x) := by
  unfold arriveUpstream
  split_ifs with up room
  · exact calm_setQueues (fun _ => by simpa using Nat.succ_le_of_lt room) id rfl
  · exact calm_appendFault _ x
  · exact .refl x

theorem calm_strayUpstream (r : ReqNum) (x : State) : Calm x (strayUpstream r x) := by
  unfold strayUpstream
  split
  · exact calm_appendFault _ x
  · exact .refl x

theorem calm_reachManagement (p : PortId) (m : Mcmd) (x : State) : Calm x (reachManagement p m x) := by
  unfold reachManagement
  split
  · rename_i room
    exact calm_setQueues id (fun _ => by simpa using Nat.succ_le_of_lt room) rfl
  · exact calm_produce p rfl x

theorem calm_moveHead (x : State) : Calm x (moveHead x) := by
  unfold moveHead
  split
  · exact (calm_reachManagement _ _ x).trans (calm_leaveQueue _)
  · exact .refl x
  · exact .refl x

theorem calm_arriveDownstream (m : Mcmd) (x : State) : Calm x (arriveDownstream m x) := by
  unfold arriveDownstream
  split
  · exact calm_reachManagement .down m x
  · exact .refl x

theorem calm_stallHead (a b : Bool) (r : ReqNum) (x : State) : Calm x (stallHead a b r x) := by
  unfold stallHead
  dsimp only
  split
  · exact (calm_raiseClass .exhaust _).ofUpdate
  · exact .same

theorem calm_discardPosted (n : Nat) (x : State) : Calm x (discardPosted n x) := .same

theorem calm_refuseRequest (q : Request) (code : ErrCode) (report : Option FaultReport) (x : State) :
    Calm x (refuseRequest q code report x) := by
  have recorded : ∀ y, Calm x y → Calm x (match report with
      | some f => appendFault f (leaveQueue y)
      | none => leaveQueue y) := by
    intro y hy
    have left := hy.trans (calm_leaveQueue y)
    cases report with
    | none => exact left
    | some f => exact left.trans (calm_appendFault f _)
  have answered : Calm x (setEntry q.requester
      { entryOf (produce .up (.errsp q.requester q.tag code) x) q.requester with
        refused := (entryOf (produce .up (.errsp q.requester q.tag code) x) q.requester).refused + 1 }
      (produce .up (.errsp q.requester q.tag code) x)) :=
    (calm_produce .up rfl x).trans (calm_setEntry id id)
  unfold refuseRequest
  refine recorded _ ?_
  cases q.kind with
  | pwreq => exact calm_discardPosted 1 x
  | rdreq => exact answered
  | wrreq => exact answered

/-! ## The commit unit and the lease -/

theorem calm_holdReleased (g : Generation) (x : State) : Calm x (holdReleased g x) := by
  rw [holdReleased_eq]
  exact .same

theorem calm_swapBanks (x : State) : Calm x (swapBanks x) := by
  obtain ⟨_, _, h⟩ := swapBanks_shape x
  rw [h]
  exact .same

theorem calm_endDrain (x : State) : Calm x (endDrain x) := by
  obtain ⟨_, _, h⟩ := endDrain_shape x
  rw [h]
  exact .same

theorem calm_takeDrainEnd (x : State) : Calm x (takeDrainEnd x) := by
  obtain ⟨_, _, h⟩ := takeDrainEnd_shape x
  rw [h]
  exact .same

theorem calm_cancelHeld (x : State) : Calm x (cancelHeld x) := by
  obtain ⟨_, _, h⟩ := cancelHeld_shape x
  rw [h]
  exact .same

theorem calm_completeFill (x : State) : Calm x (completeFill x) := (calm_raiseClass .stagedReady _).ofUpdate

theorem calm_setLease (l : Option Lease) (x : State) : Calm x (setLease l x) := .same

theorem calm_noticeLeaseEnd (x : State) : Calm x (noticeLeaseEnd x) := .same

theorem calm_endLease (k : FaultKind) (x : State) : Calm x (endLease k x) := by
  unfold endLease
  split
  · exact .refl x
  · have ended := ((calm_setLease none x).trans (calm_cancelHeld _)).trans (calm_noticeLeaseEnd _)
    exact ended.trans (calm_appendFault _ _)

theorem calm_lapseThrough (p : PortId) (x : State) : Calm x (lapseThrough p x) := by
  unfold lapseThrough
  split
  · exact .refl x
  · split
    · exact calm_endLease _ x
    · exact .refl x

theorem calm_lapseAtFall (x : State) : Calm x (lapseAtFall x) := by
  unfold lapseAtFall
  split
  · dsimp only
    split
    · exact ((calm_endDrain _).trans (calm_lapseThrough .down _)).ofUpdate
    · exact ((calm_lapseThrough .down _).trans (calm_endDrain _)).ofUpdate
  · exact (calm_lapseThrough .down x).trans (calm_takeDrainEnd _)

/-! ## The links -/

theorem calm_linkChanged (p : PortId) (x : State) : Calm x (linkChanged p x) :=
  (calm_appendFault _ x).trans (calm_raiseClass .link _)

theorem calm_linkNotice (p : PortId) (x : State) : Calm x (linkNotice p x) := by
  cases p
  · exact .refl x
  · exact calm_notifyHead x

theorem calm_setSignal (p : PortId) (b : Bool) (x : State) : Calm x (setSignal p b x) := calm_setPort .rfl rfl

/-- A port that is not UP and does not come UP. -/
theorem calm_setPort_of_notUp {p : PortId} {k : Port} (was : (x.port p).link ≠ .up) (is : k.link ≠ .up)
    (tx : k.tx = (x.port p).tx) : Calm x (x.setPort p k) :=
  calm_setPort (iff_of_false is was) (by rw [tx])

theorem calm_enterTraining {p : PortId} (h : (x.port p).link ≠ .up) : Calm x (enterTraining p x) := by
  have entered := calm_setPort_of_notUp
    (k := { x.port p with
      link := .training, trainingTimer := some Config.trainingTime
      sent := (x.port p).sent ++ [initPacket p] }) h nofun rfl
  exact (entered.trans (calm_linkChanged p _)).trans (calm_linkNotice p _)

theorem calm_failTraining {p : PortId} (h : (x.port p).link ≠ .up) : Calm x (failTraining p x) := by
  have failed := calm_setPort_of_notUp (k := (x.port p).fallen) h nofun rfl
  exact (failed.trans (calm_linkChanged p _)).trans (calm_linkNotice p _)

theorem calm_endHoldOff {p : PortId} (h : (x.port p).link ≠ .up) : Calm x (endHoldOff p x) := by
  have stopped : Calm x (x.setPort p { x.port p with holdOffTimer := none }) := calm_setPort .rfl rfl
  unfold endHoldOff
  dsimp only
  split
  · exact stopped.trans (calm_enterTraining (by rw [port_setPort_same]; exact h))
  · exact stopped

theorem calm_detectPeer (p : PortId) (x : State) : Calm x (detectPeer p x) := by
  have reported := calm_setSignal p true x
  unfold detectPeer
  dsimp only
  split
  · rename_i h
    exact reported.trans (calm_enterTraining (by rw [h.1]; decide))
  · exact reported

/-- The upstream port's leaving UP: intake is emptied, its commands are purged and its lease lapses (R40, R172,
R177). -/
theorem calm_leaveUp_up (x : State) : Calm x (leaveUp .up x) := by
  have lost : Calm x (linkChanged .up (x.setPort .up (x.port .up).lost)) := (calm_linkChanged .up _).ofUpdate
  have discarded : ∀ y, Calm y (purgeCommands .up (discardIntake y)) := fun y =>
    calm_setQueues (fun _ => Nat.zero_le _) (fun h => (List.length_filter_le _ _).trans h) rfl
  exact (lost.trans (discarded _)).trans (calm_lapseThrough .up _)

/-! ## Time, and packets that leave -/

/-- The downstream port sends what it holds, and the send path is free. -/
theorem calm_sent {v : Port} {d : Port} (link : d.link = x.down.link) (tx : d.tx = []) :
    Calm x { x with up := v, down := d, issue := { x.issue with sendPathBusy := false } } where
  link := by rw [link]
  requestPool := rfl
  postedPool := rfl
  path _ := ⟨by rw [tx]; rfl, fun _ => rfl⟩
  noPiece _ := by rw [tx]; rfl
  requesters := id
  intake := id
  commands := id
  config := id
  ort := rfl
  fifos := rfl
  active _ := id

theorem calm_sendHeld (x : State) : Calm x (sendHeld x) := calm_sent rfl rfl

theorem calm_takePiece (x : State) : Calm x (takePiece x) := by
  unfold takePiece
  split
  · exact calm_sent rfl rfl
  · exact .refl x

theorem sendPathBusy_takePiece (x : State) : (takePiece x).issue.sendPathBusy = false := by
  unfold takePiece
  split
  · rfl
  · exact Bool.not_eq_true _ ▸ ‹_›

/-- The port's oldest packet leaves; if it is the piece, the send path is free again. -/
theorem sendPathLaw_transmit (h : SendPathLaw x) : SendPathLaw (transmit x) := by
  obtain ⟨waiting, free⟩ := h
  have link : (transmit x).down.link = x.down.link := by
    simp only [transmit, Port.sendOldest]
    split <;> rfl
  refine ⟨?_, fun e => ?_⟩
  · cases tx : x.down.tx with
    | nil => simpa [transmit, Port.sendOldest, oldestIsPiece, tx] using waiting
    | cons k rest =>
      rw [tx, List.countP_cons] at waiting
      simp only [transmit, Port.sendOldest, oldestIsPiece, tx]
      cases piece : k.isPiece with
      | true =>
        -- `k` is the one piece that waited, so that none waits behind it
        cases busy : x.issue.sendPathBusy
        · simp [busy, piece] at waiting
        · simpa [busy, piece] using waiting
      | false => simpa [piece] using waiting
  · simp [transmit, free (link ▸ e)]

theorem noPiece_transmit (h : x.down.tx.countP OutPacket.isPiece = 0) :
    (transmit x).down.tx.countP OutPacket.isPiece = 0 := by
  simp only [transmit, Port.sendOldest]
  split
  · exact h
  · rename_i tx
    rw [tx, List.countP_cons, Nat.add_eq_zero_iff] at h
    exact h.1

theorem calm_transmit (x : State) : Calm x (transmit x) where
  link := by
    simp only [transmit, Port.sendOldest]
    split <;> exact .rfl
  requestPool := rfl
  postedPool := rfl
  path := sendPathLaw_transmit
  noPiece := noPiece_transmit
  requesters := id
  intake := id
  commands := id
  config := id
  ort := rfl
  fifos := rfl
  active _ := id

theorem calm_passTime (n : Nat) (x : State) : Calm x (passTime n x) :=
  (calm_setDown (k := x.down.fall n) .rfl rfl).trans .same

theorem calm_happenResend (x : State) : Calm x (happenResend x) := by
  unfold happenResend
  split
  · rename_i l n _ _
    exact (calm_produce l.holder.port (k := notePacket l.holder n (x.notice.reported ||| x.notice.pending) x)
      rfl x).trans .same
  · exact .refl x
  · exact .refl x

/-! ## Management commands -/

theorem calm_popCommand (x : State) : Calm x (popCommand x) :=
  calm_setQueues id (fun h => (List.length_tail ▸ Nat.sub_le _ _).trans h) rfl

theorem calm_takeUnknown (x : State) : Calm x (takeUnknown x) := by
  unfold takeUnknown
  split
  · exact .refl x
  · split
    · dsimp only
      split
      · exact (calm_popCommand x).trans (calm_answer _ _ _ _)
      · exact (calm_popCommand x).trans (calm_answer _ _ _ _)
    · exact .refl x

section Bodies

variable (c : QueuedCommand) (x : State)

theorem calm_renewLease (l : Lease) : Calm x (renewLease c l x) := by
  unfold renewLease
  split
  · have told : Calm x (answer c .tooEarly (.spacingRemaining (spacing x - (x.now - l.lastRenewal)))
        { x with mgmt := { x.mgmt with earlyRenewals := x.mgmt.earlyRenewals + 1 } }) :=
      (calm_answer c _ _ _).ofUpdate
    unfold earlyRenewal
    dsimp only
    split
    · exact told.trans (calm_setLease _ _)
    · exact told.trans (calm_endLease _ _)
  · exact (calm_setLease _ x).trans (calm_answer c _ _ _)

theorem calm_doClaim : Calm x (doClaim c x) := by
  unfold doClaim
  split
  · exact ((calm_setLease _ x).trans (calm_answer c _ _ _)).trans (calm_testSend _)
  · split
    · exact calm_renewLease c x _
    · exact calm_answer c _ _ x

theorem calm_doRenew : Calm x (doRenew c x) := by
  unfold doRenew
  split
  · exact calm_answer c _ _ x
  · exact calm_renewLease c x _

theorem calm_doRelease : Calm x (doRelease c x) :=
  ((calm_setLease none x).trans (calm_answer c _ _ _)).trans (calm_noticeLeaseEnd _)

theorem calm_doRqRead : Calm x (doRqRead c x) := by
  unfold doRqRead
  split <;> exact calm_answer c _ _ x

theorem calm_doOrtRead : Calm x (doOrtRead c x) := by
  unfold doOrtRead
  split <;> exact calm_answer c _ _ x

theorem calm_doFlogRead : Calm x (doFlogRead c x) := by
  unfold doFlogRead
  split <;> exact calm_answer c _ _ x

theorem calm_doFlogPop : Calm x (doFlogPop c x) := by
  unfold doFlogPop
  dsimp only
  split_ifs
  · exact calm_answer c _ _ x
  · exact calm_answer c _ _ x
  · exact (calm_answer c _ _ _).ofUpdate

theorem calm_doWtRead : Calm x (doWtRead c x) := by
  unfold doWtRead
  split
  · split
    · exact calm_answer c _ _ x
    · split <;> exact calm_answer c _ _ x
    · split <;> exact calm_answer c _ _ x
  · exact calm_answer c _ _ x

theorem calm_doWtWrite : Calm x (doWtWrite c x) := by
  unfold doWtWrite
  split
  · exact calm_answer c _ _ x
  · split_ifs
    · exact calm_answer c _ _ x
    · exact calm_answer c _ _ x
    · exact (calm_answer c _ _ _).ofUpdate

theorem calm_doWtClear : Calm x (doWtClear c x) := by
  unfold doWtClear
  split
  · exact calm_answer c _ _ x
  · exact (calm_answer c _ _ _).ofUpdate

theorem calm_doCommit : Calm x (doCommit c x) := by
  unfold doCommit
  split
  · exact calm_answer c _ _ x
  · split
    · exact (calm_answer c _ _ (holdCommit x)).ofUpdate
    · exact (calm_swapBanks x).trans (calm_answer c _ _ _)

theorem calm_doCommitCancel : Calm x (doCommitCancel c x) := by
  unfold doCommitCancel
  split
  · exact (calm_cancelHeld x).trans (calm_answer c _ _ _)
  · exact calm_answer c _ _ x

theorem calm_doReinstate : Calm x (doReinstate c x) := by
  unfold doReinstate
  split
  · exact calm_answer c _ _ x
  · rename_i r _
    split
    · have active : Calm x (setEntry r { entryOf x r with state := .active, strikes := 0 } x) :=
        calm_setEntry (fun ⟨open1, open2, _, limits⟩ => ⟨open1, open2, Nat.zero_le _, limits⟩) fun h => absurd rfl h
      exact (active.trans (calm_notifyHeadOf r _)).trans (calm_answer c _ _ _)
    · exact calm_answer c _ _ x

theorem calm_doNoteAck : Calm x (doNoteAck c x) := by
  unfold doNoteAck
  split
  · exact calm_answer c _ _ x
  · split
    · exact ((calm_answer c _ _ (acknowledge x)).trans (calm_testSend _)).ofUpdate
    · exact calm_answer c _ _ x

theorem inRange_of_configWriteOf {bytes : List Byte} {g : GlobalConfig} (h : configWriteOf bytes = some g) :
    g.inRange = true := by
  simp only [configWriteOf, Option.bind_eq_bind, Option.bind_eq_some_iff] at h
  obtain ⟨_, -, h⟩ := h
  split at h
  · exact Option.some.inj h ▸ ‹_›
  · exact nomatch h

theorem calm_doConfigWrite : Calm x (doConfigWrite c x) := by
  unfold doConfigWrite
  split
  · exact calm_answer c _ _ x
  · rename_i g hg
    have written : Calm x { x with mgmt := { x.mgmt with config := g } } :=
      ⟨⟨⟨.rfl, rfl, rfl, id, id, id, id, id, fun _ => inRange_of_configWriteOf hg⟩, fun _ => id⟩, rfl, rfl⟩
    dsimp only
    split
    · exact written.trans (calm_answer c _ _ _)
    · exact (written.trans (calm_answer c _ _ _)).trans (calm_lapseThrough .down _)

/-- The entries with their counters written, and nothing else of them (R147, R183). -/
theorem calm_zeroRequesterCounters : Calm x (zeroRequesterCounters x) := by
  have counted : ∀ r, entryOf (zeroRequesterCounters x) r = { entryOf x r with accepted := 0#32, refused := 0#32 } :=
    fun r => by simp [entryOf, zeroRequesterCounters, pick, Vector.get_eq_getElem]
  refine ⟨⟨⟨.rfl, rfl, rfl, id, id, fun h r => ?_, id, id, id⟩, fun r => ?_⟩, rfl, rfl⟩
  · rw [counted]
    exact h r
  · rw [counted]
    exact id

theorem calm_clearCounters : Calm x (clearCounters x) := (calm_zeroRequesterCounters x).trans .same

theorem calm_doCountersRead : Calm x (doCountersRead c x) := by
  unfold doCountersRead
  dsimp only
  split
  · exact (calm_answer c _ _ x).trans (calm_clearCounters _)
  · exact calm_answer c _ _ x

end Bodies

/-! ## The release of RESET_N -/

/-- The straps are sampled: Downstream management is in no range of Table 10-3, May manage in none of Table 8-1. -/
theorem calm_startPart (a : Straps) (x : State) : Calm x (startPart a x) :=
  (calm_setEntry (r := a.mgrId) (e := { entryOf x a.mgrId with mayManage := true }) id id).trans
    ⟨⟨⟨.rfl, rfl, rfl, id, id, id, id, id, id⟩, fun _ => id⟩, rfl, rfl⟩

theorem calm_releaseReset (a : Straps) (x : State) : Calm x (releaseReset a x) := by
  unfold releaseReset
  split
  · exact calm_startPart a x
  · exact .refl x

end Sys2Proof.Proofs
end

