-- ==== Sys2Proof/Proofs/FifoMoves.lean ====
section
/-! PROOFS. The correspondence of FIFO entries and QUEUED pieces (R65) along what events do to slots and FIFOs: answers,
expiries, withdrawals, grants and acceptances. -/

namespace Sys2Proof.Proofs

open Sys2Proof.Machine Sys2Proof.Safety Sys2Proof.Claims Sys2Proof.Laws

variable {x u : State} {t v : Tracked} {i : SlotNum} {r : ReqNum} {k : PieceIndex} {q : List FifoEntry}

/-! ## The law in terms of slots -/

/-- The piece that an index names is QUEUED. -/
def Waits (t : Tracked) (k : PieceIndex) : Prop := ∃ p, t.piece k = some p ∧ p.state = .queued

/-- Some piece of an index is QUEUED. -/
def HasQueued (t : Tracked) (k : PieceIndex) : Prop := ∃ p ∈ t.pieces, p.index = k ∧ p.state = .queued

/-- Some entry of a FIFO names the piece. -/
def Names (q : List FifoEntry) (i : SlotNum) (k : PieceIndex) : Prop := ∃ data, .tracked i k data ∈ q

/-- R65 as `FifoLaw` says it. -/
structure FifoOf (x : State) : Prop where
  fits : ∀ r i k, Names (fifoOf x r) i k → ∃ t, (pick x.ort i).occ = .opened t ∧ t.requester = r ∧ Waits t k
  distinct : ∀ r, (fifoOf x r).Pairwise fun e f => sameEntry e f = false
  covers : ∀ i t k, (pick x.ort i).occ = .opened t → HasQueued t k → Names (fifoOf x t.requester) i k

theorem entryFits_tracked {data : Option (List Byte)} :
    entryFits x r (.tracked i k data) = true ↔
      ∃ t, (pick x.ort i).occ = .opened t ∧ t.requester = r ∧ Waits t k := by
  simp only [← openAt_eq_some, entryFits, Waits]
  cases openAt x i with
  | none => simp
  | some t => cases hp : t.piece k <;> simp [hp]

theorem any_namesPiece : q.any (FifoEntry.namesPiece i k) = true ↔ Names q i k := by
  rw [List.any_eq_true]
  constructor
  · rintro ⟨e, he, hn⟩
    cases e with
    | posted => exact nomatch hn
    | tracked j l data =>
      obtain ⟨rfl, rfl⟩ : j = i ∧ l = k := by simpa [FifoEntry.namesPiece] using hn
      exact ⟨data, he⟩
  · rintro ⟨data, he⟩
    exact ⟨_, he, by simp [FifoEntry.namesPiece]⟩

theorem fifoLaw_iff (x : State) : FifoLaw x ↔ FifoOf x := by
  constructor
  · rintro ⟨fits, distinct, covers⟩
    refine ⟨fun r i k ⟨data, he⟩ => entryFits_tracked.mp (fits r _ he), distinct, ?_⟩
    rintro i t _ was ⟨p, hp, rfl, hs⟩
    exact any_namesPiece.mp (covers i t (openAt_eq_some.mpr was) p hp hs)
  · rintro ⟨fits, distinct, covers⟩
    refine ⟨fun r e he => ?_, distinct, fun i t ht p hp hs => ?_⟩
    · cases e with
      | posted => rfl
      | tracked i k data => exact entryFits_tracked.mpr (fits r i k ⟨data, he⟩)
    · exact any_namesPiece.mpr (covers i t _ (openAt_eq_some.mp ht) ⟨p, hp, rfl, hs⟩)

theorem fifoOf_congr (h : u.issue.fifos = x.issue.fifos) (r : ReqNum) : fifoOf u r = fifoOf x r :=
  congrArg (pick · r) h

theorem FifoOf.of_same (h : FifoOf x) (ort : u.ort = x.ort) (fifos : u.issue.fifos = x.issue.fifos) : FifoOf u := by
  have fifo := fifoOf_congr fifos
  refine ⟨fun r i k hn => ?_, fun r => ?_, fun i t k was hq => ?_⟩
  · rw [ort]
    exact h.fits r i k (fifo r ▸ hn)
  · rw [fifo]
    exact h.distinct r
  · rw [ort] at was
    rw [fifo]
    exact h.covers i t k was hq

/-- No entries and no OPEN slots. -/
theorem fifoOf_of_empty (fifos : ∀ r, fifoOf u r = []) (closed : ∀ i t, (pick u.ort i).occ ≠ .opened t) :
    FifoOf u where
  fits r i k := by
    rintro ⟨data, he⟩
    rw [fifos] at he
    exact nomatch he
  distinct r := by rw [fifos]; exact .nil
  covers i t _ was := absurd was (closed i t)

/-- Entries leave the FIFOs: those that stay still name QUEUED pieces, and the pieces that are still QUEUED keep
theirs. -/
theorem FifoOf.of_sublist (h : FifoOf x) (order : ∀ r, (fifoOf u r).Sublist (fifoOf x r))
    (stay : ∀ i k t, Names (fifoOf u t.requester) i k → (pick x.ort i).occ = .opened t → Waits t k →
      ∃ v, (pick u.ort i).occ = .opened v ∧ v.requester = t.requester ∧ Waits v k)
    (queued : ∀ i v k, (pick u.ort i).occ = .opened v → HasQueued v k →
      ∃ t, (pick x.ort i).occ = .opened t ∧ t.requester = v.requester ∧ HasQueued t k ∧
        (Names (fifoOf x t.requester) i k → Names (fifoOf u t.requester) i k)) : FifoOf u where
  fits r i k hn := by
    obtain ⟨data, he⟩ := id hn
    obtain ⟨t, was, rfl, waits⟩ := h.fits r i k ⟨data, (order r).subset he⟩
    exact stay i k t hn was waits
  distinct r := (h.distinct r).sublist (order r)
  covers i v k is hq := by
    obtain ⟨t, was, requester, hq', keeps⟩ := queued i v k is hq
    rw [← requester]
    exact keeps (h.covers i t k was hq')

/-! ## Pieces that move -/

theorem Waits.hasQueued (h : Waits t k) : HasQueued t k := by
  obtain ⟨p, hp, hs⟩ := h
  exact ⟨p, List.mem_of_find?_eq_some hp, index_of_piece hp, hs⟩

theorem waits_congr (h : v.pieces = t.pieces) : Waits v k ↔ Waits t k := by
  rw [Waits, Waits, Tracked.piece, Tracked.piece, h]

theorem hasQueued_congr (h : v.pieces = t.pieces) : HasQueued v k ↔ HasQueued t k := by
  rw [HasQueued, HasQueued, h]

theorem piece_setPiece (t : Tracked) (l : PieceIndex) (z : PieceState) (k : PieceIndex) :
    (t.setPiece l z).piece k = (t.piece k).map fun p => if p.index = l then { p with state := z } else p := by
  have index : ∀ p : Piece, (if p.index = l then { p with state := z } else p).index = p.index := fun p => by
    split <;> rfl
  rw [Tracked.piece, Tracked.piece, Tracked.setPiece, List.find?_map]
  congr 2
  funext p
  exact congrArg (· == k) (index p)

theorem waits_setPiece {l : PieceIndex} (z : PieceState) (h : Waits t k) (hk : k ≠ l) : Waits (t.setPiece l z) k := by
  obtain ⟨p, hp, hs⟩ := h
  have other : p.index ≠ l := index_of_piece hp ▸ hk
  exact ⟨p, by rw [piece_setPiece, hp, Option.map_some, if_neg other], hs⟩

theorem hasQueued_of_setPiece {l : PieceIndex} {z : PieceState} (hz : z ≠ .queued)
    (h : HasQueued (t.setPiece l z) k) : HasQueued t k ∧ k ≠ l := by
  obtain ⟨p', hp', hk, hs⟩ := h
  obtain ⟨p, hp, rfl⟩ := List.mem_map.mp hp'
  by_cases moved : p.index = l
  · rw [if_pos moved] at hs
    exact absurd hs hz
  · rw [if_neg moved] at hk hs
    exact ⟨⟨p, hp, hk, hs⟩, hk ▸ moved⟩

theorem not_resolved_of_waits (h : Waits t k) : t.resolved = false := by
  obtain ⟨p, hp, -, hs⟩ := h.hasQueued
  rw [Tracked.resolved, List.all_eq_false]
  exact ⟨p, hp, by simp [hs, PieceState.resolved]⟩

/-- An index whose piece is not QUEUED. -/
theorem Waits.ne {p : Piece} (h : Waits t k) {l : PieceIndex} (hp : t.piece l = some p) (hs : p.state ≠ .queued) :
    k ≠ l := by
  rintro rfl
  obtain ⟨p', hp', hs'⟩ := h
  rw [hp] at hp'
  exact hs (Option.some.inj hp' ▸ hs')

/-! ## One slot, with the FIFOs as they are -/

theorem FifoOf.of_slot {b : Slot} (h : FifoOf x) (fifos : u.issue.fifos = x.issue.fifos) (ort : u.ort = put x.ort i b)
    (stay : ∀ t k, (pick x.ort i).occ = .opened t → Waits t k →
      ∃ v, b.occ = .opened v ∧ v.requester = t.requester ∧ Waits v k)
    (queued : ∀ v k, b.occ = .opened v → HasQueued v k →
      ∃ t, (pick x.ort i).occ = .opened t ∧ t.requester = v.requester ∧ HasQueued t k) : FifoOf u := by
  have fifo := fifoOf_congr fifos
  refine h.of_sublist (fun r => fifo r ▸ .refl _) (fun j k t _ was waits => ?_) fun j v k is hq => ?_
  · by_cases hj : j = i
    · rw [hj, ort, pick_put_same]
      exact stay t k (hj ▸ was) waits
    · rw [ort, pick_put_other _ _ hj]
      exact ⟨t, was, rfl, waits⟩
  · simp only [fifo, imp_self, and_true]
    by_cases hj : j = i
    · rw [hj, ort, pick_put_same] at is
      rw [hj]
      exact queued v k is hq
    · rw [ort, pick_put_other _ _ hj] at is
      exact ⟨v, is, rfl, hq⟩

/-- A slot that was not OPEN and is not. -/
theorem FifoOf.of_notOpen {b : Slot} (h : FifoOf x) (fifos : u.issue.fifos = x.issue.fifos)
    (ort : u.ort = put x.ort i b) (was : ∀ t, (pick x.ort i).occ ≠ .opened t) (is : ∀ t, b.occ ≠ .opened t) :
    FifoOf u :=
  h.of_slot fifos ort (fun t _ e => absurd e (was t)) fun t _ e => absurd e (is t)

/-- An answer to an ISSUED piece of an OPEN slot (R83 to R86). -/
theorem FifoOf.of_answered {p : Piece} {z : PieceState} (h : FifoOf x) (fifos : u.issue.fifos = x.issue.fifos)
    (ort : u.ort = put x.ort i (settledSlot (pick x.ort i) v)) (was : (pick x.ort i).occ = .opened t)
    (hp : t.piece k = some p) (issued : p.state ≠ .queued) (hz : z ≠ .queued) (requester : v.requester = t.requester)
    (pieces : v.pieces = (t.setPiece k z).pieces) : FifoOf u := by
  have goesOn : v.resolved ≠ true → (settledSlot (pick x.ort i) v).occ = .opened v := fun e => by
    rw [settledSlot, if_neg e]
  refine h.of_slot fifos ort (fun t' l was' waits => ?_) fun v' l is hq => ?_
  · obtain rfl := Occupancy.opened.inj (was.symm.trans was')
    have still := (waits_congr pieces).mpr (waits_setPiece z waits (waits.ne hp issued))
    exact ⟨v, goesOn (by simp [not_resolved_of_waits still]), requester, still⟩
  · unfold settledSlot at is
    split at is
    · exact nomatch is
    · obtain rfl := Occupancy.opened.inj is
      exact ⟨t, was, requester.symm, (hasQueued_of_setPiece hz ((hasQueued_congr pieces).mp hq)).1⟩

/-! ## Expiry, withdrawal -/

theorem fifoOf_setFifo (r r' : ReqNum) (q : List FifoEntry) (x : State) :
    fifoOf (setFifo r q x) r' = if r' = r then q else fifoOf x r' := pick_put _ _ _ _

theorem fifoOf_removeEntries (i : SlotNum) (r r' : ReqNum) (x : State) :
    fifoOf (removeEntries i r x) r' =
      if r' = r then (fifoOf x r).filter fun e => !e.names i else fifoOf x r' := by
  unfold removeEntries
  dsimp only
  split
  · exact (fifoOf_congr (calm_notifyHeadOf r _).fifos r').trans (fifoOf_setFifo _ _ _ _)
  · rename_i none
    rw [Bool.not_eq_true, List.any_eq_false] at none
    have all : (fifoOf x r).filter (fun e => !e.names i) = fifoOf x r :=
      List.filter_eq_self.mpr fun e he => by simp [none e he]
    rw [all]
    split
    · rename_i e
      rw [e]
    · rfl

theorem names_filter {j : SlotNum} : Names (q.filter fun e => !e.names i) j k ↔ Names q j k ∧ j ≠ i := by
  simp [Names, FifoEntry.names, exists_and_right]

/-- A slot's entries leave its requester's FIFO as the slot leaves OPEN (R74, R104). -/
theorem FifoOf.of_expired (h : FifoOf x) (was : (pick x.ort i).occ = .opened t)
    (fifos : ∀ r, fifoOf u r =
      if r = t.requester then (fifoOf x t.requester).filter (fun e => !e.names i) else fifoOf x r)
    (others : ∀ j, j ≠ i → pick u.ort j = pick x.ort j) (is : ∀ v, (pick u.ort i).occ ≠ .opened v) : FifoOf u := by
  refine h.of_sublist (fun r => ?_) (fun j k t' hn was' waits => ?_) fun j v k is' hq => ?_
  · rw [fifos]
    split
    · rename_i e
      exact e ▸ List.filter_sublist
    · exact .refl _
  · by_cases hj : j = i
    · obtain rfl := Occupancy.opened.inj (was.symm.trans (hj ▸ was'))
      rw [fifos, if_pos rfl, names_filter] at hn
      exact absurd hj hn.2
    · rw [others j hj]
      exact ⟨t', was', rfl, waits⟩
  · by_cases hj : j = i
    · exact absurd (hj ▸ is') (is v)
    · rw [others j hj] at is'
      refine ⟨v, is', rfl, hq, fun hn => ?_⟩
      rw [fifos]
      split
      · rename_i e
        exact names_filter.mpr ⟨e ▸ hn, hj⟩
      · exact hn

theorem fifoOf_withdraw (r r' : ReqNum) (x : State) :
    fifoOf (withdraw r x) r' = if r' = r then [] else fifoOf x r' := by
  obtain ⟨empty, entries⟩ := withdrawalEmptiesOneFifo r x
  by_cases hq : fifoOf x r = []
  · rw [empty hq]
    split
    · rename_i e
      rw [e, hq]
    · rfl
  · obtain ⟨own, others, -⟩ := entries hq
    split
    · rename_i e
      rw [e, own]
    · exact others r' ‹_›

theorem takenBack_iff {p : Piece} : takenBack q i p = true ↔ p.state = .queued ∧ Names q i p.index := by
  rw [takenBack_eq, withdrawn, Bool.and_eq_true, any_namesPiece, beq_iff_eq, and_comm]

theorem slotWithdrawn_of_none {a : Slot} (was : a.occ = .opened t) (h : ∀ k, ¬ Names q i k) :
    slotWithdrawn q i a = a := by
  have none : t.pieces.any (takenBack q i) = false :=
    List.any_eq_false.mpr fun p _ e => h p.index (takenBack_iff.mp e).2
  rw [slotWithdrawn, was]
  dsimp only
  rw [none]
  rfl

theorem slotWithdrawn_of_notOpen {a : Slot} (was : ∀ t, a.occ ≠ .opened t) : slotWithdrawn q i a = a := by
  unfold slotWithdrawn
  cases ho : a.occ with
  | opened t => exact absurd ho (was t)
  | free | stale => rfl

theorem ort_withdraw (r : ReqNum) (i : SlotNum) (x : State) :
    pick (withdraw r x).ort i = slotWithdrawn (fifoOf x r) i (pick x.ort i) := by
  obtain ⟨empty, entries⟩ := withdrawalEmptiesOneFifo r x
  by_cases hq : fifoOf x r = []
  · rw [empty hq, hq]
    by_cases hopen : ∃ t, (pick x.ort i).occ = .opened t
    · obtain ⟨t, was⟩ := hopen
      exact (slotWithdrawn_of_none was fun k ⟨_, he⟩ => nomatch he).symm
    · exact (slotWithdrawn_of_notOpen fun t was => hopen ⟨t, was⟩).symm
  · obtain ⟨-, -, slots, -⟩ := entries hq
    exact slots i

/-- When every QUEUED piece of a slot is named by the withdrawn FIFO, none is QUEUED after the withdrawal. -/
theorem not_hasQueued_of_withdrawn {a : Slot} (was : a.occ = .opened t) (named : ∀ k, HasQueued t k → Names q i k)
    (is : (slotWithdrawn q i a).occ = .opened v) : ¬ HasQueued v k := by
  have taken : ∀ p ∈ t.pieces, p.state = .queued → takenBack q i p = true := fun p hp hs =>
    takenBack_iff.mpr ⟨hs, named _ ⟨p, hp, rfl, hs⟩⟩
  rw [slotWithdrawn, was] at is
  dsimp only at is
  rintro ⟨p, hp, -, hs⟩
  split at is
  · split at is
    · exact nomatch is
    · obtain rfl := Occupancy.opened.inj is
      obtain ⟨p₀, hp₀, rfl⟩ := List.mem_map.mp hp
      split at hs
      · exact nomatch hs
      · exact absurd (taken p₀ hp₀ hs) ‹_›
  · rename_i none
    obtain rfl := Occupancy.opened.inj (was.symm.trans is)
    exact none (List.any_eq_true.mpr ⟨p, hp, taken p hp hs⟩)

/-- A requester's FIFO is emptied, and its QUEUED pieces fail (R58, R73). -/
theorem FifoOf.of_withdrawn (h : FifoOf x) (fifos : ∀ r', fifoOf u r' = if r' = r then [] else fifoOf x r')
    (slots : ∀ i, pick u.ort i = slotWithdrawn (fifoOf x r) i (pick x.ort i)) : FifoOf u := by
  have others : ∀ {i t}, (pick x.ort i).occ = .opened t → t.requester ≠ r → pick u.ort i = pick x.ort i := by
    intro i t was hr
    refine (slots i).trans (slotWithdrawn_of_none was fun k hn => ?_)
    obtain ⟨t', was', rfl, -⟩ := h.fits r i k hn
    exact hr (congrArg Tracked.requester (Occupancy.opened.inj (was.symm.trans was')))
  refine h.of_sublist (fun r' => ?_) (fun i k t hn was waits => ?_) fun i v k is hq => ?_
  · rw [fifos]
    split
    · exact List.nil_sublist _
    · exact .refl _
  · have hr : t.requester ≠ r := fun e => by
      rw [fifos, if_pos e] at hn
      exact nomatch hn.choose_spec
    rw [others was hr]
    exact ⟨t, was, rfl, waits⟩
  · by_cases hopen : ∃ t, (pick x.ort i).occ = .opened t
    · obtain ⟨t, was⟩ := hopen
      by_cases hr : t.requester = r
      · rw [slots] at is
        exact absurd hq (not_hasQueued_of_withdrawn was (fun k hq => hr ▸ h.covers i t k was hq) is)
      · rw [others was hr, was] at is
        obtain rfl := Occupancy.opened.inj is
        exact ⟨t, was, rfl, hq, fun hn => by rwa [fifos, if_neg hr]⟩
    · rw [slots, slotWithdrawn_of_notOpen fun t was => hopen ⟨t, was⟩] at is
      exact absurd ⟨v, is⟩ hopen

/-! ## Grants -/

theorem sublist_of_headTaken {e : FifoEntry} {rest : List FifoEntry} (head : fifoOf x r = e :: rest)
    (fifos : ∀ r', fifoOf u r' = if r' = r then rest else fifoOf x r') (r' : ReqNum) :
    (fifoOf u r').Sublist (fifoOf x r') := by
  rw [fifos]
  split
  · rename_i hr
    rw [hr, head]
    exact List.sublist_cons_self _ _
  · exact .refl _

/-- The head of a FIFO is granted and is a posted entry (R72). -/
theorem FifoOf.of_grantedPosted {e : FifoEntry} {rest : List FifoEntry} (h : FifoOf x)
    (posted : ∀ i k data, e ≠ .tracked i k data) (head : fifoOf x r = e :: rest)
    (fifos : ∀ r', fifoOf u r' = if r' = r then rest else fifoOf x r') (ort : u.ort = x.ort) : FifoOf u := by
  refine h.of_sublist (sublist_of_headTaken head fifos) (fun i k t _ was waits => ?_) fun i v k is hq => ?_
  · rw [ort]
    exact ⟨t, was, rfl, waits⟩
  · rw [ort] at is
    refine ⟨v, is, rfl, hq, fun ⟨data, he⟩ => ?_⟩
    rw [fifos]
    split
    · rename_i hr
      rw [hr, head] at he
      exact ⟨data, (List.mem_cons.mp he).resolve_left fun e => posted _ _ _ e.symm⟩
    · exact ⟨data, he⟩

/-- The head of a FIFO is granted, and the piece that it names becomes ISSUED (R71). -/
theorem FifoOf.of_grantedTracked {data : Option (List Byte)} {rest : List FifoEntry} (h : FifoOf x)
    (head : fifoOf x r = .tracked i k data :: rest) (was : (pick x.ort i).occ = .opened t)
    (fifos : ∀ r', fifoOf u r' = if r' = r then rest else fifoOf x r')
    (ort : u.ort = put x.ort i ⟨(pick x.ort i).incarnation, .opened (t.setPiece k .issued)⟩) : FifoOf u := by
  have requester : t.requester = r := by
    obtain ⟨t', was', rfl, -⟩ := h.fits r i k ⟨data, head ▸ List.mem_cons_self⟩
    exact congrArg Tracked.requester (Occupancy.opened.inj (was.symm.trans was'))
  have alone : ¬ Names rest i k := fun ⟨data', he⟩ => by
    have distinct := h.distinct r
    rw [head, List.pairwise_cons] at distinct
    simpa [sameEntry] using distinct.1 _ he
  have slot : (pick u.ort i).occ = .opened (t.setPiece k .issued) := by rw [ort, pick_put_same]
  refine h.of_sublist (sublist_of_headTaken head fifos) (fun j l t' hn was' waits => ?_) fun j v l is hq => ?_
  · by_cases hj : j = i
    · rw [hj] at was' hn ⊢
      obtain rfl := Occupancy.opened.inj (was.symm.trans was')
      rw [fifos, if_pos requester] at hn
      have hl : l ≠ k := fun e => alone (e ▸ hn)
      exact ⟨_, slot, rfl, waits_setPiece .issued waits hl⟩
    · rw [ort, pick_put_other _ _ hj]
      exact ⟨t', was', rfl, waits⟩
  · have keeps : ∀ r', (j, l) ≠ (i, k) → Names (fifoOf x r') j l → Names (fifoOf u r') j l := by
      rintro r' hne ⟨data', he⟩
      rw [fifos]
      split
      · rename_i hr
        rw [hr, head] at he
        refine ⟨data', (List.mem_cons.mp he).resolve_left fun e => hne ?_⟩
        injection e with hj hl
        rw [hj, hl]
      · exact ⟨data', he⟩
    by_cases hj : j = i
    · rw [hj, slot] at is
      obtain rfl := Occupancy.opened.inj is
      obtain ⟨hq', hl⟩ := hasQueued_of_setPiece (by decide) hq
      exact ⟨t, hj ▸ was, rfl, hq', keeps _ fun e => hl (Prod.mk.inj e).2⟩
    · rw [ort, pick_put_other _ _ hj] at is
      exact ⟨v, is, rfl, hq, keeps _ fun e => hj (Prod.mk.inj e).1⟩

/-! ## Acceptance -/

/-- Posted entries join a FIFO (R35). -/
theorem FifoOf.of_posted {es : List FifoEntry} (h : FifoOf x) (posted : ∀ e ∈ es, ∀ i k data, e ≠ .tracked i k data)
    (fifos : ∀ r', fifoOf u r' = if r' = r then fifoOf x r ++ es else fifoOf x r') (ort : u.ort = x.ort) :
    FifoOf u := by
  have names : ∀ {r' i k}, Names (fifoOf u r') i k ↔ Names (fifoOf x r') i k := by
    intro r' i k
    rw [fifos]
    split
    · rename_i hr
      rw [hr]
      refine ⟨fun ⟨data, he⟩ => ⟨data, ?_⟩, fun ⟨data, he⟩ => ⟨data, List.mem_append_left _ he⟩⟩
      exact (List.mem_append.mp he).resolve_right fun he' => posted _ he' i k data rfl
    · exact .rfl
  have unnamed : ∀ e ∈ es, ∀ f, sameEntry f e = false := by
    intro e he f
    cases e with
    | tracked i k data => exact absurd rfl (posted _ he i k data)
    | posted => cases f <;> rfl
  refine ⟨fun r' i k hn => ?_, fun r' => ?_, fun i t k was hq => ?_⟩
  · rw [ort]
    exact h.fits r' i k (names.mp hn)
  · rw [fifos]
    split
    · refine List.pairwise_append.mpr ⟨h.distinct r, ?_, fun f _ e he => unnamed e he f⟩
      exact List.pairwise_of_forall_mem_list fun f _ e he => unnamed e he f
    · exact h.distinct r'
  · rw [ort] at was
    exact names.mpr (h.covers i t k was hq)

/-- A FREE slot is allocated, and each of its pieces has its entry at the tail of its requester's FIFO (R35, R47). -/
theorem FifoOf.of_allocated {es : List FifoEntry} (h : FifoOf x) (free : (pick x.ort i).occ = .free)
    (entries : ∀ e ∈ es, ∃ k data, e = .tracked i k data ∧ Waits t k)
    (distinct : es.Pairwise fun e f => sameEntry e f = false) (covers : ∀ k, HasQueued t k → Names es i k)
    (fifos : ∀ r, fifoOf u r = if r = t.requester then fifoOf x t.requester ++ es else fifoOf x r)
    (ort : u.ort = put x.ort i ⟨(pick x.ort i).incarnation, .opened t⟩) : FifoOf u := by
  have slot : (pick u.ort i).occ = .opened t := by rw [ort, pick_put_same]
  have unused : ∀ {r j k}, Names (fifoOf x r) j k → j ≠ i := by
    rintro r j k hn rfl
    obtain ⟨t', was, -⟩ := h.fits r j k hn
    exact nomatch free.symm.trans was
  have older : ∀ {r j k}, Names (fifoOf x r) j k →
      ∃ t', (pick u.ort j).occ = .opened t' ∧ t'.requester = r ∧ Waits t' k := by
    intro r j k hn
    rw [ort, pick_put_other _ _ (unused hn)]
    exact h.fits r j k hn
  refine ⟨fun r j k hn => ?_, fun r => ?_, fun j t' k is hq => ?_⟩
  · rw [fifos] at hn
    split at hn
    · rename_i hr
      obtain ⟨data, he⟩ := hn
      rcases List.mem_append.mp he with he | he
      · exact hr ▸ older ⟨data, he⟩
      · obtain ⟨k', data', e, waits⟩ := entries _ he
        injection e with hj hk
        rw [hj, hk]
        exact ⟨t, slot, hr.symm, waits⟩
    · exact older hn
  · rw [fifos]
    split
    · refine List.pairwise_append.mpr ⟨h.distinct _, distinct, fun f hf e he => ?_⟩
      obtain ⟨k, data, rfl, -⟩ := entries e he
      cases f with
      | posted => rfl
      | tracked j k' data' => simp [sameEntry, unused ⟨data', hf⟩]
    · exact h.distinct r
  · rw [fifos]
    by_cases hj : j = i
    · rw [hj, slot] at is
      obtain rfl := Occupancy.opened.inj is
      obtain ⟨data, he⟩ := covers k hq
      rw [if_pos rfl, hj]
      exact ⟨data, List.mem_append_right _ he⟩
    · rw [ort, pick_put_other _ _ hj] at is
      obtain ⟨data, he⟩ := h.covers j t' k is hq
      split
      · rename_i hr
        exact ⟨data, List.mem_append_left _ (hr ▸ he)⟩
      · exact ⟨data, he⟩

end Sys2Proof.Proofs
end

