-- ==== Sys2Proof/Proofs/IssueLaws.lean ====
section
/-! PROOFS. The laws of the issue unit, of the queues and of the tables that every event keeps (R22, R59, R64, R65, R67,
R70, R73, R76, R167), proved once for each operation that changes the table, the FIFOs, the pools or the downstream link
while entries only leave the FIFOs. -/

namespace Sys2Proof.Proofs

open Sys2Proof.Machine Sys2Proof.Safety Sys2Proof.Claims Sys2Proof.Laws

variable {x y u : State} {t v : Tracked} {i : SlotNum} {r : ReqNum} {k : PieceIndex}

/-! ## What is kept -/

/-- Every law that holds before holds after; that of the pools rests on the downstream link's. -/
structure Keeps (x u : State) : Prop where
  down : DownLaw x → DownLaw u
  pools : DownLaw x → PoolLaw x → PoolLaw u
  path : SendPathLaw x → SendPathLaw u
  fifo : FifoOf x → FifoOf u
  quarantine : QuarantineLaw x → QuarantineLaw u
  queues : QueueLaw x → QueueLaw u
  requesters : RequesterLaw x → RequesterLaw u
  config : ConfigLaw x → ConfigLaw u

/-- Beside that each FIFO keeps the order of the entries that stay, and no entry joins (R66). -/
structure Shrinks (x u : State) : Prop extends Keeps x u where
  order : ∀ r, (fifoOf u r).Sublist (fifoOf x r)

theorem Keeps.trans (h : Keeps x y) (k : Keeps y u) : Keeps x u where
  down := k.down ∘ h.down
  pools hd hp := k.pools (h.down hd) (h.pools hd hp)
  path := k.path ∘ h.path
  fifo := k.fifo ∘ h.fifo
  quarantine := k.quarantine ∘ h.quarantine
  queues := k.queues ∘ h.queues
  requesters := k.requesters ∘ h.requesters
  config := k.config ∘ h.config

theorem Shrinks.trans (h : Shrinks x y) (k : Shrinks y u) : Shrinks x u :=
  ⟨h.toKeeps.trans k.toKeeps, fun r => (k.order r).trans (h.order r)⟩

theorem poolLaw_congr (link : u.down.link = .up ↔ x.down.link = .up)
    (request : u.issue.requestPool = x.issue.requestPool) (posted : u.issue.postedPool = x.issue.postedPool)
    (h : PoolLaw x) : PoolLaw u := by
  rw [PoolLaw, request, posted]
  obtain ⟨le1, le2, max1, max2, zero⟩ := h
  exact ⟨le1, le2, max1, max2, fun e => zero (mt link.mpr e)⟩

theorem Keeps.of_frame (h : Frame x u) (down : DownLaw x → DownLaw u) (fifo : FifoOf x → FifoOf u)
    (quarantine : QuarantineLaw x → QuarantineLaw u)
    (room : (∀ r, (fifoOf x r).length ≤ 8) → ∀ r, (fifoOf u r).length ≤ 8) : Keeps x u where
  down := down
  pools _ := poolLaw_congr h.link h.requestPool h.postedPool
  path := h.path
  fifo := fifo
  quarantine := quarantine
  queues := fun ⟨intake, commands, fifos⟩ => ⟨h.intake intake, h.commands commands, room fifos⟩
  requesters := h.requesters
  config := h.config

theorem Shrinks.of_frame (h : Frame x u) (order : ∀ r, (fifoOf u r).Sublist (fifoOf x r))
    (free : ∀ i, (pick x.ort i).occ = .free → (pick u.ort i).occ = .free) (fifo : FifoOf x → FifoOf u)
    (active : ∀ r, (entryOf u r).state ≠ .active → (entryOf x r).state ≠ .active ∨ fifoOf u r = []) :
    Shrinks x u where
  order := order
  toKeeps := by
    have empties : ∀ r, fifoOf x r = [] → fifoOf u r = [] := fun r e => List.sublist_nil.mp (e ▸ order r)
    refine .of_frame h (fun hd notUp => ?_) fifo (fun hq r e => ?_) fun room r => (order r).length_le.trans (room r)
    · obtain ⟨slots, fifos⟩ := hd (mt h.link.mpr notUp)
      exact ⟨fun i => free i (slots i), fun r => empties r (fifos r)⟩
    · rcases active r e with e | e
      · exact empties r (hq r e)
      · exact e

theorem Steady.shrinks (h : Steady x u) (order : ∀ r, (fifoOf u r).Sublist (fifoOf x r))
    (free : ∀ i, (pick x.ort i).occ = .free → (pick u.ort i).occ = .free) (fifo : FifoOf x → FifoOf u) :
    Shrinks x u :=
  .of_frame h.toFrame order free fifo fun r e => .inl (h.active r e)

theorem Calm.shrinks (h : Calm x u) : Shrinks x u :=
  h.toSteady.shrinks (fun r => by rw [fifoOf_congr h.fifos]) (fun i e => by rw [h.ort, e]) fun hf =>
    hf.of_same h.ort h.fifos

theorem Shrinks.refl (x : State) : Shrinks x x := (Calm.refl x).shrinks

/-- The table and the FIFOs have been emptied. -/
theorem shrinks_of_emptied (slots : ∀ i, (pick u.ort i).occ = .free) (fifos : ∀ r, fifoOf u r = [])
    (pools : PoolLaw x → PoolLaw u) (path : SendPathLaw x → SendPathLaw u)
    (requesters : RequesterLaw x → RequesterLaw u)
    (intake : x.intake.queue.length ≤ 32 → u.intake.queue.length ≤ 32)
    (commands : x.mgmt.queue.length ≤ 16 → u.mgmt.queue.length ≤ 16) (config : ConfigLaw x → ConfigLaw u) :
    Shrinks x u where
  down _ _ := ⟨slots, fifos⟩
  pools _ := pools
  path := path
  fifo _ := fifoOf_of_empty fifos fun i t e => nomatch (slots i).symm.trans e
  quarantine _ r _ := fifos r
  queues := fun ⟨hi, hc, _⟩ => ⟨intake hi, commands hc, fun r => by rw [fifos]; exact Nat.zero_le _⟩
  requesters := requesters
  config := config
  order r := by rw [fifos]; exact List.nil_sublist _

/-! ## Credits -/

/-- The pools are replaced, with their law. -/
theorem shrinks_setPools {a b : CreditPool}
    (h : DownLaw x → PoolLaw x → PoolLaw { x with issue := { x.issue with requestPool := a, postedPool := b } }) :
    Shrinks x { x with issue := { x.issue with requestPool := a, postedPool := b } } :=
  ⟨⟨id, h, id, fun hf => hf.of_same rfl rfl, id, id, id, id⟩, fun _ => .refl _⟩

theorem calm_creditExcess (n : Nat) (w : Option WinIndex) (g : Option Generation) (x : State) :
    Calm x (creditExcess n w g x) := by
  unfold creditExcess
  split
  · exact .refl x
  · exact (calm_appendFault _ _).ofUpdate

theorem returned_available_le (c : CreditPool) (n : Nat) : (c.returned n).available ≤ c.maximum := Nat.min_le_left _ _

/-- Credits return while the downstream link is UP (R67, R68). -/
theorem shrinks_returnRequest (n : Nat) (w : Option WinIndex) (g : Option Generation)
    (up : DownLaw x → x.down.link = .up) : Shrinks x (returnRequest n w g x) := by
  have returned := shrinks_setPools (x := x) (a := x.issue.requestPool.returned n) (b := x.issue.postedPool)
    fun hd ⟨_, le2, max1, max2, _⟩ => ⟨returned_available_le _ n, le2, max1, max2, fun e => absurd (up hd) e⟩
  exact returned.trans (calm_creditExcess _ w g _).shrinks

theorem shrinks_returnPosted (n : Nat) (up : x.down.link = .up) : Shrinks x (returnPosted n x) := by
  have returned := shrinks_setPools (x := x) (a := x.issue.requestPool) (b := x.issue.postedPool.returned n)
    fun _ ⟨le1, _, max1, max2, _⟩ => ⟨le1, returned_available_le _ n, max1, max2, fun e => absurd up e⟩
  exact returned.trans (calm_creditExcess _ none none _).shrinks

theorem shrinks_takeCret (cls : PoolClass) (c : BitVec 16) (x : State) : Shrinks x (takeCret cls c x) := by
  unfold takeCret
  split
  · rename_i h
    cases cls
    · exact shrinks_returnRequest _ _ _ fun _ => h.1
    · exact shrinks_returnPosted _ h.1
  · exact .refl x

/-! ## One slot -/

/-- A slot that is not FREE changes, and nothing else of the table and the issue unit. -/
theorem Steady.shrinks_slot {b : Slot} (h : Steady x u) (fifos : u.issue.fifos = x.issue.fifos)
    (ort : u.ort = put x.ort i b) (used : (pick x.ort i).occ ≠ .free) (fifo : FifoOf x → FifoOf u) : Shrinks x u := by
  refine h.shrinks (fun r => by rw [fifoOf_congr fifos]) (fun j free => ?_) fifo
  have hj : j ≠ i := fun e => used (e ▸ free)
  rw [ort, pick_put_other _ _ hj, free]

theorem shrinks_freeStale (was : (pick x.ort i).occ = .stale t) : Shrinks x (freeSlot i x) := by
  obtain ⟨_, h⟩ := freeSlot_shape i x
  rw [h]
  exact Steady.shrinks_slot .same rfl rfl (by simp [was]) fun hf => hf.of_notOpen rfl rfl (by simp [was]) fun _ => nofun

theorem ort_settleOpen (i : SlotNum) (v : Tracked) (x : State) :
    (settleOpen i v x).ort = put x.ort i (settledSlot (pick x.ort i) v) := by
  unfold settleOpen settledSlot
  split
  · obtain ⟨_, _, _, _, h⟩ := closeSlot_shape i v x
    rw [h]
    rfl
  · rfl

theorem steady_closeSlot (i : SlotNum) (v : Tracked) (x : State) : Steady x (closeSlot i v x) := by
  obtain ⟨_, _, _, _, h⟩ := closeSlot_shape i v x
  rw [h]
  exact .same

theorem fifos_closeSlot (i : SlotNum) (v : Tracked) (x : State) : (closeSlot i v x).issue.fifos = x.issue.fifos := by
  obtain ⟨_, _, _, _, h⟩ := closeSlot_shape i v x
  rw [h]

/-- An OPEN slot comes to the record `v`, in which the ISSUED piece that a response names is resolved (R83 to R86). -/
theorem shrinks_settleOpen {p : Piece} {z : PieceState} (was : (pick x.ort i).occ = .opened t) (hp : t.piece k = some p)
    (issued : p.state ≠ .queued) (hz : z ≠ .queued) (requester : v.requester = t.requester)
    (pieces : v.pieces = (t.setPiece k z).pieces) : Shrinks x (settleOpen i v x) := by
  have fifos : (settleOpen i v x).issue.fifos = x.issue.fifos := by
    unfold settleOpen
    split
    · exact fifos_closeSlot i v x
    · rfl
  have steady : Steady x (settleOpen i v x) := by
    unfold settleOpen
    split
    · exact steady_closeSlot i v x
    · exact .same
  exact steady.shrinks_slot fifos (ort_settleOpen i v x) (by simp [was]) fun hf =>
    hf.of_answered fifos (ort_settleOpen i v x) was hp issued hz requester pieces

theorem shrinks_answerOpen {p : Piece} (body : ResponseBody) (was : (pick x.ort i).occ = .opened t)
    (hp : t.piece k = some p) (issued : p.state = .issued) : Shrinks x (answerOpen i t p body x) := by
  have waits : p.state ≠ .queued := by rw [issued]; decide
  obtain rfl := index_of_piece hp
  cases body with
  | rdrsp _ data =>
    have told := calm_produce .up (k := forwardedRead (t.setPiece p.index .done) p data) rfl x
    exact told.shrinks.trans (shrinks_settleOpen (z := .done) (told.ort ▸ was) hp waits nofun rfl rfl)
  | wrrsp => exact shrinks_settleOpen (z := .done) was hp waits nofun rfl rfl
  | errsp c =>
    have logged : Calm x (if logsError x t p then appendFault (downstreamErrorReport t p c) x else x) := by
      split
      · exact calm_appendFault _ x
      · exact .refl x
    exact logged.shrinks.trans
      (shrinks_settleOpen (z := .failed (.downstream c)) (logged.ort ▸ was) hp waits nofun rfl rfl)

theorem shrinks_answerStale (p : Piece) (body : ResponseBody) (was : (pick x.ort i).occ = .stale t) :
    Shrinks x (answerStale i t p body x) := by
  unfold answerStale
  dsimp only
  split
  · exact Steady.shrinks_slot .same rfl rfl (by simp [was]) fun hf =>
      hf.of_notOpen rfl rfl (by simp [was]) fun _ => nofun
  · exact shrinks_freeStale was

theorem link_answerOpen (i : SlotNum) (t : Tracked) (p : Piece) (body : ResponseBody) (x : State) :
    (answerOpen i t p body x).down.link = x.down.link := by
  have settled : ∀ v y, (settleOpen i v y).down = y.down := by
    intro v y
    unfold settleOpen
    split
    · obtain ⟨_, _, _, _, h⟩ := closeSlot_shape i v y
      rw [h]
    · rfl
  cases body with
  | rdrsp _ data =>
    obtain ⟨_, h⟩ := produce_up_shape (forwardedRead (t.setPiece p.index .done) p data) x
    rw [answerOpen, settled, h]
  | wrrsp => rw [answerOpen, settled]
  | errsp c =>
    rw [answerOpen, settled]
    split
    · obtain ⟨_, _, _, _, h⟩ := appendFault_shape (downstreamErrorReport t p c) x
      rw [h]
    · rfl

theorem link_answerStale (i : SlotNum) (t : Tracked) (p : Piece) (body : ResponseBody) (x : State) :
    (answerStale i t p body x).down = x.down := by
  unfold answerStale
  dsimp only
  split
  · rfl
  · rw [freeSlot_eq]

theorem shrinks_takeResponse (a : Response) (x : State) : Shrinks x (takeResponse a x) := by
  unfold takeResponse
  split
  · rename_i up
    split
    · rename_i t p hm
      obtain ⟨hp, issued⟩ : t.piece a.tag.piece = some p ∧ p.state = .issued := by
        have named := awaited_of_toOpen hm
        exact ⟨(Option.filter_eq_some_iff.mp named).1, (awaited_spec named).2.1⟩
      have answered := shrinks_answerOpen a.body (matchResponse_toOpen hm) hp issued
      exact (answered.trans (shrinks_returnRequest _ _ _ fun _ => (link_answerOpen _ _ _ _ _).trans up)).trans
        (calm_takeDrainEnd _).shrinks
    · rename_i t p hm
      have answered := shrinks_answerStale p a.body (matchResponse_toStale hm)
      exact answered.trans (shrinks_returnRequest _ _ _ fun _ => by rw [link_answerStale, up])
    · have discarded : Calm x (discardResponse a x) := (calm_appendFault _ _).ofUpdate
      exact discarded.shrinks.trans (shrinks_returnRequest _ _ _ fun _ => discarded.link.mpr up)
  · exact .refl x

/-! ## Expiries -/

theorem steady_removeEntries (i : SlotNum) (r : ReqNum) (x : State) : Steady x (removeEntries i r x) := by
  unfold removeEntries
  dsimp only
  split
  · exact Steady.trans .same (calm_notifyHeadOf r _).toSteady
  · exact (Calm.refl x).toSteady

/-- A slot that leaves OPEN for STALE or FREE. -/
theorem leaveOpen_spec (i : SlotNum) (t : Tracked) (x : State) :
    Steady x (leaveOpen i t x) ∧ (leaveOpen i t x).issue.fifos = x.issue.fifos ∧
      ∃ b, (leaveOpen i t x).ort = put x.ort i b ∧ ∀ v, b.occ ≠ .opened v := by
  unfold leaveOpen
  split
  · exact ⟨.same, rfl, _, rfl, fun _ => nofun⟩
  · obtain ⟨_, h⟩ := freeSlot_shape i x
    rw [h]
    exact ⟨.same, rfl, _, rfl, fun _ => nofun⟩

/-- The slot's entries leave the FIFO, its record is replaced and the expiry told, and the slot leaves OPEN (R104). -/
theorem shrinks_leaveOpen (was : (pick x.ort i).occ = .opened t)
    (told : Calm (setOcc i (.opened v) (removeEntries i t.requester x)) y) : Shrinks x (leaveOpen i v y) := by
  have steady : Steady x (setOcc i (.opened v) (removeEntries i t.requester x)) :=
    (steady_removeEntries i t.requester x).trans .same
  obtain ⟨left, fifos, b, ort, notOpen⟩ := leaveOpen_spec i v y
  have fifo : ∀ r, fifoOf (leaveOpen i v y) r = _ := fun r =>
    (fifoOf_congr (fifos.trans told.fifos) r).trans (fifoOf_removeEntries i t.requester r x)
  have others : ∀ j, j ≠ i → pick (leaveOpen i v y).ort j = pick x.ort j := fun j hj => by
    rw [ort, pick_put_other _ _ hj, told.ort, setOcc_ort, pick_put_other _ _ hj,
      (still_removeEntries i t.requester x).ort]
  have own : pick (leaveOpen i v y).ort i = b := by rw [ort, pick_put_same]
  refine ((steady.trans told.toSteady).trans left).shrinks (fun r => ?_) (fun j free => ?_) fun hf =>
    hf.of_expired was fifo others (own ▸ notOpen)
  · rw [fifo]
    split
    · rename_i e
      exact e ▸ List.filter_sublist
    · exact .refl _
  · have hj : j ≠ i := by
      rintro rfl
      exact nomatch was.symm.trans free
    rw [others j hj, free]

theorem shrinks_expireDeadline (was : (pick x.ort i).occ = .opened t) : Shrinks x (expireDeadline i t x) :=
  (shrinks_leaveOpen was
    (((calm_produce .up rfl _).trans (calm_appendFault _ _)).trans (calm_holdReleased t.generation _))).trans
    (calm_takeDrainEnd _).shrinks

theorem shrinks_expireReclaim (was : (pick x.ort i).occ = .stale t) : Shrinks x (expireReclaim i t x) := by
  have up : DownLaw x → x.down.link = .up := fun hd => by
    by_contra notUp
    exact nomatch was.symm.trans ((hd notUp).1 i)
  have returned := still_returnRequest (t.pieces.countP fun p => p.state == .issued) (t.firstIssued.map Piece.window)
    (some t.generation) x
  exact ((shrinks_returnRequest _ _ _ up).trans (shrinks_freeStale (returned.ort ▸ was))).trans
    (calm_appendFault _ _).shrinks

/-! ## Withdrawal and quarantine -/

theorem steady_withdraw (r : ReqNum) (x : State) : Steady x (withdraw r x) := by
  obtain ⟨_, _, _, _, _, _, _, _, h⟩ := withdraw_shape r x
  rw [h]
  exact .same

/-- A withdrawal, after the requester's entry has been written: the requester need not be ACTIVE any more (R73). -/
theorem shrinks_withdraw (h : Frame x y) (ort : y.ort = x.ort) (fifos : y.issue.fifos = x.issue.fifos)
    (active : ∀ r', r' ≠ r → (entryOf y r').state ≠ .active → (entryOf x r').state ≠ .active) :
    Shrinks x (withdraw r y) := by
  have same := fifoOf_congr fifos
  have fifo : ∀ r', fifoOf (withdraw r y) r' = if r' = r then [] else fifoOf x r' := fun r' => by
    rw [fifoOf_withdraw, same]
  have slots : ∀ i, pick (withdraw r y).ort i = slotWithdrawn (fifoOf x r) i (pick x.ort i) := fun i => by
    rw [ort_withdraw, ort, same]
  refine .of_frame (h.trans (steady_withdraw r y).toFrame) (fun r' => ?_) (fun i free => ?_)
    (fun hf => hf.of_withdrawn fifo slots) fun r' e => ?_
  · rw [fifo]
    split
    · exact List.nil_sublist _
    · exact .refl _
  · rw [slots, slotWithdrawn_of_notOpen (by simp [free]), free]
  · by_cases hr : r' = r
    · exact .inr (by rw [fifo, if_pos hr])
    · exact .inl (active r' hr ((steady_withdraw r y).active r' e))

/-- The entry of a requester that ceases to be ACTIVE is written, and its FIFO withdrawn. -/
theorem shrinks_withdraw_setEntry {e : RequesterEntry} (range : EntryInRange (entryOf x r) → EntryInRange e)
    (h : Calm (setEntry r e x) y) : Shrinks x (withdraw r y) :=
  shrinks_withdraw ((frame_setEntry range).trans h.toFrame) h.ort h.fifos fun r' hr hy => by
    have written := h.active r' hy
    rwa [entryOf_setEntry, if_neg hr] at written

theorem shrinks_enterQuarantine (o : Offence) (x : State) : Shrinks x (enterQuarantine o x) := by
  have withdrawn := shrinks_withdraw_setEntry (x := x) (r := o.requester)
    (e := { entryOf x o.requester with state := .quarantined }) id (calm_notifyHeadOf o.requester _)
  exact withdrawn.trans
    (((calm_appendFault _ _).trans (calm_raiseClass .quarantine _)).trans (calm_takeDrainEnd _)).shrinks

theorem shrinks_applyAction (a : Action) (o : Offence) (x : State) : Shrinks x (applyAction a o x) := by
  have struck : Calm x (setEntry o.requester
      { entryOf x o.requester with strikes := min 15 ((entryOf x o.requester).strikes + 1) } x) :=
    calm_setEntry (fun ⟨open1, open2, _, limits⟩ => ⟨open1, open2, Nat.min_le_left _ _, limits⟩) id
  cases a with
  | reject => exact .refl x
  | strike =>
    simp only [applyAction]
    split
    · exact struck.shrinks.trans (shrinks_enterQuarantine o _)
    · exact struck.shrinks
  | quarantine => exact shrinks_enterQuarantine o x

theorem shrinks_writeState (w : RqWrite) (x : State) : Shrinks x (writeState w x) := by
  unfold writeState
  dsimp only
  split
  · exact .refl x
  · exact (calm_setEntry (e := { entryOf x w.requester with state := .active }) id fun h => absurd rfl h).shrinks
  · split
    · exact shrinks_withdraw_setEntry (e := { entryOf x w.requester with state := .disabled }) id (.refl _)
    · exact (calm_setEntry (e := { entryOf x w.requester with state := .disabled }) id fun _ => ‹_›).shrinks

theorem shrinks_writeRequester (w : RqWrite) (range : w.inRange = true) (x : State) :
    Shrinks x (writeRequester w x) := by
  have limits : ∀ y, Calm y (setEntry w.requester (writeLimits w (entryOf y w.requester)) y) := by
    intro y
    simp only [RqWrite.inRange, Bool.and_eq_true, decide_eq_true_eq] at range
    obtain ⟨⟨⟨open1, open2⟩, strike1⟩, strike2⟩ := range
    refine calm_setEntry (fun ⟨_, _, strikes, _⟩ => ⟨open1, open2, ?_, strike1, strike2⟩) id
    unfold writeLimits
    dsimp only
    split
    · exact Nat.zero_le _
    · exact strikes
  exact (shrinks_writeState w x).trans ((limits _).trans (calm_notifyHeadOf _ _)).shrinks

theorem inRange_of_rqWriteOf {bytes : List Byte} {w : RqWrite} (h : rqWriteOf bytes = some w) : w.inRange = true := by
  simp only [rqWriteOf, Option.bind_eq_bind, Option.bind_eq_some_iff] at h
  obtain ⟨_, -, _, -, _, -, h⟩ := h
  split at h
  · exact Option.some.inj h ▸ ‹_›
  · exact nomatch h

theorem shrinks_doRqWrite (c : QueuedCommand) (x : State) : Shrinks x (doRqWrite c x) := by
  unfold doRqWrite
  split
  · exact (calm_answer c _ _ x).shrinks
  · rename_i w hw
    have written := shrinks_writeRequester w (inRange_of_rqWriteOf hw) x
    dsimp only
    split_ifs
    · exact (calm_answer c _ _ x).shrinks
    · exact written.trans ((calm_answer c _ _ _).trans (calm_takeDrainEnd _)).shrinks
    · exact written.trans (calm_answer c _ _ _).shrinks

/-! ## The downstream link -/

theorem shrinks_ownersUp {c : InitCounts} (accepted : initAccepted .down c = true) (up : x.down.link = .up) :
    Shrinks x (ownersUp .down c x) := by
  simp only [initAccepted, Bool.and_eq_true, decide_eq_true_eq] at accepted
  obtain ⟨⟨⟨-, request⟩, -⟩, posted⟩ := accepted
  have flag : Calm x { x with intake := { x.intake with linkDownLogged := false } } := .same
  exact flag.shrinks.trans (shrinks_setPools fun _ _ => ⟨le_rfl, le_rfl, request, posted, fun e => absurd up e⟩)

/-- The downstream port comes UP, before its owners' parts (R188). -/
theorem shrinks_trained (x : State) : Shrinks x { x with down := x.down.trained } where
  down _ notUp := absurd rfl notUp
  pools := fun _ ⟨le1, le2, max1, max2, _⟩ => ⟨le1, le2, max1, max2, fun notUp => absurd rfl notUp⟩
  path := fun ⟨waiting, _⟩ => ⟨waiting, fun notUp => absurd rfl notUp⟩
  fifo hf := hf.of_same rfl rfl
  quarantine := id
  queues := id
  requesters := id
  config := id
  order _ := .refl _

theorem shrinks_enterUp {p : PortId} {c : InitCounts} (accepted : initAccepted p c = true) :
    Shrinks x (enterUp p c x) := by
  cases p with
  | up => exact (Calm.ofUpdate (calm_linkChanged .up _)).shrinks
  | down =>
    have changed := calm_linkChanged .down { x with down := x.down.trained }
    exact (((shrinks_trained x).trans changed.shrinks).trans
      (shrinks_ownersUp accepted (changed.link.mpr rfl))).trans (calm_linkNotice .down _).shrinks

theorem shrinks_takeInit (p : PortId) (c : InitCounts) (x : State) : Shrinks x (takeInit p c x) := by
  unfold takeInit
  split
  · split
    · exact shrinks_enterUp ‹_›
    · exact (calm_failTraining (by simp [*])).shrinks
  · exact .refl x

theorem cutSlot_ort (i : SlotNum) (x : State) :
    (pick (cutSlot i x).ort i).occ = .free ∧ ∀ j, j ≠ i → pick (cutSlot i x).ort j = pick x.ort j := by
  unfold cutSlot
  split
  · exact ⟨‹_›, fun _ _ => rfl⟩
  · rw [freeSlot_eq]
    exact ⟨by rw [pick_put_same]; rfl, fun j hj => pick_put_other _ _ hj⟩
  · rename_i t _
    obtain ⟨_, _, _, _, h⟩ := closeSlot_shape i (cutRecord t) x
    rw [h]
    exact ⟨by rw [pick_put_same], fun j hj => pick_put_other _ _ hj⟩

theorem forSlots_cutSlot_free (x : State) (j : SlotNum) : (pick (forSlots cutSlot x).ort j).occ = .free := by
  refine forSlots_each (Q := fun j x => (pick x.ort j).occ = .free) (fun i x => (cutSlot_ort i x).1) ?_ x j
  intro i j x h
  by_cases hj : j = i
  · exact hj ▸ (cutSlot_ort i x).1
  · exact (congrArg Slot.occ ((cutSlot_ort i x).2 j hj)).trans h

theorem frame_forSlots {f : SlotNum → State → State}
    (h : ∀ i x, ∃ u a b o t e, f i x =
      { x with
        up := { x.up with tx := u }
        commit := { x.commit with liveOpen := a, drainingOpen := b }
        ort := o, timers := t, intake := { x.intake with examDue := e } }) (x : State) :
    Frame x (forSlots f x) := by
  obtain ⟨_, _, _, _, _, _, shape⟩ := forSlots_shape f h x
  rw [shape]
  exact Steady.toFrame .same

/-- The fall of the downstream link, but for the lease and the drain end: the slots FREE, the FIFOs empty, no credit and
no piece on the send path (R59, R76). -/
theorem shrinks_cutIssue (h : Frame { x with down := x.down.lost } y) (slots : ∀ i, (pick y.ort i).occ = .free) :
    Shrinks x (cutIssue y) := by
  refine shrinks_of_emptied slots (fun r => pick_replicate _ r) (fun ⟨_, _, max1, max2, _⟩ => ?_)
    (fun _ => ⟨h.noPiece rfl, fun _ => rfl⟩) h.requesters h.intake h.commands h.config
  exact ⟨Nat.zero_le _, Nat.zero_le _, (congrArg CreditPool.maximum h.requestPool).trans_le max1,
    (congrArg CreditPool.maximum h.postedPool).trans_le max2, fun _ => ⟨rfl, rfl⟩⟩

theorem calm_purgeCommands (p : PortId) (x : State) : Calm x (purgeCommands p x) :=
  calm_setQueues id (fun h => (List.length_filter_le _ _).trans h) rfl

theorem shrinks_leaveUp (p : PortId) (x : State) : Shrinks x (leaveUp p x) := by
  cases p with
  | up => exact (calm_leaveUp_up x).shrinks
  | down =>
    have cut := (calm_linkChanged .down { x with down := x.down.lost }).toFrame.trans (frame_forSlots cutSlot_shape _)
    exact (shrinks_cutIssue cut (forSlots_cutSlot_free _)).trans
      (((calm_notifyHead _).trans (calm_purgeCommands .down _)).trans (calm_lapseAtFall _)).shrinks

theorem shrinks_dropLink (p : PortId) (x : State) : Shrinks x (dropLink p x) := by
  unfold dropLink
  split
  · exact .refl x
  · exact (calm_failTraining (by simp [*])).shrinks
  · exact shrinks_leaveUp p x

theorem shrinks_takeInitWhileUp (p : PortId) (x : State) : Shrinks x (takeInitWhileUp p x) := by
  unfold takeInitWhileUp
  split
  · exact shrinks_leaveUp p x
  · exact .refl x

/-! ## Time -/

theorem notUp_of_left {e : TimedEvent} {p : PortId} (h : e.left x = some 0) (he : e = .training p ∨ e = .holdOff p) :
    (x.port p).link ≠ .up := by
  intro up
  rcases he with rfl | rfl <;> simp [TimedEvent.left, up] at h

theorem shrinks_happen (e : TimedEvent) (x : State) (hdue : e.left x = some 0) : Shrinks x (e.happen x) := by
  cases e with
  | fillStep => exact Calm.shrinks .same
  | fillCompletion => exact (calm_completeFill x).shrinks
  | deadline i =>
    simp only [TimedEvent.happen, happenDeadline]
    split
    · exact .refl x
    · exact shrinks_expireDeadline (openAt_eq_some.mp ‹_›)
  | reclaim i =>
    simp only [TimedEvent.happen, happenReclaim]
    split
    · exact .refl x
    · exact shrinks_expireReclaim (staleAt_eq_some.mp ‹_›)
  | resend => exact (calm_happenResend x).shrinks
  | lease => exact (calm_endLease _ x).shrinks
  | training p => exact (calm_failTraining (notUp_of_left hdue (.inl rfl))).shrinks
  | holdOff p => exact (calm_endHoldOff (notUp_of_left hdue (.inr rfl))).shrinks

theorem shrinks_takeTimed (e : TimedEvent) (x : State) : Shrinks x (takeTimed e x) :=
  takeTimed_keeps (P := Shrinks x) (fun e y h hdue => h.trans (shrinks_happen e y hdue))
    (fun n y h => h.trans ((calm_sendHeld y).trans (calm_passTime n _)).shrinks) e x (.refl x)

/-! ## Resets -/

theorem calm_warmIntake (x : State) : Calm x (warmIntake x) := by
  have emptied : Calm x { x with intake := coldIntake } := calm_setQueues (fun _ => Nat.zero_le _) id rfl
  unfold warmIntake
  dsimp only
  split
  · exact emptied
  · exact emptied.trans (calm_produce .up rfl _)

/-- The issue unit's part of a warm reset, after the slots' (R78). -/
theorem shrinks_warmIssue (h : Frame x y) (slots : ∀ i, (pick y.ort i).occ = .free) :
    Shrinks x (warmIssue (cancelTimers y)) := by
  have refilled : ∀ (c : CreditPool) b, (c.refill b).available ≤ c.maximum := fun c b => by
    cases b
    · exact Nat.zero_le _
    · exact le_rfl
  refine shrinks_of_emptied slots (fun r => pick_replicate _ r) (fun ⟨_, _, max1, max2, _⟩ => ?_) h.path h.requesters
    h.intake h.commands h.config
  refine ⟨refilled _ _, refilled _ _, (congrArg CreditPool.maximum h.requestPool).trans_le max1,
    (congrArg CreditPool.maximum h.postedPool).trans_le max2, fun notUp => ?_⟩
  have down : decide ((cancelTimers y).down.link = .up) = false := decide_eq_false notUp
  simp [warmIssue, CreditPool.refill, down]

theorem shrinks_warmReset (p : Party) (x : State) : Shrinks x (warmReset p x) := by
  have begun := (calm_warmIntake x).toFrame.trans (frame_forSlots warmSlot_shape _)
  have counted : ∀ y, Calm y (zeroResponseCounters (zeroRequesterCounters (warmCommit y))) := fun y =>
    (Calm.trans (.same) (calm_zeroRequesterCounters (warmCommit y))).trans .same
  have managed : ∀ y, Calm y (warmNotice (warmManagement y)) := fun y =>
    Calm.trans (calm_setQueues (k := y.intake)
      (m := { y.mgmt with queue := [], lease := none, postedDiscards := 0#32, earlyRenewals := 0#32 }) id
      (fun _ => Nat.zero_le _) rfl) .same
  exact (shrinks_warmIssue begun (forSlots_warmSlot_free _)).trans
    (((counted _).trans (managed _)).trans (calm_appendFault _ _)).shrinks

theorem shrinks_coldReset (x : State) : Shrinks x (coldReset x) := by
  have entries : ∀ r, entryOf (coldReset x) r = coldRequester := fun r => pick_replicate _ r
  refine shrinks_of_emptied (fun i => congrArg Slot.occ (pick_replicate _ i)) (fun r => pick_replicate _ r)
    (fun _ => ⟨le_rfl, le_rfl, Nat.zero_le _, Nat.zero_le _, fun _ => ⟨rfl, rfl⟩⟩) (fun _ => ⟨rfl, fun _ => rfl⟩)
    (fun _ r => ?_) (fun _ => Nat.zero_le _) (fun _ => Nat.zero_le _) fun _ => rfl
  rw [entries]
  decide

theorem shrinks_powerUp (a : Straps) (b : Bool) (x : State) : Shrinks x (powerUp a b x) := by
  unfold powerUp
  split
  · exact (shrinks_coldReset x).trans (calm_startPart a _).shrinks
  · exact shrinks_coldReset x

end Sys2Proof.Proofs
end

