-- ==== Sys2Proof/Proofs/IssueEvents.lean ====
section
/-! PROOFS. Every command of the table keeps the laws of the issue unit, of the queues and of the tables: a grant takes
the head of one FIFO (R71, R72), an acceptance joins entries at the tail of one (R35), and every other command lets
entries leave in their order (R66). -/

namespace Sys2Proof.Proofs

open Sys2Proof.Machine Sys2Proof.Safety Sys2Proof.Claims Sys2Proof.Laws

variable {s x y u : State} {t : Tracked} {i : SlotNum} {r : ReqNum}

/-! ## Grants -/

theorem ort_produce (p : PortId) (k : OutPacket) (x : State) : (produce p k x).ort = x.ort :=
  (still_produce p k x).ort

theorem issue_produce (p : PortId) (k : OutPacket) (x : State) : (produce p k x).issue = x.issue := by
  rw [produce_eq]

/-- A piece is handed to the downstream port with the send path free before and taken after (R70 to R72). -/
theorem sendPathLaw_produce {k : OutPacket} {iss : IssueUnit} {o : Vector Slot 128} {intake : Intake}
    (piece : k.isPiece = true) (up : x.down.link = .up) (free : x.issue.sendPathBusy = false)
    (busy : iss.sendPathBusy = true) (h : SendPathLaw x) :
    SendPathLaw (produce .down k { x with issue := iss, ort := o, intake := intake }) := by
  obtain ⟨waiting, -⟩ := h
  rw [produce_eq]
  refine ⟨?_, fun notUp => absurd up notUp⟩
  rw [free] at waiting
  simp only [up, and_self, if_true, List.countP_append, waiting, List.countP_singleton, piece, busy]
  rfl

/-- A granted piece is handed to the downstream port: credits are spent, and entries leave the FIFOs. -/
theorem shrinks_granted {k : OutPacket} {iss : IssueUnit} {o : Vector Slot 128} (piece : k.isPiece = true)
    (up : x.down.link = .up) (free : x.issue.sendPathBusy = false) (busy : iss.sendPathBusy = true)
    (request : iss.requestPool.maximum = x.issue.requestPool.maximum ∧
      iss.requestPool.available ≤ x.issue.requestPool.available)
    (posted : iss.postedPool.maximum = x.issue.postedPool.maximum ∧
      iss.postedPool.available ≤ x.issue.postedPool.available)
    (order : ∀ r, (pick iss.fifos r).Sublist (fifoOf x r))
    (fifo : FifoOf x → FifoOf (produce .down k { x with issue := iss, ort := o, intake := spaceFreed r x.intake })) :
    Shrinks x (produce .down k { x with issue := iss, ort := o, intake := spaceFreed r x.intake }) := by
  have queue : (spaceFreed r x.intake).queue = x.intake.queue := by
    unfold spaceFreed
    split <;> rfl
  have path := sendPathLaw_produce (o := o) (intake := spaceFreed r x.intake) piece up free busy
  rw [produce_eq] at fifo path ⊢
  refine ⟨⟨fun _ notUp => absurd up notUp, fun _ hp => ?_, path, fifo, fun hq r' e => ?_, fun hl => ?_, id, id⟩, order⟩
  · obtain ⟨le1, le2, max1, max2, -⟩ := hp
    exact ⟨(request.2.trans le1).trans_eq request.1.symm, (posted.2.trans le2).trans_eq posted.1.symm,
      request.1.trans_le max1, posted.1.trans_le max2, fun notUp => absurd up notUp⟩
  · exact List.sublist_nil.mp (hq r' e ▸ order r')
  · obtain ⟨intake, commands, fifos⟩ := hl
    exact ⟨queue ▸ intake, commands, fun r' => (order r').length_le.trans (fifos r')⟩

theorem pieceRequest_isPiece (tag : DTag) (t : Tracked) (p : Piece) (data : Option (List Byte)) :
    (pieceRequest tag t p data).isPiece = true := by
  unfold pieceRequest
  split <;> rfl

/-- The FIFO of `r` with its head taken, and the others. -/
theorem sublist_put_tail {e : FifoEntry} {rest : List FifoEntry} (head : fifoOf x r = e :: rest) (r' : ReqNum) :
    (pick (put x.issue.fifos r rest) r').Sublist (fifoOf x r') :=
  sublist_of_headTaken (u := setFifo r rest x) head (fun r' => fifoOf_setFifo r r' rest x) r'

theorem fifoOf_sent (k : OutPacket) {iss : IssueUnit} {o : Vector Slot 128} {intake : Intake} {rest : List FifoEntry}
    (h : iss.fifos = put x.issue.fifos r rest) (r' : ReqNum) :
    fifoOf (produce .down k { x with issue := iss, ort := o, intake := intake }) r' =
      if r' = r then rest else fifoOf x r' := by
  rw [fifoOf, issue_produce, h, pick_put]
  rfl

theorem shrinks_grantTo (up : x.down.link = .up) (free : x.issue.sendPathBusy = false) :
    Shrinks x (grantTo r x) := by
  unfold grantTo
  split
  · exact .refl x
  · rename_i _ a n data rest head
    rw [sendPosted_eq]
    exact shrinks_granted rfl up free rfl ⟨rfl, le_rfl⟩ ⟨rfl, Nat.sub_le _ _⟩ (sublist_put_tail head) fun hf =>
      hf.of_grantedPosted (e := .posted _ a n data) (fun _ _ _ => nofun) head (fifoOf_sent _ rfl) (ort_produce _ _ _)
  · rename_i i k data rest head
    split
    · exact .refl x
    · rename_i t ht
      split
      · exact .refl x
      · rename_i p hp
        obtain rfl := index_of_piece hp
        rw [sendTracked_eq]
        exact shrinks_granted (pieceRequest_isPiece _ t p data) up free rfl ⟨rfl, Nat.sub_le _ _⟩ ⟨rfl, le_rfl⟩
          (sublist_put_tail head) fun hf =>
            hf.of_grantedTracked head (openAt_eq_some.mp ht) (fifoOf_sent _ rfl) (ort_produce _ _ _)

theorem shrinks_grantNext (x : State) : Shrinks x (grantNext x) := by
  unfold grantNext
  split
  · exact .refl x
  · rename_i r chosen
    obtain ⟨_, _, _, up, _⟩ := headEligible_iff.mp (eligible_of_chosen chosen)
    have taken := calm_takePiece x
    exact taken.shrinks.trans (shrinks_grantTo (taken.link.mpr up) (sendPathBusy_takePiece x))

/-- A grant takes none but the head (R66). -/
theorem fifoOf_grantNext (x : State) (r' : ReqNum) :
    fifoOf (grantNext x) r' = fifoOf x r' ∨ fifoOf (grantNext x) r' = (fifoOf x r').tail := by
  unfold grantNext
  split
  · exact .inl rfl
  · rename_i r _
    have same := fifoOf_congr (calm_takePiece x).fifos
    have took : ∀ {e rest} {y : State}, fifoOf (takePiece x) r = e :: rest →
        (fifoOf y r' = if r' = r then rest else fifoOf (takePiece x) r') →
        fifoOf y r' = fifoOf x r' ∨ fifoOf y r' = (fifoOf x r').tail := by
      intro e rest y head hy
      split at hy
      · rename_i hr
        rw [same] at head
        exact .inr (by rw [hy, hr, head]; rfl)
      · exact .inl (hy.trans (same r'))
    unfold grantTo
    split
    · exact .inl (same r')
    · rw [sendPosted_eq]
      exact took ‹_› (fifoOf_sent _ rfl r')
    · split
      · exact .inl (same r')
      · split
        · exact .inl (same r')
        · rw [sendTracked_eq]
          exact took ‹_› (fifoOf_sent _ rfl r')

/-! ## Acceptance -/

/-- What an examination does to the FIFOs: entries leave, or they join at the tail (R66). -/
inductive Examines (x u : State) : Prop
  | shrinks (h : Shrinks x u)
  | joins (keeps : Keeps x u) (added : ReqNum → List FifoEntry) (tail : ∀ r, fifoOf u r = fifoOf x r ++ added r)

theorem Examines.keeps (h : Examines x u) : Keeps x u := by
  cases h with
  | shrinks h => exact h.toKeeps
  | joins keeps _ _ => exact keeps

/-- Check 2, check 3 and check 4: a request that passes comes from an ACTIVE requester while the downstream link is UP
(R28, R29). -/
theorem judge_pass_ready {q : Request} {ps : List GrantedPiece} {g : Generation} (h : judge x q = .pass ps g) :
    (entryOf x q.requester).state = .active ∧ x.down.link = .up := by
  unfold judge at h
  dsimp only at h
  split_ifs at h with _ disabled quarantined _ _ _ _
  refine ⟨?_, not_not.mp ‹_›⟩
  cases state : (entryOf x q.requester).state with
  | active => rfl
  | disabled => exact absurd state disabled
  | quarantined => exact absurd state quarantined

theorem steady_enqueueAccepted (r : ReqNum) (es : List FifoEntry) (x : State) : Steady x (enqueueAccepted r es x) := by
  have joined : Steady x (setFifo r (fifoOf x r ++ es) x) := .same
  have counted : Calm (setFifo r (fifoOf x r ++ es) x) (enqueueAccepted r es x) :=
    (calm_setEntry (x := setFifo r (fifoOf x r ++ es) x) (r := r)
      (e := { entryOf x r with accepted := (entryOf x r).accepted + 1 }) id id).trans (calm_leaveQueue _)
  exact joined.trans counted.toSteady

theorem fifoOf_enqueueAccepted (r r' : ReqNum) (es : List FifoEntry) (x : State) :
    fifoOf (enqueueAccepted r es x) r' = if r' = r then fifoOf x r ++ es else fifoOf x r' :=
  (fifoOf_congr (calm_leaveQueue _).fifos r').trans (fifoOf_setFifo r r' _ x)

theorem ort_enqueueAccepted (r : ReqNum) (es : List FifoEntry) (x : State) : (enqueueAccepted r es x).ort = x.ort :=
  (still_leaveQueue _).ort

/-- Entries join the tail of the FIFO of an ACTIVE requester, with room for them, while the downstream link is UP. -/
theorem examines_of_joined {es : List FifoEntry} (steady : Steady x u) (up : x.down.link = .up)
    (active : (entryOf x r).state = .active) (room : (fifoOf x r).length + es.length ≤ 8)
    (fifos : ∀ r', fifoOf u r' = if r' = r then fifoOf x r ++ es else fifoOf x r') (fifo : FifoOf x → FifoOf u) :
    Examines x u := by
  refine .joins (.of_frame steady.toFrame (fun _ notUp => absurd (steady.link.mpr up) notUp) fifo (fun hq r' e => ?_)
    fun places r' => ?_) (fun r' => if r' = r then es else []) fun r' => ?_
  · have before := steady.active r' e
    have hr : r' ≠ r := fun e' => before (e' ▸ active)
    rw [fifos, if_neg hr]
    exact hq r' before
  · rw [fifos]
    split
    · rwa [List.length_append]
    · exact places r'
  · rw [fifos]
    split
    · rename_i hr
      rw [hr]
    · exact (List.append_nil _).symm

/-! ### The entries of an allocated slot -/

theorem indices_of_granted {q : Request} {ps : List GrantedPiece} {g : Generation}
    (hw : windowCheck x q = .granted ps g) : (ps.map GrantedPiece.index).Nodup := by
  obtain ⟨passes, rfl, -⟩ := windowCheck_eq_granted_iff.mp hw
  have whole := congrArg (List.map CheckedPiece.index) (map_asChecked_granted passes)
  rw [List.map_map] at whole
  have indices : (CheckedPiece.index ∘ asChecked) = GrantedPiece.index := rfl
  rw [indices] at whole
  rw [whole]
  by_cases agree : lookup (liveBank x) q.requester q.address.toNat = lookup (liveBank x) q.requester (lastByte q)
  · rw [splitRequest_of_agree agree]
    exact List.nodup_singleton _
  · rw [splitRequest_of_differ agree]
    show [(0 : PieceIndex), 1].Nodup
    decide

theorem newRecord_hasQueued {q : Request} {ps : List GrantedPiece} {g : Generation} {k : PieceIndex} :
    HasQueued (newRecord x q ps g) k ↔ ∃ p ∈ ps, p.index = k := by
  constructor
  · rintro ⟨_, mem, hk, -⟩
    obtain ⟨p, hp, rfl⟩ := List.mem_map.mp mem
    exact ⟨p, hp, hk⟩
  · rintro ⟨p, hp, hk⟩
    exact ⟨p.record, List.mem_map_of_mem hp, hk, rfl⟩

/-- Every piece of a new record is QUEUED, so that an index that it has is one that waits. -/
theorem newRecord_waits {q : Request} {ps : List GrantedPiece} {g : Generation} {p : GrantedPiece} (hp : p ∈ ps) :
    Waits (newRecord x q ps g) p.index := by
  have some : ((newRecord x q ps g).piece p.index).isSome = true :=
    List.find?_isSome.mpr ⟨p.record, List.mem_map_of_mem hp, beq_self_eq_true _⟩
  obtain ⟨p', hp'⟩ := Option.isSome_iff_exists.mp some
  obtain ⟨_, -, rfl⟩ := List.mem_map.mp (List.mem_of_find?_eq_some hp')
  exact ⟨_, hp', rfl⟩

theorem distinct_trackedEntries {q : Request} {ps : List GrantedPiece} (h : (ps.map GrantedPiece.index).Nodup) :
    (ps.map (trackedEntry i q)).Pairwise fun e f => sameEntry e f = false := by
  rw [List.pairwise_map]
  refine (List.pairwise_map.mp h).imp fun hne => ?_
  simp [sameEntry, trackedEntry, hne]

theorem fifo_acceptTracked {q : Request} {ps : List GrantedPiece} {g : Generation}
    (hw : windowCheck x q = .granted ps g) (free : (pick x.ort i).occ = .free) (h : FifoOf x) :
    FifoOf (acceptTracked i q ps g x) := by
  refine h.of_allocated (t := newRecord x q ps g) (es := ps.map (trackedEntry i q)) free (fun e he => ?_)
    (distinct_trackedEntries (indices_of_granted hw)) (fun k hk => ?_) (fun r => fifoOf_enqueueAccepted _ _ _ _)
    (ort_enqueueAccepted _ _ _)
  · obtain ⟨p, hp, rfl⟩ := List.mem_map.mp he
    exact ⟨p.index, _, rfl, newRecord_waits hp⟩
  · obtain ⟨p, hp, rfl⟩ := newRecord_hasQueued.mp hk
    exact ⟨_, List.mem_map.mpr ⟨p, hp, rfl⟩⟩

theorem fifo_acceptPosted (q : Request) (ps : List GrantedPiece) (h : FifoOf x) : FifoOf (acceptPosted q ps x) := by
  refine h.of_posted (r := q.requester) (es := ps.map (postedEntry q)) (fun e he => ?_)
    (fun r => fifoOf_enqueueAccepted _ _ _ _) (ort_enqueueAccepted _ _ _)
  obtain ⟨p, -, rfl⟩ := List.mem_map.mp he
  exact fun _ _ _ => nofun

theorem examines_resourceCheck {q : Request} {ps : List GrantedPiece} {g : Generation} (hj : judge x q = .pass ps g) :
    Examines x (resourceCheck q ps g x) := by
  obtain ⟨active, up⟩ := judge_pass_ready hj
  obtain ⟨-, -, hw⟩ := judge_pass hj
  have stalls : ∀ a b, Examines x (stallHead a b q.requester x) := fun a b =>
    .shrinks (calm_stallHead a b q.requester x).shrinks
  unfold resourceCheck
  dsimp only
  split
  · split
    · rename_i i hi
      split
      · rename_i room
        have allocated : Steady x (allocate i (newRecord x q ps g) x) := .same
        exact examines_of_joined (r := q.requester) (es := ps.map (trackedEntry i q))
          (allocated.trans (steady_enqueueAccepted _ _ _)) up active (by simpa using room)
          (fun r => fifoOf_enqueueAccepted _ _ _ _) (fifo_acceptTracked hw (firstFree_free hi))
      · exact stalls _ _
    · exact stalls _ _
  · split
    · rename_i room
      exact examines_of_joined (r := q.requester) (es := ps.map (postedEntry q))
        (steady_enqueueAccepted _ _ _) up active (by simpa using room) (fun r => fifoOf_enqueueAccepted _ _ _ _) (fifo_acceptPosted q ps)
    · exact stalls _ _

theorem examines_examineHead (x : State) : Examines x (examineHead x) := by
  unfold examineHead
  split
  · split
    · unfold examine
      split
      · exact .shrinks (Calm.ofUpdate (calm_refuseRequest _ _ _ _)).shrinks
      · exact .shrinks ((calm_refuseRequest _ _ _ x).shrinks.trans (shrinks_applyAction _ _ _))
      · exact examines_resourceCheck ‹_›
    · exact .shrinks (.refl x)
  · exact .shrinks (.refl x)
  · exact .shrinks (.refl x)

/-! ## Every command -/

theorem shrinks_whenRunning {f : State → State} (h : whenRunning f s = .next u) (hf : Shrinks s (f s)) :
    Shrinks s u := by
  obtain rfl : (if s.resetHeld then s else f s) = u := Host.Outcome.next.inj h
  split
  · exact .refl s
  · exact hf

theorem shrinks_calm {f : State → State} (h : whenRunning f s = .next u) (hf : ∀ x, Calm x (f x)) : Shrinks s u :=
  shrinks_whenRunning h (hf s).shrinks

theorem shrinks_takeCommand {k : Command} {body : QueuedCommand → State → State} (hbody : ∀ c x, Shrinks x (body c x))
    (x : State) : Shrinks x (takeCommand k body x) := by
  have popped := (calm_popCommand x).shrinks
  unfold takeCommand
  split
  · exact .refl x
  · rename_i c _ _
    split
    · unfold decideCommand
      split_ifs
      · exact popped.trans (calm_answer c _ _ _).shrinks
      · exact popped.trans (calm_answer c _ _ _).shrinks
      · exact popped.trans (calm_answer c _ _ _).shrinks
      · exact popped.trans (hbody c _)
    · exact .refl x

theorem shrinks_command {k : Command} {body : QueuedCommand → State → State}
    (h : whenRunning (takeCommand k body) s = .next u) (hbody : ∀ c x, Shrinks x (body c x)) : Shrinks s u :=
  shrinks_whenRunning h (shrinks_takeCommand hbody s)

theorem shrinks_calmCommand {k : Command} {body : QueuedCommand → State → State}
    (h : whenRunning (takeCommand k body) s = .next u) (hbody : ∀ c x, Calm x (body c x)) : Shrinks s u :=
  shrinks_command h fun c x => (hbody c x).shrinks

theorem shrinks_timed {e : TimedEvent} (h : whenRunning (takeTimed e) s = .next u) : Shrinks s u :=
  shrinks_whenRunning h (shrinks_takeTimed e s)

/-- Every command but an examination, cold resets too. -/
theorem exec_shrinks {c : Instr} (h : exec c s = .next u) (head : c ≠ .headExamination) : Shrinks s u := by
  cases c with
  | upstreamPacketArrival p => exact shrinks_calm h (calm_arriveUpstream p)
  | upstreamStrayPacket _ r => exact shrinks_calm h (calm_strayUpstream r)
  | upstreamCretDiscard _ _ => exact shrinks_calm (f := fun x => x) h .refl
  | headExamination => exact absurd rfl head
  | mcmdAtHead => exact shrinks_calm h calm_moveHead
  | grant => exact shrinks_whenRunning h (shrinks_grantNext s)
  | responseArrival a => exact shrinks_whenRunning h (shrinks_takeResponse a s)
  | downstreamCret cls n => exact shrinks_whenRunning h (shrinks_takeCret cls n s)
  | downstreamStrayPacket _ => exact shrinks_calm (f := fun x => x) h .refl
  | downstreamMcmdArrival m => exact shrinks_calm h (calm_arriveDownstream m)
  | deadlineExpiry i => exact shrinks_timed h
  | reclaimExpiry i => exact shrinks_timed h
  | drainEnd => exact shrinks_calm h calm_takeDrainEnd
  | fillStep => exact shrinks_timed h
  | fillCompletion => exact shrinks_timed h
  | resendExpiry => exact shrinks_timed h
  | leaseTimerExpiry => exact shrinks_timed h
  | identify => exact shrinks_calmCommand h fun c => calm_answer c _ _
  | status => exact shrinks_calmCommand h fun c x => calm_answer c _ _ x
  | claim => exact shrinks_calmCommand h calm_doClaim
  | renew => exact shrinks_calmCommand h calm_doRenew
  | release => exact shrinks_calmCommand h calm_doRelease
  | rqRead => exact shrinks_calmCommand h calm_doRqRead
  | ortRead => exact shrinks_calmCommand h calm_doOrtRead
  | flogRead => exact shrinks_calmCommand h calm_doFlogRead
  | flogPop => exact shrinks_calmCommand h calm_doFlogPop
  | wtRead => exact shrinks_calmCommand h calm_doWtRead
  | wtWrite => exact shrinks_calmCommand h calm_doWtWrite
  | wtClear => exact shrinks_calmCommand h calm_doWtClear
  | commit => exact shrinks_calmCommand h calm_doCommit
  | commitCancel => exact shrinks_calmCommand h calm_doCommitCancel
  | rqWrite => exact shrinks_command h shrinks_doRqWrite
  | reinstate => exact shrinks_calmCommand h calm_doReinstate
  | noteAck => exact shrinks_calmCommand h calm_doNoteAck
  | configRead => exact shrinks_calmCommand h fun c x => calm_answer c _ _ x
  | configWrite => exact shrinks_calmCommand h calm_doConfigWrite
  | countersRead => exact shrinks_calmCommand h calm_doCountersRead
  | partReset => exact shrinks_command h fun c x => (calm_answer c _ _ x).shrinks.trans (shrinks_warmReset _ _)
  | peerDetect p =>
    obtain rfl := Host.Outcome.next.inj h
    split
    · exact (calm_setSignal p true s).shrinks
    · exact (calm_detectPeer p s).shrinks
  | initReceived p n => exact shrinks_whenRunning h (shrinks_takeInit p n s)
  | initWhileUp p => exact shrinks_whenRunning h (shrinks_takeInitWhileUp p s)
  | trainingTimerExpiry p => exact shrinks_timed h
  | holdOffExpiry p => exact shrinks_timed h
  | lossOfSignal p =>
    obtain rfl := Host.Outcome.next.inj h
    split
    · exact (calm_setSignal p false s).shrinks
    · exact (calm_setSignal p false s).shrinks.trans (shrinks_dropLink p _)
  | errorBurst p => exact shrinks_whenRunning h (shrinks_dropLink p s)
  | resetNAssert =>
    obtain rfl := Host.Outcome.next.inj h
    exact shrinks_coldReset s
  | resetNRelease a =>
    obtain rfl := Host.Outcome.next.inj h
    exact (calm_releaseReset a s).shrinks
  | powerUp a b =>
    obtain rfl := Host.Outcome.next.inj h
    exact shrinks_powerUp a b s
  | unknownCommand => exact shrinks_calm h calm_takeUnknown

theorem exec_examines (h : exec .headExamination s = .next u) : Examines s u := by
  obtain rfl : (if s.resetHeld then s else examineHead s) = u := Host.Outcome.next.inj h
  split
  · exact .shrinks (.refl s)
  · exact examines_examineHead s

theorem exec_keeps {c : Instr} (h : exec c s = .next u) : Keeps s u := by
  by_cases head : c = .headExamination
  · subst head
    exact (exec_examines h).keeps
  · exact (exec_shrinks h head).toKeeps

theorem step_keeps (h : step s = .next u) : Keeps s u := by
  unfold step at h
  split at h
  · unfold idle at h
    split_ifs at h
    · exact Host.Outcome.next.inj h ▸ (Shrinks.refl s).toKeeps
    · exact Host.Outcome.next.inj h ▸ (calm_transmit s).shrinks.toKeeps
    · split at h
      · exact exec_keeps h
      · exact Host.Outcome.next.inj h ▸ (calm_passTime 1 s).shrinks.toKeeps
  · exact (Calm.shrinks .same).toKeeps.trans (exec_keeps h)

/-! ## The laws -/

/-- Settles O54: every step keeps the law of the downstream link, with it that of the pools, and that of the send
path. -/
theorem downstreamLawsAreKept : Obligations.DownstreamLawsAreKept :=
  ⟨fun _ _ hd h => (step_keeps h).down hd,
    fun _ _ ⟨hd, hp⟩ h => ⟨(step_keeps h).down hd, (step_keeps h).pools hd hp⟩,
    fun _ _ hp h => (step_keeps h).path hp⟩

/-- Settles O55: every step keeps the correspondence of entries and QUEUED pieces. -/
theorem fifoLawIsKept : Obligations.FifoLawIsKept := fun s u hf h =>
  (fifoLaw_iff u).mpr ((step_keeps h).fifo ((fifoLaw_iff s).mp hf))

/-- Settles O56: every step keeps the FIFOs of the requesters that are not ACTIVE empty, and the queues, the entries and
the configuration in their ranges. -/
theorem tableLawsAreKept : Obligations.TableLawsAreKept :=
  ⟨fun _ _ hq h => (step_keeps h).quarantine hq, fun _ _ hq h => (step_keeps h).queues hq,
    fun _ _ hr h => (step_keeps h).requesters hr, fun _ _ hc h => (step_keeps h).config hc⟩

/-- Settles O60: an acceptance joins its entries at the tail, and every other command lets entries leave; a grant takes
the head. -/
theorem fifosKeepTheirOrder : Obligations.FifosKeepTheirOrder := by
  intro c s u r h _
  refine ⟨?_, fun grant => ?_⟩
  · have left : Shrinks s u → ∃ kept added, fifoOf u r = kept ++ added ∧ kept.Sublist (fifoOf s r) ∧
        (c ≠ .headExamination → added = []) ∧ (added ≠ [] → kept = fifoOf s r) := fun shrinks =>
      ⟨fifoOf u r, [], (List.append_nil _).symm, shrinks.order r, fun _ => rfl, fun e => absurd rfl e⟩
    by_cases head : c = .headExamination
    · subst head
      cases exec_examines h with
      | shrinks shrinks => exact left shrinks
      | joins _ added tail =>
        exact ⟨fifoOf s r, added r, tail r, .refl _, fun e => absurd rfl e, fun _ => rfl⟩
    · exact left (exec_shrinks h head)
  · subst grant
    obtain rfl : (if s.resetHeld then s else grantNext s) = u := Host.Outcome.next.inj h
    split
    · exact .inl rfl
    · exact fifoOf_grantNext s r

end Sys2Proof.Proofs
end

