-- ==== Sys2Proof/Proofs/ResponseAnswers.lean ====
section
/-! PROOFS. What a received response does (R80 to R94): the match with an ISSUED piece, the answer to an OPEN slot and
to a STALE one, the response that matches none; and the packets that a port takes over or discards (R89, R90). -/

namespace Sys2Proof.Proofs

open Sys2Proof.Machine Sys2Proof.Safety Sys2Proof.Claims Sys2Proof.Laws

variable {s : State} {r : Response} {t : Tracked} {p : Piece} {i : SlotNum} {g : Generation}
  {b d : BankNum}

/-! ## Packets handed to a port -/

theorem produce_of_up {q : PortId} (k : OutPacket) (up : (s.port q).link = .up) :
    produce q k s = s.setPort q { s.port q with tx := (s.port q).tx ++ [k] } := if_pos up

theorem produce_of_notUp {q : PortId} (k : OutPacket) (notUp : (s.port q).link ≠ .up) : produce q k s = s :=
  if_neg notUp

/-- Settles O4, from the two branches of a production. -/
theorem producedPacketJoinsItsPort : Obligations.ProducedPacketJoinsItsPort := fun k _ =>
  ⟨produce_of_up (q := .up) k, produce_of_up (q := .down) k, fun _ => produce_of_notUp k⟩

/-! ## The drain end as the last part of an event -/

/-- The swap reads neither of the two roles that the drain end has just written. -/
theorem swapped_of_drainEnded (c : CommitUnit) (d : BankNum) :
    { c with freeBank := some d, drainingBank := none }.swapped d = afterSwap d c := by
  have holds : 0 < c.liveOpen ↔ ¬ c.liveOpen = 0 := Nat.pos_iff_ne_zero
  simp only [CommitUnit.swapped, afterSwap, holds, ite_not]

theorem endDrain_of_held (drains : s.commit.drainingBank = some d) (held : s.commit.heldCommit = true) :
    endDrain s = { s with commit := afterSwap d s.commit, intake := headNotified s.intake } := by
  rw [endDrain, if_pos held, drains, ← swapped_of_drainEnded]
  exact notifyHead_eq _

theorem endDrain_of_notHeld (drains : s.commit.drainingBank = some d)
    (notHeld : ¬ s.commit.heldCommit = true) :
    endDrain s = { s with commit := { s.commit with drainingBank := none, freeBank := some d } } := by
  rw [endDrain, if_neg notHeld, drains]

theorem takeDrainEnd_eq (s : State) : takeDrainEnd s = drained s := by
  unfold takeDrainEnd drained
  cases drains : s.commit.drainingBank with
  | none => exact if_neg (by simp [drainDue, drains])
  | some d =>
    have due : drainDue s = true ↔ s.commit.drainingOpen = 0 := by simp [drainDue, drains]
    simp only [due, ne_eq, ite_not]
    split_ifs with empty held
    · exact endDrain_of_held drains held
    · exact endDrain_of_notHeld drains held
    · rfl

/-! ## The match -/

theorem shapeFits_iff (t : Tracked) (p : Piece) (body : ResponseBody) :
    shapeFits t p body = true ↔ shapeGood t p body := by
  cases body <;> simp [shapeFits, and_assoc]

theorem awaited_eq_some_iff : awaited t r = some p ↔ fitsPiece r t p := by
  simp only [awaited, Option.filter_eq_some_iff, Bool.and_eq_true, beq_iff_eq, shapeFits_iff]

theorem matchResponse_of_opened (present : (pick s.ort r.tag.slot).incarnation = r.tag.incarnation)
    (was : (pick s.ort r.tag.slot).occ = .opened t) (fits : fitsPiece r t p) : matchResponse s r = .toOpen t p := by
  simp only [matchResponse, present, was, awaited_eq_some_iff.mpr fits, if_true]

theorem matchResponse_of_stale (present : (pick s.ort r.tag.slot).incarnation = r.tag.incarnation)
    (was : (pick s.ort r.tag.slot).occ = .stale t) (fits : fitsPiece r t p) : matchResponse s r = .toStale t p := by
  simp only [matchResponse, present, was, awaited_eq_some_iff.mpr fits, if_true]

/-- A match is with the present use of the slot. -/
theorem present_of_matched (h : matchResponse s r ≠ .unmatched) :
    (pick s.ort r.tag.slot).incarnation = r.tag.incarnation := by
  by_contra other
  exact h (if_neg other)

theorem answersAPiece_of_awaited (matched : matchResponse s r ≠ .unmatched)
    (was : (pick s.ort r.tag.slot).occ.record = some t) (h : awaited t r = some p) : answersAPiece r s := by
  have fits := awaited_eq_some_iff.mp h
  exact ⟨present_of_matched matched, t, was, p, fits.1, fits⟩

theorem matchResponse_of_unanswered (h : ¬ answersAPiece r s) : matchResponse s r = .unmatched := by
  cases hm : matchResponse s r with
  | unmatched => rfl
  | toOpen t p =>
    have was := congrArg Occupancy.record (matchResponse_toOpen hm)
    exact absurd (answersAPiece_of_awaited (by simp [hm]) was (awaited_of_toOpen hm)) h
  | toStale t p =>
    have was := congrArg Occupancy.record (matchResponse_toStale hm)
    exact absurd (answersAPiece_of_awaited (by simp [hm]) was (awaited_of_toStale hm)) h

/-! ## The arrival, by the outcome of the match -/

theorem exec_responseArrival_of_opened (h : arrives r s) (was : (pick s.ort r.tag.slot).occ = .opened t)
    (fits : fitsPiece r t p) :
    exec (.responseArrival r) s =
      .next (drained
        (returnRequest 1 (some p.window) (some t.generation) (answerOpen r.tag.slot t p r.body s))) := by
  obtain ⟨running, up, present⟩ := h
  refine (whenRunning_of_running _ running).trans (congrArg _ ?_)
  rw [takeResponse, if_pos up, matchResponse_of_opened present was fits]
  exact takeDrainEnd_eq _

theorem exec_responseArrival_of_stale (h : arrives r s) (was : (pick s.ort r.tag.slot).occ = .stale t)
    (fits : fitsPiece r t p) :
    exec (.responseArrival r) s =
      .next (returnRequest 1 (some p.window) (some t.generation) (answerStale r.tag.slot t p r.body s)) := by
  obtain ⟨running, up, present⟩ := h
  refine (whenRunning_of_running _ running).trans (congrArg _ ?_)
  rw [takeResponse, if_pos up, matchResponse_of_stale present was fits]

theorem exec_responseArrival_of_unmatched (running : Running s) (up : s.down.link = .up) (h : ¬ answersAPiece r s) :
    exec (.responseArrival r) s = .next (returnRequest 1 none none (discardResponse r s)) := by
  refine (whenRunning_of_running _ running).trans (congrArg _ ?_)
  rw [takeResponse, if_pos up, matchResponse_of_unanswered h]

theorem exec_responseArrival_of_notUp (running : Running s) (notUp : s.down.link ≠ .up) :
    exec (.responseArrival r) s = .next s :=
  (whenRunning_of_running _ running).trans (congrArg _ (if_neg notUp))

/-! ## Answers to an OPEN slot -/

theorem settleOpen_eq (i : SlotNum) (t : Tracked) (s : State) : settleOpen i t s = settled i t s := by
  rw [settleOpen, settled, allResolved_eq]
  rfl

theorem answerOpen_rdrsp (n : BitVec 16) (data : List Byte) (s : State) :
    answerOpen i t p (.rdrsp n data) s =
      settled i (withPiece p.index .done t)
        (produce .up
          (.rdrsp t.requester t.tag p.offset p.length data
            (allResolved (withPiece p.index .done t) && t.failure.isNone)) s) := by
  rw [allResolved_eq]
  exact settleOpen_eq _ _ _

theorem answerOpen_wrrsp (s : State) : answerOpen i t p .wrrsp s = settled i (withPiece p.index .done t) s :=
  settleOpen_eq _ _ _

theorem answerOpen_errsp (c : Byte) (s : State) :
    answerOpen i t p (.errsp c) s =
      settled i (failedRecord p.index c t)
        (if logsError s t p then appendFault (downstreamErrorReport t p c) s else s) := settleOpen_eq _ _ _

/-- The bank in which R86 looks up a window is that of R5. -/
theorem bankOfGeneration_of_named
    (h : (g = s.commit.liveGeneration ∧ b = s.commit.liveBank) ∨
      (g = s.commit.liveGeneration - 1 ∧ s.commit.drainingBank = some b)) : bankOfGeneration s g = some b := by
  rcases h with ⟨rfl, rfl⟩ | ⟨rfl, drains⟩
  · exact bankOfGeneration_live s
  · simp [bankOfGeneration, CommitUnit.drainingGeneration, drains]

theorem logsError_of_bank (h : bankOfGeneration s t.generation = some b) (p : Piece) :
    logsError s t p = ((pick (pick s.banks b) p.window).errorHandling == .log) := by
  rw [logsError, h]
  rfl

/-- Settles O23: the answer to the OPEN slot, body by body, then the credit, then the drain end. -/
theorem responseResolvesAnOpenPiece : Obligations.ResponseResolvesAnOpenPiece := by
  intro r t p s here was fits i done leads
  have run := exec_responseArrival_of_opened here was fits
  refine ⟨fun n data body => ?_, fun body => ?_, fun c b body bank => ?_⟩
  · rw [body, answerOpen_rdrsp] at run
    exact run
  · rw [body, answerOpen_wrrsp] at run
    exact run
  · rw [body, answerOpen_errsp, logsError_of_bank (bankOfGeneration_of_named bank)] at run
    refine ⟨fun pass => ?_, fun log => ?_⟩
    · rw [pass] at run
      exact run
    · rw [log] at run
      exact run

/-! ## Answers to a STALE slot, and to none -/

theorem answerStale_eq (body : ResponseBody) (s : State) :
    answerStale i t p body s =
      let t' := withPiece p.index (answeredState body) t
      if t'.pieces.any fun y => y.state == .issued then
        { s with ort := put s.ort i ⟨(pick s.ort i).incarnation, .stale t'⟩ }
      else
        { s with
          ort := put s.ort i (slotFreed (pick s.ort i))
          timers := put s.timers i .none
          intake := headNotified s.intake } := by
  rw [← freeSlot_eq]
  rfl

theorem namedRecord_eq (r : Response) (s : State) : namedRecord s r.tag = namedBy r s := by
  unfold namedRecord namedBy
  cases (pick s.ort r.tag.slot).occ <;> rfl

theorem unmatchedReport_eq (r : Response) (s : State) :
    unmatchedReport s r =
      { kind := .unmatchedResponse, port := .down, requester := (namedBy r s).map Tracked.requester
        tag := (namedBy r s).map Tracked.tag, generation := (namedBy r s).map Tracked.generation
        address := (namedBy r s).bind fun t =>
          ((namedBy r s).bind fun t => t.piece r.tag.piece).map fun p => t.address + BitVec.ofNat 48 p.offset
        window := ((namedBy r s).bind fun t => t.piece r.tag.piece).map Piece.window
        code := unmatchedCode r.body } := by
  rw [unmatchedReport, namedRecord_eq]
  rfl

/-- Settles O24: the answer to the STALE slot, the response that answers no piece, and the port that is not UP. -/
theorem lateAndStrayResponsesStaySilent : Obligations.LateAndStrayResponsesStaySilent := by
  refine ⟨?_, fun r s running => ⟨?_, exec_responseArrival_of_notUp running⟩⟩
  · intro r t p s here was fits i t'
    rw [exec_responseArrival_of_stale here was fits, answerStale_eq]
    rfl
  · intro up stray t p
    rw [exec_responseArrival_of_unmatched running up stray, discardResponse, unmatchedReport_eq]
    rfl

end Sys2Proof.Proofs
end

