-- ==== Sys2Proof/Proofs/SlotExpiries.lean ====
section
/-! PROOFS. What a slot's timer does when it runs out: the deadline of an OPEN slot (R74, R104, R105) and the reclaim
timer of a STALE one (R107, R108). -/

namespace Sys2Proof.Proofs

open Sys2Proof.Machine Sys2Proof.Safety Sys2Proof.Claims Sys2Proof.Laws

variable {s : State} {i : SlotNum} {t : Tracked}

/-! ## The record at its deadline -/

theorem expireRecord_eq (t : Tracked) : expireRecord t = timedOut t := rfl

/-- A piece waits exactly while it is QUEUED or ISSUED (R45). -/
theorem firstWaiting_eq (t : Tracked) :
    t.firstWaiting = t.pieces.find? fun p => p.state == .queued || p.state == .issued := by
  refine List.find?_congr fun p _ => ?_
  cases p.state <;> rfl

/-- The deadline fails the QUEUED pieces and leaves the ISSUED ones (R104). -/
theorem hasIssued_timedOut (t : Tracked) : (timedOut t).hasIssued = t.pieces.any fun p => p.state == .issued := by
  simp only [Tracked.hasIssued, timedOut, List.any_map]
  congr 1
  funext p
  by_cases queued : p.state = .queued
  · simp [queued]
  · simp [queued]

theorem timeoutReport_eq (t : Tracked) :
    timeoutReport t (timedOut t) =
      { kind := .timeout, port := .down, requester := some t.requester, tag := some t.tag
        address := some t.address
        window := (t.pieces.find? fun p => p.state == .queued || p.state == .issued).map Piece.window
        generation := some t.generation, code := some (failureCode (t.failure.getD .timeout)) } := by
  rw [timeoutReport, firstWaiting_eq, failureCode_eq]
  rfl

/-! ## The slot leaves OPEN -/

/-- The slot's entries leave the FIFO, and intake is told when there was one (R74). -/
theorem removeEntries_eq (i : SlotNum) (r : ReqNum) (s : State) :
    removeEntries i r s =
      { s with
        issue := { s.issue with fifos := put s.issue.fifos r ((fifoOf s r).filter fun e => !e.names i) }
        intake := if (fifoOf s r).any (FifoEntry.names i) then spaceFreed r s.intake else s.intake } := by
  unfold removeEntries
  dsimp only
  split_ifs with named
  · rw [notifyHeadOf_eq]
    rfl
  · have kept : (fifoOf s r).filter (fun e => !e.names i) = fifoOf s r := by
      rw [List.filter_eq_self]
      simpa using named
    rw [kept, fifoOf, put_pick]

theorem leaveOpen_of_issued (h : t.hasIssued = true) (s : State) :
    leaveOpen i t s =
      { s with
        ort := put s.ort i ⟨(pick s.ort i).incarnation, .stale t⟩
        timers := put s.timers i (.reclaim s.mgmt.config.reclaimPeriod) } := if_pos h

theorem leaveOpen_of_notIssued (h : t.hasIssued = false) (s : State) : leaveOpen i t s = freeSlot i s :=
  if_neg (Bool.not_eq_true _ ▸ h)

theorem appendFault_mgmt (r : FaultReport) (s : State) : (appendFault r s).mgmt = s.mgmt := by
  obtain ⟨_, _, _, _, h⟩ := appendFault_shape r s
  rw [h]

theorem produce_mgmt (p : PortId) (k : OutPacket) (s : State) : (produce p k s).mgmt = s.mgmt := by
  rw [produce_eq]

/-! ## The expiries -/

theorem exec_deadlineExpiry_of_due (running : Running s) (was : (pick s.ort i).occ = .opened t)
    (due : pick s.timers i = .deadline 0) : exec (.deadlineExpiry i) s = .next (expireDeadline i t s) := by
  have opened := openAt_eq_some.mpr was
  have left : (TimedEvent.deadline i).left s = some 0 := by simp only [TimedEvent.left, deadlineLeft, opened, due]
  refine (whenRunning_of_running _ running).trans (congrArg _ ((takeTimed_of_due left).trans ?_))
  simp only [TimedEvent.happen, happenDeadline, opened]

theorem exec_reclaimExpiry_of_due (running : Running s) (was : (pick s.ort i).occ = .stale t)
    (due : pick s.timers i = .reclaim 0) : exec (.reclaimExpiry i) s = .next (expireReclaim i t s) := by
  have stale := staleAt_eq_some.mpr was
  have left : (TimedEvent.reclaim i).left s = some 0 := by simp only [TimedEvent.left, reclaimLeft, stale, due]
  refine (whenRunning_of_running _ running).trans (congrArg _ ((takeTimed_of_due left).trans ?_))
  simp only [TimedEvent.happen, happenReclaim, stale]

/-- Settles O26: the entries leave, the record is timed out, the answer and the record follow, and the slot leaves
OPEN by whether a piece is ISSUED. -/
theorem deadlineExpiryAnswersTheRequester : Obligations.DeadlineExpiryAnswersTheRequester := by
  intro i t s running was due q mine code waiting removed told past
  have names : mine = FifoEntry.names i := by
    funext e
    cases e <;> rfl
  have left : setOcc i (.opened (timedOut t)) (removeEntries i (timedOut t).requester s) = removed := by
    rw [removeEntries_eq, ← names]
    rfl
  have expired : expireDeadline i t s = drained (leaveOpen i (timedOut t) past) := by
    rw [expireDeadline, takeDrainEnd_eq, expireRecord_eq, left, timeoutReport_eq, holdReleased_eq, ← failureCode_eq]
    rfl
  have told_still : Still removed told := (still_produce _ _ _).trans (still_appendFault _ _)
  have slot : pick past.ort i = ⟨(pick s.ort i).incarnation, .opened (timedOut t)⟩ :=
    (congrArg (pick · i) told_still.ort).trans (pick_put_same _ _ _)
  have timers : past.timers = s.timers := told_still.timers
  have config : past.mgmt = s.mgmt := (appendFault_mgmt _ _).trans (produce_mgmt _ _ _)
  rw [exec_deadlineExpiry_of_due running was due, expired]
  refine ⟨fun waits => ?_, fun settles => ?_⟩
  · rw [leaveOpen_of_issued ((hasIssued_timedOut t).trans waits), slot, timers, config]
  · rw [leaveOpen_of_notIssued ((hasIssued_timedOut t).trans settles), freeSlot_eq, slot, timers]
    rfl

/-- Settles O27: the credits of the pieces still ISSUED come back as one return, then the slot is FREE. -/
theorem reclaimExpiryFreesTheSlot : Obligations.ReclaimExpiryFreesTheSlot := by
  intro i t s running was due issued first back
  obtain ⟨_, _, _, _, _, h⟩ := returnRequest_shape (t.pieces.countP issued) first (some t.generation) s
  have freed : freeSlot i back =
      { back with
        ort := put s.ort i (slotFreed (pick s.ort i))
        timers := put s.timers i .none
        intake := headNotified s.intake } := by
    rw [freeSlot_eq, show back = _ from h]
  have report : reclaimReport t =
      { kind := .staleReclaimed, port := .down, requester := some t.requester, tag := some t.tag
        address := some t.address, window := first, generation := some t.generation
        code := t.failure.map failureCode } := by
    rw [reclaimReport, funext failureCode_eq]
    rfl
  rw [exec_reclaimExpiry_of_due running was due, ← report, ← freed]
  rfl

end Sys2Proof.Proofs
end

