-- ==== Sys2Proof/Proofs/TimedEvents.lean ====
section
/-! PROOFS. What a timed event leaves as it is (R101, R160, R177, R187): the timebase, and every timer but its own with
what that timer runs for. -/

namespace Sys2Proof.Proofs

open Sys2Proof.Machine Sys2Proof.Safety Sys2Proof.Claims Sys2Proof.Laws

variable {s x y u : State} {e : TimedEvent} {i : SlotNum} {t : Tracked} {p : PortId}

/-! ## What is left as it is -/

/-- A port has the link state and the timers of another. -/
structure SameLink (k l : Port) : Prop where
  link : l.link = k.link
  training : l.trainingTimer = k.trainingTimer
  holdOff : l.holdOffTimer = k.holdOffTimer

/-- What a part of event `e` leaves as it is. A lease can only end, by its own event; and while it is held, an
outstanding notice stays outstanding. -/
structure Spares (e : TimedEvent) (x u : State) : Prop where
  running : u.resetHeld = x.resetHeld
  now : u.now = x.now
  slots : ∀ i, e ≠ .deadline i → e ≠ .reclaim i →
    pick u.ort i = pick x.ort i ∧ pick u.timers i = pick x.timers i
  lease : u.mgmt.lease = x.mgmt.lease ∨ e = .lease ∧ u.mgmt.lease = none
  notice : e ≠ .resend → u.mgmt.lease.isSome = true → x.notice.outstanding.isSome = true →
    u.notice.outstanding = x.notice.outstanding ∧ u.notice.resendTimer = x.notice.resendTimer
  ports : ∀ p, e ≠ .training p → e ≠ .holdOff p → SameLink (x.port p) (u.port p)

theorem SameLink.refl (k : Port) : SameLink k k := ⟨rfl, rfl, rfl⟩

theorem SameLink.trans {k l m : Port} (h : SameLink k l) (h' : SameLink l m) : SameLink k m :=
  ⟨h'.link.trans h.link, h'.training.trans h.training, h'.holdOff.trans h.holdOff⟩

theorem Spares.leased (h : Spares e x u) (held : u.mgmt.lease.isSome = true) : u.mgmt.lease = x.mgmt.lease := by
  obtain same | ⟨-, none⟩ := h.lease
  · exact same
  · simp [none] at held

theorem Spares.trans (h : Spares e x y) (k : Spares e y u) : Spares e x u where
  running := k.running.trans h.running
  now := k.now.trans h.now
  slots i hd hr :=
    have first := h.slots i hd hr
    have second := k.slots i hd hr
    ⟨second.1.trans first.1, second.2.trans first.2⟩
  lease := by
    obtain same | ended := k.lease
    · rw [same]
      exact h.lease
    · exact .inr ended
  notice hn held out := by
    obtain ⟨out1, timer1⟩ := h.notice hn (k.leased held ▸ held) out
    obtain ⟨out2, timer2⟩ := k.notice hn held (out1 ▸ out)
    exact ⟨out2.trans out1, timer2.trans timer1⟩
  ports p ht hh := (h.ports p ht hh).trans (k.ports p ht hh)

/-! ## Shared operations -/

/-- An update that leaves the slots and the ports' timers. -/
theorem Spares.update (running : u.resetHeld = x.resetHeld := by rfl) (now : u.now = x.now := by rfl)
    (ort : u.ort = x.ort := by rfl) (timers : u.timers = x.timers := by rfl)
    (lease : u.mgmt.lease = x.mgmt.lease ∨ e = .lease ∧ u.mgmt.lease = none := by exact .inl rfl)
    (up : SameLink x.up u.up := by exact ⟨rfl, rfl, rfl⟩)
    (down : SameLink x.down u.down := by exact ⟨rfl, rfl, rfl⟩)
    (notice : e ≠ .resend → u.mgmt.lease.isSome = true → x.notice.outstanding.isSome = true →
      u.notice.outstanding = x.notice.outstanding ∧ u.notice.resendTimer = x.notice.resendTimer := by
        exact fun _ _ _ => ⟨rfl, rfl⟩) : Spares e x u where
  running := running
  now := now
  slots i _ _ := ⟨by rw [ort], by rw [timers]⟩
  lease := lease
  notice := notice
  ports p _ _ := by cases p <;> assumption

/-- An operation after an update of other fields. -/
theorem Spares.ofUpdate (h : Spares e y u) (running : y.resetHeld = x.resetHeld := by rfl)
    (now : y.now = x.now := by rfl) (ort : y.ort = x.ort := by rfl) (timers : y.timers = x.timers := by rfl)
    (lease : y.mgmt.lease = x.mgmt.lease := by rfl) (up : y.up = x.up := by rfl) (down : y.down = x.down := by rfl)
    (outstanding : y.notice.outstanding = x.notice.outstanding := by rfl)
    (resend : y.notice.resendTimer = x.notice.resendTimer := by rfl) : Spares e x u :=
  (Spares.update running now ort timers (.inl lease) (up ▸ .refl _) (down ▸ .refl _) fun _ _ _ =>
    ⟨outstanding, resend⟩).trans h

theorem Spares.refl (x : State) : Spares e x x := .update

theorem spares_produce (p : PortId) (k : OutPacket) (x : State) : Spares e x (produce p k x) := by
  obtain ⟨_, _, h⟩ := produce_shape p k x
  rw [h]
  exact .update

/-- A notice is sent only while none is outstanding (R159). -/
theorem testSend_of_outstanding (h : x.notice.outstanding.isSome = true) : testSend x = x := by
  unfold testSend
  split
  · rfl
  · refine if_neg fun send => ?_
    simp [send.1] at h

theorem spares_testSend (x : State) : Spares e x (testSend x) := by
  have waits := testSend_of_outstanding (x := x)
  obtain ⟨_, _, _, h⟩ := testSend_shape x
  rw [h] at waits ⊢
  exact .update (notice := fun _ _ out =>
    have same := congrArg State.notice (waits out)
    ⟨congrArg NoticeUnit.outstanding same, congrArg NoticeUnit.resendTimer same⟩)

theorem spares_raiseClass (c : EventClass) (x : State) : Spares e x (raiseClass c x) := by
  unfold raiseClass
  split
  · exact (spares_testSend _).ofUpdate
  · exact .refl x

theorem spares_appendFault (r : FaultReport) (x : State) : Spares e x (appendFault r x) := by
  have kept : Spares e x (raiseClass .fault (keepRecord r x)) := (spares_raiseClass .fault _).ofUpdate
  unfold appendFault
  split
  · dsimp only
    split
    · exact kept.trans (spares_raiseClass .logFull _)
    · exact kept
  · exact .update

theorem spares_notifyHead (x : State) : Spares e x (notifyHead x) := by
  rw [notifyHead_eq]
  exact .update

theorem spares_returnRequest (n : Nat) (w : Option WinIndex) (g : Option Generation) (x : State) :
    Spares e x (returnRequest n w g x) := by
  unfold returnRequest creditExcess
  split
  · exact .update
  · exact (spares_appendFault _ _).ofUpdate

theorem spares_removeEntries (r : ReqNum) (x : State) : Spares e x (removeEntries i r x) := by
  rw [removeEntries_eq]
  exact .update

theorem spares_takeDrainEnd (x : State) : Spares e x (takeDrainEnd x) := by
  obtain ⟨_, _, h⟩ := takeDrainEnd_shape x
  rw [h]
  exact .update

/-! ## The slots' events -/

/-- An update of the slot that the event is of. -/
theorem spares_slot {o : Slot} {z : SlotTimer} {c : CommitUnit} {k : Intake}
    (own : e = .deadline i ∨ e = .reclaim i) :
    Spares e x { x with ort := put x.ort i o, timers := put x.timers i z, commit := c, intake := k } where
  running := rfl
  now := rfl
  slots j hd hr := by
    have other : j ≠ i := by
      rintro rfl
      exact own.elim hd hr
    exact ⟨pick_put_other _ _ other, pick_put_other _ _ other⟩
  lease := .inl rfl
  notice _ _ _ := ⟨rfl, rfl⟩
  ports p _ _ := by cases p <;> exact .refl _

theorem spares_setOcc (own : e = .deadline i ∨ e = .reclaim i) (o : Occupancy) (x : State) :
    Spares e x (setOcc i o x) := by
  have h := spares_slot (x := x) (o := ⟨(pick x.ort i).incarnation, o⟩) (z := pick x.timers i) (c := x.commit)
    (k := x.intake) own
  rwa [put_pick] at h

theorem spares_leaveOpen (own : e = .deadline i ∨ e = .reclaim i) (g : Generation) (x : State) :
    Spares e x (leaveOpen i t (holdReleased g x)) := by
  rw [holdReleased_eq]
  cases waits : t.hasIssued with
  | true =>
    rw [leaveOpen_of_issued waits]
    exact spares_slot own
  | false =>
    rw [leaveOpen_of_notIssued waits, freeSlot_eq]
    exact spares_slot own

theorem spares_expireDeadline (i : SlotNum) (t : Tracked) (x : State) :
    Spares (.deadline i) x (expireDeadline i t x) :=
  (((((spares_removeEntries _ x).trans (spares_setOcc (.inl rfl) _ _)).trans (spares_produce _ _ _)).trans
    (spares_appendFault _ _)).trans (spares_leaveOpen (.inl rfl) _ _)).trans (spares_takeDrainEnd _)

theorem spares_expireReclaim (i : SlotNum) (t : Tracked) (x : State) :
    Spares (.reclaim i) x (expireReclaim i t x) := by
  unfold expireReclaim
  dsimp only
  rw [freeSlot_eq]
  exact ((spares_returnRequest _ _ _ x).trans (spares_slot (.inr rfl))).trans (spares_appendFault _ _)

/-! ## The events of the notice unit, the lease and the ports -/

theorem spares_happenResend (x : State) : Spares .resend x (happenResend x) := by
  unfold happenResend
  split
  · rename_i l n _ _
    refine (spares_produce l.holder.port (notePacket l.holder n (x.notice.reported ||| x.notice.pending) x) x).trans ?_
    exact .update (notice := fun other => absurd rfl other)
  · exact .refl x
  · exact .refl x

theorem spares_endLease (k : FaultKind) (x : State) : Spares .lease x (endLease k x) := by
  unfold endLease
  split
  · exact .refl x
  · obtain ⟨_, _, h⟩ := cancelHeld_shape (setLease none x)
    rw [h]
    refine Spares.trans ?_ (spares_appendFault _ _)
    exact .update (lease := .inr ⟨rfl, rfl⟩) (notice := fun _ held => absurd held Bool.false_ne_true)

/-- An update of the port that the event is of. -/
theorem spares_setPort {k : Port} (own : e = .training p ∨ e = .holdOff p) (x : State) :
    Spares e x (x.setPort p k) := by
  have ports : ∀ q, e ≠ .training q → e ≠ .holdOff q → SameLink (x.port q) ((x.setPort p k).port q) := by
    intro q ht hh
    have other : q ≠ p := by
      rintro rfl
      exact own.elim ht hh
    rw [port_setPort_other x k other]
    exact .refl _
  cases p <;> exact ⟨rfl, rfl, fun _ _ _ => ⟨rfl, rfl⟩, .inl rfl, fun _ _ _ => ⟨rfl, rfl⟩, ports⟩

/-- What a port does at a transition, after the transition itself (R25, R190). -/
theorem spares_transition (p : PortId) (x : State) : Spares e x (linkNotice p (linkChanged p x)) := by
  have changed : Spares e x (linkChanged p x) := (spares_appendFault _ x).trans (spares_raiseClass .link _)
  cases p with
  | up => exact changed
  | down => exact changed.trans (spares_notifyHead _)

theorem spares_failTraining (p : PortId) (x : State) : Spares (.training p) x (failTraining p x) :=
  (spares_setPort (.inl rfl) x).trans (spares_transition p _)

theorem spares_endHoldOff (p : PortId) (x : State) : Spares (.holdOff p) x (endHoldOff p x) := by
  unfold endHoldOff
  dsimp only
  split
  · exact ((spares_setPort (.inr rfl) x).trans (spares_setPort (.inr rfl) _)).trans (spares_transition p _)
  · exact spares_setPort (.inr rfl) x

/-- A timed event leaves the timebase and every timer but its own. -/
theorem spares_happen (e : TimedEvent) (x : State) : Spares e x (e.happen x) := by
  cases e with
  | fillStep => exact .update
  | fillCompletion => exact (spares_raiseClass .stagedReady _).ofUpdate
  | deadline i =>
    simp only [TimedEvent.happen, happenDeadline]
    split
    · exact .refl x
    · exact spares_expireDeadline i _ x
  | reclaim i =>
    simp only [TimedEvent.happen, happenReclaim]
    split
    · exact .refl x
    · exact spares_expireReclaim i _ x
  | resend => exact spares_happenResend x
  | lease => exact spares_endLease _ x
  | training p => exact spares_failTraining p x
  | holdOff p => exact spares_endHoldOff p x

/-! ## A fill that waits for its next µs (R124) -/

/-- A fill has copied an entry and waits for a µs to pass; no commit is held. -/
structure FillWaits (c : CommitUnit) : Prop where
  filling : c.condition = .filling
  notHeld : c.heldCommit = false
  unfinished : c.fillProgress < 64
  waits : c.fillStepDue = false

theorem fillWaits_released (g : Generation) {c : CommitUnit} (h : FillWaits c) : FillWaits (released g c) := by
  obtain ⟨filling, notHeld, unfinished, waits⟩ := h
  unfold released
  split_ifs <;> exact ⟨filling, notHeld, unfinished, waits⟩

/-- With no commit held, a drain end swaps no bank (R122). -/
theorem fillWaits_takeDrainEnd (h : FillWaits x.commit) : FillWaits (takeDrainEnd x).commit := by
  have notHeld : ¬ x.commit.heldCommit = true := by simp [h.notHeld]
  unfold takeDrainEnd
  split
  · rw [endDrain, if_neg notHeld]
    exact ⟨h.filling, h.notHeld, h.unfinished, h.waits⟩
  · exact h

theorem leaveOpen_commit (i : SlotNum) (t : Tracked) (x : State) : (leaveOpen i t x).commit = x.commit := by
  unfold leaveOpen
  split
  · rfl
  · rw [freeSlot_eq]

theorem fillWaits_expireDeadline (h : FillWaits x.commit) : FillWaits (expireDeadline i t x).commit := by
  refine fillWaits_takeDrainEnd ?_
  rw [leaveOpen_commit, holdReleased_eq, (still_appendFault _ _).commit, (still_produce _ _ _).commit, setOcc_commit,
    (still_removeEntries _ _ x).commit]
  exact fillWaits_released _ h

theorem fillWaits_endLease (k : FaultKind) (h : FillWaits x.commit) : FillWaits (endLease k x).commit := by
  unfold endLease
  split
  · exact h
  · have kept : cancelHeld (setLease none x) = setLease none x := if_neg (by simp [h.notHeld])
    rw [kept, (still_appendFault _ _).commit]
    exact h

/-- While a fill waits, no timed event but its own moves it. -/
theorem fillWaits_happen (e : TimedEvent) (x : State) (h : FillWaits x.commit) (due : e.left x = some 0) :
    FillWaits (e.happen x).commit := by
  cases e with
  | fillStep => simp [TimedEvent.left, h.filling, h.unfinished, h.waits] at due
  | fillCompletion => simp [TimedEvent.left, h.filling, h.unfinished.ne] at due
  | deadline i =>
    simp only [TimedEvent.happen, happenDeadline]
    split
    · exact h
    · exact fillWaits_expireDeadline h
  | reclaim i =>
    simp only [TimedEvent.happen, happenReclaim]
    split
    · exact h
    · rw [expireReclaim, (still_appendFault _ _).commit, freeSlot_eq, (still_returnRequest _ _ _ x).commit]
      exact h
  | resend =>
    simp only [TimedEvent.happen, happenResend]
    split
    · exact (still_produce _ _ x).commit ▸ h
    · exact h
    · exact h
  | lease => exact fillWaits_endLease _ h
  | training p => exact (still_failTraining p x).commit ▸ h
  | holdOff p => exact (still_endHoldOff p x).commit ▸ h

end Sys2Proof.Proofs
end

