-- ==== Sys2Proof/Proofs/TimePasses.lean ====
section
/-! PROOFS. The passing of time (R101, R124; log entries 2 and 3): the events due at one µs are those of all timers in
turn, and a stride from one event's time to the next passes as single µs. -/

namespace Sys2Proof.Proofs

open Sys2Proof.Machine Sys2Proof.Safety Sys2Proof.Claims Sys2Proof.Laws

variable {s x : State} {e : TimedEvent} {i : SlotNum} {n d : Nat}

/-! ## The events due at one µs -/

theorem exec_command (e : TimedEvent) (s : State) : exec e.command s = whenRunning (takeTimed e) s := by
  cases e <;> rfl

theorem takeIfDue_of_notDue (h : e.left s ≠ some 0) : takeIfDue e s = s := if_neg h

theorem spares_takeIfDue (e : TimedEvent) (s : State) : Spares e s (takeIfDue e s) := by
  unfold takeIfDue
  split
  · exact spares_happen e s
  · exact .refl s

theorem running_takeIfDue (running : Running s) : Running (takeIfDue e s) :=
  (spares_takeIfDue e s).running.trans running

theorem takeEach_append (es fs : List TimedEvent) (s : State) :
    takeEach (es ++ fs) s = takeEach fs (takeEach es s) := List.foldl_append

theorem runIfDue_command (running : Running s) : runIfDue e.command s = takeIfDue e s := by
  rw [runIfDue, isDue_command, exec_command, whenRunning_of_running _ running]
  by_cases due : e.left s = some 0
  · simp [takeIfDue, due, takeTimed_of_due due]
  · simp [takeIfDue, due]

theorem foldl_runIfDue (es : List TimedEvent) (running : Running s) :
    (es.map TimedEvent.command).foldl (fun x c => runIfDue c x) s = takeEach es s := by
  induction es generalizing s with
  | nil => rfl
  | cons e es ih =>
    rw [List.map_cons, List.foldl_cons, runIfDue_command running, ih (running_takeIfDue running)]
    rfl

/-- Taking the events of the slots whose timers stood at `z` takes those of all slots: no event of one slot brings the
timer of another to `z`. -/
theorem takeEach_filter {event : SlotNum → TimedEvent} {z : SlotTimer} {l : List SlotNum}
    (timer : ∀ i y, (event i).left y = some 0 → pick y.timers i = z)
    (own : ∀ i j, j ≠ i → event i ≠ .deadline j ∧ event i ≠ .reclaim j)
    (before : ∀ j, pick x.timers j = z → pick s.timers j = z) :
    takeEach ((l.filter fun i => pick s.timers i = z).map event) x = takeEach (l.map event) x := by
  induction l generalizing x with
  | nil => rfl
  | cons i l ih =>
    have next : ∀ j, pick (takeIfDue (event i) x).timers j = z → pick s.timers j = z := by
      intro j hj
      by_cases due : (event i).left x = some 0
      · by_cases same : j = i
        · exact before j (same ▸ timer i x due)
        · obtain ⟨hd, hr⟩ := own i j same
          rw [((spares_takeIfDue _ x).slots j hd hr).2] at hj
          exact before j hj
      · rw [takeIfDue_of_notDue due] at hj
        exact before j hj
    by_cases stands : pick s.timers i = z
    · rw [List.filter_cons_of_pos (by simpa using stands)]
      exact ih next
    · have notDue : takeIfDue (event i) x = x := takeIfDue_of_notDue fun due => stands (before i (timer i x due))
      rw [List.filter_cons_of_neg (by simpa using stands), ih before, List.map_cons]
      exact congrArg (takeEach (l.map event)) notDue.symm

theorem takeEach_slotEvents {event : SlotNum → TimedEvent} {z : SlotTimer}
    (timer : ∀ i y, (event i).left y = some 0 → pick y.timers i = z)
    (own : ∀ i j, j ≠ i → event i ≠ .deadline j ∧ event i ≠ .reclaim j) (s : State) :
    takeEach (slotEvents event z s) s = takeEach ((List.finRange 128).map event) s := by
  rw [slotEvents_eq]
  exact takeEach_filter timer own fun _ => id

/-- The events due at a µs are taken in the order of log entry 2, of all timers in turn. -/
theorem takeDue_eq_takeEach (s : State) :
    takeDue s = takeEach (fillEvents ++ (List.finRange 128).map TimedEvent.deadline
      ++ (List.finRange 128).map TimedEvent.reclaim ++ unitEvents) s := by
  have deadlines := takeEach_slotEvents (event := .deadline) (fun _ _ => timer_of_deadline_due)
    (fun i j h => ⟨by simpa using h.symm, nofun⟩)
  have reclaims := takeEach_slotEvents (event := .reclaim) (fun _ _ => timer_of_reclaim_due)
    (fun i j h => ⟨nofun, by simpa using h.symm⟩)
  simp only [takeDue, takeEach_append, deadlines, reclaims]

theorem takeDue_eq_foldl (running : Running s) :
    takeDue s = timedCommands.foldl (fun x c => runIfDue c x) s := by
  rw [timedCommands_eq, foldl_runIfDue _ running, takeDue_eq_takeEach]

theorem takeDue_of_quiet (h : ∀ e, TimedEvent.left e s ≠ some 0) : takeDue s = s :=
  takeDue_keeps (P := (· = s)) (fun e _ same due => absurd (same ▸ due) (h e)) s rfl

/-! ## Strides -/

theorem passTime_sendHeld (n : Nat) (s : State) : passTime n (sendHeld s) = partAfter n s := rfl

theorem fall_fall (z : SlotTimer) (n m : Nat) : (z.fall n).fall m = z.fall (n + m) := by
  cases z <;> simp [SlotTimer.fall, Nat.sub_sub]

theorem pick_partAfter_timers (n : Nat) (s : State) (i : SlotNum) :
    pick (partAfter n s).timers i = (pick s.timers i).fall n := pick_passTime_timers n (sendHeld s) i

theorem partAfter_port (n : Nat) (s : State) (p : PortId) : (partAfter n s).port p = portAfter n (s.port p) := by
  cases p <;> rfl

/-- Two strides in which no event comes between pass as one. -/
theorem partAfter_partAfter (s : State) (n m : Nat) : partAfter m (partAfter n s) = partAfter (n + m) s := by
  have timers : (s.timers.map (SlotTimer.fall n)).map (SlotTimer.fall m) = s.timers.map (SlotTimer.fall (n + m)) := by
    rw [Vector.map_map]
    exact congrArg (Vector.map · s.timers) (funext fun z => fall_fall z n m)
  simp only [← passTime_sendHeld, passTime, sendHeld, Port.fall, Port.sendAll, fallTimer, timers, Option.map_map,
    Function.comp_def, Nat.sub_sub, Nat.add_assoc, List.append_nil]

theorem stride_le (m : Nat) (o : Option Nat) : stride m o ≤ m := by
  cases o with
  | none => exact le_rfl
  | some k => exact Nat.min_le_left _ _

theorem stride_some_le (m k : Nat) : stride m (some k) ≤ max 1 k := Nat.min_le_right _ _

theorem one_le_stride {m : Nat} (h : 1 ≤ m) (o : Option Nat) : 1 ≤ stride m o := by
  cases o with
  | none => exact h
  | some k => exact Nat.le_min.mpr ⟨h, Nat.le_max_left _ _⟩

theorem foldl_stride_le {α : Type} (left : α → Option Nat) (l : List α) (m : Nat) :
    l.foldl (fun m a => stride m (left a)) m ≤ m ∧
      ∀ a ∈ l, ∀ k, left a = some k → l.foldl (fun m a => stride m (left a)) m ≤ max 1 k := by
  induction l generalizing m with
  | nil => simp
  | cons a l ih =>
    obtain ⟨whole, each⟩ := ih (stride m (left a))
    refine ⟨whole.trans (stride_le m _), fun b hb k hk => ?_⟩
    obtain rfl | hb := List.mem_cons.mp hb
    · exact whole.trans (hk ▸ stride_some_le m k)
    · exact each b hb k hk

theorem one_le_foldl_stride {α : Type} (left : α → Option Nat) (l : List α) {m : Nat} (h : 1 ≤ m) :
    1 ≤ l.foldl (fun m a => stride m (left a)) m := by
  induction l generalizing m with
  | nil => exact h
  | cons a l ih => exact ih (one_le_stride h _)

theorem untilNext_le (n : Nat) (s : State) : untilNext n s ≤ n :=
  (foldl_stride_le _ _ _).1.trans (foldl_stride_le _ _ _).1

theorem one_le_untilNext (h : 1 ≤ n) (s : State) : 1 ≤ untilNext n s :=
  one_le_foldl_stride _ _ (one_le_foldl_stride _ _ h)

theorem pick_mem_timers (s : State) (i : SlotNum) : pick s.timers i ∈ s.timers.toList := by
  simp [pick, Vector.get_eq_getElem]

/-- A stride does not outlast the time left on a slot's timer, but for the µs it has at the least. -/
theorem untilNext_le_timer {k : Nat} (h : (pick s.timers i).left = some k) : untilNext n s ≤ max 1 k :=
  (foldl_stride_le _ _ _).1.trans ((foldl_stride_le _ _ _).2 _ (pick_mem_timers s i) k h)

theorem timerLeft_of_deadlineLeft {k : Nat} (h : deadlineLeft i s = some k) : (pick s.timers i).left = some k := by
  unfold deadlineLeft at h
  split at h <;> simp_all [SlotTimer.left]

theorem timerLeft_of_reclaimLeft {k : Nat} (h : reclaimLeft i s = some k) : (pick s.timers i).left = some k := by
  unfold reclaimLeft at h
  split at h <;> simp_all [SlotTimer.left]

theorem untilNext_le_left {k : Nat} (h : e.left s = some k) : untilNext n s ≤ max 1 k := by
  have unit : e ∈ fillEvents ++ unitEvents → untilNext n s ≤ max 1 k := fun mem =>
    (foldl_stride_le _ _ _).2 e mem k h
  cases e with
  | deadline i => exact untilNext_le_timer (timerLeft_of_deadlineLeft h)
  | reclaim i => exact untilNext_le_timer (timerLeft_of_reclaimLeft h)
  | fillStep => exact unit (by decide)
  | fillCompletion => exact unit (by decide)
  | resend => exact unit (by decide)
  | lease => exact unit (by decide)
  | training p => exact unit (by cases p <;> decide)
  | holdOff p => exact unit (by cases p <;> decide)

/-- After `d` µs in which no event comes, the time left until each has fallen by `d`. -/
theorem left_partAfter (e : TimedEvent) (s : State) (h : 1 ≤ d) :
    e.left (partAfter d s) = (e.left s).map fun k => k - d := by
  cases e with
  | deadline i =>
    have opened : openAt (partAfter d s) i = openAt s i := rfl
    simp only [TimedEvent.left, deadlineLeft, pick_partAfter_timers, opened]
    cases openAt s i <;> cases pick s.timers i <;> rfl
  | reclaim i =>
    have stale : staleAt (partAfter d s) i = staleAt s i := rfl
    simp only [TimedEvent.left, reclaimLeft, pick_partAfter_timers, stale]
    cases staleAt s i <;> cases pick s.timers i <;> rfl
  | fillStep =>
    by_cases fills : s.commit.condition = .filling ∧ s.commit.fillProgress < 64
    · have expired : (if s.commit.fillStepDue then 0 else 1) - d = 0 := by split_ifs <;> omega
      simp [TimedEvent.left, partAfter, fills, expired]
    · simp [TimedEvent.left, partAfter, fills]
  | fillCompletion =>
    by_cases full : s.commit.condition = .filling ∧ s.commit.fillProgress = 64
    · simp [TimedEvent.left, partAfter, full]
    · simp [TimedEvent.left, partAfter, full]
  | resend =>
    simp only [TimedEvent.left, partAfter, Option.isSome_map]
    split_ifs <;> rfl
  | lease =>
    simp only [TimedEvent.left, partAfter, Option.map_map]
    rfl
  | training p =>
    simp only [TimedEvent.left, partAfter_port, portAfter, portEmptied]
    split_ifs <;> rfl
  | holdOff p =>
    simp only [TimedEvent.left, partAfter_port, portAfter, portEmptied]
    split_ifs <;> rfl

/-! ## One µs at a time -/

/-- One µs: the events due are taken, and every running timer falls by one. -/
def oneMicrosecond (s : State) : State := partAfter 1 (takeDue s)

/-- A stride in which no event comes is that many single µs. -/
theorem iterate_oneMicrosecond (h : d ≤ untilNext n (takeDue s)) (positive : 1 ≤ d) :
    oneMicrosecond^[d] s = partAfter d (takeDue s) := by
  induction d, positive using Nat.le_induction with
  | base => rfl
  | succ d positive ih =>
    have quiet : ∀ e, TimedEvent.left e (partAfter d (takeDue s)) ≠ some 0 := by
      intro e due
      rw [left_partAfter e _ positive, Option.map_eq_some_iff] at due
      obtain ⟨k, left, out⟩ := due
      have bound := h.trans (untilNext_le_left left)
      omega
    rw [Function.iterate_succ_apply', ih (by omega), oneMicrosecond, takeDue_of_quiet quiet, partAfter_partAfter]

theorem advanceWith_eq {fuel : Nat} (h : n ≤ fuel) (s : State) : advanceWith fuel n s = oneMicrosecond^[n] s := by
  induction fuel generalizing n s with
  | zero => rw [Nat.le_zero.mp h]; rfl
  | succ fuel ih =>
    by_cases zero : n = 0
    · rw [zero]
      rfl
    · have least := one_le_untilNext (Nat.one_le_iff_ne_zero.mpr zero) (takeDue s)
      have most := untilNext_le n (takeDue s)
      have stride : advanceWith (fuel + 1) n s =
          advanceWith fuel (n - untilNext n (takeDue s)) (partAfter (untilNext n (takeDue s)) (takeDue s)) := by
        simp only [advanceWith, if_neg zero, passTime_sendHeld]
      rw [stride, ih (by omega), ← iterate_oneMicrosecond le_rfl least, ← Function.iterate_add_apply,
        Nat.sub_add_cancel most]

theorem advance_eq_iterate (n : Nat) (s : State) : advance n s = oneMicrosecond^[n] s := advanceWith_eq le_rfl s

/-- Time passes µs by µs (log entry 3). -/
theorem advance_succ (n : Nat) (s : State) : advance (n + 1) s = advance n (oneMicrosecond s) := by
  rw [advance_eq_iterate, advance_eq_iterate, Function.iterate_succ_apply]

end Sys2Proof.Proofs
end

