-- ==== Sys2Proof/Proofs/TimersRunOut.lean ====
section
/-! PROOFS. Every timer runs out when the time left on it has passed (R101, R160, R177, R187), and a fill copies its
next entry a µs after the last (R124). -/

namespace Sys2Proof.Proofs

open Sys2Proof.Machine Sys2Proof.Safety Sys2Proof.Claims Sys2Proof.Laws

variable {s x : State} {e : TimedEvent} {i : SlotNum} {p : PortId} {n : Nat}

/-! ## What `n` µs make of a timer -/

/-- What every due event keeps while a timer runs, and every µs brings one nearer to 0. -/
theorem advance_counts {P : Nat → State → Prop}
    (event : ∀ n e x, P (n + 1) x → TimedEvent.left e x = some 0 → P (n + 1) (e.happen x))
    (time : ∀ n x, P (n + 1) x → P n (partAfter 1 x)) (h : P n s) : P 0 (advance n s) := by
  induction n generalizing s with
  | zero => exact h
  | succ n ih =>
    rw [advance_succ]
    exact ih (time n _ (takeDue_keeps (fun e x => event n e x) s h))

theorem running_advance (running : Running s) : Running (advance n s) :=
  advance_keeps (P := Running) (fun e x hx _ => (spares_happen e x).running.trans hx) (fun _ _ hx => hx) n s running

theorem now_advance (n : Nat) (s : State) : (advance n s).now = s.now + n :=
  advance_counts (P := fun k x => x.now + k = s.now + n) (fun _ e x hx _ => (spares_happen e x).now ▸ hx)
    (fun k x hx => (Nat.add_assoc x.now 1 k).trans (Nat.add_comm 1 k ▸ hx)) rfl

/-- A slot whose timer runs keeps what it holds until the timer stands at 0. -/
theorem slot_advance {f : Nat → SlotTimer} (falls : ∀ k, (f (k + 1)).fall 1 = f k)
    (runs : ∀ k, f (k + 1) ≠ .deadline 0 ∧ f (k + 1) ≠ .reclaim 0) (h : pick s.timers i = f n) :
    pick (advance n s).ort i = pick s.ort i ∧ pick (advance n s).timers i = f 0 := by
  refine advance_counts (P := fun k x => pick x.ort i = pick s.ort i ∧ pick x.timers i = f k) ?_ ?_ ⟨rfl, h⟩
  · rintro k e x ⟨same, timer⟩ due
    obtain ⟨slot, left⟩ := (spares_happen e x).slots i
      (fun own => (runs k).1 (timer ▸ timer_of_deadline_due (own ▸ due)))
      (fun own => (runs k).2 (timer ▸ timer_of_reclaim_due (own ▸ due)))
    exact ⟨slot.trans same, left.trans timer⟩
  · rintro k x ⟨same, timer⟩
    exact ⟨same, by rw [pick_partAfter_timers, timer, falls]⟩

/-- A lease stays the holder's until its timer stands at 0 (R177). -/
theorem lease_advance {l : Lease} (h : s.mgmt.lease = some { l with timer := n }) :
    (advance n s).mgmt.lease = some { l with timer := 0 } := by
  refine advance_counts (P := fun k x => x.mgmt.lease = some { l with timer := k }) ?_ ?_ h
  · intro k e x held due
    obtain same | ⟨rfl, -⟩ := (spares_happen e x).lease
    · exact same.trans held
    · simp [TimedEvent.left, held] at due
  · intro k x held
    simp [partAfter, held]

/-- While the lease is held, an outstanding notice stays outstanding and its resend timer runs (R160). -/
theorem resend_advance (out : s.notice.outstanding.isSome = true) (timer : s.notice.resendTimer = some n)
    (held : (advance n s).mgmt.lease.isSome = true) : (advance n s).notice.resendTimer = some 0 := by
  refine (advance_counts (P := fun k x => x.mgmt.lease.isSome = true →
    x.notice.outstanding.isSome = true ∧ x.notice.resendTimer = some k) ?_ ?_ (fun _ => ⟨out, timer⟩) held).2
  · intro k e x runs due held
    have spares := spares_happen e x
    have before := spares.leased held ▸ held
    obtain ⟨out, timer⟩ := runs before
    obtain ⟨sameOut, sameTimer⟩ := spares.notice (by rintro rfl; simp [TimedEvent.left, before, out, timer] at due)
      held out
    exact ⟨sameOut ▸ out, sameTimer.trans timer⟩
  · intro k x runs held
    obtain ⟨out, timer⟩ := runs (by simpa [partAfter] using held)
    exact ⟨out, by simp [partAfter, timer]⟩

/-- A port in TRAINING stays so until its training timer stands at 0 (R187). -/
theorem training_advance (link : (s.port p).link = .training) (timer : (s.port p).trainingTimer = some n) :
    ((advance n s).port p).link = .training ∧ ((advance n s).port p).trainingTimer = some 0 := by
  refine advance_counts (P := fun k x => (x.port p).link = .training ∧ (x.port p).trainingTimer = some k) ?_ ?_
    ⟨link, timer⟩
  · rintro k e x ⟨link, timer⟩ due
    have same := (spares_happen e x).ports p (by rintro rfl; simp [TimedEvent.left, link, timer] at due)
      (by rintro rfl; simp [TimedEvent.left, link] at due)
    exact ⟨same.link.trans link, same.training.trans timer⟩
  · rintro k x ⟨link, timer⟩
    simp [partAfter_port, portAfter, portEmptied, link, timer]

/-- A port in DOWN stays so until its hold-off timer stands at 0 (R187). -/
theorem holdOff_advance (link : (s.port p).link = .down) (timer : (s.port p).holdOffTimer = some n) :
    ((advance n s).port p).link = .down ∧ ((advance n s).port p).holdOffTimer = some 0 := by
  refine advance_counts (P := fun k x => (x.port p).link = .down ∧ (x.port p).holdOffTimer = some k) ?_ ?_
    ⟨link, timer⟩
  · rintro k e x ⟨link, timer⟩ due
    have same := (spares_happen e x).ports p (by rintro rfl; simp [TimedEvent.left, link] at due)
      (by rintro rfl; simp [TimedEvent.left, link, timer] at due)
    exact ⟨same.link.trans link, same.holdOff.trans timer⟩
  · rintro k x ⟨link, timer⟩
    simp [partAfter_port, portAfter, portEmptied, link, timer]

/-- A fill that has copied an entry may copy the next one a µs later (R124). -/
theorem fillStepDue_advance_one (h : FillWaits s.commit) : (advance 1 s).commit.fillStepDue = true := by
  have waits := takeDue_keeps (P := fun x => FillWaits x.commit) fillWaits_happen s h
  rw [advance_succ, advance_zero]
  exact beq_iff_eq.mpr waits.filling

/-! ## The command of an event -/

/-- The command of an event with `n` µs left does what it does `n` µs later, if by then the event is due or its timer
has been stopped (log entry 3). -/
theorem exec_command_later (running : Running s) (left : e.left s = some n)
    (later : e.left (advance n s) = none ∨ e.left (advance n s) = some 0) :
    exec e.command s = exec e.command (advance n s) := by
  rw [exec_command, exec_command, whenRunning_of_running _ running, whenRunning_of_running _ (running_advance running)]
  have now : takeTimed e s = takeIfDue e (advance n s) := by simp only [takeTimed, left]
  rw [now]
  obtain stopped | due := later
  · rw [takeTimed_of_stopped stopped, takeIfDue_of_notDue (by simp [stopped])]
  · rw [takeTimed_of_due due, takeIfDue, if_pos due]

theorem openAt_congr {u : State} (h : pick u.ort i = pick x.ort i) : openAt u i = openAt x i := by
  rw [openAt, openAt, h]

theorem staleAt_congr {u : State} (h : pick u.ort i = pick x.ort i) : staleAt u i = staleAt x i := by
  rw [staleAt, staleAt, h]

theorem deadlineLeft_of_running (opened : (openAt s i).isSome = true) (timer : pick s.timers i = .deadline n) :
    (TimedEvent.deadline i).left s = some n := by
  obtain ⟨t, opened⟩ := Option.isSome_iff_exists.mp opened
  simp only [TimedEvent.left, deadlineLeft, opened, timer]

theorem reclaimLeft_of_running (stale : (staleAt s i).isSome = true) (timer : pick s.timers i = .reclaim n) :
    (TimedEvent.reclaim i).left s = some n := by
  obtain ⟨t, stale⟩ := Option.isSome_iff_exists.mp stale
  simp only [TimedEvent.left, reclaimLeft, stale, timer]

theorem deadline_comes (running : Running s) (opened : (openAt s i).isSome = true)
    (timer : pick s.timers i = .deadline n) :
    openAt (advance n s) i = openAt s i ∧ pick (advance n s).timers i = .deadline 0 ∧
      exec (.deadlineExpiry i) s = exec (.deadlineExpiry i) (advance n s) := by
  obtain ⟨slot, due⟩ := slot_advance (f := .deadline) (fun _ => rfl) (fun _ => ⟨by simp, nofun⟩) timer
  have same := openAt_congr slot
  exact ⟨same, due, exec_command_later (e := .deadline i) running (deadlineLeft_of_running opened timer)
    (.inr (deadlineLeft_of_running (same ▸ opened) due))⟩

theorem reclaim_comes (running : Running s) (stale : (staleAt s i).isSome = true)
    (timer : pick s.timers i = .reclaim n) :
    staleAt (advance n s) i = staleAt s i ∧ pick (advance n s).timers i = .reclaim 0 ∧
      exec (.reclaimExpiry i) s = exec (.reclaimExpiry i) (advance n s) := by
  obtain ⟨slot, due⟩ := slot_advance (f := .reclaim) (fun _ => rfl) (fun _ => ⟨nofun, by simp⟩) timer
  have same := staleAt_congr slot
  exact ⟨same, due, exec_command_later (e := .reclaim i) running (reclaimLeft_of_running stale timer)
    (.inr (reclaimLeft_of_running (same ▸ stale) due))⟩

theorem leaseTimer_comes {l : Lease} (running : Running s) (held : s.mgmt.lease = some l) (timer : l.timer = n) :
    (advance n s).mgmt.lease = some { l with timer := 0 } ∧
      exec .leaseTimerExpiry s = exec .leaseTimerExpiry (advance n s) := by
  subst timer
  have later := lease_advance (l := l) held
  exact ⟨later, exec_command_later (e := .lease) running (by simp [TimedEvent.left, held])
    (.inr (by simp [TimedEvent.left, later]))⟩

/-- A notice whose lease has ended by then is not repeated. -/
theorem resend_comes (running : Running s) (held : s.mgmt.lease.isSome = true)
    (out : s.notice.outstanding.isSome = true) (timer : s.notice.resendTimer = some n) :
    ((advance n s).mgmt.lease.isSome = true → (advance n s).notice.resendTimer = some 0) ∧
      exec .resendExpiry s = exec .resendExpiry (advance n s) := by
  have later := resend_advance out timer
  refine ⟨later, exec_command_later (e := .resend) running (by simp [TimedEvent.left, held, out, timer]) ?_⟩
  by_cases repeats : (advance n s).mgmt.lease.isSome = true ∧ (advance n s).notice.outstanding.isSome = true
  · exact .inr ((if_pos repeats).trans (later repeats.1))
  · exact .inl (if_neg repeats)

theorem trainingTimer_comes (running : Running s) (link : (s.port p).link = .training)
    (timer : (s.port p).trainingTimer = some n) :
    ((advance n s).port p).link = .training ∧ ((advance n s).port p).trainingTimer = some 0 ∧
      exec (.trainingTimerExpiry p) s = exec (.trainingTimerExpiry p) (advance n s) := by
  obtain ⟨link', due⟩ := training_advance link timer
  exact ⟨link', due, exec_command_later (e := .training p) running ((if_pos link).trans timer)
    (.inr ((if_pos link').trans due))⟩

theorem holdOffTimer_comes (running : Running s) (link : (s.port p).link = .down)
    (timer : (s.port p).holdOffTimer = some n) :
    ((advance n s).port p).link = .down ∧ ((advance n s).port p).holdOffTimer = some 0 ∧
      exec (.holdOffExpiry p) s = exec (.holdOffExpiry p) (advance n s) := by
  obtain ⟨link', due⟩ := holdOff_advance link timer
  exact ⟨link', due, exec_command_later (e := .holdOff p) running ((if_pos link).trans timer)
    (.inr ((if_pos link').trans due))⟩

/-- Roles in order, a fill in progress is without a held commit (R114). -/
theorem fillWaits_of_roles (roles : RolesLaw s) (filling : s.commit.condition = .filling)
    (unfinished : s.commit.fillProgress < 64) (waits : s.commit.fillStepDue = false) : FillWaits s.commit := by
  obtain ⟨-, -, -, held, -⟩ := roles
  exact ⟨filling, Bool.eq_false_iff.mpr fun h => by simp [held.mp h] at filling, unfinished, waits⟩

theorem fillStep_comes (running : Running s) (h : FillWaits s.commit) :
    (advance 1 s).commit.fillStepDue = true ∧ exec .fillStep s = exec .fillStep (advance 1 s) := by
  have due := fillStepDue_advance_one h
  refine ⟨due, exec_command_later (e := .fillStep) running ?_ ?_⟩
  · simp [TimedEvent.left, h.filling, h.unfinished, h.waits]
  · by_cases copies : (advance 1 s).commit.condition = .filling ∧ (advance 1 s).commit.fillProgress < 64
    · simp [TimedEvent.left, copies, due]
    · simp [TimedEvent.left, copies]

/-- Settles O30: the passing of time µs by µs, and each timer at 0 when the time left on it has passed. -/
theorem timedEventsComeWhenTheirTimeHasPassed : Obligations.TimedEventsComeWhenTheirTimeHasPassed := by
  refine ⟨fun n s running => ⟨takeDue_eq_foldl running, advance_zero s, advance_succ n s, now_advance n s⟩,
    fun n s running => ⟨fun _ => deadline_comes running, fun _ => reclaim_comes running,
      fun _ => leaseTimer_comes running, resend_comes running, fun _ => trainingTimer_comes running,
      fun _ => holdOffTimer_comes running, ?_⟩⟩
  rintro rfl roles filling unfinished waits
  exact fillStep_comes running (fillWaits_of_roles roles filling unfinished waits)

end Sys2Proof.Proofs
end

