-- ==== Sys2Proof/Proofs/BankLaws.lean ====
section
/-! PROOFS. The laws of roles, of open counts and of drains are kept by every step (R51, R114, R115, R117, R118). -/

namespace Sys2Proof.Proofs

open Sys2Proof.Machine Sys2Proof.Safety Sys2Proof.Claims Sys2Proof.Laws

theorem rolesLaw_kept : Kept RolesLaw :=
  kept_of (fun s t h hs => (rolesLaw_iff t).mpr (work_rolesOf h ((rolesLaw_iff s).mp hs)))
    (fun s t _ m hs => (rolesLaw_iff t).mpr (m.rolesOf ((rolesLaw_iff s).mp hs)))
    fun t h => (rolesLaw_iff t).mpr (by rw [h.commit]; exact rolesOf_reset)

theorem generationLaw_kept : Kept GenerationLaw :=
  kept_of (fun s t h hs => (generationLaw_iff t).mpr (work_generationOf h ((generationLaw_iff s).mp hs)))
    (fun s t k m hs => (generationLaw_iff t).mpr (generationOf_ordered ((generationLaw_iff s).mp hs) k m))
    fun t h => (generationLaw_iff t).mpr (generationOf_reset h)

theorem drainOf_reset : DrainOf State.reset.commit := by
  simp [DrainOf, State.reset, coldCommit]

/-- Within an event a bank may be DRAINING with a count of 0; the drain end that follows closes the gap. -/
theorem drainLaw_kept : Kept DrainLaw :=
  kept_of (fun _ _ h hs => (work_drain h hs).2 rfl) (fun _ _ _ m hs => m.drainOf hs) fun _ h => by
    rw [DrainLaw, h.commit]
    exact drainOf_reset

/-- Settles O52: each law is kept by the moves that every event's work is made of, by an OK COMMIT and by a cold
reset. -/
theorem rolesAndGenerationLawsAreKept : Obligations.RolesAndGenerationLawsAreKept :=
  ⟨rolesLaw_kept, generationLaw_kept, drainLaw_kept⟩

end Sys2Proof.Proofs
end

