-- ==== Sys2Proof/Proofs/CommitEvents.lean ====
section
/-! PROOFS. The commit unit's events: the drain end and the fill (R118, R122, R124, R125), COMMIT with its swap or its
hold, and COMMIT_CANCEL (R119 to R121, R127). -/

namespace Sys2Proof.Proofs

open Sys2Proof.Machine Sys2Proof.Safety Sys2Proof.Claims Sys2Proof.Laws

variable {s : State} {d f : BankNum} {i : WinIndex} {c : QueuedCommand}

/-! ## The drain end -/

theorem exec_drainEnd_of_due (running : Running s) (drains : s.commit.drainingBank = some d)
    (empty : s.commit.drainingOpen = 0) : exec .drainEnd s = .next (endDrain s) := by
  have due : drainDue s = true := by simp [drainDue, drains, empty]
  rw [endDrain_of_due due]
  exact whenRunning_of_running takeDrainEnd running

/-! ## The fill -/

/-- A timed event that is due happens at its command. -/
theorem exec_command_of_due {e : TimedEvent} (running : Running s) (due : e.left s = some 0) :
    exec e.command s = .next (e.happen s) := by
  rw [exec_command, whenRunning_of_running _ running, takeTimed_of_due due]

theorem fillStep_left_of_due (filling : s.commit.condition = .filling) (unfinished : s.commit.fillProgress < 64)
    (due : s.commit.fillStepDue = true) : TimedEvent.fillStep.left s = some 0 := by
  simp [TimedEvent.left, filling, unfinished, due]

theorem fillCompletion_left_of_copied (filling : s.commit.condition = .filling) (copied : s.commit.fillProgress = 64) :
    TimedEvent.fillCompletion.left s = some 0 := by
  simp [TimedEvent.left, filling, copied]

theorem copyNext_of_progress (progress : s.commit.fillProgress = i.val) :
    copyNext s =
      { s with
        banks := put s.banks s.commit.stagedBank
          (put (pick s.banks s.commit.stagedBank) i (pick (pick s.banks s.commit.liveBank) i))
        commit := { s.commit with fillProgress := i.val + 1, fillStepDue := false } } := by
  have index : Fin.ofNat 64 i.val = i := Fin.ofNat_val_eq_self i
  rw [copyNext, progress, index, ← progress]
  rfl

/-- Settles O28: a drain end by whether a commit is held, then the two events of a fill, each when it is due. -/
theorem drainsEndAndFillsComplete : Obligations.DrainsEndAndFillsComplete := by
  refine ⟨fun d s running drains empty => ?_, fun s running filling => ⟨fun i due progress => ?_, fun copied => ?_⟩⟩
  · rw [exec_drainEnd_of_due running drains empty]
    exact ⟨fun idle => congrArg _ (endDrain_of_notHeld drains (Bool.not_eq_true _ ▸ idle)),
      fun held => congrArg _ (endDrain_of_held drains held)⟩
  · have left := fillStep_left_of_due filling (progress ▸ i.isLt) due
    exact (exec_command_of_due running left).trans (congrArg _ (copyNext_of_progress progress))
  · exact exec_command_of_due running (fillCompletion_left_of_copied filling copied)

/-! ## The commit commands -/

theorem swapped_eq_afterSwap (c : CommitUnit) (f : BankNum) : c.swapped f = afterSwap f c := by
  simp only [CommitUnit.swapped, afterSwap, Nat.pos_iff_ne_zero, ite_not]

theorem swapBanks_of_free (free : s.commit.freeBank = some f) :
    swapBanks s = { s with commit := afterSwap f s.commit, intake := headNotified s.intake } := by
  simp only [swapBanks, free, notifyHead_eq, swapped_eq_afterSwap]

/-- What a swap answers: the bank that left LIVE is FREE when no OPEN slot holds its generation, else DRAINING
(R119, Table 7-2). -/
theorem swappedResult_of_free (free : s.commit.freeBank = some f) :
    swappedResult s.commit.liveBank (swapBanks s) =
      .commitSwapped (s.commit.liveGeneration + 1) s.commit.stagedBank f s.commit.liveBank
        (if s.commit.liveOpen = 0 then .free else .draining) := by
  rw [swapBanks_of_free free]
  by_cases unused : s.commit.liveOpen = 0 <;> simp [swappedResult, afterSwap, unused]

theorem doCommit_of_notWritable (h : s.commit.condition ≠ .writable) : doCommit c s = replied c .busy .none s :=
  if_pos h

theorem doCommit_of_draining (writable : s.commit.condition = .writable) (drains : s.commit.drainingBank = some d) :
    doCommit c s =
      replied c .ok (.commitHeld s.commit.liveGeneration (s.commit.liveGeneration - 1) s.commit.drainingOpen)
        (holdCommit s) := by
  rw [doCommit, if_neg (not_not.mpr writable),
    (drainingGeneration_eq_some s.commit _).mpr ⟨by rw [drains]; rfl, rfl⟩]
  rfl

theorem doCommit_of_free (writable : s.commit.condition = .writable) (idle : s.commit.drainingBank = none)
    (free : s.commit.freeBank = some f) :
    doCommit c s =
      replied c .ok
        (.commitSwapped (s.commit.liveGeneration + 1) s.commit.stagedBank f s.commit.liveBank
          (if s.commit.liveOpen = 0 then .free else .draining))
        { s with commit := afterSwap f s.commit, intake := headNotified s.intake } := by
  have undrained : s.commit.drainingGeneration = none := congrArg (Option.map _) idle
  rw [← swappedResult_of_free free, ← swapBanks_of_free free, doCommit, if_neg (not_not.mpr writable), undrained]
  rfl

theorem doCommitCancel_of_held (held : s.commit.heldCommit = true) :
    doCommitCancel c s =
      replied c .ok (.stagedBank s.commit.stagedBank)
        { s with commit := { s.commit with heldCommit := false, condition := .writable } } := by
  rw [doCommitCancel, if_pos held, cancelHeld, if_pos held]
  rfl

theorem doCommitCancel_of_notHeld (h : s.commit.heldCommit = false) :
    doCommitCancel c s = replied c .nothing .none s :=
  if_neg (Bool.not_eq_true _ ▸ h)

/-- Settles O46: the cases of the two commands, in the state whose queue has lost the command. -/
theorem commitSwapsOrIsHeld : Obligations.CommitSwapsOrIsHeld := by
  refine fun c rest s => ⟨fun he => ?_, fun he => ?_⟩
  · rw [show exec .commit s = .next (doCommit c (taken rest s)) from takeCommand_of_executes doCommit he]
    exact ⟨fun busy => congrArg _ (doCommit_of_notWritable busy),
      fun _ writable drains => congrArg _ (doCommit_of_draining writable drains),
      fun _ writable idle free => congrArg _ (doCommit_of_free writable idle free)⟩
  · rw [show exec .commitCancel s = .next (doCommitCancel c (taken rest s)) from
      takeCommand_of_executes doCommitCancel he]
    exact ⟨fun held => congrArg _ (doCommitCancel_of_held held),
      fun notHeld => congrArg _ (doCommitCancel_of_notHeld notHeld)⟩

end Sys2Proof.Proofs
end

