-- ==== Sys2Proof/Proofs/RequesterEntries.lean ====
section
/-! PROOFS. The actions on a requester and its entry into quarantine (R135, R137, R138), and the commands that write a
requester's entry: RQ_WRITE (R139 to R141) and REINSTATE (R143). -/

namespace Sys2Proof.Proofs

open Sys2Proof.Machine Sys2Proof.Safety Sys2Proof.Claims Sys2Proof.Laws

variable {s : State} {c : QueuedCommand} {w : RqWrite} {b : Byte}

/-! ## What a withdrawal leaves as it is -/

theorem withdraw_requesters (r : ReqNum) (s : State) : (withdraw r s).requesters = s.requesters := by
  obtain ⟨_, _, _, _, _, _, _, _, h⟩ := withdraw_shape r s
  rw [h]

theorem withdraw_liveGeneration (r : ReqNum) (s : State) :
    (withdraw r s).commit.liveGeneration = s.commit.liveGeneration := by
  obtain ⟨_, _, _, _, _, _, _, _, h⟩ := withdraw_shape r s
  rw [h]

/-! ## Actions -/

/-- The record names the generation that is LIVE, which the withdrawal before it leaves as it is (R137, R138). -/
theorem enterQuarantine_eq (o : Offence) (s : State) : enterQuarantine o s = quarantineEntry o s := by
  simp only [enterQuarantine, takeDrainEnd_eq, withdraw_liveGeneration, notifyHeadOf_eq]
  rfl

theorem applyAction_strike (o : Offence) (s : State) :
    applyAction .strike o s =
      let e := pick s.requesters o.requester
      let struck := setEntry o.requester { e with strikes := min 15 (e.strikes + 1) } s
      if e.strikeLimit ≤ min 15 (e.strikes + 1) then quarantineEntry o struck else struck := by
  simp only [applyAction, enterQuarantine_eq]
  rfl

/-- Settles O9, action by action: a STRIKE by whether the Strikes it leaves reach the limit. -/
theorem actionsStrikeAndQuarantine : Obligations.ActionsStrikeAndQuarantine := by
  refine fun o s => ⟨rfl, fun below => ?_, fun reached => ?_, enterQuarantine_eq o s⟩
  · exact (applyAction_strike o s).trans (if_neg (Nat.not_le.mpr below))
  · exact (applyAction_strike o s).trans (if_pos reached)

/-! ## The operands of RQ_WRITE -/

theorem stateOf_eq (b : Byte) :
    stateOf b =
      if b.toNat < 3 then some (if b = 0x00#8 then .active else if b = 0x01#8 then .disabled else .unchanged)
      else none := by
  unfold stateOf
  split_ifs <;> first | rfl | (exfalso; bv_omega)

/-- The operands of RQ_WRITE in the bytes of its payload, each by its own range (R194). -/
theorem rqWriteOf_bytes (r st ol sl ma mm cs : Byte) :
    rqWriteOf [r, st, ol, sl, ma, mm, cs] =
      if r.toNat < 32 ∧ st.toNat < 3 ∧ 1 ≤ ol.toNat ∧ ol.toNat ≤ 128 ∧ 1 ≤ sl.toNat ∧ sl.toNat ≤ 15 ∧
          ma.toNat < 3 then
        some
          { requester := Fin.ofNat 32 r.toNat
            state := if st = 0x00#8 then .active else if st = 0x01#8 then .disabled else .unchanged
            openLimit := ol.toNat, strikeLimit := sl.toNat, missAction := actionNamed ma
            mayManage := mm != 0#8, clearStrikes := cs != 0#8 }
      else none := by
  generalize hp : [r, st, ol, sl, ma, mm, cs] = p
  have hnumbers : field p 0 1 = r.toNat ∧ field p 2 1 = ol.toNat ∧ field p 3 1 = sl.toNat := by
    subst hp; simp [field, beNat]
  have hbytes : byteAt p 1 = st ∧ byteAt p 4 = ma ∧ byteAt p 5 = mm ∧ byteAt p 6 = cs := by
    subst hp; exact ⟨rfl, rfl, rfl, rfl⟩
  obtain ⟨hr, hol, hsl⟩ := hnumbers
  obtain ⟨hst, hma, hmm, hcs⟩ := hbytes
  simp only [rqWriteOf, hr, hol, hsl, hst, hma, hmm, hcs, index?_eq, stateOf_eq, actionOf_eq, yesNo, RqWrite.inRange]
  by_cases requester : r.toNat < 32 <;> by_cases state : st.toNat < 3 <;> by_cases miss : ma.toNat < 3 <;>
    simp [requester, state, miss, and_assoc]

/-! ## The write of RQ_WRITE -/

theorem put_put {α : Type} {n : Nat} (v : Vector α n) (i : Fin n) (a b : α) : put (put v i a) i b = put v i b :=
  Vector.set_set ..

theorem setEntry_entryOf (r : ReqNum) (s : State) : setEntry r (entryOf s r) s = s :=
  congrArg (fun v => { s with requesters := v }) (put_pick s.requesters r)

/-- State is written first, and disabling an ACTIVE requester withdraws its FIFO (R140). -/
theorem writeState_eq (w : RqWrite) (s : State) :
    writeState w s =
      let e := pick s.requesters w.requester
      let stated := setEntry w.requester { e with state := stateWritten w.state e.state } s
      if w.state = .disabled ∧ e.state = .active then withdraw w.requester stated else stated := by
  cases hw : w.state with
  | active => simp [writeState, hw, stateWritten, entryOf]
  | unchanged =>
    simp only [writeState, hw, reduceCtorEq, false_and, if_false]
    exact (setEntry_entryOf w.requester s).symm
  | disabled =>
    simp only [writeState, hw, true_and]
    rfl

theorem writeState_requesters (w : RqWrite) (s : State) :
    (writeState w s).requesters =
      put s.requesters w.requester
        { pick s.requesters w.requester with
          state := stateWritten w.state (pick s.requesters w.requester).state } := by
  rw [writeState_eq]
  dsimp only
  split
  · rw [withdraw_requesters]
    rfl
  · rfl

/-- The other fields are written over the State that the command has written, and intake is told (R141, R25). -/
theorem writeRequester_eq (w : RqWrite) (s : State) :
    writeRequester w s =
      { writeState w s with
        requesters := put s.requesters w.requester
          (limitsWritten w
            { pick s.requesters w.requester with
              state := stateWritten w.state (pick s.requesters w.requester).state })
        intake := spaceFreed w.requester (writeState w s).intake } := by
  simp only [writeRequester, notifyHeadOf_eq, setEntry, entryOf, writeState_requesters, pick_put_same, put_put]
  rfl

theorem doRqWrite_of_outside (h : rqWriteOf c.payload = none) : doRqWrite c s = replied c .badArg .none s := by
  rw [doRqWrite, h]
  rfl

theorem doRqWrite_of_quarantined (h : rqWriteOf c.payload = some w) (active : w.state = .active)
    (quarantined : (pick s.requesters w.requester).state = .quarantined) :
    doRqWrite c s = replied c .badArg .none s := by
  rw [doRqWrite, h]
  exact if_pos ⟨active, quarantined⟩

theorem doRqWrite_of_ok (h : rqWriteOf c.payload = some w)
    (ok : w.state ≠ .active ∨ (pick s.requesters w.requester).state ≠ .quarantined) :
    doRqWrite c s =
      let t := writeRequester w s
      let answered := replied c .ok (.requester (viewOf t w.requester)) t
      if w.state = .disabled ∧ (pick s.requesters w.requester).state = .active then drained answered
      else answered := by
  rw [doRqWrite, h]
  simp only [takeDrainEnd_eq]
  exact if_neg (not_and_or.mpr ok)

/-! ## REINSTATE -/

theorem doReinstate_of_outside (h : c.payload = [b]) (hb : 32 ≤ b.toNat) :
    doReinstate c s = replied c .badArg .none s := by
  rw [doReinstate, field_of_byte h, index?_of_le hb]
  rfl

theorem doReinstate_of_quarantined (h : c.payload = [b]) (r : ReqNum) (hb : b.toNat = r.val)
    (quarantined : (pick s.requesters r).state = .quarantined) :
    doReinstate c s = replied c .ok (.requester (viewOf (reinstate r s) r)) (reinstate r s) := by
  rw [doReinstate, field_of_byte h, index?_of_val r hb]
  exact if_pos quarantined

theorem doReinstate_of_notQuarantined (h : c.payload = [b]) (r : ReqNum) (hb : b.toNat = r.val)
    (other : (pick s.requesters r).state ≠ .quarantined) : doReinstate c s = replied c .nothing .none s := by
  rw [doReinstate, field_of_byte h, index?_of_val r hb]
  exact if_neg other

/-- Settles O47: the operands of RQ_WRITE, then the cases of the two commands in the state whose queue has lost the
command. -/
theorem requesterCommandsWriteTheEntry : Obligations.RequesterCommandsWriteTheEntry := by
  refine ⟨rqWriteOf_bytes, fun c rest s he => ?_, fun c rest s b he hb => ?_⟩
  · rw [show exec .rqWrite s = .next (doRqWrite c (taken rest s)) from takeCommand_of_executes doRqWrite he]
    refine ⟨fun outside => congrArg _ (doRqWrite_of_outside outside), fun w hw => ?_⟩
    intro e stated disabling first second t
    have written : writeRequester w (taken rest s) = t := by
      rw [writeRequester_eq, writeState_eq]
      rfl
    refine ⟨fun active quarantined => congrArg _ (doRqWrite_of_quarantined hw active quarantined), fun ok => ?_⟩
    rw [doRqWrite_of_ok (s := taken rest s) hw ok, written]
    rfl
  · rw [show exec .reinstate s = .next (doReinstate c (taken rest s)) from takeCommand_of_executes doReinstate he]
    refine ⟨fun outside => congrArg _ (doReinstate_of_outside hb outside), fun r hr => ?_⟩
    intro e t
    have reinstated : reinstate r (taken rest s) = t := notifyHeadOf_eq r _
    refine ⟨fun quarantined => ?_, fun other => congrArg _ (doReinstate_of_notQuarantined hb r hr other)⟩
    rw [doReinstate_of_quarantined (s := taken rest s) hb r hr quarantined, reinstated]

end Sys2Proof.Proofs
end

