-- ==== Sys2Proof/Proofs/FaultLog.lean ====
section
/-! PROOFS. The fault log: what an append does (R150, R151), and the commands that read and pop it (R152, R153). -/

namespace Sys2Proof.Proofs

open Sys2Proof.Machine Sys2Proof.Safety Sys2Proof.Claims Sys2Proof.Laws

variable {s : State} {c : QueuedCommand} {b : Byte}

/-! ## Appends -/

/-- The newest record alone counts an overflow (R151). -/
theorem bumpNewest_append (older : List FaultRecord) (newest : FaultRecord) :
    bumpNewest (older ++ [newest]) =
      older ++ [{ newest with droppedAfter := min 65535 (newest.droppedAfter + 1) }] := by
  induction older with
  | nil => rfl
  | cons r older ih =>
    cases older with
    | nil => rfl
    | cons r' older => exact congrArg (r :: ·) ih

theorem appendFault_of_room (r : FaultReport) (h : s.flog.records.length < 31) :
    appendFault r s = raiseClass .fault (keepRecord r s) := by
  have room : s.flog.records.length < Config.logPlaces := by simp only [Config.logPlaces]; omega
  have notLast : s.flog.records.length + 1 ≠ Config.logPlaces := by simp only [Config.logPlaces]; omega
  exact (if_pos room).trans (if_neg notLast)

theorem appendFault_of_lastPlace (r : FaultReport) (h : s.flog.records.length = 31) :
    appendFault r s = raiseClass .logFull (raiseClass .fault (keepRecord r s)) := by
  have room : s.flog.records.length < Config.logPlaces := by simp [h]
  have last : s.flog.records.length + 1 = Config.logPlaces := by simp [h]
  exact (if_pos room).trans (if_pos last)

theorem appendFault_of_full (r : FaultReport) (h : 32 ≤ s.flog.records.length) :
    appendFault r s = { s with flog := { s.flog with records := bumpNewest s.flog.records } } :=
  if_neg (Nat.not_lt.mpr h)

/-- Settles O5, by how many records the log holds. -/
theorem faultAppendKeepsOrCounts : Obligations.FaultAppendKeepsOrCounts := by
  refine fun r s => ⟨fun room => appendFault_of_room r (Nat.lt_succ_of_le room), appendFault_of_lastPlace r,
    fun older newest split full => ?_⟩
  have length : 32 ≤ s.flog.records.length := by simp [split, full]
  rw [appendFault_of_full r length, split, bumpNewest_append]

/-! ## FLOG_READ -/

theorem doFlogRead_of_empty (h : s.flog.records = []) : doFlogRead c s = replied c .nothing (.faultCount 0) s := by
  rw [doFlogRead, h]
  rfl

theorem doFlogRead_of_records {r : FaultRecord} {rs : List FaultRecord} (h : s.flog.records = r :: rs) :
    doFlogRead c s = replied c .ok (.faultHead (rs.length + 1) r) s := by
  rw [doFlogRead, h]
  rfl

/-! ## FLOG_POP -/

theorem doFlogPop_of_outside (h : c.payload = [b]) (hb : b.toNat = 0 ∨ 32 < b.toNat) :
    doFlogPop c s = replied c .badArg .none s := by
  rw [doFlogPop, field_of_byte h]
  exact if_pos (hb.imp_left Nat.lt_one_iff.mpr)

theorem doFlogPop_of_empty (h : c.payload = [b]) (least : 1 ≤ b.toNat) (most : b.toNat ≤ 32)
    (empty : s.flog.records = []) : doFlogPop c s = replied c .nothing (.faultsRemoved 0 0) s := by
  rw [doFlogPop, field_of_byte h, empty]
  exact if_neg (by omega)

theorem drop_of_popped {gone left : List FaultRecord} {n : Nat} (few : gone.length ≤ n)
    (all : gone.length < n → left = []) : (gone ++ left).drop n = left := by
  rcases few.lt_or_eq with fewer | rfl
  · simp [all fewer, few]
  · exact List.drop_left

/-- The oldest n records leave, or all of them when they are fewer (R153). -/
theorem doFlogPop_of_records {gone left : List FaultRecord} (h : c.payload = [b]) (least : 1 ≤ b.toNat)
    (most : b.toNat ≤ 32) (split : s.flog.records = gone ++ left) (nonempty : gone ≠ []) (few : gone.length ≤ b.toNat)
    (all : gone.length < b.toNat → left = []) :
    doFlogPop c s =
      replied c .ok (.faultsRemoved gone.length left.length) { s with flog := { s.flog with records := left } } := by
  have inRange : ¬(b.toNat < 1 ∨ 32 < b.toNat) := by omega
  have records : ¬s.flog.records.isEmpty = true := by simp [split, nonempty]
  have left_eq : s.flog.records.drop b.toNat = left := split ▸ drop_of_popped few all
  have removed : min b.toNat s.flog.records.length = gone.length := by
    rcases few.lt_or_eq with fewer | same
    · simp [split, all fewer, few]
    · simp [split, same]
  rw [doFlogPop, field_of_byte h]
  dsimp only
  rw [if_neg inRange, if_neg records, left_eq, removed]
  rfl

/-- Settles O43: each command is executed by its owner, FLOG_READ by whether the log holds a record, FLOG_POP by its
operand and the log. -/
theorem faultLogIsReadAndPopped : Obligations.FaultLogIsReadAndPopped := by
  refine fun c rest s => ⟨fun he => ?_, fun b he hb => ?_⟩
  · rw [show exec .flogRead s = .next (doFlogRead c (taken rest s)) from takeCommand_of_executes doFlogRead he]
    exact ⟨fun empty => congrArg _ (doFlogRead_of_empty empty),
      fun r rs records => congrArg _ (doFlogRead_of_records records)⟩
  · rw [show exec .flogPop s = .next (doFlogPop c (taken rest s)) from takeCommand_of_executes doFlogPop he]
    refine ⟨fun outside => congrArg _ (doFlogPop_of_outside hb outside), fun least most =>
      ⟨fun empty => congrArg _ (doFlogPop_of_empty hb least most empty), fun gone left split nonempty few all => ?_⟩⟩
    exact congrArg _ (doFlogPop_of_records (s := taken rest s) hb least most split nonempty few all)

end Sys2Proof.Proofs
end

