-- ==== Sys2Proof/Proofs/Notices.lean ====
section
/-! PROOFS. The notice unit: the raise of a class with the sending of a notice (R158, R159), the repeated notice (R160)
and its acknowledgement (R161). -/

namespace Sys2Proof.Proofs

open Sys2Proof.Machine Sys2Proof.Safety Sys2Proof.Claims Sys2Proof.Laws

variable {s : State} {l : Lease} {n b : Byte} {c : QueuedCommand}

/-! ## Sending -/

theorem produce_notice (p : PortId) (k : OutPacket) (s : State) : (produce p k s).notice = s.notice := by
  rw [produce_eq]

/-- A packet handed to a port and an update of the notice unit do not meet. -/
theorem produce_setNotice (p : PortId) (k : OutPacket) (x : NoticeUnit) (s : State) :
    produce p k { s with notice := x } = { produce p k s with notice := x } := by
  simp only [produce_eq]

theorem sendNotice_eq (h : Party) (s : State) : sendNotice h s = noticeSent h s :=
  (produce_setNotice h.port _ _ s).symm

theorem testSend_of_noLease (h : s.mgmt.lease = none) : testSend s = s := by
  rw [testSend, h]

theorem testSend_of_nothingPending (h : s.notice.pending = 0#6) : testSend s = s := by
  unfold testSend
  split
  · rfl
  · exact if_neg fun send => send.2 h

theorem testSend_of_due (held : s.mgmt.lease = some l) (idle : s.notice.outstanding = none)
    (pending : s.notice.pending ≠ 0#6) : testSend s = noticeSent l.holder s := by
  rw [testSend, held]
  exact (if_pos ⟨idle, pending⟩).trans (sendNotice_eq _ s)

/-! ## Raises -/

theorem bit_eq_twoPow (c : EventClass) : c.bit = BitVec.twoPow 6 (classBit c) := by cases c <;> rfl

theorem classBit_lt (c : EventClass) : classBit c < 6 := by cases c <;> decide

theorem getLsbD_bit (c : EventClass) : c.bit.getLsbD (classBit c) = true := by
  simp [bit_eq_twoPow, classBit_lt]

theorem has_eq_getLsbD (m : ClassSet) (c : EventClass) : m.has c = m.getLsbD (classBit c) := by
  have nonzero : c.bit ≠ 0#6 := by cases c <;> decide
  rw [ClassSet.has, bit_eq_twoPow, BitVec.and_twoPow, ← bit_eq_twoPow]
  cases m.getLsbD (classBit c) <;> simp [nonzero]

/-- A set to which a class has been added holds a class. -/
theorem or_bit_ne_zero (m : ClassSet) (c : EventClass) : m ||| c.bit ≠ 0#6 := by
  intro empty
  have added := congrArg (BitVec.getLsbD · (classBit c)) empty
  simp [getLsbD_bit] at added

theorem raiseClass_of_unmasked {c : EventClass} (h : ¬masked c s) : raiseClass c s = s :=
  if_neg (by rwa [has_eq_getLsbD])

/-- The class joins Pending, and the send condition is tested (R158). -/
theorem raiseClass_of_masked {c : EventClass} (h : masked c s) :
    raiseClass c s = testSend { s with notice := { s.notice with pending := withClass c s } } := by
  rw [withClass, ← bit_eq_twoPow]
  exact if_pos ((has_eq_getLsbD _ c).trans h)

/-- Settles O6: a class of the mask joins Pending, and the send condition of R159 decides the rest. -/
theorem classRaiseJoinsPending : Obligations.ClassRaiseJoinsPending := by
  refine fun c s => ⟨raiseClass_of_unmasked, fun mask quiet => ?_, fun l mask held idle => ?_⟩
  · rw [raiseClass_of_masked mask]
    rcases quiet with noLease | outstanding
    · exact testSend_of_noLease noLease
    · exact testSend_of_outstanding (Option.isSome_iff_ne_none.mpr outstanding)
  · have pending : withClass c s ≠ 0#6 := by
      rw [withClass, ← bit_eq_twoPow]
      exact or_bit_ne_zero _ c
    rw [raiseClass_of_masked mask]
    exact testSend_of_due held idle pending

/-! ## The repeated notice -/

theorem resendNotice_eq (h : Party) (n : Byte) (s : State) :
    resendNotice h n s =
      produce h.port
        (.note h.requester n (s.notice.reported ||| s.notice.pending) s.flog.records.length s.commit.liveGeneration)
        { s with notice :=
            { s.notice with
              pending := 0#6
              reported := s.notice.reported ||| s.notice.pending
              resendTimer := some (s.mgmt.config.resendPeriod * 1000) } } := by
  rw [produce_setNotice]
  simp only [resendNotice, produce_notice]
  rfl

theorem exec_resendExpiry_of_due (running : Running s) (held : s.mgmt.lease = some l)
    (outstanding : s.notice.outstanding = some n) (timer : s.notice.resendTimer = some 0) :
    exec .resendExpiry s = .next (resendNotice l.holder n s) := by
  have due : TimedEvent.resend.left s = some 0 := by simp [TimedEvent.left, held, outstanding, timer]
  rw [show exec .resendExpiry s = .next (happenResend s) from exec_command_of_due running due, happenResend, held,
    outstanding]

/-! ## NOTE_ACK -/

theorem doNoteAck_of_none (h : s.notice.outstanding = none) : doNoteAck c s = replied c .nothing .none s := by
  rw [doNoteAck, h]
  rfl

theorem doNoteAck_of_other (hb : c.payload = [b]) (h : s.notice.outstanding = some n) (other : b ≠ n) :
    doNoteAck c s = replied c .badArg .none s := by
  have byte : byteAt c.payload 0 = b := by rw [hb]; rfl
  rw [doNoteAck, h]
  exact if_neg (byte ▸ other)

theorem doNoteAck_of_outstanding (hb : c.payload = [b]) (h : s.notice.outstanding = some b) :
    doNoteAck c s = testSend (replied c .ok (.newNotice (nextNoticeNumber s)) (acknowledge s)) := by
  have byte : byteAt c.payload 0 = b := by rw [hb]; rfl
  rw [doNoteAck, h]
  exact if_pos byte

/-- With nothing Pending the acknowledgement is the end of the notice (R161). -/
theorem doNoteAck_of_nothingPending (hb : c.payload = [b]) (h : s.notice.outstanding = some b)
    (empty : s.notice.pending = 0#6) : doNoteAck c s = replied c .ok (.newNotice none) (acknowledge s) := by
  have number : nextNoticeNumber s = none := if_neg (not_not.mpr empty)
  rw [doNoteAck_of_outstanding hb h, number]
  exact testSend_of_nothingPending ((congrArg NoticeUnit.pending (produce_notice _ _ _)).trans empty)

/-- What is Pending goes out to the holder in a new notice after the MRESP (R161). -/
theorem doNoteAck_of_pending (hb : c.payload = [b]) (h : s.notice.outstanding = some b)
    (held : s.mgmt.lease = some l) (pending : s.notice.pending ≠ 0#6) :
    doNoteAck c s =
      noticeSent l.holder (replied c .ok (.newNotice (some s.notice.nextNumber)) (acknowledge s)) := by
  have number : nextNoticeNumber s = some s.notice.nextNumber := if_pos pending
  have notice : ∀ res, (replied c .ok res (acknowledge s)).notice = (acknowledge s).notice :=
    fun _ => produce_notice _ _ _
  have mgmt : ∀ res, (replied c .ok res (acknowledge s)).mgmt = s.mgmt := fun _ => produce_mgmt _ _ _
  rw [doNoteAck_of_outstanding hb h, number]
  exact testSend_of_due ((congrArg _ (mgmt _)).trans held) (congrArg _ (notice _))
    (by rw [notice]; exact pending)

/-- Settles O48: the resend timer's expiry as the event that is due, then NOTE_ACK by the outstanding number and by
Pending. -/
theorem noticesAreRepeatedUntilAcknowledged : Obligations.NoticesAreRepeatedUntilAcknowledged := by
  refine ⟨fun l n s running held outstanding timer => ?_, fun c rest s b he hb => ?_⟩
  · rw [exec_resendExpiry_of_due running held outstanding timer, resendNotice_eq]
  · have ⟨_, _, _, _, leaseBound⟩ := he
    obtain ⟨l, held, holder⟩ := Option.map_eq_some_iff.mp (leaseBound rfl)
    rw [show exec .noteAck s = .next (doNoteAck c (taken rest s)) from takeCommand_of_executes doNoteAck he, ← holder]
    exact ⟨fun idle => congrArg _ (doNoteAck_of_none idle),
      fun n out other => congrArg _ (doNoteAck_of_other hb out other),
      fun out => ⟨fun empty => congrArg _ (doNoteAck_of_nothingPending hb out empty),
        fun pending => congrArg _ (doNoteAck_of_pending (s := taken rest s) hb out held pending)⟩⟩

end Sys2Proof.Proofs
end

