-- ==== Sys2Proof/Proofs/LogAndNoticeLaws.lean ====
section
/-! PROOFS. The laws of the fault log and of the notice unit (R149, R157, R159), and the operations that carry both over:
appends and raises, the ends of a lease, and those that leave log, notice unit and lease as they are. -/

namespace Sys2Proof.Proofs

open Sys2Proof.Machine Sys2Proof.Safety Sys2Proof.Claims Sys2Proof.Laws

variable {x y u : State}

/-! ## The fault log (R149) -/

/-- The Sequences of `n` records that end below `next`. -/
def sequenceRun (next : Word32) (n : Nat) : List Word32 :=
  (List.range n).map fun k => next - BitVec.ofNat 32 (n - k)

/-- At most 32 records, with the run of Sequences that ends below the next one. -/
structure LogOf (l : FaultLog) : Prop where
  bound : l.records.length ≤ 32
  run : l.records.map FaultRecord.sequence = sequenceRun l.nextSequence l.records.length

theorem logLaw_iff (s : State) : LogLaw s ↔ LogOf s.flog := by
  have run : s.flog.records.map FaultRecord.sequence = sequenceRun s.flog.nextSequence s.flog.records.length ↔
      ∀ k : Fin s.flog.records.length, s.flog.records[k].sequence =
        s.flog.nextSequence - BitVec.ofNat 32 (s.flog.records.length - k.val) := by
    simp [List.ext_getElem_iff, sequenceRun, Fin.forall_iff]
  exact ⟨fun ⟨bound, h⟩ => ⟨bound, run.mpr h⟩, fun ⟨bound, h⟩ => ⟨bound, run.mp h⟩⟩

/-- A run goes on with the next Sequence. -/
theorem sequenceRun_succ (next : Word32) (n : Nat) : sequenceRun (next + 1) (n + 1) = sequenceRun next n ++ [next] := by
  have earlier : ∀ k ∈ List.range n, next + 1 - BitVec.ofNat 32 (n + 1 - k) = next - BitVec.ofNat 32 (n - k) := by
    intro k hk
    rw [Nat.succ_sub (List.mem_range.mp hk).le, Nat.succ_eq_add_one, BitVec.ofNat_add]
    exact add_sub_add_right_eq_sub ..
  have last : next + 1 - BitVec.ofNat 32 (n + 1 - n) = next := by
    rw [Nat.add_sub_cancel_left]
    exact add_sub_cancel_right next 1
  rw [sequenceRun, List.range_succ, List.map_append, List.map_congr_left earlier, List.map_singleton, last]
  rfl

/-- A run keeps its end when its first Sequences leave. -/
theorem drop_sequenceRun (next : Word32) (n m : Nat) : (sequenceRun next n).drop m = sequenceRun next (n - m) := by
  refine List.ext_getElem (by simp [sequenceRun]) fun k _ _ => ?_
  simp [sequenceRun, Nat.sub_sub]

theorem logOf_append {l : FaultLog} (h : LogOf l) (room : l.records.length < 32) (r : FaultReport) :
    LogOf ⟨l.records ++ [⟨l.nextSequence, r, 0⟩], l.nextSequence + 1⟩ where
  bound := by simpa using room
  run := by
    rw [List.map_append, h.run, List.length_append]
    exact (sequenceRun_succ _ _).symm

theorem sequences_bumpNewest (rs : List FaultRecord) :
    (bumpNewest rs).map FaultRecord.sequence = rs.map FaultRecord.sequence := by
  rcases rs.eq_nil_or_concat' with rfl | ⟨older, newest, rfl⟩
  · rfl
  · simp [bumpNewest_append]

theorem length_bumpNewest (rs : List FaultRecord) : (bumpNewest rs).length = rs.length := by
  simpa using congrArg List.length (sequences_bumpNewest rs)

theorem logOf_bump {l : FaultLog} (h : LogOf l) : LogOf { l with records := bumpNewest l.records } where
  bound := (length_bumpNewest _).trans_le h.bound
  run := by rw [sequences_bumpNewest, length_bumpNewest, h.run]

theorem logOf_drop {l : FaultLog} (h : LogOf l) (n : Nat) : LogOf { l with records := l.records.drop n } where
  bound := (List.drop_sublist ..).length_le.trans h.bound
  run := by rw [List.map_drop, h.run, drop_sequenceRun, List.length_drop]

/-! ## The notice unit (R157, R159) -/

/-- The law of the notice unit while the send condition is still to be tested: a notice is outstanding with its timer
running and under a lease, or not at all. -/
structure SendReady (s : State) : Prop where
  idle : s.notice.outstanding = none → s.notice.reported = 0#6 ∧ s.notice.resendTimer = none
  active : s.notice.outstanding.isSome = true → s.notice.resendTimer.isSome = true ∧ s.mgmt.lease.isSome = true

theorem sendReady_of_noticeLaw (h : NoticeLaw x) : SendReady x := by
  obtain ⟨idle, active⟩ := h
  exact ⟨fun out => ⟨(idle out).1, (idle out).2.1⟩, active⟩

theorem SendReady.congr (h : SendReady x) (notice : u.notice = x.notice)
    (lease : x.mgmt.lease.isSome = true → u.mgmt.lease.isSome = true) : SendReady u := by
  refine ⟨?_, ?_⟩ <;> rw [notice]
  · exact h.idle
  · exact fun out => ⟨(h.active out).1, lease (h.active out).2⟩

theorem SendReady.noticeLaw (h : SendReady x)
    (empty : x.notice.outstanding = none → x.mgmt.lease.isSome = true → x.notice.pending = 0#6) : NoticeLaw x :=
  ⟨fun out => ⟨(h.idle out).1, (h.idle out).2, empty out⟩, h.active⟩

theorem noticeLaw_noticeSent (p : Party) (held : x.mgmt.lease.isSome = true) : NoticeLaw (noticeSent p x) := by
  refine SendReady.noticeLaw ⟨?_, ?_⟩ ?_ <;> simp [noticeSent, produce_notice, produce_mgmt, held]

/-- The test of the send condition leaves nothing Pending for a holder with no notice outstanding. -/
theorem noticeLaw_testSend (h : SendReady x) : NoticeLaw (testSend x) := by
  cases held : x.mgmt.lease with
  | none =>
    rw [testSend_of_noLease held]
    exact h.noticeLaw fun _ isHeld => by simp [held] at isHeld
  | some l =>
    by_cases due : x.notice.outstanding = none ∧ x.notice.pending ≠ 0#6
    · rw [testSend_of_due held due.1 due.2]
      exact noticeLaw_noticeSent _ (by simp [held])
    · have unsent : testSend x = x := by
        rw [testSend, held]
        exact if_neg due
      rw [unsent]
      exact h.noticeLaw fun out _ => not_not.mp fun pending => due ⟨out, pending⟩

/-! ## What carries the laws over -/

/-- Both laws hold after if they held before. -/
structure Carries (x u : State) : Prop where
  log : LogLaw x → LogLaw u
  notice : NoticeLaw x → NoticeLaw u

theorem Carries.refl (x : State) : Carries x x := ⟨id, id⟩

theorem Carries.trans (h : Carries x y) (k : Carries y u) : Carries x u := ⟨k.log ∘ h.log, k.notice ∘ h.notice⟩

theorem logLaw_congr (flog : u.flog = x.flog) (h : LogLaw x) : LogLaw u := by
  rw [logLaw_iff] at h ⊢
  rwa [flog]

/-- An update of other fields. -/
theorem Carries.same (flog : u.flog = x.flog) (notice : u.notice = x.notice)
    (lease : u.mgmt.lease.isSome = x.mgmt.lease.isSome) : Carries x u where
  log := logLaw_congr flog
  notice := by
    rw [NoticeLaw, NoticeLaw, notice, lease]
    exact id

/-- An operation after an update of other fields. -/
theorem Carries.ofUpdate (h : Carries y u) (flog : y.flog = x.flog) (notice : y.notice = x.notice)
    (lease : y.mgmt.lease.isSome = x.mgmt.lease.isSome) : Carries x u :=
  Carries.trans (.same flog notice lease) h

/-! ## Packets, notices and records -/

theorem carries_produce (p : PortId) (k : OutPacket) (x : State) : Carries x (produce p k x) := by
  obtain ⟨_, _, h⟩ := produce_shape p k x
  rw [h]
  exact .same rfl rfl rfl

theorem carries_answer (c : QueuedCommand) (st : Status) (res : Results) (x : State) : Carries x (answer c st res x) :=
  carries_produce _ _ x

/-- The send condition is tested after changes that leave the log alone. -/
theorem carries_testSend (flog : y.flog = x.flog) (ready : SendReady x → SendReady y) : Carries x (testSend y) where
  log := by
    obtain ⟨_, _, _, h⟩ := testSend_shape y
    rw [h]
    exact logLaw_congr flog
  notice h := noticeLaw_testSend (ready (sendReady_of_noticeLaw h))

theorem carries_raiseClass (c : EventClass) (x : State) : Carries x (raiseClass c x) := by
  by_cases mask : masked c x
  · rw [raiseClass_of_masked mask]
    exact carries_testSend rfl fun ⟨idle, active⟩ => ⟨idle, active⟩
  · rw [raiseClass_of_unmasked mask]
    exact .refl x

theorem carries_keepRecord (r : FaultReport) (room : x.flog.records.length < 32) : Carries x (keepRecord r x) where
  log h := (logLaw_iff _).mpr (logOf_append ((logLaw_iff x).mp h) room r)
  notice := id

theorem carries_appendFault (r : FaultReport) (x : State) : Carries x (appendFault r x) := by
  rcases Nat.lt_or_ge x.flog.records.length 32 with room | full
  · have kept := (carries_keepRecord r room).trans (carries_raiseClass .fault _)
    rcases Nat.lt_or_eq_of_le (Nat.le_of_lt_succ room) with before | last
    · rw [appendFault_of_room r before]
      exact kept
    · rw [appendFault_of_lastPlace r last]
      exact kept.trans (carries_raiseClass .logFull _)
  · rw [appendFault_of_full r full]
    exact ⟨fun h => (logLaw_iff _).mpr (logOf_bump ((logLaw_iff x).mp h)), id⟩

theorem carries_linkChanged (p : PortId) (x : State) : Carries x (linkChanged p x) :=
  (carries_appendFault _ x).trans (carries_raiseClass .link _)

theorem carries_creditExcess (n : Nat) (w : Option WinIndex) (g : Option Generation) (x : State) :
    Carries x (creditExcess n w g x) := by
  unfold creditExcess
  split
  · exact .refl x
  · exact (carries_appendFault _ _).ofUpdate rfl rfl rfl

theorem carries_returnRequest (n : Nat) (w : Option WinIndex) (g : Option Generation) (x : State) :
    Carries x (returnRequest n w g x) :=
  (carries_creditExcess _ w g _).ofUpdate rfl rfl rfl

/-! ## The lease -/

/-- The lease has ended, and the notice unit takes its end (R164). -/
theorem carries_noticeLeaseEnd (flog : y.flog = x.flog) (ended : y.mgmt.lease = none) :
    Carries x (noticeLeaseEnd y) where
  log := logLaw_congr flog
  notice _ := by simp [NoticeLaw, ended]

theorem carries_endLease (k : FaultKind) (x : State) : Carries x (endLease k x) := by
  unfold endLease
  split
  · exact .refl x
  · obtain ⟨_, _, cancelled⟩ := cancelHeld_shape (setLease none x)
    rw [cancelled]
    exact (carries_noticeLeaseEnd (by rfl) (by rfl)).trans (carries_appendFault _ _)

theorem carries_lapseThrough (p : PortId) (x : State) : Carries x (lapseThrough p x) := by
  unfold lapseThrough
  split
  · exact .refl x
  · split
    · exact carries_endLease _ x
    · exact .refl x

/-! ## Intake -/

theorem carries_notifyHead (x : State) : Carries x (notifyHead x) := by
  obtain ⟨_, h⟩ := notifyHead_shape x
  rw [h]
  exact .same rfl rfl rfl

theorem carries_notifyHeadOf (r : ReqNum) (x : State) : Carries x (notifyHeadOf r x) := by
  obtain ⟨_, h⟩ := notifyHeadOf_shape r x
  rw [h]
  exact .same rfl rfl rfl

theorem carries_leaveQueue (x : State) : Carries x (leaveQueue x) := (carries_produce .up _ _).ofUpdate rfl rfl rfl

theorem carries_linkNotice (p : PortId) (x : State) : Carries x (linkNotice p x) := by
  obtain ⟨_, h⟩ := linkNotice_shape p x
  rw [h]
  exact .same rfl rfl rfl

/-! ## Slots, withdrawal and the drain end -/

theorem carries_freeSlot (i : SlotNum) (x : State) : Carries x (freeSlot i x) :=
  (carries_notifyHead _).ofUpdate rfl rfl rfl

theorem carries_holdReleased (g : Generation) (x : State) : Carries x (holdReleased g x) := by
  obtain ⟨_, _, h⟩ := holdReleased_shape g x
  rw [h]
  exact .same rfl rfl rfl

theorem carries_closeSlot (i : SlotNum) (t : Tracked) (x : State) : Carries x (closeSlot i t x) := by
  obtain ⟨_, _, _, _, h⟩ := closeSlot_shape i t x
  rw [h]
  exact .same rfl rfl rfl

theorem carries_settleOpen (i : SlotNum) (t : Tracked) (x : State) : Carries x (settleOpen i t x) := by
  unfold settleOpen
  split
  · exact carries_closeSlot i t x
  · exact .same rfl rfl rfl

theorem carries_forSlots {f : SlotNum → State → State} (h : ∀ i x, Carries x (f i x)) (x : State) :
    Carries x (forSlots f x) :=
  forSlots_induct f (Carries x) x (.refl x) fun i _ hy => hy.trans (h i _)

theorem carries_withdraw (r : ReqNum) (x : State) : Carries x (withdraw r x) := by
  obtain ⟨_, _, _, _, _, _, _, _, h⟩ := withdraw_shape r x
  rw [h]
  exact .same rfl rfl rfl

theorem carries_removeEntries (i : SlotNum) (r : ReqNum) (x : State) : Carries x (removeEntries i r x) := by
  rw [removeEntries_eq]
  exact .same rfl rfl rfl

theorem carries_swapBanks (x : State) : Carries x (swapBanks x) := by
  obtain ⟨_, _, h⟩ := swapBanks_shape x
  rw [h]
  exact .same rfl rfl rfl

theorem carries_endDrain (x : State) : Carries x (endDrain x) := by
  obtain ⟨_, _, h⟩ := endDrain_shape x
  rw [h]
  exact .same rfl rfl rfl

theorem carries_takeDrainEnd (x : State) : Carries x (takeDrainEnd x) := by
  obtain ⟨_, _, h⟩ := takeDrainEnd_shape x
  rw [h]
  exact .same rfl rfl rfl

theorem carries_cancelHeld (x : State) : Carries x (cancelHeld x) := by
  obtain ⟨_, _, h⟩ := cancelHeld_shape x
  rw [h]
  exact .same rfl rfl rfl

theorem carries_completeFill (x : State) : Carries x (completeFill x) :=
  (carries_raiseClass .stagedReady _).ofUpdate rfl rfl rfl

theorem carries_enterQuarantine (o : Offence) (x : State) : Carries x (enterQuarantine o x) := by
  have marked : Carries x (notifyHeadOf o.requester
      (setEntry o.requester { entryOf x o.requester with state := .quarantined } x)) :=
    (carries_notifyHeadOf _ _).ofUpdate rfl rfl rfl
  have withdrawn := marked.trans (carries_withdraw o.requester _)
  exact ((withdrawn.trans (carries_appendFault _ _)).trans (carries_raiseClass .quarantine _)).trans
    (carries_takeDrainEnd _)

theorem carries_applyAction (a : Action) (o : Offence) (x : State) : Carries x (applyAction a o x) := by
  cases a with
  | reject => exact .refl x
  | strike =>
    simp only [applyAction]
    split
    · exact (carries_enterQuarantine o _).ofUpdate rfl rfl rfl
    · exact .same rfl rfl rfl
  | quarantine => exact carries_enterQuarantine o x

/-! ## The passing of time -/

theorem carries_passTime (n : Nat) (x : State) : Carries x (passTime n x) where
  log := logLaw_congr rfl
  notice := by simp +contextual [NoticeLaw, passTime, fallTimer]

end Sys2Proof.Proofs
end

