-- ==== Sys2Proof/Proofs/LogAndNoticeEvents.lean ====
section
/-! PROOFS. Every command of the table, and so every step, carries the laws of the fault log and of the notice unit over
(R149, R157, R159). -/

namespace Sys2Proof.Proofs

open Sys2Proof.Machine Sys2Proof.Safety Sys2Proof.Claims Sys2Proof.Laws

variable {s x y u : State}

/-! ## Intake -/

theorem carries_arriveUpstream (p : IntakePacket) (x : State) : Carries x (arriveUpstream p x) := by
  unfold arriveUpstream
  split_ifs
  · exact .same rfl rfl rfl
  · exact carries_appendFault _ x
  · exact .refl x

theorem carries_strayUpstream (r : ReqNum) (x : State) : Carries x (strayUpstream r x) := by
  unfold strayUpstream
  split
  · exact carries_appendFault _ x
  · exact .refl x

theorem carries_reachManagement (p : PortId) (m : Mcmd) (x : State) : Carries x (reachManagement p m x) := by
  unfold reachManagement
  split
  · exact .same rfl rfl rfl
  · exact carries_produce p _ x

theorem carries_moveHead (x : State) : Carries x (moveHead x) := by
  unfold moveHead
  split
  · exact (carries_reachManagement _ _ x).trans (carries_leaveQueue _)
  · exact .refl x
  · exact .refl x

theorem carries_arriveDownstream (m : Mcmd) (x : State) : Carries x (arriveDownstream m x) := by
  unfold arriveDownstream
  split
  · exact carries_reachManagement .down m x
  · exact .refl x

theorem carries_refuseRequest (q : Request) (code : ErrCode) (report : Option FaultReport) (x : State) :
    Carries x (refuseRequest q code report x) := by
  have counted : ∀ e y, Carries y (setEntry q.requester e y) := fun _ _ => .same rfl rfl rfl
  have recorded : ∀ y, Carries x y → Carries x (match report with
      | some f => appendFault f (leaveQueue y)
      | none => leaveQueue y) := by
    intro y h
    cases report with
    | none => exact h.trans (carries_leaveQueue y)
    | some f => exact (h.trans (carries_leaveQueue y)).trans (carries_appendFault f _)
  unfold refuseRequest
  cases q.kind with
  | pwreq => exact recorded _ (.same rfl rfl rfl)
  | rdreq => exact recorded _ ((carries_produce _ _ x).trans (counted _ _))
  | wrreq => exact recorded _ ((carries_produce _ _ x).trans (counted _ _))

theorem carries_stallHead (a b : Bool) (r : ReqNum) (x : State) : Carries x (stallHead a b r x) := by
  unfold stallHead
  dsimp only
  split
  · exact (carries_raiseClass .exhaust _).ofUpdate rfl rfl rfl
  · exact .same rfl rfl rfl

theorem carries_enqueueAccepted (r : ReqNum) (es : List FifoEntry) (x : State) :
    Carries x (enqueueAccepted r es x) := (carries_leaveQueue _).ofUpdate rfl rfl rfl

theorem carries_resourceCheck (q : Request) (ps : List GrantedPiece) (g : Generation) (x : State) :
    Carries x (resourceCheck q ps g x) := by
  unfold resourceCheck
  dsimp only
  split
  · split
    · split
      · exact (carries_enqueueAccepted _ _ _).ofUpdate rfl rfl rfl
      · exact carries_stallHead _ _ _ x
    · exact carries_stallHead _ _ _ x
  · split
    · exact carries_enqueueAccepted _ _ x
    · exact carries_stallHead _ _ _ x

theorem carries_examineHead (x : State) : Carries x (examineHead x) := by
  unfold examineHead
  split
  · split
    · unfold examine
      split
      · exact (carries_refuseRequest _ _ _ _).ofUpdate rfl rfl rfl
      · exact (carries_refuseRequest _ _ _ x).trans (carries_applyAction _ _ _)
      · exact carries_resourceCheck _ _ _ x
    · exact .refl x
  · exact .refl x
  · exact .refl x

/-! ## Issue and responses -/

theorem carries_granted (r : ReqNum) (rest : List FifoEntry) (x : State) : Carries x (granted r rest x) :=
  (carries_notifyHeadOf r _).ofUpdate rfl rfl rfl

theorem carries_sendTracked (r : ReqNum) (i : SlotNum) (t : Tracked) (p : Piece) (data : Option (List Byte))
    (rest : List FifoEntry) (x : State) : Carries x (sendTracked r i t p data rest x) := by
  have sent : Carries x (produce .down (pieceRequest ⟨i, p.index, (pick x.ort i).incarnation⟩ t p data)
      { x with issue := { x.issue with requestPool := x.issue.requestPool.spend } }) :=
    (carries_produce .down _ _).ofUpdate rfl rfl rfl
  exact sent.trans ((carries_granted r rest _).ofUpdate rfl rfl rfl)

theorem carries_grantTo (r : ReqNum) (x : State) : Carries x (grantTo r x) := by
  unfold grantTo
  split
  · exact .refl x
  · exact ((carries_produce .down _ _).trans (carries_granted r _ _)).ofUpdate rfl rfl rfl
  · split
    · exact .refl x
    · split
      · exact .refl x
      · exact carries_sendTracked r _ _ _ _ _ x

theorem carries_grantNext (x : State) : Carries x (grantNext x) := by
  unfold grantNext
  split
  · exact .refl x
  · obtain ⟨_, _, _, h⟩ := takePiece_shape x
    rw [h]
    exact (carries_grantTo _ _).ofUpdate rfl rfl rfl

theorem carries_takeCret (cls : PoolClass) (n : BitVec 16) (x : State) : Carries x (takeCret cls n x) := by
  unfold takeCret
  split
  · cases cls with
    | request => exact carries_returnRequest _ _ _ x
    | posted => exact (carries_creditExcess _ _ _ _).ofUpdate rfl rfl rfl
  · exact .refl x

theorem carries_answerOpen (i : SlotNum) (t : Tracked) (p : Piece) (body : ResponseBody) (x : State) :
    Carries x (answerOpen i t p body x) := by
  cases body with
  | rdrsp n data => exact (carries_produce _ _ x).trans (carries_settleOpen i _ _)
  | wrrsp => exact carries_settleOpen i _ x
  | errsp c =>
    simp only [answerOpen]
    split
    · exact (carries_appendFault _ x).trans (carries_settleOpen i _ _)
    · exact carries_settleOpen i _ x

theorem carries_answerStale (i : SlotNum) (t : Tracked) (p : Piece) (body : ResponseBody) (x : State) :
    Carries x (answerStale i t p body x) := by
  unfold answerStale
  dsimp only
  split
  · exact .same rfl rfl rfl
  · exact carries_freeSlot i x

theorem carries_takeResponse (r : Response) (x : State) : Carries x (takeResponse r x) := by
  unfold takeResponse
  split
  · split
    · exact ((carries_answerOpen _ _ _ _ x).trans (carries_returnRequest _ _ _ _)).trans (carries_takeDrainEnd _)
    · exact (carries_answerStale _ _ _ _ x).trans (carries_returnRequest _ _ _ _)
    · exact ((carries_appendFault _ _).trans (carries_returnRequest _ _ _ _)).ofUpdate rfl rfl rfl
  · exact .refl x

/-! ## The links -/

theorem carries_setPort (p : PortId) (k : Port) (x : State) : Carries x (x.setPort p k) := by
  cases p <;> exact .same rfl rfl rfl

/-- A port's transition: its new state, its record with LINK, and intake's notice of the downstream one. -/
theorem carries_transition (p : PortId) (k : Port) (x : State) :
    Carries x (linkNotice p (linkChanged p (x.setPort p k))) :=
  ((carries_setPort p k x).trans (carries_linkChanged p _)).trans (carries_linkNotice p _)

theorem carries_enterUp (p : PortId) (c : InitCounts) (x : State) : Carries x (enterUp p c x) := by
  have owners : ∀ y, Carries y (ownersUp p c y) := fun y => by cases p <;> exact .same rfl rfl rfl
  have changed := (carries_setPort p (x.port p).trained x).trans (carries_linkChanged p _)
  exact (changed.trans (owners _)).trans (carries_linkNotice p _)

theorem carries_endHoldOff (p : PortId) (x : State) : Carries x (endHoldOff p x) := by
  unfold endHoldOff
  dsimp only
  split
  · exact (carries_setPort p _ x).trans (carries_transition p _ _)
  · exact carries_setPort p _ x

theorem carries_detectPeer (p : PortId) (x : State) : Carries x (detectPeer p x) := by
  have reported : Carries x (setSignal p true x) := carries_setPort p _ x
  unfold detectPeer
  dsimp only
  split
  · exact reported.trans (carries_transition p _ _)
  · exact reported

theorem carries_takeInit (p : PortId) (c : InitCounts) (x : State) : Carries x (takeInit p c x) := by
  unfold takeInit
  split
  · split
    · exact carries_enterUp p c x
    · exact carries_transition p _ x
  · exact .refl x

theorem carries_cutSlot (i : SlotNum) (x : State) : Carries x (cutSlot i x) := by
  obtain ⟨_, _, _, _, _, _, h⟩ := cutSlot_shape i x
  rw [h]
  exact .same rfl rfl rfl

theorem carries_lapseAtFall (x : State) : Carries x (lapseAtFall x) := by
  unfold lapseAtFall
  split
  · dsimp only
    split
    · exact ((carries_endDrain _).trans (carries_lapseThrough .down _)).ofUpdate rfl rfl rfl
    · exact ((carries_lapseThrough .down _).trans (carries_endDrain _)).ofUpdate rfl rfl rfl
  · exact (carries_lapseThrough .down x).trans (carries_takeDrainEnd _)

theorem carries_ownersLost (p : PortId) (x : State) : Carries x (ownersLost p x) := by
  cases p with
  | up => exact (carries_lapseThrough .up _).ofUpdate rfl rfl rfl
  | down =>
    have cut : ∀ y, Carries y (cutIssue y) := fun _ => .same rfl rfl rfl
    have purged : ∀ y, Carries y (purgeCommands .down y) := fun _ => .same rfl rfl rfl
    have told := ((carries_forSlots carries_cutSlot x).trans (cut _)).trans (carries_notifyHead _)
    exact (told.trans (purged _)).trans (carries_lapseAtFall _)

theorem carries_leaveUp (p : PortId) (x : State) : Carries x (leaveUp p x) :=
  ((carries_setPort p _ x).trans (carries_linkChanged p _)).trans (carries_ownersLost p _)

theorem carries_takeInitWhileUp (p : PortId) (x : State) : Carries x (takeInitWhileUp p x) := by
  unfold takeInitWhileUp
  split
  · exact carries_leaveUp p x
  · exact .refl x

theorem carries_dropLink (p : PortId) (x : State) : Carries x (dropLink p x) := by
  unfold dropLink
  split
  · exact .refl x
  · exact carries_transition p _ x
  · exact carries_leaveUp p x

/-! ## Time -/

theorem carries_leaveOpen (i : SlotNum) (t : Tracked) (x : State) : Carries x (leaveOpen i t x) := by
  unfold leaveOpen
  split
  · exact .same rfl rfl rfl
  · exact carries_freeSlot i x

theorem carries_expireDeadline (i : SlotNum) (t : Tracked) (x : State) : Carries x (expireDeadline i t x) := by
  have removed := carries_removeEntries i (expireRecord t).requester x
  have expired : ∀ y, Carries y (setOcc i (.opened (expireRecord t)) y) := fun _ => .same rfl rfl rfl
  exact (((removed.trans (expired _)).trans (carries_produce .up _ _)).trans (carries_appendFault _ _)).trans
    ((carries_holdReleased _ _).trans ((carries_leaveOpen i _ _).trans (carries_takeDrainEnd _)))

theorem carries_expireReclaim (i : SlotNum) (t : Tracked) (x : State) : Carries x (expireReclaim i t x) :=
  ((carries_returnRequest _ _ _ x).trans (carries_freeSlot i _)).trans (carries_appendFault _ _)

/-- The notice stays outstanding with its timer running (R160). -/
theorem carries_resendNotice (h : Party) {n : Byte} (held : x.mgmt.lease.isSome = true)
    (outstanding : x.notice.outstanding = some n) : Carries x (resendNotice h n x) := by
  rw [resendNotice_eq]
  refine Carries.trans ?_ (carries_produce _ _ _)
  exact ⟨logLaw_congr rfl, fun _ => by simp [NoticeLaw, outstanding, held]⟩

theorem carries_happen (e : TimedEvent) (x : State) : Carries x (e.happen x) := by
  cases e with
  | fillStep => exact .same rfl rfl rfl
  | fillCompletion => exact carries_completeFill x
  | deadline i =>
    simp only [TimedEvent.happen, happenDeadline]
    split
    · exact .refl x
    · exact carries_expireDeadline i _ x
  | reclaim i =>
    simp only [TimedEvent.happen, happenReclaim]
    split
    · exact .refl x
    · exact carries_expireReclaim i _ x
  | resend =>
    simp only [TimedEvent.happen, happenResend]
    split
    · rename_i held outstanding
      exact carries_resendNotice _ (by simp [held]) outstanding
    · exact .refl x
    · exact .refl x
  | lease => exact carries_endLease _ x
  | training p => exact carries_transition p _ x
  | holdOff p => exact carries_endHoldOff p x

theorem carries_takeTimed (e : TimedEvent) (x : State) : Carries x (takeTimed e x) :=
  takeTimed_keeps (P := Carries x) (fun e y h _ => h.trans (carries_happen e y))
    (fun n y h => h.trans ((carries_passTime n (sendHeld y)).ofUpdate rfl rfl rfl)) e x (.refl x)

/-! ## Management commands -/

theorem carries_takeUnknown (x : State) : Carries x (takeUnknown x) := by
  unfold takeUnknown
  split
  · exact .refl x
  · split
    · dsimp only
      split
      · exact (carries_answer _ _ _ _).ofUpdate rfl rfl rfl
      · exact (carries_answer _ _ _ _).ofUpdate rfl rfl rfl
    · exact .refl x

section Bodies

variable (c : QueuedCommand) (x : State)

theorem carries_renewLease {l : Lease} (held : x.mgmt.lease = some l) : Carries x (renewLease c l x) := by
  unfold renewLease
  split
  · unfold earlyRenewal
    have told := fun res => (carries_answer c .tooEarly res
      { x with mgmt := { x.mgmt with earlyRenewals := x.mgmt.earlyRenewals + 1 } }).ofUpdate rfl rfl rfl (x := x)
    dsimp only
    split
    · refine (told _).trans (.same rfl rfl ?_)
      simp [answer, produce_mgmt, held]
    · exact (told _).trans (carries_endLease _ _)
  · exact (carries_answer c _ _ _).ofUpdate rfl rfl (by simp [held])

/-- The new holder gets what is Pending in a notice after the MRESP (R165). -/
theorem carries_grantLease (l : Lease) (res : Results) :
    Carries x (testSend (answer c .ok res (setLease (some l) x))) := by
  refine carries_testSend ?_ fun ready => ready.congr (produce_notice _ _ _) fun _ => ?_
  · obtain ⟨_, _, h⟩ := answer_shape c .ok res (setLease (some l) x)
    rw [h]
    rfl
  · simp [answer, produce_mgmt]

theorem carries_doClaim : Carries x (doClaim c x) := by
  unfold doClaim
  split
  · exact carries_grantLease c x _ _
  · split
    · exact carries_renewLease c x ‹_›
    · exact carries_answer c _ _ x

theorem carries_doRenew : Carries x (doRenew c x) := by
  unfold doRenew
  split
  · exact carries_answer c _ _ x
  · exact carries_renewLease c x ‹_›

theorem carries_doRelease : Carries x (doRelease c x) := by
  obtain ⟨_, _, h⟩ := answer_shape c .ok .none (setLease none x)
  rw [doRelease, h]
  exact carries_noticeLeaseEnd rfl rfl

theorem carries_doRqRead : Carries x (doRqRead c x) := by
  unfold doRqRead
  split <;> exact carries_answer c _ _ x

theorem carries_doOrtRead : Carries x (doOrtRead c x) := by
  unfold doOrtRead
  split <;> exact carries_answer c _ _ x

theorem carries_doFlogRead : Carries x (doFlogRead c x) := by
  unfold doFlogRead
  split <;> exact carries_answer c _ _ x

theorem carries_doFlogPop : Carries x (doFlogPop c x) := by
  unfold doFlogPop
  dsimp only
  split_ifs
  · exact carries_answer c _ _ x
  · exact carries_answer c _ _ x
  · refine Carries.trans ?_ (carries_answer c _ _ _)
    exact ⟨fun h => (logLaw_iff _).mpr (logOf_drop ((logLaw_iff x).mp h) _), id⟩

theorem carries_doWtRead : Carries x (doWtRead c x) := by
  unfold doWtRead
  split
  · split
    · exact carries_answer c _ _ x
    · split <;> exact carries_answer c _ _ x
    · split <;> exact carries_answer c _ _ x
  · exact carries_answer c _ _ x

theorem carries_doWtWrite : Carries x (doWtWrite c x) := by
  unfold doWtWrite
  split
  · exact carries_answer c _ _ x
  · split_ifs
    · exact carries_answer c _ _ x
    · exact carries_answer c _ _ x
    · exact (carries_answer c _ _ _).ofUpdate rfl rfl rfl

theorem carries_doWtClear : Carries x (doWtClear c x) := by
  unfold doWtClear
  split
  · exact carries_answer c _ _ x
  · exact (carries_answer c _ _ _).ofUpdate rfl rfl rfl

theorem carries_doCommit : Carries x (doCommit c x) := by
  unfold doCommit
  split
  · exact carries_answer c _ _ x
  · split
    · exact (carries_answer c _ _ (holdCommit x)).ofUpdate rfl rfl rfl
    · exact (carries_swapBanks x).trans (carries_answer c _ _ _)

theorem carries_doCommitCancel : Carries x (doCommitCancel c x) := by
  unfold doCommitCancel
  split
  · exact (carries_cancelHeld x).trans (carries_answer c _ _ _)
  · exact carries_answer c _ _ x

theorem carries_writeState (w : RqWrite) : Carries x (writeState w x) := by
  rw [writeState_eq]
  dsimp only
  split
  · exact (carries_withdraw _ _).ofUpdate rfl rfl rfl
  · exact .same rfl rfl rfl

theorem carries_doRqWrite : Carries x (doRqWrite c x) := by
  unfold doRqWrite
  split
  · exact carries_answer c _ _ x
  · rename_i w _
    have written : Carries x (writeRequester w x) :=
      (carries_writeState x w).trans ((carries_notifyHeadOf _ _).ofUpdate rfl rfl rfl)
    dsimp only
    split_ifs
    · exact carries_answer c _ _ x
    · exact (written.trans (carries_answer c _ _ _)).trans (carries_takeDrainEnd _)
    · exact written.trans (carries_answer c _ _ _)

theorem carries_doReinstate : Carries x (doReinstate c x) := by
  unfold doReinstate
  split
  · exact carries_answer c _ _ x
  · split
    · exact ((carries_notifyHeadOf _ _).trans (carries_answer c _ _ _)).ofUpdate rfl rfl rfl
    · exact carries_answer c _ _ x

/-- What is Pending goes out to the holder in a new notice after the MRESP (R161). -/
theorem carries_acknowledge (res : Results) : Carries x (testSend (answer c .ok res (acknowledge x))) := by
  have idle : SendReady (acknowledge x) := ⟨fun _ => ⟨rfl, rfl⟩, nofun⟩
  obtain ⟨_, _, h⟩ := answer_shape c .ok res (acknowledge x)
  rw [h]
  exact carries_testSend rfl fun _ => idle.congr rfl id

theorem carries_doNoteAck : Carries x (doNoteAck c x) := by
  unfold doNoteAck
  split
  · exact carries_answer c _ _ x
  · split
    · exact carries_acknowledge c x _
    · exact carries_answer c _ _ x

theorem carries_doConfigWrite : Carries x (doConfigWrite c x) := by
  unfold doConfigWrite
  split
  · exact carries_answer c _ _ x
  · dsimp only
    split
    · exact (carries_answer c _ _ _).ofUpdate rfl rfl rfl
    · exact ((carries_answer c _ _ _).trans (carries_lapseThrough .down _)).ofUpdate rfl rfl rfl

theorem carries_doCountersRead : Carries x (doCountersRead c x) := by
  have cleared : ∀ y, Carries y (clearCounters y) := fun _ => .same rfl rfl rfl
  unfold doCountersRead
  dsimp only
  split
  · exact (carries_answer c _ _ x).trans (cleared _)
  · exact carries_answer c _ _ x

end Bodies

/-! ## Resets -/

theorem carries_warmIntake (x : State) : Carries x (warmIntake x) := by
  unfold warmIntake
  dsimp only
  split
  · exact .same rfl rfl rfl
  · exact (carries_produce .up _ _).ofUpdate rfl rfl rfl

theorem carries_warmSlot (i : SlotNum) (x : State) : Carries x (warmSlot i x) := by
  obtain ⟨_, _, _, _, _, _, h⟩ := warmSlot_shape i x
  rw [h]
  exact .same rfl rfl rfl

/-- The notice unit's part of a warm reset stands on the lease's end (R166, R185). -/
theorem carries_warmManagers (x : State) : Carries x (warmNotice (warmManagement x)) where
  log := logLaw_congr rfl
  notice _ := ⟨fun _ => ⟨rfl, rfl, nofun⟩, nofun⟩

theorem carries_warmReset (p : Party) (x : State) : Carries x (warmReset p x) := by
  have begun := (carries_warmIntake x).trans (carries_forSlots carries_warmSlot _)
  have issue : ∀ y, Carries y (warmIssue (cancelTimers y)) := fun _ => .same rfl rfl rfl
  have commit : ∀ y, Carries y (warmCommit y) := fun _ => .same rfl rfl rfl
  have counters : ∀ y, Carries y (zeroResponseCounters (zeroRequesterCounters y)) := fun _ => .same rfl rfl rfl
  have units := ((begun.trans (issue _)).trans (commit _)).trans (counters _)
  exact (units.trans (carries_warmManagers _)).trans (carries_appendFault _ _)

theorem carries_coldReset (x : State) : Carries x (coldReset x) where
  log _ := (logLaw_iff _).mpr ⟨Nat.zero_le _, rfl⟩
  notice _ := ⟨fun _ => ⟨rfl, rfl, nofun⟩, nofun⟩

theorem carries_releaseReset (a : Straps) (x : State) : Carries x (releaseReset a x) := by
  unfold releaseReset
  split
  · exact .same rfl rfl rfl
  · exact .refl x

theorem carries_powerUp (a : Straps) (high : Bool) (x : State) : Carries x (powerUp a high x) := by
  unfold powerUp
  split
  · exact (carries_coldReset x).trans (.same rfl rfl rfl)
  · exact carries_coldReset x

/-! ## Every command, and the step -/

theorem carries_whenRunning {f : State → State} (h : whenRunning f s = .next u) (hf : ∀ x, Carries x (f x)) :
    Carries s u := by
  obtain rfl : (if s.resetHeld then s else f s) = u := Host.Outcome.next.inj h
  split
  · exact .refl s
  · exact hf s

theorem carries_command {k : Command} {body : QueuedCommand → State → State}
    (h : whenRunning (takeCommand k body) s = .next u) (hbody : ∀ c x, Carries x (body c x)) : Carries s u := by
  refine carries_whenRunning h fun x => ?_
  unfold takeCommand
  split
  · exact .refl x
  · rename_i c _ _
    split
    · unfold decideCommand
      split_ifs
      · exact (carries_answer c _ _ _).ofUpdate rfl rfl rfl
      · exact (carries_answer c _ _ _).ofUpdate rfl rfl rfl
      · exact (carries_answer c _ _ _).ofUpdate rfl rfl rfl
      · exact (hbody c _).ofUpdate rfl rfl rfl
    · exact .refl x

theorem carries_timed {e : TimedEvent} (h : whenRunning (takeTimed e) s = .next u) : Carries s u :=
  carries_whenRunning h (carries_takeTimed e)

theorem exec_carries {c : Instr} (h : exec c s = .next u) : Carries s u := by
  cases c with
  | upstreamPacketArrival p => exact carries_whenRunning h (carries_arriveUpstream p)
  | upstreamStrayPacket _ r => exact carries_whenRunning h (carries_strayUpstream r)
  | upstreamCretDiscard _ _ => exact carries_whenRunning (f := fun x => x) h .refl
  | headExamination => exact carries_whenRunning h carries_examineHead
  | mcmdAtHead => exact carries_whenRunning h carries_moveHead
  | grant => exact carries_whenRunning h carries_grantNext
  | responseArrival r => exact carries_whenRunning h (carries_takeResponse r)
  | downstreamCret cls n => exact carries_whenRunning h (carries_takeCret cls n)
  | downstreamStrayPacket _ => exact carries_whenRunning (f := fun x => x) h .refl
  | downstreamMcmdArrival m => exact carries_whenRunning h (carries_arriveDownstream m)
  | deadlineExpiry i => exact carries_timed h
  | reclaimExpiry i => exact carries_timed h
  | drainEnd => exact carries_whenRunning h carries_takeDrainEnd
  | fillStep => exact carries_timed h
  | fillCompletion => exact carries_timed h
  | resendExpiry => exact carries_timed h
  | leaseTimerExpiry => exact carries_timed h
  | identify => exact carries_command h fun c => carries_answer c _ _
  | status => exact carries_command h fun c x => carries_answer c _ _ x
  | claim => exact carries_command h carries_doClaim
  | renew => exact carries_command h carries_doRenew
  | release => exact carries_command h carries_doRelease
  | rqRead => exact carries_command h carries_doRqRead
  | ortRead => exact carries_command h carries_doOrtRead
  | flogRead => exact carries_command h carries_doFlogRead
  | flogPop => exact carries_command h carries_doFlogPop
  | wtRead => exact carries_command h carries_doWtRead
  | wtWrite => exact carries_command h carries_doWtWrite
  | wtClear => exact carries_command h carries_doWtClear
  | commit => exact carries_command h carries_doCommit
  | commitCancel => exact carries_command h carries_doCommitCancel
  | rqWrite => exact carries_command h carries_doRqWrite
  | reinstate => exact carries_command h carries_doReinstate
  | noteAck => exact carries_command h carries_doNoteAck
  | configRead => exact carries_command h fun c x => carries_answer c _ _ x
  | configWrite => exact carries_command h carries_doConfigWrite
  | countersRead => exact carries_command h carries_doCountersRead
  | partReset => exact carries_command h fun c x => (carries_answer c _ _ x).trans (carries_warmReset _ _)
  | peerDetect p =>
    obtain rfl := Host.Outcome.next.inj h
    split
    · exact carries_setPort p _ s
    · exact carries_detectPeer p s
  | initReceived p n => exact carries_whenRunning h (carries_takeInit p n)
  | initWhileUp p => exact carries_whenRunning h (carries_takeInitWhileUp p)
  | trainingTimerExpiry p => exact carries_timed h
  | holdOffExpiry p => exact carries_timed h
  | lossOfSignal p =>
    obtain rfl := Host.Outcome.next.inj h
    split
    · exact carries_setPort p _ s
    · exact (carries_setPort p _ s).trans (carries_dropLink p _)
  | errorBurst p => exact carries_whenRunning h (carries_dropLink p)
  | resetNAssert =>
    obtain rfl := Host.Outcome.next.inj h
    exact carries_coldReset s
  | resetNRelease a =>
    obtain rfl := Host.Outcome.next.inj h
    exact carries_releaseReset a s
  | powerUp a high =>
    obtain rfl := Host.Outcome.next.inj h
    exact carries_powerUp a high s
  | unknownCommand => exact carries_whenRunning h carries_takeUnknown

theorem step_carries (h : step s = .next u) : Carries s u := by
  unfold step at h
  split at h
  · unfold idle at h
    split_ifs at h
    · exact Host.Outcome.next.inj h ▸ .refl s
    · exact Host.Outcome.next.inj h ▸ .same rfl rfl rfl
    · split at h
      · exact exec_carries h
      · exact Host.Outcome.next.inj h ▸ carries_passTime 1 s
  · exact (exec_carries h).ofUpdate rfl rfl rfl

/-- Settles O51: every step carries both laws over. -/
theorem logAndNoticeLawsAreKept : Obligations.LogAndNoticeLawsAreKept :=
  ⟨fun _ _ law h => (step_carries h).log law, fun _ _ law h => (step_carries h).notice law⟩

end Sys2Proof.Proofs
end

