-- ==== Sys2Proof/Proofs/EngineChecks.lean ====
section
/-! PROOFS. The engine's checks before a command is executed (R168 to R171): the authority check, the byte count and the
lease check, each refusal with its MRESP alone, and the heads that a row does not take (log entry 1). -/

namespace Sys2Proof.Proofs

open Sys2Proof.Machine Sys2Proof.Safety Sys2Proof.Claims Sys2Proof.Laws

variable {c : QueuedCommand} {rest : List QueuedCommand} {s t : State} {k : Command} {b : Byte}
  {body : QueuedCommand → State → State}

/-! ## The checks -/

theorem authorised_iff (p : Party) (s : State) : authorised s p = true ↔ mayCommand p s := by
  obtain ⟨_ | _, r⟩ := p <;> exact .rfl

theorem isHolder_iff (p : Party) (s : State) : isHolder s p = true ↔ holds p s := by
  unfold isHolder holds
  cases s.mgmt.lease <;> simp

theorem decideCommand_of_unauthorised (h : ¬ mayCommand c.sender s) :
    decideCommand k body c s = replied c .notPermitted .none s :=
  if_pos (by simpa [← authorised_iff] using h)

theorem decideCommand_of_badCount (may : mayCommand c.sender s) (count : c.payload.length ≠ k.payloadBytes) :
    decideCommand k body c s = replied c .badArg .none s := by
  rw [decideCommand, (authorised_iff _ s).mpr may]
  exact if_pos count

theorem decideCommand_of_noLease (may : mayCommand c.sender s) (count : c.payload.length = k.payloadBytes)
    (bound : k.leaseBound = true) (other : ¬ holds c.sender s) :
    decideCommand k body c s = replied c .noLease .none s := by
  have notHolder : isHolder s c.sender = false := Bool.eq_false_iff.mpr (mt (isHolder_iff _ s).mp other)
  rw [decideCommand, (authorised_iff _ s).mpr may, bound, notHolder]
  exact if_neg (not_not.mpr count)

/-! ## The head and its row -/

theorem takeCommand_of_head (head : headCommand c rest s) (code : c.command = k.code) :
    takeCommand k body s = decideCommand k body c (taken rest s) := by
  rw [takeCommand, head.2]
  exact (if_pos code).trans (congrArg _ (popCommand_eq_taken head.2))

theorem takeCommand_of_other (head : headCommand c rest s) (code : c.command ≠ k.code) :
    takeCommand k body s = s := by
  rw [takeCommand, head.2]
  exact if_neg code

/-- Every command's row takes the head for the command's own execution. -/
theorem exec_taking (k : Command) : ∃ body, ∀ s, exec k.taking s = whenRunning (takeCommand k body) s := by
  cases k <;> exact ⟨_, fun _ => rfl⟩

theorem exec_taking_of_head (head : headCommand c rest s) (code : c.command = k.code)
    (decided : ∀ body, decideCommand k body c (taken rest s) = t) : exec k.taking s = .next t := by
  obtain ⟨body, row⟩ := exec_taking k
  rw [row, whenRunning_of_running _ head.1, takeCommand_of_head head code, decided]

theorem exec_taking_of_other (head : headCommand c rest s) (code : c.command ≠ k.code) :
    exec k.taking s = .next s := by
  obtain ⟨body, row⟩ := exec_taking k
  rw [row, whenRunning_of_running _ head.1, takeCommand_of_other head code]

/-! ## The codes -/

theorem mem_commands (k : Command) : k ∈ Command.all := by cases k <;> decide

theorem ofCode_eq_none_iff (b : Byte) : Command.ofCode b = none ↔ ∀ k : Command, b ≠ k.code := by
  simp only [Command.ofCode, List.find?_eq_none, beq_iff_eq]
  exact ⟨fun h k e => h k (mem_commands k) e.symm, fun h k _ e => h k e.symm⟩

/-- A command's code is its place in Table 10-2, counted from 1 (R193). -/
theorem code_of_place : ∀ i : Fin 21, (Command.all.get i).code.toNat = i.val + 1 := by decide

theorem exists_code_iff (b : Byte) : (∃ k : Command, k.code = b) ↔ 0x01 ≤ b.toNat ∧ b.toNat ≤ 0x15 := by
  constructor
  · rintro ⟨k, rfl⟩
    obtain ⟨i, rfl⟩ := List.mem_iff_get.mp (mem_commands k)
    have place : (Command.all.get i).code.toNat = i.val + 1 := code_of_place i
    have places : i.val < 21 := i.isLt
    omega
  · rintro ⟨least, most⟩
    refine ⟨Command.all.get ⟨b.toNat - 1, show b.toNat - 1 < 21 by omega⟩, BitVec.eq_of_toNat_eq ?_⟩
    exact (code_of_place ⟨b.toNat - 1, _⟩).trans (Nat.sub_add_cancel least)

/-! ## An unknown command -/

theorem takeUnknown_of_unknown (head : headCommand c rest s) (unknown : ∀ k : Command, c.command ≠ k.code) :
    takeUnknown s =
      if !authorised (taken rest s) c.sender then replied c .notPermitted .none (taken rest s)
      else replied c .badArg .none (taken rest s) := by
  rw [takeUnknown, head.2]
  dsimp only
  rw [if_pos ((ofCode_eq_none_iff _).mpr unknown), popCommand_eq_taken head.2]
  rfl

theorem takeUnknown_of_known (head : headCommand c rest s) (known : ∃ k : Command, c.command = k.code) :
    takeUnknown s = s := by
  rw [takeUnknown, head.2]
  exact if_neg fun unnamed => known.elim ((ofCode_eq_none_iff _).mp unnamed)

theorem exec_unknownCommand (head : headCommand c rest s) : exec .unknownCommand s = .next (takeUnknown s) :=
  whenRunning_of_running _ head.1

/-- Settles O36: the rows of the tables one by one, then the checks in the order in which the engine makes them. -/
theorem refusedCommandsChangeNothing : Obligations.RefusedCommandsChangeNothing := by
  refine ⟨⟨mem_commands, by decide⟩, fun c rest s head => ⟨fun k code => ⟨fun refused => ?_, fun may count => ?_,
    fun may count bound other => ?_⟩, fun unknown => ?_, fun k => exec_taking_of_other head, fun known => ?_,
    exists_code_iff⟩⟩
  · exact exec_taking_of_head head code fun _ => decideCommand_of_unauthorised refused
  · exact exec_taking_of_head head code fun _ => decideCommand_of_badCount may count
  · exact exec_taking_of_head head code fun _ => decideCommand_of_noLease may count bound other
  · rw [exec_unknownCommand head, takeUnknown_of_unknown head unknown]
    have authority : authorised (taken rest s) c.sender = true ↔ mayCommand c.sender s := authorised_iff _ _
    exact ⟨fun refused => congrArg _ (if_pos (by simpa using mt authority.mp refused)),
      fun may => congrArg _ (if_neg (by simpa using authority.mpr may))⟩
  · rw [exec_unknownCommand head, takeUnknown_of_known head known]

end Sys2Proof.Proofs
end

