-- ==== Sys2Proof/Proofs/StatusCommand.lean ====
section
/-! PROOFS. STATUS (R180, R132): the snapshot, and the slots of each State counted one by one. -/

namespace Sys2Proof.Proofs

open Sys2Proof.Machine Sys2Proof.Safety Sys2Proof.Claims Sys2Proof.Laws

variable {s : State}

/-! ## The States of the slots -/

theorem isFree_iff (x : Slot) : x.isFree = true ↔ x.occ = .free := beq_iff_eq

theorem isOpen_iff (s : State) (i : SlotNum) : (pick s.ort i).isOpen = true ↔ (openAt s i).isSome = true := by
  rw [Slot.isOpen, openWith_iff, Option.isSome_iff_exists]
  simp

theorem isStale_iff (s : State) (i : SlotNum) : (pick s.ort i).isStale = true ↔ (staleAt s i).isSome = true := by
  cases h : (pick s.ort i).occ <;> simp [Slot.isStale, Slot.isFree, Slot.isOpen, Slot.openWith, staleAt, h]

/-- A slot is in one of the three States. -/
theorem states_of_slot (x : Slot) :
    (if x.isFree then 1 else 0) + (if x.isOpen then 1 else 0) + (if x.isStale then 1 else 0) = 1 := by
  cases h : x.occ <;> simp [Slot.isStale, Slot.isFree, Slot.isOpen, Slot.openWith, h]

theorem countSlots_sum (s : State) :
    countSlots Slot.isFree s + countSlots Slot.isOpen s + countSlots Slot.isStale s = 128 := by
  have sum : ∀ l : List SlotNum,
      (l.countP fun i => (pick s.ort i).isFree) + (l.countP fun i => (pick s.ort i).isOpen)
        + (l.countP fun i => (pick s.ort i).isStale) = l.length := by
    intro l
    induction l with
    | nil => rfl
    | cons i l ih =>
      have one := states_of_slot (pick s.ort i)
      simp only [List.countP_cons, List.length_cons]
      omega
  exact (sum (List.finRange 128)).trans (List.length_finRange)

/-- Settles O37: the snapshot is that of the state whose queue has lost the command. -/
theorem statusAnswersASnapshot : Obligations.StatusAnswersASnapshot := by
  intro c rest s he
  refine ⟨statusView (taken rest s), takeCommand_of_executes doStatus he, rfl, rfl, ?_, ?_, ?_,
    countSlots_sum (taken rest s), rfl, rfl, rfl, rfl, rfl, rfl, rfl, rfl, rfl⟩
  · exact (countSlots_eq_ncard Slot.isFree s).trans (by simp only [isFree_iff])
  · exact (countSlots_eq_ncard Slot.isOpen s).trans (by simp only [isOpen_iff])
  · exact (countSlots_eq_ncard Slot.isStale s).trans (by simp only [isStale_iff])

end Sys2Proof.Proofs
end

