-- ==== Sys2Proof/Proofs/LeaseCommands.lean ====
section
/-! PROOFS. The lease: its end by lapse or revocation (R176, R177, R128), and the commands CLAIM, RENEW and RELEASE
(R173 to R175). -/

namespace Sys2Proof.Proofs

open Sys2Proof.Machine Sys2Proof.Safety Sys2Proof.Claims Sys2Proof.Laws

variable {c : QueuedCommand} {s : State} {l : Lease}

/-! ## The end of a lease -/

/-- The part after the end of lease `l` by lapse or revocation (R176). -/
def leaseEnded (l : Lease) (k : FaultKind) (s : State) : State :=
  appendFault { kind := k, port := l.holder.port, requester := some l.holder.requester }
    { s with
      mgmt := { s.mgmt with lease := none }
      commit := heldCancelled s.commit
      notice := noticeDropped s.notice }

theorem cancelHeld_eq (s : State) : cancelHeld s = { s with commit := heldCancelled s.commit } := by
  unfold cancelHeld heldCancelled
  split <;> rfl

theorem endLease_of_none (k : FaultKind) (h : s.mgmt.lease = none) : endLease k s = s := by
  rw [endLease, h]

theorem endLease_of_some (k : FaultKind) (h : s.mgmt.lease = some l) : endLease k s = leaseEnded l k s := by
  rw [endLease, h]
  dsimp only
  rw [cancelHeld_eq]
  rfl

theorem lapseThrough_of_none (p : PortId) (h : s.mgmt.lease = none) : lapseThrough p s = s := by
  rw [lapseThrough, h]

theorem lapseThrough_of_holder (h : s.mgmt.lease = some l) :
    lapseThrough l.holder.port s = endLease .leaseLapsed s := by
  rw [lapseThrough, h]
  exact if_pos rfl

theorem lapseThrough_of_other {p : PortId} (h : s.mgmt.lease = some l) (other : p ≠ l.holder.port) :
    lapseThrough p s = s := by
  rw [lapseThrough, h]
  exact if_neg other.symm

/-- Settles O29: the lease's timer at 0 is an event that is due, and its event is the end of the lease. -/
theorem leaseTimerExpiryLapsesTheLease : Obligations.LeaseTimerExpiryLapsesTheLease := by
  refine ⟨fun s noLease => ⟨fun k => endLease_of_none k noLease, fun p => lapseThrough_of_none p noLease⟩,
    fun l s held => ⟨fun running expired => ?_, fun k => endLease_of_some k held, ?_,
      fun p other => lapseThrough_of_other held other⟩⟩
  · have due : TimedEvent.lease.left s = some 0 := by simp [TimedEvent.left, held, expired]
    exact (exec_command_of_due running due).trans (congrArg _ (endLease_of_some _ held))
  · exact (lapseThrough_of_holder held).trans (endLease_of_some _ held)

/-! ## RENEW -/

/-- The part after an early renewal's answer (R174). -/
def toldEarly (c : QueuedCommand) (l : Lease) (s : State) : State :=
  replied c .tooEarly (.spacingRemaining (s.mgmt.config.minimumSpacing * 1000 - (s.now - l.lastRenewal)))
    { s with mgmt := { s.mgmt with earlyRenewals := s.mgmt.earlyRenewals + 1 } }

theorem renewLease_of_spaced (spaced : s.mgmt.config.minimumSpacing * 1000 ≤ s.now - l.lastRenewal) :
    renewLease c l s =
      replied c .ok (.leasePeriod s.mgmt.config.leasePeriod) (leased (some (leaseNow l.holder s)) s) := by
  have onTime : ¬ renewEarly l s = true := by
    rw [renewEarly, decide_eq_true_eq]
    exact Nat.not_lt.mpr spaced
  exact if_neg onTime

theorem renewLease_of_early (early : s.now - l.lastRenewal < s.mgmt.config.minimumSpacing * 1000) :
    renewLease c l s =
      if l.earlyCount = 0 then leased (some { l with earlyCount := 1 }) (toldEarly c l s)
      else endLease .leaseRevoked (toldEarly c l s) :=
  if_pos (decide_eq_true early)

theorem doRenew_of_held (held : s.mgmt.lease = some l) : doRenew c s = renewLease c l s := by
  rw [doRenew, held]

/-- Settles O41: on time or early, and early by the Early count. -/
theorem renewRestartsOrRevokes : Obligations.RenewRestartsOrRevokes := by
  intro c rest s l he held
  have ⟨_, _, _, _, bound⟩ := he
  have holder : l.holder = c.sender := Option.some.inj ((congrArg _ held).symm.trans (bound rfl))
  rw [show exec .renew s = .next (doRenew c (taken rest s)) from takeCommand_of_executes doRenew he,
    doRenew_of_held (s := taken rest s) held, ← holder]
  refine ⟨fun spaced => congrArg _ (renewLease_of_spaced spaced), fun early first => ?_, fun early second => ?_⟩
  · exact congrArg _ ((renewLease_of_early (s := taken rest s) early).trans (if_pos first))
  · have counted : ¬ l.earlyCount = 0 := by rw [second]; decide
    exact congrArg _ ((renewLease_of_early (s := taken rest s) early).trans (if_neg counted))

/-! ## CLAIM -/

/-- The part after a grant's answer (R173). -/
def toldGranted (c : QueuedCommand) (s : State) : State :=
  replied c .ok (.leaseGranted c.sender s.mgmt.config.leasePeriod s.mgmt.config.minimumSpacing)
    (leased (some (leaseNow c.sender s)) s)

theorem doClaim_of_none (h : s.mgmt.lease = none) : doClaim c s = testSend (toldGranted c s) := by
  rw [doClaim, h]
  rfl

theorem doClaim_of_holder (held : s.mgmt.lease = some l) (holder : l.holder = c.sender) :
    doClaim c s = renewLease c l s := by
  rw [doClaim, held]
  exact if_pos holder

theorem doClaim_of_other (held : s.mgmt.lease = some l) (other : l.holder ≠ c.sender) :
    doClaim c s = replied c .notPermitted (.leaseHolder l.holder) s := by
  rw [doClaim, held]
  exact if_neg other

theorem toldGranted_notice (c : QueuedCommand) (s : State) : (toldGranted c s).notice = s.notice :=
  produce_notice _ _ _

theorem toldGranted_lease (c : QueuedCommand) (s : State) :
    (toldGranted c s).mgmt.lease = some (leaseNow c.sender s) :=
  congrArg ManagementEngine.lease (produce_mgmt _ _ _)

/-- The holder's CLAIM in the place of its RENEW (R173). -/
theorem executes_renew_of_claim {rest : List QueuedCommand} (he : executes .claim c rest s) (held : holds c.sender s) :
    executes .renew { c with command := 0x08#8 } rest
      { s with mgmt := { s.mgmt with queue := { c with command := 0x08#8 } :: rest } } := by
  obtain ⟨⟨running, _⟩, _, may, count, _⟩ := he
  exact ⟨⟨running, rfl⟩, rfl, may, count, fun _ => held⟩

/-- Settles O40, by the holder of the lease. -/
theorem claimGrantsAFreeLease : Obligations.ClaimGrantsAFreeLease := by
  intro c rest s he
  rw [show exec .claim s = .next (doClaim c (taken rest s)) from takeCommand_of_executes doClaim he]
  refine ⟨fun free => ?_, fun l held => ⟨fun other => congrArg _ (doClaim_of_other (s := taken rest s) held other),
    fun holder => ?_⟩⟩
  · have notice : (toldGranted c (taken rest s)).notice = s.notice := toldGranted_notice _ _
    rw [doClaim_of_none (s := taken rest s) free]
    refine ⟨fun idle pending => congrArg _ (testSend_of_due (toldGranted_lease _ _) (notice ▸ idle) (notice ▸ pending)),
      fun quiet => congrArg _ ?_⟩
    rcases quiet with outstanding | empty
    · exact testSend_of_outstanding (notice ▸ Option.isSome_iff_ne_none.mpr outstanding)
    · exact testSend_of_nothingPending (notice ▸ empty)
  · have holds : holds c.sender s := by simp [held, holder]
    have renew := takeCommand_of_executes doRenew (executes_renew_of_claim he holds)
    rw [doClaim_of_holder (s := taken rest s) held holder]
    refine Eq.trans ?_ renew.symm
    exact congrArg _ (doRenew_of_held (c := { c with command := 0x08#8 }) (s := taken rest s) held).symm

/-! ## RELEASE -/

theorem doRelease_eq (c : QueuedCommand) (s : State) :
    doRelease c s = replied c .ok .none { leased none s with notice := noticeDropped s.notice } := by
  have notice : (replied c .ok .none (leased none s)).notice = s.notice := produce_notice _ _ _
  have dropped : doRelease c s =
      { replied c .ok .none (leased none s) with
        notice := noticeDropped (replied c .ok .none (leased none s)).notice } := rfl
  rw [dropped, notice]
  exact (produce_setNotice _ _ _ _).symm

/-- Settles O42: the answer leaves all but a port as it is. -/
theorem releaseEndsTheLease : Obligations.ReleaseEndsTheLease := by
  intro c rest s he
  have run : exec .release s = .next (doRelease c (taken rest s)) := takeCommand_of_executes doRelease he
  rw [doRelease_eq] at run
  refine ⟨_, run, congrArg ManagementEngine.lease (produce_mgmt _ _ _), ?_, ?_, rfl⟩
  · rw [replied, produce_eq]
    rfl
  · rw [replied, produce_eq]
    rfl

end Sys2Proof.Proofs
end

