-- ==== Sys2Proof/Proofs/ConfigurationCommands.lean ====
section
/-! PROOFS. CONFIG_WRITE with its operands (R182, R194), and COUNTERS_READ (R183). -/

namespace Sys2Proof.Proofs

open Sys2Proof.Machine Sys2Proof.Safety Sys2Proof.Claims Sys2Proof.Laws

variable {c : QueuedCommand} {s : State} {g : GlobalConfig} {b : Byte}

/-! ## The operands of CONFIG_WRITE -/

theorem modeOf_eq (b : Byte) :
    modeOf b = if b.toNat < 2 then some (if b = 0x00#8 then .fixed else .rotate) else none := by
  by_cases zero : b = 0x00#8
  · rw [zero]
    rfl
  · by_cases one : b = 0x01#8
    · rw [one]
      rfl
    · have outside : ¬ b.toNat < 2 := by bv_omega
      simp only [modeOf, zero, one, outside, if_false]

/-- The ranges of the items that 16 or 8 bits bound from above (Table 10-3). -/
theorem inRange_iff (bounded : g.t0 < 2 ^ 16 ∧ g.t1 < 2 ^ 16 ∧ g.t2 < 2 ^ 16 ∧ g.t3 < 2 ^ 16 ∧
      g.reclaimPeriod < 2 ^ 16 ∧ g.resendPeriod < 2 ^ 8) :
    g.inRange = true ↔
      1 ≤ g.t0 ∧ 1 ≤ g.t1 ∧ 1 ≤ g.t2 ∧ 1 ≤ g.t3 ∧ 1 ≤ g.reclaimPeriod ∧ 10 ≤ g.leasePeriod ∧
        g.leasePeriod ≤ 10000 ∧ g.minimumSpacing * 2 ≤ g.leasePeriod ∧ 1 ≤ g.resendPeriod := by
  simp only [GlobalConfig.inRange, List.all_cons, List.all_nil, Bool.and_true, Bool.and_eq_true, decide_eq_true_eq]
  omega

/-- The operands of CONFIG_WRITE in the bytes of its payload, each by its own range (R194). -/
theorem configWriteOf_wire (t0 t1 t2 t3 rp lp sp : BitVec 16) (rs cm am dm : Byte) :
    configWriteOf (wire 2 t0 ++ wire 2 t1 ++ wire 2 t2 ++ wire 2 t3 ++ wire 2 rp ++ wire 2 lp ++ wire 2 sp
        ++ [rs, cm, am, dm]) =
      if 1 ≤ t0.toNat ∧ 1 ≤ t1.toNat ∧ 1 ≤ t2.toNat ∧ 1 ≤ t3.toNat ∧ 1 ≤ rp.toNat ∧ 10 ≤ lp.toNat ∧
          lp.toNat ≤ 10000 ∧ sp.toNat * 2 ≤ lp.toNat ∧ 1 ≤ rs.toNat ∧ am.toNat < 2 then
        some
          { t0 := t0.toNat, t1 := t1.toNat, t2 := t2.toNat, t3 := t3.toNat, reclaimPeriod := rp.toNat
            leasePeriod := lp.toNat, minimumSpacing := sp.toNat, resendPeriod := rs.toNat
            classMask := cm.extractLsb' 0 6, arbiterMode := if am = 0x00#8 then .fixed else .rotate
            downstreamManagement := dm != 0#8 }
      else none := by
  generalize hp : wire 2 t0 ++ wire 2 t1 ++ wire 2 t2 ++ wire 2 t3 ++ wire 2 rp ++ wire 2 lp ++ wire 2 sp
    ++ [rs, cm, am, dm] = p
  have two : ∀ x : BitVec 16, beNat (wire 2 x) = x.toNat := fun x => beNat_wire 2 x (by decide)
  have ht0 : field p 0 2 = t0.toNat := by subst hp; exact two t0
  have ht1 : field p 2 2 = t1.toNat := by subst hp; exact two t1
  have ht2 : field p 4 2 = t2.toNat := by subst hp; exact two t2
  have ht3 : field p 6 2 = t3.toNat := by subst hp; exact two t3
  have hrp : field p 8 2 = rp.toNat := by subst hp; exact two rp
  have hlp : field p 10 2 = lp.toNat := by subst hp; exact two lp
  have hsp : field p 12 2 = sp.toNat := by subst hp; exact two sp
  have hrs : field p 14 1 = rs.toNat := by subst hp; exact show beNat [rs] = rs.toNat by simp [beNat]
  have hbytes : byteAt p 15 = cm ∧ byteAt p 16 = am ∧ byteAt p 17 = dm := by subst hp; exact ⟨rfl, rfl, rfl⟩
  obtain ⟨hcm, ham, hdm⟩ := hbytes
  have hmask : maskOf cm = cm.extractLsb' 0 6 := BitVec.setWidth_eq_extractLsb' (by decide)
  simp only [configWriteOf, ht0, ht1, ht2, ht3, hrp, hlp, hsp, hrs, hcm, ham, hdm, modeOf_eq, hmask, yesNo]
  by_cases mode : am.toNat < 2
  · have bounds := inRange_iff (g := ⟨t0.toNat, t1.toNat, t2.toNat, t3.toNat, rp.toNat, lp.toNat, sp.toNat, rs.toNat,
      cm.extractLsb' 0 6, if am = 0x00#8 then .fixed else .rotate, dm != 0#8⟩)
      ⟨t0.isLt, t1.isLt, t2.isLt, t3.isLt, rp.isLt, rs.isLt⟩
    simp [mode, bounds]
  · simp [mode]

/-! ## CONFIG_WRITE -/

/-- The part after the answer of a CONFIG_WRITE that replaces the configuration (R182). -/
def configReplaced (c : QueuedCommand) (g : GlobalConfig) (s : State) : State :=
  replied c .ok (.config g) { s with mgmt := { s.mgmt with config := g } }

theorem spacing_of_inRange (h : g.inRange = true) : g.minimumSpacing * 2 ≤ g.leasePeriod := by
  simp only [GlobalConfig.inRange, Bool.and_eq_true, decide_eq_true_eq] at h
  obtain ⟨⟨⟨_, spacing⟩, _⟩, _⟩ := h
  exact spacing

theorem doConfigWrite_of_outside (h : configWriteOf c.payload = none) :
    doConfigWrite c s = replied c .badArg .none s := by
  rw [doConfigWrite, h]
  rfl

theorem doConfigWrite_of_allowed (h : configWriteOf c.payload = some g) (allowed : g.downstreamManagement = true) :
    doConfigWrite c s = configReplaced c g s := by
  rw [doConfigWrite, h]
  exact if_pos allowed

theorem doConfigWrite_of_denied (h : configWriteOf c.payload = some g) (denied : g.downstreamManagement = false) :
    doConfigWrite c s = lapseThrough .down (configReplaced c g s) := by
  rw [doConfigWrite, h]
  exact if_neg (Bool.not_eq_true _ ▸ denied)

theorem configReplaced_lease (c : QueuedCommand) (g : GlobalConfig) (s : State) :
    (configReplaced c g s).mgmt.lease = s.mgmt.lease := by
  rw [configReplaced, replied, produce_mgmt]

/-! ## COUNTERS_READ -/

/-- Every counter, the requesters' by their numbers (R183). -/
theorem countersView_eq (s : State) :
    countersView s =
      { requesters := (List.finRange 32).map fun r => ((pick s.requesters r).accepted, (pick s.requesters r).refused)
        unmatched := s.responses.unmatched, excessCredits := s.responses.excessCredits
        postedDiscards := s.mgmt.postedDiscards, earlyRenewals := s.mgmt.earlyRenewals } := by
  have byNumber : s.requesters.toList = (List.finRange 32).map (pick s.requesters) := by
    apply List.ext_getElem <;> simp [pick, Vector.get_eq_getElem]
  rw [countersView, byNumber, List.map_map]
  rfl

theorem pick_zeroRequesterCounters (s : State) (r : ReqNum) :
    pick (zeroRequesterCounters s).requesters r = { pick s.requesters r with accepted := 0#32, refused := 0#32 } := by
  simp [zeroRequesterCounters, pick, Vector.get_eq_getElem]

theorem doCountersRead_of_no (h : c.payload = [b]) (no : b = 0#8) :
    doCountersRead c s = replied c .ok (.counters (countersView s)) s := by
  have byte : byteAt c.payload 0 = b := by rw [h]; rfl
  rw [doCountersRead, byte, no]
  rfl

theorem doCountersRead_of_yes (h : c.payload = [b]) (yes : b ≠ 0#8) :
    doCountersRead c s = clearCounters (replied c .ok (.counters (countersView s)) s) := by
  have byte : byteAt c.payload 0 = b := by rw [h]; rfl
  rw [doCountersRead, byte]
  exact if_pos (bne_iff_ne.mpr yes)

/-- The holder that the lease check has found. -/
theorem lease_of_holds {p : Party} (h : holds p s) : ∃ l, s.mgmt.lease = some l ∧ l.holder = p :=
  Option.map_eq_some_iff.mp h

/-- Settles O49: the operands of CONFIG_WRITE, then the two commands; only a lease held downstream lapses. -/
theorem configIsReplacedAndCountersAreRead : Obligations.ConfigIsReplacedAndCountersAreRead := by
  refine ⟨configWriteOf_wire, fun c rest s he => ?_, fun c rest s b he hb => ?_⟩
  · have ⟨_, _, _, _, bound⟩ := he
    obtain ⟨l, held, holder⟩ := lease_of_holds (bound rfl)
    rw [show exec .configWrite s = .next (doConfigWrite c (taken rest s)) from takeCommand_of_executes doConfigWrite he,
      ← holder]
    refine ⟨fun outside => congrArg _ (doConfigWrite_of_outside outside), fun g hg =>
      ⟨spacing_of_inRange (inRange_of_configWriteOf hg), ?_⟩⟩
    have stillHeld : (configReplaced c g (taken rest s)).mgmt.lease = some l := (configReplaced_lease _ _ _).trans held
    refine ⟨fun stays => congrArg _ ?_, fun denied downstream => congrArg _ ?_⟩
    · cases allowed : g.downstreamManagement with
      | true => exact doConfigWrite_of_allowed hg allowed
      | false =>
        have upstream : l.holder.port = .up := stays.resolve_left (by simp [allowed])
        rw [doConfigWrite_of_denied hg allowed, lapseThrough_of_other stillHeld (by rw [upstream]; decide)]
        rfl
    · rw [doConfigWrite_of_denied hg denied, ← downstream, lapseThrough_of_holder stillHeld]
      rfl
  · rw [show exec .countersRead s = .next (doCountersRead c (taken rest s)) from
      takeCommand_of_executes doCountersRead he]
    have view := countersView_eq (taken rest s)
    refine ⟨fun no => ?_, fun yes => ⟨_, congrArg _ (doCountersRead_of_yes hb yes), fun r => ?_, ?_⟩⟩
    · rw [doCountersRead_of_no hb no, view]
      rfl
    · rw [replied, produce_eq]
      exact pick_zeroRequesterCounters _ r
    · rw [view]
      rfl

end Sys2Proof.Proofs
end

