-- ==== Sys2Proof/Proofs/WarmReset.lean ====
section
/-! PROOFS. The warm reset by PART_RESET (R184 to R186): intake's credits, the slots' answers one by one, and each
block's own part (R42, R61, R78, R97, R112, R129, R147, R156, R166). -/

namespace Sys2Proof.Proofs

open Sys2Proof.Machine Sys2Proof.Safety Sys2Proof.Claims Sys2Proof.Laws

variable {s : State}

/-! ## Answers to the upstream port -/

theorem answersTo_nil (x : Port) : answersTo x [] = x := by
  simp [answersTo]

theorem answersTo_append (x : Port) (ks ls : List OutPacket) :
    answersTo (answersTo x ks) ls = answersTo x (ks ++ ls) := by
  unfold answersTo
  by_cases up : x.link = .up <;> simp [up]

theorem produce_up_eq (k : OutPacket) (s : State) : produce .up k s = { s with up := answersTo s.up [k] } := by
  unfold answersTo
  split_ifs with up
  · exact produce_of_up k up
  · exact produce_of_notUp k up

/-! ## The slots -/

/-- The answer to an OPEN slot's request (R61). -/
def abortedAnswer (t : Tracked) : OutPacket := .errsp t.requester t.tag .aborted

/-- A slot after a warm reset (R61). -/
def slotWarmed (x : Slot) : Slot := if x.occ = .free then x else slotFreed x

/-- One slot's part of a warm reset with no head stalled; every timer is stopped afterwards. -/
theorem warmSlot_eq (i : SlotNum) (unstalled : s.intake.stall = .none) :
    ∃ timers, warmSlot i s =
      { s with
        up := answersTo s.up ((openAt s i).toList.map abortedAnswer)
        ort := put s.ort i (slotWarmed (pick s.ort i))
        timers := timers } := by
  have quiet : headNotified s.intake = s.intake := if_pos unstalled
  cases occ : (pick s.ort i).occ with
  | free => exact ⟨s.timers, by simp [warmSlot, occ, openAt, Occupancy.openRecord, answersTo_nil, slotWarmed]⟩
  | stale t =>
    refine ⟨put s.timers i .none, ?_⟩
    simp [warmSlot, occ, openAt, Occupancy.openRecord, answersTo_nil, slotWarmed, freeSlot_eq, quiet]
  | opened t =>
    refine ⟨put s.timers i .none, ?_⟩
    simp [warmSlot, occ, openAt, Occupancy.openRecord, slotWarmed, freeSlot_eq, quiet, produce_up_eq, abortedAnswer]

/-- The slots' part of a warm reset, one slot after the other. -/
theorem foldl_warmSlot (l : List SlotNum) (each : l.Nodup) (unstalled : s.intake.stall = .none) :
    ∃ timers, l.foldl (fun x i => warmSlot i x) s =
      { s with
        up := answersTo s.up ((l.filterMap (openAt s)).map abortedAnswer)
        ort := mapAll (fun i x => if i ∈ l then slotWarmed x else x) s.ort
        timers := timers } := by
  induction l generalizing s with
  | nil =>
    refine ⟨s.timers, ?_⟩
    have ort : mapAll (fun i x => if i ∈ [] then slotWarmed x else x) s.ort = s.ort := pick_ext fun j => by simp
    simp only [List.filterMap_nil, List.map_nil, List.foldl_nil, answersTo_nil, ort]
  | cons i l ih =>
    obtain ⟨notIn, each⟩ := List.nodup_cons.mp each
    obtain ⟨_, first⟩ := warmSlot_eq i unstalled
    have others : l.filterMap (openAt (warmSlot i s)) = l.filterMap (openAt s) := by
      refine List.filterMap_congr fun j hj => ?_
      have other : j ≠ i := fun same => notIn (same ▸ hj)
      simp [openAt, first, pick_put_other _ _ other]
    have ort : mapAll (fun j x => if j ∈ l then slotWarmed x else x) (warmSlot i s).ort =
        mapAll (fun j x => if j ∈ i :: l then slotWarmed x else x) s.ort := by
      refine pick_ext fun j => ?_
      by_cases same : j = i
      · subst same
        simp [first, notIn]
      · simp [first, same, pick_put_other _ _ same]
    obtain ⟨timers, later⟩ := ih each (s := warmSlot i s) (by rw [first]; exact unstalled)
    refine ⟨timers, later.trans ?_⟩
    have records : (openAt s i).toList ++ l.filterMap (openAt s) = (i :: l).filterMap (openAt s) := by
      rw [List.filterMap_cons]
      cases openAt s i <;> rfl
    rw [others, ort, first]
    simp only [answersTo_append, ← List.map_append, records]

theorem cancelTimers_forSlots_warmSlot (unstalled : s.intake.stall = .none) :
    cancelTimers (forSlots warmSlot s) =
      { s with
        up := answersTo s.up ((openRecords s).map abortedAnswer)
        ort := mapAll (fun _ => slotWarmed) s.ort
        timers := Vector.replicate 128 .none } := by
  obtain ⟨_, slots⟩ := foldl_warmSlot (List.finRange 128) (List.nodup_finRange 128) unstalled
  rw [forSlots, slots]
  simp only [List.mem_finRange, if_true]
  rfl

/-! ## The blocks -/

/-- The credits of the packets that intake discards, returned at once (R42, R191). -/
def intakeCredits (s : State) : List OutPacket :=
  if s.intake.queue = [] then [] else [.cret s.intake.queue.length]

theorem warmIntake_eq (s : State) :
    warmIntake s = { s with up := answersTo s.up (intakeCredits s), intake := coldIntake } := by
  unfold warmIntake intakeCredits
  dsimp only
  by_cases empty : s.intake.queue = []
  · rw [if_pos (by rw [empty]; rfl), if_pos empty, answersTo_nil]
  · rw [if_neg (mt List.length_eq_zero_iff.mp empty), if_neg empty, produce_up_eq]

/-- The commit unit's record after a warm reset (R129). -/
def commitWarmed (c : CommitUnit) : CommitUnit :=
  { c with
    heldCommit := false
    condition := if c.condition = .filling then .filling else .writable
    fillProgress := if c.condition = .filling then 0 else c.fillProgress
    fillStepDue := false
    liveOpen := 0
    drainingOpen := 0
    drainingBank := none
    freeBank := c.freeBank <|> c.drainingBank }

theorem warm_eq (c : CommitUnit) : c.warm = commitWarmed c := by
  cases h : c.condition <;> simp [CommitUnit.warm, commitWarmed, h]

/-- A pool after a warm reset (R78). -/
def poolWarmed (isUp : Prop) [Decidable isUp] (p : CreditPool) : CreditPool :=
  { p with available := if isUp then p.maximum else 0 }

theorem refill_eq (isUp : Prop) [Decidable isUp] (p : CreditPool) : p.refill (decide isUp) = poolWarmed isUp p := by
  simp [CreditPool.refill, poolWarmed]

/-- The part after a warm reset, before its record (R184). -/
def warmed (s : State) : State :=
  { s with
    up := answersTo s.up (intakeCredits s ++ (openRecords s).map abortedAnswer)
    intake := coldIntake
    ort := mapAll (fun _ => slotWarmed) s.ort
    requesters := (zeroRequesterCounters s).requesters
    timers := Vector.replicate 128 .none
    issue := { s.issue with
      fifos := Vector.replicate 32 []
      requestPool := poolWarmed (s.down.link = .up) s.issue.requestPool
      postedPool := poolWarmed (s.down.link = .up) s.issue.postedPool }
    responses := ⟨0#32, 0#32⟩
    commit := commitWarmed s.commit
    mgmt := ⟨[], none, s.mgmt.config, 0#32, 0#32⟩
    notice := ⟨0#6, 0#6, none, s.notice.nextNumber, none⟩ }

theorem warmReset_eq (p : Party) (s : State) :
    warmReset p s = appendFault { kind := .warmReset, port := p.port, requester := some p.requester } (warmed s) := by
  have slots := cancelTimers_forSlots_warmSlot (s := warmIntake s) (by rw [warmIntake_eq]; rfl)
  rw [warmIntake_eq] at slots
  unfold warmReset
  dsimp only
  rw [warmIntake_eq, slots]
  simp only [answersTo_append, warmIssue, refill_eq, warmCommit, warm_eq]
  rfl

/-- Settles O50: the MRESP changes no block but a port, and the warm reset does its part in each. -/
theorem partResetAppliesTheWarmReset : Obligations.PartResetAppliesTheWarmReset := by
  intro c rest s he r credits answers refill
  have run : exec .partReset s = .next (warmReset c.sender r) := takeCommand_of_executes doPartReset he
  obtain ⟨_, _, told⟩ := answer_shape c .ok .none (taken rest s)
  have same : r = _ := told
  refine ⟨warmed r, run.trans (congrArg _ (warmReset_eq _ _)), fun i => ?_, fun k => ?_, ?_⟩
  · rw [same]
    exact pick_mapAll _ _ i
  · rw [same]
    exact pick_zeroRequesterCounters _ k
  · rw [same]
    rfl

end Sys2Proof.Proofs
end

