-- ==== Sys2Proof/Proofs/PortLaws.lean ====
section
/-! PROOFS. The laws of the ports' timers, of intake's head and of what stands on a port (R25, R34, R40, R172, R177,
R187, R189), with what every command keeps of the queue of commands, the packets sent and the timebase; and the
operations that leave the links, intake's head, the waiting commands and the lease's holder as they are. -/

namespace Sys2Proof.Proofs

open Sys2Proof.Machine Sys2Proof.Safety Sys2Proof.Claims Sys2Proof.Laws

variable {x y u : State} {k l : Port} {p : PortId}

/-! ## What an event keeps -/

/-- The laws hold after if they held before; the commands that wait stay, and so do the packets sent. -/
structure Maintains (x u : State) : Prop where
  links : ∀ p, LinkLaw (x.port p) → LinkLaw (u.port p)
  head : HeadLaw x → HeadLaw u
  ports : PortLaw x → PortLaw u
  pending : u.pending = x.pending
  sent : ∀ p, (x.port p).sent <+: (u.port p).sent

/-- Beside that no time passes. -/
structure Prompt (x u : State) : Prop extends Maintains x u where
  clock : u.now = x.now

/-- Beside that no packet is sent. -/
structure Silent (x u : State) : Prop extends Prompt x u where
  packets : ∀ p, (u.port p).sent = (x.port p).sent

theorem Maintains.trans (h : Maintains x y) (h' : Maintains y u) : Maintains x u where
  links p := h'.links p ∘ h.links p
  head := h'.head ∘ h.head
  ports := h'.ports ∘ h.ports
  pending := h'.pending.trans h.pending
  sent p := (h.sent p).trans (h'.sent p)

theorem Prompt.trans (h : Prompt x y) (h' : Prompt y u) : Prompt x u :=
  ⟨h.toMaintains.trans h'.toMaintains, h'.clock.trans h.clock⟩

theorem Silent.trans (h : Silent x y) (h' : Silent y u) : Silent x u :=
  ⟨h.toPrompt.trans h'.toPrompt, fun p => (h'.packets p).trans (h.packets p)⟩

theorem Silent.refl (x : State) : Silent x x :=
  ⟨⟨⟨fun _ => id, id, id, rfl, fun _ => ⟨[], List.append_nil _⟩⟩, rfl⟩, fun _ => rfl⟩

/-! ## What keeps the laws -/

/-- The same link, the timers running as before, and nothing to send where nothing was at a port that is not UP. -/
structure PortLasts (k l : Port) : Prop where
  link : l.link = k.link
  training : l.trainingTimer.isSome = k.trainingTimer.isSome
  holdOff : l.holdOffTimer.isSome = k.holdOffTimer.isSome
  tx : k.link ≠ .up → k.tx = [] → l.tx = []

/-- Intake with the same packets and the same stall, and its examination due if it was. -/
structure HeadStays (h k : Intake) : Prop where
  queue : k.queue = h.queue
  stall : k.stall = h.stall
  exhaust : k.exhaustRaised = h.exhaustRaised
  due : h.examDue = true → k.examDue = true

/-- The parts that the laws read: the links, intake's head, the commands that wait and the lease's holder. None of the
last two is new. -/
structure Lasts (x u : State) : Prop where
  port : ∀ p, PortLasts (x.port p) (u.port p)
  intake : HeadStays x.intake u.intake
  commands : ∀ c ∈ u.mgmt.queue, c ∈ x.mgmt.queue
  lease : ∀ l ∈ u.mgmt.lease, ∃ l' ∈ x.mgmt.lease, l'.holder = l.holder

theorem HeadStays.refl (h : Intake) : HeadStays h h := ⟨rfl, rfl, rfl, id⟩

theorem HeadStays.trans {h i j : Intake} (a : HeadStays h i) (b : HeadStays i j) : HeadStays h j :=
  ⟨b.queue.trans a.queue, b.stall.trans a.stall, b.exhaust.trans a.exhaust, b.due ∘ a.due⟩

theorem PortLasts.linkLaw (h : PortLasts k l) : LinkLaw k → LinkLaw l := by
  rw [LinkLaw, LinkLaw, h.link, h.training, h.holdOff]
  exact id

theorem headLaw_of_stays (h : HeadStays x.intake u.intake) : HeadLaw x → HeadLaw u := by
  rintro ⟨due, own, exhaust⟩
  simp only [HeadLaw, headRequester, h.queue, h.stall, h.exhaust]
  exact ⟨fun waits => (due waits).imp h.due id, own, exhaust⟩

theorem Lasts.portLaw (h : Lasts x u) : PortLaw x → PortLaw u := by
  rintro ⟨up, down, queue, commands, lease⟩
  have link : ∀ p, (u.port p).link = (x.port p).link := fun p => (h.port p).link
  have upLink : u.up.link = x.up.link := link .up
  refine ⟨fun notUp => ?_, fun notUp => ?_, fun waits => ?_, fun c hc => ?_, fun l hl => ?_⟩
  · rw [upLink] at notUp
    exact (h.port .up).tx notUp (up notUp)
  · rw [show u.down.link = x.down.link from link .down] at notUp
    exact (h.port .down).tx notUp (down notUp)
  · rw [h.intake.queue] at waits
    exact upLink.trans (queue waits)
  · exact (link _).trans (commands c (h.commands c hc))
  · obtain ⟨l', held, holder⟩ := h.lease l hl
    exact (link _).trans (holder ▸ lease l' held)

theorem Lasts.maintains (h : Lasts x u) (pending : u.pending = x.pending)
    (sent : ∀ p, (x.port p).sent <+: (u.port p).sent) : Maintains x u :=
  ⟨fun p => (h.port p).linkLaw, headLaw_of_stays h.intake, h.portLaw, pending, sent⟩

/-! ## What stays -/

/-- A port that may be handed packets, if it is UP. -/
structure PortStays (k l : Port) : Prop where
  same : l = { k with tx := l.tx }
  closed : k.link ≠ .up → l = k

theorem PortStays.refl (k : Port) : PortStays k k := ⟨rfl, fun _ => rfl⟩

theorem PortStays.trans {m : Port} (h : PortStays k l) (h' : PortStays l m) : PortStays k m where
  same := by
    rw [h'.same, h.same]
  closed notUp := by
    have same := h.closed notUp
    exact (h'.closed (same ▸ notUp)).trans same

theorem PortStays.lasts (h : PortStays k l) : PortLasts k l where
  link := by rw [h.same]
  training := by rw [h.same]
  holdOff := by rw [h.same]
  tx notUp empty := by rw [h.closed notUp, empty]

theorem PortStays.sent (h : PortStays k l) : l.sent = k.sent := by rw [h.same]

/-- The links, their timers and signals, intake's head, the waiting commands, the lease's holder, the timebase and the
packets sent stay; packets go to a port that is UP alone. -/
structure Stays (x u : State) : Prop where
  port : ∀ p, PortStays (x.port p) (u.port p)
  intake : HeadStays x.intake u.intake
  commands : ∀ c ∈ u.mgmt.queue, c ∈ x.mgmt.queue
  lease : ∀ l ∈ u.mgmt.lease, ∃ l' ∈ x.mgmt.lease, l'.holder = l.holder
  pending : u.pending = x.pending
  now : u.now = x.now

theorem Stays.lasts (h : Stays x u) : Lasts x u := ⟨fun p => (h.port p).lasts, h.intake, h.commands, h.lease⟩

theorem Stays.silent (h : Stays x u) : Silent x u :=
  ⟨⟨h.lasts.maintains h.pending fun p => (h.port p).sent ▸ ⟨[], List.append_nil _⟩, h.now⟩, fun p => (h.port p).sent⟩

theorem Stays.trans (h : Stays x y) (h' : Stays y u) : Stays x u where
  port p := (h.port p).trans (h'.port p)
  intake := h.intake.trans h'.intake
  commands c hc := h.commands c (h'.commands c hc)
  lease l hl := by
    obtain ⟨l', hl', same'⟩ := h'.lease l hl
    obtain ⟨l'', hl'', same''⟩ := h.lease l' hl'
    exact ⟨l'', hl'', same''.trans same'⟩
  pending := h'.pending.trans h.pending
  now := h'.now.trans h.now

/-- The ports, intake, the waiting commands and the timebase. -/
def outerParts (x : State) : Port × Port × Intake × List Instr × Nat := (x.up, x.down, x.intake, x.pending, x.now)

/-- Beside them the management queue and the lease: all that is to stay. -/
def keptParts (x : State) : (Port × Port × Intake × List Instr × Nat) × List QueuedCommand × Option Lease :=
  (outerParts x, x.mgmt.queue, x.mgmt.lease)

/-- An update that brings no command and no holder. -/
theorem Stays.dropped (outer : outerParts u = outerParts x) (commands : ∀ c ∈ u.mgmt.queue, c ∈ x.mgmt.queue)
    (lease : ∀ l ∈ u.mgmt.lease, ∃ l' ∈ x.mgmt.lease, l'.holder = l.holder) : Stays x u := by
  simp only [outerParts, Prod.mk.injEq] at outer
  obtain ⟨up, down, intake, pending, now⟩ := outer
  refine ⟨fun p => ?_, intake ▸ .refl _, commands, lease, pending, now⟩
  cases p with
  | up =>
    rw [port_up, port_up, up]
    exact .refl _
  | down =>
    rw [port_down, port_down, down]
    exact .refl _

/-- An update of other fields. -/
theorem Stays.same (kept : keptParts u = keptParts x) : Stays x u := by
  simp only [keptParts, Prod.mk.injEq] at kept
  obtain ⟨outer, queue, lease⟩ := kept
  refine .dropped outer (fun _ => ?_) fun l hl => ⟨l, ?_, rfl⟩
  · rw [queue]
    exact id
  · rwa [← lease]

/-- An update of intake by what it is told, and of other fields. -/
theorem Stays.told {k : Intake} (h : HeadStays x.intake k) (kept : keptParts u = keptParts { x with intake := k }) :
    Stays x u :=
  have told : Stays x { x with intake := k } := ⟨fun _ => .refl _, h, fun _ => id, fun l hl => ⟨l, hl, rfl⟩, rfl, rfl⟩
  told.trans (.same kept)

theorem Stays.refl (x : State) : Stays x x := .same rfl

/-- An operation after an update of other fields. -/
theorem Stays.ofUpdate (h : Stays y u) (kept : keptParts y = keptParts x) : Stays x u := Stays.trans (.same kept) h

/-! ## Packets, notices and records -/

theorem stays_produce (p : PortId) (k : OutPacket) (x : State) : Stays x (produce p k x) := by
  by_cases up : (x.port p).link = .up
  · have port : ∀ q, PortStays (x.port q) ((produce p k x).port q) := by
      intro q
      rw [produce_of_up k up]
      by_cases own : q = p
      · subst own
        rw [port_setPort_same]
        exact ⟨rfl, fun notUp => absurd up notUp⟩
      · rw [port_setPort_other x _ own]
        exact .refl _
    rw [produce_eq] at port ⊢
    exact ⟨port, .refl _, fun _ => id, fun l hl => ⟨l, hl, rfl⟩, rfl, rfl⟩
  · rw [produce_of_notUp k up]
    exact .refl x

theorem stays_answer (c : QueuedCommand) (st : Status) (res : Results) (x : State) : Stays x (answer c st res x) :=
  stays_produce _ _ x

theorem stays_testSend (x : State) : Stays x (testSend x) := by
  unfold testSend
  split
  · exact .refl x
  · split
    · exact (stays_produce _ (notePacket _ x.notice.nextNumber x.notice.pending x) x).trans (.same rfl)
    · exact .refl x

theorem stays_raiseClass (c : EventClass) (x : State) : Stays x (raiseClass c x) := by
  unfold raiseClass
  split
  · exact (stays_testSend _).ofUpdate rfl
  · exact .refl x

theorem stays_appendFault (r : FaultReport) (x : State) : Stays x (appendFault r x) := by
  have kept : Stays x (raiseClass .fault (keepRecord r x)) := (stays_raiseClass .fault _).ofUpdate rfl
  unfold appendFault
  split
  · dsimp only
    split
    · exact kept.trans (stays_raiseClass .logFull _)
    · exact kept
  · exact .same rfl

theorem stays_linkChanged (p : PortId) (x : State) : Stays x (linkChanged p x) :=
  (stays_appendFault _ x).trans (stays_raiseClass .link _)

theorem stays_creditExcess (n : Nat) (w : Option WinIndex) (g : Option Generation) (x : State) :
    Stays x (creditExcess n w g x) := by
  unfold creditExcess
  split
  · exact .refl x
  · exact (stays_appendFault _ _).ofUpdate rfl

theorem stays_returnRequest (n : Nat) (w : Option WinIndex) (g : Option Generation) (x : State) :
    Stays x (returnRequest n w g x) :=
  (stays_creditExcess _ w g _).ofUpdate rfl

theorem stays_takeCret (cls : PoolClass) (n : BitVec 16) (x : State) : Stays x (takeCret cls n x) := by
  unfold takeCret
  split
  · cases cls with
    | request => exact stays_returnRequest _ _ _ x
    | posted => exact (stays_creditExcess _ _ _ _).ofUpdate rfl
  · exact .refl x

/-! ## What intake is told -/

theorem headStays_headNotified (k : Intake) : HeadStays k (headNotified k) := by
  unfold headNotified
  split
  · exact .refl k
  · exact ⟨rfl, rfl, rfl, fun _ => rfl⟩

theorem headStays_spaceFreed (r : ReqNum) (k : Intake) : HeadStays k (spaceFreed r k) := by
  unfold spaceFreed
  split
  · exact ⟨rfl, rfl, rfl, fun _ => rfl⟩
  · exact .refl k

theorem headStays_flagged (b : Bool) (k : Intake) : HeadStays k { k with linkDownLogged := b } := ⟨rfl, rfl, rfl, id⟩

theorem stays_notifyHead (x : State) : Stays x (notifyHead x) := by
  rw [notifyHead_eq]
  exact .told (headStays_headNotified _) rfl

theorem stays_notifyHeadOf (r : ReqNum) (x : State) : Stays x (notifyHeadOf r x) := by
  rw [notifyHeadOf_eq]
  exact .told (headStays_spaceFreed r _) rfl

theorem stays_linkNotice (p : PortId) (x : State) : Stays x (linkNotice p x) := by
  cases p with
  | up => exact .refl x
  | down => exact stays_notifyHead x

/-! ## Slots and FIFOs -/

theorem stays_freeSlot (i : SlotNum) (x : State) : Stays x (freeSlot i x) := by
  rw [freeSlot_eq]
  exact .told (headStays_headNotified _) rfl

theorem stays_slotClosed (i : SlotNum) (g : Generation) (x : State) : Stays x (slotClosed i g x) :=
  .told (headStays_headNotified _) rfl

theorem stays_closeSlot (i : SlotNum) (t : Tracked) (x : State) : Stays x (closeSlot i t x) := by
  cases h : closingPacket t with
  | none =>
    rw [closeSlot_of_none h]
    exact stays_slotClosed i _ x
  | some k =>
    rw [closeSlot_of_some h]
    exact (stays_produce .up k x).trans (stays_slotClosed i _ _)

theorem stays_settleOpen (i : SlotNum) (t : Tracked) (x : State) : Stays x (settleOpen i t x) := by
  unfold settleOpen
  split
  · exact stays_closeSlot i t x
  · exact .same rfl

theorem stays_forSlots {f : SlotNum → State → State} (h : ∀ i x, Stays x (f i x)) (x : State) :
    Stays x (forSlots f x) :=
  forSlots_induct f (Stays x) x (.refl x) fun i _ hy => hy.trans (h i _)

theorem stays_withdrawSlot (q : List FifoEntry) (i : SlotNum) (x : State) : Stays x (withdrawSlot q i x) := by
  unfold withdrawSlot
  split
  · exact .refl x
  · split
    · dsimp only
      split
      · exact stays_closeSlot i _ x
      · exact .same rfl
    · exact .refl x

theorem stays_withdraw (r : ReqNum) (x : State) : Stays x (withdraw r x) := by
  unfold withdraw
  dsimp only
  split
  · exact .refl x
  · have slots : Stays x (forSlots (withdrawSlot (fifoOf x r)) (setFifo r [] x)) :=
      (stays_forSlots (stays_withdrawSlot _) _).ofUpdate rfl
    have counted : ∀ n y, Stays y (discardPosted n y) := fun _ _ => .same rfl
    exact (slots.trans (counted _ _)).trans (stays_notifyHeadOf r _)

theorem stays_removeEntries (i : SlotNum) (r : ReqNum) (x : State) : Stays x (removeEntries i r x) := by
  rw [removeEntries_eq]
  refine .told ?_ rfl
  split
  · exact headStays_spaceFreed r _
  · exact .refl _

theorem stays_holdReleased (g : Generation) (x : State) : Stays x (holdReleased g x) := by
  rw [holdReleased_eq]
  exact .same rfl

theorem stays_cutSlot (i : SlotNum) (x : State) : Stays x (cutSlot i x) := by
  unfold cutSlot
  split
  · exact .refl x
  · exact stays_freeSlot i x
  · exact stays_closeSlot i _ x

theorem stays_warmSlot (i : SlotNum) (x : State) : Stays x (warmSlot i x) := by
  unfold warmSlot
  split
  · exact .refl x
  · exact stays_freeSlot i x
  · exact (stays_produce .up _ x).trans (stays_freeSlot i _)

/-! ## The commit unit and the lease -/

theorem stays_swapBanks (x : State) : Stays x (swapBanks x) := by
  unfold swapBanks
  split
  · exact .refl x
  · exact (stays_notifyHead _).ofUpdate rfl

theorem stays_endDrain (x : State) : Stays x (endDrain x) := by
  unfold endDrain
  dsimp only
  split
  · exact (stays_swapBanks _).ofUpdate rfl
  · exact .same rfl

theorem stays_takeDrainEnd (x : State) : Stays x (takeDrainEnd x) := by
  unfold takeDrainEnd
  split
  · exact stays_endDrain x
  · exact .refl x

theorem stays_cancelHeld (x : State) : Stays x (cancelHeld x) := by
  unfold cancelHeld
  split
  · exact .same rfl
  · exact .refl x

theorem stays_completeFill (x : State) : Stays x (completeFill x) := (stays_raiseClass .stagedReady _).ofUpdate rfl

theorem stays_dropLease (x : State) : Stays x (setLease none x) := .dropped rfl (fun _ => id) nofun

theorem stays_noticeLeaseEnd (x : State) : Stays x (noticeLeaseEnd x) := .same rfl

theorem stays_endLease (k : FaultKind) (x : State) : Stays x (endLease k x) := by
  unfold endLease
  split
  · exact .refl x
  · exact (((stays_dropLease x).trans (stays_cancelHeld _)).trans (stays_noticeLeaseEnd _)).trans
      (stays_appendFault _ _)

theorem stays_lapseThrough (p : PortId) (x : State) : Stays x (lapseThrough p x) := by
  unfold lapseThrough
  split
  · exact .refl x
  · split
    · exact stays_endLease _ x
    · exact .refl x

theorem stays_lapseAtFall (x : State) : Stays x (lapseAtFall x) := by
  unfold lapseAtFall
  split
  · dsimp only
    split
    · exact ((stays_endDrain _).trans (stays_lapseThrough .down _)).ofUpdate rfl
    · exact ((stays_lapseThrough .down _).trans (stays_endDrain _)).ofUpdate rfl
  · exact (stays_lapseThrough .down x).trans (stays_takeDrainEnd _)

theorem stays_purgeCommands (p : PortId) (x : State) : Stays x (purgeCommands p x) :=
  .dropped rfl (fun _ hc => (List.mem_filter.mp hc).1) fun l hl => ⟨l, hl, rfl⟩

/-! ## Quarantine -/

theorem stays_enterQuarantine (o : Offence) (x : State) : Stays x (enterQuarantine o x) := by
  have marked : Stays x (notifyHeadOf o.requester
      (setEntry o.requester { entryOf x o.requester with state := .quarantined } x)) :=
    (stays_notifyHeadOf _ _).ofUpdate rfl
  have withdrawn := marked.trans (stays_withdraw o.requester _)
  exact ((withdrawn.trans (stays_appendFault _ _)).trans (stays_raiseClass .quarantine _)).trans
    (stays_takeDrainEnd _)

theorem stays_applyAction (a : Action) (o : Offence) (x : State) : Stays x (applyAction a o x) := by
  cases a with
  | reject => exact .refl x
  | strike =>
    simp only [applyAction]
    split
    · exact (stays_enterQuarantine o _).ofUpdate rfl
    · exact .same rfl
  | quarantine => exact stays_enterQuarantine o x

/-! ## Grants and responses -/

theorem stays_granted (r : ReqNum) (rest : List FifoEntry) (x : State) : Stays x (granted r rest x) :=
  (stays_notifyHeadOf r _).ofUpdate rfl

theorem stays_grantTo (r : ReqNum) (x : State) : Stays x (grantTo r x) := by
  unfold grantTo
  split
  · exact .refl x
  · exact ((stays_produce .down _ _).trans (stays_granted r _ _)).ofUpdate rfl
  · split
    · exact .refl x
    · split
      · exact .refl x
      · have opened : ∀ i o y, Stays y (setOcc i o y) := fun _ _ _ => .same rfl
        exact (((stays_produce .down _ _).trans (opened _ _ _)).trans (stays_granted r _ _)).ofUpdate rfl

theorem stays_answerOpen (i : SlotNum) (t : Tracked) (q : Piece) (body : ResponseBody) (x : State) :
    Stays x (answerOpen i t q body x) := by
  cases body with
  | rdrsp n data => exact (stays_produce _ _ x).trans (stays_settleOpen i _ _)
  | wrrsp => exact stays_settleOpen i _ x
  | errsp c =>
    simp only [answerOpen]
    split
    · exact (stays_appendFault _ x).trans (stays_settleOpen i _ _)
    · exact stays_settleOpen i _ x

theorem stays_answerStale (i : SlotNum) (t : Tracked) (q : Piece) (body : ResponseBody) (x : State) :
    Stays x (answerStale i t q body x) := by
  unfold answerStale
  dsimp only
  split
  · exact .same rfl
  · exact stays_freeSlot i x

theorem stays_takeResponse (r : Response) (x : State) : Stays x (takeResponse r x) := by
  unfold takeResponse
  split
  · split
    · exact ((stays_answerOpen _ _ _ _ x).trans (stays_returnRequest _ _ _ _)).trans (stays_takeDrainEnd _)
    · exact (stays_answerStale _ _ _ _ x).trans (stays_returnRequest _ _ _ _)
    · exact ((stays_appendFault _ _).trans (stays_returnRequest _ _ _ _)).ofUpdate rfl
  · exact .refl x

/-! ## Expiries -/

theorem stays_leaveOpen (i : SlotNum) (t : Tracked) (x : State) : Stays x (leaveOpen i t x) := by
  unfold leaveOpen
  split
  · exact .same rfl
  · exact stays_freeSlot i x

theorem stays_expireDeadline (i : SlotNum) (t : Tracked) (x : State) : Stays x (expireDeadline i t x) := by
  have removed := stays_removeEntries i (expireRecord t).requester x
  have expired : ∀ y, Stays y (setOcc i (.opened (expireRecord t)) y) := fun _ => .same rfl
  exact (((removed.trans (expired _)).trans (stays_produce .up _ _)).trans (stays_appendFault _ _)).trans
    ((stays_holdReleased _ _).trans ((stays_leaveOpen i _ _).trans (stays_takeDrainEnd _)))

theorem stays_expireReclaim (i : SlotNum) (t : Tracked) (x : State) : Stays x (expireReclaim i t x) :=
  ((stays_returnRequest _ _ _ x).trans (stays_freeSlot i _)).trans (stays_appendFault _ _)

theorem stays_happenResend (x : State) : Stays x (happenResend x) := by
  unfold happenResend
  split
  · rename_i l n _ _
    have noted := stays_produce l.holder.port (notePacket l.holder n (x.notice.reported ||| x.notice.pending) x) x
    exact noted.trans (.same rfl)
  · exact .refl x
  · exact .refl x

/-! ## Management commands -/

theorem stays_popCommand (x : State) : Stays x (popCommand x) :=
  .dropped rfl (fun _ => List.mem_of_mem_tail) fun l hl => ⟨l, hl, rfl⟩

section Bodies

variable (c : QueuedCommand) (x : State)

theorem stays_renewLease {l : Lease} (held : x.mgmt.lease = some l) : Stays x (renewLease c l x) := by
  have renewed : ∀ l' : Lease, l'.holder = l.holder → Stays x (setLease (some l') x) := fun l' same =>
    .dropped rfl (fun _ => id) (fun _ hl => ⟨l, held, by rw [← Option.some.inj hl, same]⟩)
  unfold renewLease
  split
  · have told : Stays x (answer c .tooEarly (.spacingRemaining (spacing x - (x.now - l.lastRenewal)))
        { x with mgmt := { x.mgmt with earlyRenewals := x.mgmt.earlyRenewals + 1 } }) :=
      (stays_answer c _ _ _).ofUpdate rfl
    unfold earlyRenewal
    dsimp only
    split
    · refine told.trans (.dropped rfl (fun _ => id) (fun _ hl => ⟨l, ?_, by rw [← Option.some.inj hl]⟩))
      rw [answer, produce_mgmt]
      exact held
    · exact told.trans (stays_endLease _ _)
  · exact (renewed (freshLease l.holder x) rfl).trans (stays_answer c _ _ _)

theorem stays_doRenew : Stays x (doRenew c x) := by
  unfold doRenew
  split
  · exact stays_answer c _ _ x
  · exact stays_renewLease c x ‹_›

theorem stays_doRelease : Stays x (doRelease c x) :=
  ((stays_dropLease x).trans (stays_answer c _ _ _)).trans (stays_noticeLeaseEnd _)

theorem stays_doRqRead : Stays x (doRqRead c x) := by
  unfold doRqRead
  split <;> exact stays_answer c _ _ x

theorem stays_doOrtRead : Stays x (doOrtRead c x) := by
  unfold doOrtRead
  split <;> exact stays_answer c _ _ x

theorem stays_doFlogRead : Stays x (doFlogRead c x) := by
  unfold doFlogRead
  split <;> exact stays_answer c _ _ x

theorem stays_doFlogPop : Stays x (doFlogPop c x) := by
  unfold doFlogPop
  dsimp only
  split_ifs
  · exact stays_answer c _ _ x
  · exact stays_answer c _ _ x
  · exact (stays_answer c _ _ _).ofUpdate rfl

theorem stays_doWtRead : Stays x (doWtRead c x) := by
  unfold doWtRead
  split
  · split
    · exact stays_answer c _ _ x
    · split <;> exact stays_answer c _ _ x
    · split <;> exact stays_answer c _ _ x
  · exact stays_answer c _ _ x

theorem stays_doWtWrite : Stays x (doWtWrite c x) := by
  unfold doWtWrite
  split
  · exact stays_answer c _ _ x
  · split_ifs
    · exact stays_answer c _ _ x
    · exact stays_answer c _ _ x
    · exact (stays_answer c _ _ _).ofUpdate rfl

theorem stays_doWtClear : Stays x (doWtClear c x) := by
  unfold doWtClear
  split
  · exact stays_answer c _ _ x
  · exact (stays_answer c _ _ _).ofUpdate rfl

theorem stays_doCommit : Stays x (doCommit c x) := by
  unfold doCommit
  split
  · exact stays_answer c _ _ x
  · split
    · exact (stays_answer c _ _ (holdCommit x)).ofUpdate rfl
    · exact (stays_swapBanks x).trans (stays_answer c _ _ _)

theorem stays_doCommitCancel : Stays x (doCommitCancel c x) := by
  unfold doCommitCancel
  split
  · exact (stays_cancelHeld x).trans (stays_answer c _ _ _)
  · exact stays_answer c _ _ x

theorem stays_writeState (w : RqWrite) : Stays x (writeState w x) := by
  rw [writeState_eq]
  dsimp only
  split
  · exact (stays_withdraw _ _).ofUpdate rfl
  · exact .same rfl

theorem stays_doRqWrite : Stays x (doRqWrite c x) := by
  unfold doRqWrite
  split
  · exact stays_answer c _ _ x
  · rename_i w _
    have written : Stays x (writeRequester w x) :=
      (stays_writeState x w).trans ((stays_notifyHeadOf _ _).ofUpdate rfl)
    dsimp only
    split_ifs
    · exact stays_answer c _ _ x
    · exact (written.trans (stays_answer c _ _ _)).trans (stays_takeDrainEnd _)
    · exact written.trans (stays_answer c _ _ _)

theorem stays_doReinstate : Stays x (doReinstate c x) := by
  unfold doReinstate
  split
  · exact stays_answer c _ _ x
  · split
    · exact ((stays_notifyHeadOf _ _).trans (stays_answer c _ _ _)).ofUpdate rfl
    · exact stays_answer c _ _ x

theorem stays_doNoteAck : Stays x (doNoteAck c x) := by
  unfold doNoteAck
  split
  · exact stays_answer c _ _ x
  · split
    · exact ((stays_answer c _ _ (acknowledge x)).trans (stays_testSend _)).ofUpdate rfl
    · exact stays_answer c _ _ x

theorem stays_doConfigWrite : Stays x (doConfigWrite c x) := by
  unfold doConfigWrite
  split
  · exact stays_answer c _ _ x
  · dsimp only
    split
    · exact (stays_answer c _ _ _).ofUpdate rfl
    · exact ((stays_answer c _ _ _).trans (stays_lapseThrough .down _)).ofUpdate rfl

theorem stays_doCountersRead : Stays x (doCountersRead c x) := by
  have cleared : ∀ y, Stays y (clearCounters y) := fun _ => .same rfl
  unfold doCountersRead
  dsimp only
  split
  · exact (stays_answer c _ _ x).trans (cleared _)
  · exact stays_answer c _ _ x

end Bodies

end Sys2Proof.Proofs
end

