-- ==== Sys2Proof/Proofs/PortLawEvents.lean ====
section
/-! PROOFS. What every command keeps (R25, R34, R40, R172, R177, R187, R189, R195): intake's arrivals, examinations and
stalls, the claim of a lease, the transitions of the links, the passing of time and the resets; so every step keeps the
laws of the links, of intake's head and of the ports. -/

namespace Sys2Proof.Proofs

open Sys2Proof.Machine Sys2Proof.Safety Sys2Proof.Claims Sys2Proof.Laws

variable {s x y u : State} {p : PortId} {q : Request} {rest : List IntakePacket}

/-! ## Updates of intake, of the management engine and of a port -/

/-- An update of intake that keeps the head's law and brings no packet to a port that is not UP. -/
theorem silent_setIntake {k : Intake} (head : HeadLaw x → HeadLaw { x with intake := k })
    (queue : k.queue ≠ [] → x.intake.queue ≠ [] ∨ x.up.link = .up) : Silent x { x with intake := k } where
  links _ := id
  head := head
  ports := fun ⟨up, down, waits, rest⟩ => ⟨up, down, fun h => (queue h).elim waits id, rest⟩
  pending := rfl
  sent _ := ⟨[], List.append_nil _⟩
  clock := rfl
  packets _ := rfl

/-- An update of the management engine that brings no command and no lease to a port that is not UP. -/
theorem silent_setManagement {m : ManagementEngine}
    (commands : PortLaw x → ∀ c ∈ m.queue, (x.port c.sender.port).link = .up)
    (lease : PortLaw x → ∀ l ∈ m.lease, (x.port l.holder.port).link = .up) : Silent x { x with mgmt := m } where
  links _ := id
  head := id
  ports law := by
    have ⟨up, down, waits, _, _⟩ := law
    exact ⟨up, down, waits, commands law, lease law⟩
  pending := rfl
  sent _ := ⟨[], List.append_nil _⟩
  clock := rfl
  packets _ := rfl

/-- A port whose link does not leave UP, and which has nothing new to send unless it is UP. -/
structure PortMoves (k l : Port) : Prop where
  link : LinkLaw k → LinkLaw l
  up : k.link = .up → l.link = .up
  tx : l.link ≠ .up → l.tx = k.tx
  sent : k.sent <+: l.sent

theorem prompt_setPort {k : Port} (h : PortMoves (x.port p) k) : Prompt x (x.setPort p k) where
  links q := by
    by_cases own : q = p
    · rw [own, port_setPort_same]
      exact h.link
    · rw [port_setPort_other x k own]
      exact id
  head := by cases p <;> exact id
  ports := by
    rintro ⟨up, down, waits, commands, lease⟩
    have stays : ∀ q, (x.port q).link = .up → ((x.setPort p k).port q).link = .up := by
      intro q isUp
      by_cases own : q = p
      · rw [own, port_setPort_same]
        exact h.up (own ▸ isUp)
      · rw [port_setPort_other x k own]
        exact isUp
    have empty : ∀ q, ((x.port q).link ≠ .up → (x.port q).tx = []) →
        ((x.setPort p k).port q).link ≠ .up → ((x.setPort p k).port q).tx = [] := by
      intro q law notUp
      have wasNotUp := mt (stays q) notUp
      by_cases own : q = p
      · subst own
        rw [port_setPort_same] at notUp ⊢
        rw [h.tx notUp, law wasNotUp]
      · rw [port_setPort_other x k own]
        exact law wasNotUp
    have unmoved : (x.setPort p k).intake = x.intake ∧ (x.setPort p k).mgmt = x.mgmt := by cases p <;> exact ⟨rfl, rfl⟩
    obtain ⟨intake, mgmt⟩ := unmoved
    rw [PortLaw, intake, mgmt]
    exact ⟨empty .up up, empty .down down, fun e => stays .up (waits e), fun c hc => stays _ (commands c hc),
      fun l hl => stays _ (lease l hl)⟩
  pending := by cases p <;> rfl
  sent q := by
    by_cases own : q = p
    · rw [own, port_setPort_same]
      exact h.sent
    · rw [port_setPort_other x k own]
  clock := by cases p <;> rfl

theorem silent_setPort {k : Port} (h : PortMoves (x.port p) k) (packets : k.sent = (x.port p).sent) :
    Silent x (x.setPort p k) where
  toPrompt := prompt_setPort h
  packets q := by
    by_cases own : q = p
    · rw [own, port_setPort_same, packets]
    · rw [port_setPort_other x k own]

/-! ## Intake -/

/-- With no packet there is no stall. -/
theorem stall_of_empty (law : HeadLaw x) (empty : x.intake.queue = []) : x.intake.stall = .none := by
  obtain ⟨-, own, -⟩ := law
  by_contra stalled
  have named := own stalled
  rw [headRequester, empty] at named
  cases stall : x.intake.stall <;> simp_all [StallCondition.requester]

/-- A packet behind the last one: the head and its stall are as before, or the packet is the head and its examination is
due (R25). -/
theorem headLaw_arrives (r : IntakePacket) (law : HeadLaw x) :
    HeadLaw { x with intake :=
      { x.intake with
        queue := x.intake.queue ++ [r]
        examDue := x.intake.examDue || x.intake.queue.isEmpty } } := by
  have unstalled := stall_of_empty law
  obtain ⟨due, own, exhaust⟩ := law
  cases queue : x.intake.queue with
  | nil => exact ⟨fun _ => .inl (by simp), fun stalled => absurd (unstalled queue) stalled, exhaust⟩
  | cons h rest =>
    have sameHead : headRequester { x with intake := { x.intake with queue := h :: rest ++ [r] } } = headRequester x := by
      cases h <;> simp only [headRequester, queue, List.cons_append]
    have was := due (by simp [queue])
    exact ⟨fun _ => was.imp (fun e => by simp [e]) id, fun stalled => (own stalled).trans sameHead.symm, exhaust⟩

theorem silent_arriveUpstream (r : IntakePacket) (x : State) : Silent x (arriveUpstream r x) := by
  unfold arriveUpstream
  split_ifs with up room
  · exact silent_setIntake (headLaw_arrives r) fun _ => .inr up
  · exact (stays_appendFault _ x).silent
  · exact .refl x

/-- The head leaves, and the packet behind it is due for its examination (R25). -/
theorem silent_leaveQueue (x : State) : Silent x (leaveQueue x) := by
  have left : Silent x { x with intake := intakeLeft x.intake.queue.tail x.intake } := by
    refine silent_setIntake (fun _ => ⟨fun waits => .inl ?_, fun stalled => absurd rfl stalled, nofun⟩) fun waits =>
      .inl fun empty => waits (by rw [intakeLeft, empty]; rfl)
    exact congrArg not (List.isEmpty_eq_false_iff.mpr waits)
  exact left.trans (stays_produce .up (.cret 1) _).silent

/-- Intake empty, with nothing due and no stall. -/
theorem silent_emptyIntake {k : Intake} (queue : k.queue = []) (stall : k.stall = .none)
    (exhaust : k.exhaustRaised = false) : Silent x { x with intake := k } :=
  silent_setIntake
    (fun _ => ⟨fun waits => absurd queue waits, fun stalled => absurd stall stalled, fun e => by simp [exhaust] at e⟩)
    fun waits => absurd queue waits

/-- The stall names the requester of the head (R34). -/
theorem silent_stallHead {a b : Bool} (missing : (a || b) = true) (head : x.intake.queue = .request q :: rest) :
    Silent x (stallHead a b q.requester x) := by
  have stalled : ∀ e, Silent x { x with intake :=
      { x.intake with stall := stallOf a b q.requester, examDue := false, exhaustRaised := e } } := by
    intro e
    have named : stallOf a b q.requester ≠ .none ∧ (stallOf a b q.requester).requester = some q.requester := by
      cases a <;> cases b <;> simp_all [stallOf, StallCondition.requester]
    obtain ⟨stall, requester⟩ := named
    exact silent_setIntake
      (fun _ => ⟨fun _ => .inr stall, fun _ => by rw [requester, headRequester, head], fun _ => stall⟩) .inl
  unfold stallHead
  dsimp only
  split
  · exact (stalled true).trans (stays_raiseClass .exhaust _).silent
  · exact stalled _

theorem silent_enqueueAccepted (r : ReqNum) (es : List FifoEntry) (h : Stays x y) :
    Silent x (enqueueAccepted r es y)  := by
  have queued : Stays y (setFifo r (fifoOf y r ++ es) y) := .same rfl
  have counted : ∀ e x, Stays x (setEntry r e x) := fun _ _ => .same rfl
  exact ((h.trans queued).trans (counted _ _)).silent.trans (silent_leaveQueue _)

theorem silent_resourceCheck (ps : List GrantedPiece) (g : Generation) (head : x.intake.queue = .request q :: rest) :
    Silent x (resourceCheck q ps g x) := by
  have allocated : ∀ i t, Stays x (allocate i t x) := fun _ _ => .same rfl
  unfold resourceCheck
  dsimp only
  split
  · split
    · split
      · exact silent_enqueueAccepted _ _ (allocated _ _)
      · exact silent_stallHead rfl head
    · exact silent_stallHead rfl head
  · split
    · exact silent_enqueueAccepted _ _ (.refl x)
    · exact silent_stallHead rfl head

theorem silent_refuseRequest (q : Request) (code : ErrCode) (report : Option FaultReport) (x : State) :
    Silent x (refuseRequest q code report x) := by
  have recorded : ∀ y, Stays x y → Silent x (match report with
      | some f => appendFault f (leaveQueue y)
      | none => leaveQueue y) := by
    intro y h
    have left := h.silent.trans (silent_leaveQueue y)
    cases report with
    | none => exact left
    | some f => exact left.trans (stays_appendFault f _).silent
  have counted : ∀ e y, Stays y (setEntry q.requester e y) := fun _ _ => .same rfl
  unfold refuseRequest
  refine recorded _ ?_
  cases q.kind with
  | pwreq => exact .same rfl
  | rdreq => exact (stays_produce _ _ x).trans (counted _ _)
  | wrreq => exact (stays_produce _ _ x).trans (counted _ _)

theorem silent_examineHead (x : State) : Silent x (examineHead x) := by
  unfold examineHead
  split
  · rename_i q rest head
    split
    · unfold examine
      split
      · have flagged : ∀ b, Stays x { x with intake := { x.intake with linkDownLogged := b } } := fun _ =>
          .told (headStays_flagged _ _) rfl
        exact (flagged _).silent.trans (silent_refuseRequest _ _ _ _)
      · exact (silent_refuseRequest _ _ _ x).trans (stays_applyAction _ _ _).silent
      · exact silent_resourceCheck _ _ head
    · exact .refl x
  · exact .refl x
  · exact .refl x

/-! ## Management commands -/

/-- A command is received at a port that is UP (R167, R188). -/
theorem silent_reachManagement (m : Mcmd) (up : PortLaw x → (x.port p).link = .up) :
    Silent x (reachManagement p m x) := by
  unfold reachManagement
  split
  · refine silent_setManagement (fun law c hc => ?_) fun ⟨_, _, _, _, lease⟩ => lease
    obtain old | new := List.mem_append.mp hc
    · obtain ⟨-, -, -, commands, -⟩ := law
      exact commands c old
    · rw [List.mem_singleton.mp new]
      exact up law
  · exact (stays_produce p _ x).silent

theorem silent_moveHead (x : State) : Silent x (moveHead x) := by
  unfold moveHead
  split
  · rename_i m rest head
    have moved : Silent x (reachManagement .up m x) :=
      silent_reachManagement m fun ⟨_, _, waits, _, _⟩ => waits (by simp [head])
    exact moved.trans (silent_leaveQueue _)
  · exact .refl x
  · exact .refl x

theorem silent_arriveDownstream (m : Mcmd) (x : State) : Silent x (arriveDownstream m x) := by
  unfold arriveDownstream
  split
  · exact silent_reachManagement m fun _ => ‹_›
  · exact .refl x

/-- A lease is granted to the sender of the head, whose port is UP. -/
theorem silent_grantLease {c : QueuedCommand} {l : Lease} (head : c ∈ x.mgmt.queue) (holder : l.holder = c.sender) :
    Silent x (setLease (some l) (popCommand x)) := by
  refine silent_setManagement (fun ⟨_, _, _, commands, _⟩ c hc => commands c (List.mem_of_mem_tail hc))
    fun law l' hl => ?_
  obtain ⟨-, -, -, commands, -⟩ := law
  obtain rfl : l = l' := Option.some.inj hl
  exact holder ▸ commands c head

theorem silent_doClaim {c : QueuedCommand} (head : c ∈ x.mgmt.queue) : Silent x (doClaim c (popCommand x)) := by
  unfold doClaim
  split
  · have granted : Silent x (setLease (some (freshLease c.sender (popCommand x))) (popCommand x)) :=
      silent_grantLease head rfl
    exact granted.trans ((stays_answer c _ _ _).trans (stays_testSend _)).silent
  · split
    · exact ((stays_popCommand x).trans (stays_renewLease c _ ‹_›)).silent
    · exact ((stays_popCommand x).trans (stays_answer c _ _ _)).silent

theorem silent_takeCommand {k : Command} {body : QueuedCommand → State → State}
    (hbody : ∀ c x, c ∈ x.mgmt.queue → Silent x (body c (popCommand x))) (x : State) :
    Silent x (takeCommand k body x) := by
  unfold takeCommand
  split
  · exact .refl x
  · rename_i c rest queue
    have refused : ∀ st, Silent x (answer c st .none (popCommand x)) := fun st =>
      ((stays_popCommand x).trans (stays_answer c st _ _)).silent
    split
    · unfold decideCommand
      split_ifs
      · exact refused _
      · exact refused _
      · exact refused _
      · exact hbody c x (by simp [queue])
    · exact .refl x

theorem silent_takeUnknown (x : State) : Silent x (takeUnknown x) := by
  unfold takeUnknown
  split
  · exact .refl x
  · rename_i c _ _
    have refused : ∀ st, Silent x (answer c st .none (popCommand x)) := fun st =>
      ((stays_popCommand x).trans (stays_answer c st _ _)).silent
    split
    · dsimp only
      split
      · exact refused _
      · exact refused _
    · exact .refl x

/-! ## The links -/

theorem silent_setSignal (p : PortId) (b : Bool) (x : State) : Silent x (setSignal p b x) :=
  silent_setPort ⟨id, id, fun _ => rfl, ⟨[], List.append_nil _⟩⟩ rfl

/-- What a port does at a transition, after the transition itself (R25, R190). -/
theorem stays_transition (p : PortId) (x : State) : Stays x (linkNotice p (linkChanged p x)) :=
  (stays_linkChanged p x).trans (stays_linkNotice p _)

/-- A DOWN port without a running hold-off timer enters TRAINING, and its INIT is sent (R187, R188). -/
theorem prompt_enterTraining (link : (x.port p).link = .down) (stopped : (x.port p).holdOffTimer = none) :
    Prompt x (enterTraining p x) := by
  have entered : Prompt x (x.setPort p
      { x.port p with
        link := .training, trainingTimer := some Config.trainingTime
        sent := (x.port p).sent ++ [initPacket p] }) :=
    prompt_setPort ⟨fun _ => ⟨by simp, fun runs => by simp [stopped] at runs⟩, fun up => by simp [link] at up, fun _ => rfl,
      ⟨_, rfl⟩⟩
  exact entered.trans (stays_transition p _).silent.toPrompt

theorem silent_failTraining (link : (x.port p).link = .training) : Silent x (failTraining p x) := by
  have failed : Silent x (x.setPort p (x.port p).fallen) :=
    silent_setPort ⟨fun _ => ⟨by simp [Port.fallen], fun _ => rfl⟩, fun up => by simp [link] at up, fun _ => rfl,
      ⟨[], List.append_nil _⟩⟩ rfl
  exact failed.trans (stays_transition p _).silent

theorem prompt_detectPeer (p : PortId) (x : State) : Prompt x (detectPeer p x) := by
  have reported := (silent_setSignal p true x).toPrompt
  unfold detectPeer
  dsimp only
  split
  · rename_i h
    exact reported.trans (prompt_enterTraining h.1 h.2)
  · exact reported

theorem prompt_endHoldOff (link : (x.port p).link = .down) : Prompt x (endHoldOff p x) := by
  have stopped : Silent x (x.setPort p { x.port p with holdOffTimer := none }) :=
    silent_setPort ⟨fun law => ⟨law.1, nofun⟩, id, fun _ => rfl, ⟨[], List.append_nil _⟩⟩ rfl
  unfold endHoldOff
  dsimp only
  split
  · exact stopped.toPrompt.trans (prompt_enterTraining (by rw [port_setPort_same]; exact link)
      (by rw [port_setPort_same]))
  · exact stopped.toPrompt

theorem silent_enterUp (c : InitCounts) (link : (x.port p).link = .training) : Silent x (enterUp p c x) := by
  have trained : Silent x (x.setPort p (x.port p).trained) := by
    refine silent_setPort ⟨fun law => ⟨by simp [Port.trained], fun runs => ?_⟩, fun _ => rfl, fun notUp => absurd rfl notUp,
      ⟨[], List.append_nil _⟩⟩ rfl
    have down := law.2 runs
    simp [link] at down
  have owners : ∀ y, Stays y (ownersUp p c y) := fun y => by
    cases p with
    | up => exact .refl y
    | down => exact .told (headStays_flagged _ _) rfl
  exact trained.trans (((stays_linkChanged p _).trans (owners _)).trans (stays_linkNotice p _)).silent

theorem silent_takeInit (p : PortId) (c : InitCounts) (x : State) : Silent x (takeInit p c x) := by
  unfold takeInit
  split
  · split
    · exact silent_enterUp c ‹_›
    · exact silent_failTraining ‹_›
  · exact .refl x

/-! ## A port leaves UP -/

/-- The part with port `p` fallen from UP, before the owners' parts. -/
def fallenFrom (p : PortId) (x : State) : State := x.setPort p (x.port p).lost

/-- What the part holds when the owners have done their parts at the fall of port `p`: nothing of that port. -/
structure Emptied (p : PortId) (x u : State) : Prop where
  port : ∀ q, PortStays (x.port q) (u.port q)
  packets : u.intake.queue ≠ [] → p ≠ .up ∧ x.intake.queue ≠ []
  commands : ∀ c ∈ u.mgmt.queue, c.sender.port ≠ p ∧ c ∈ x.mgmt.queue
  lease : ∀ l ∈ u.mgmt.lease, l.holder.port ≠ p ∧ ∃ l' ∈ x.mgmt.lease, l'.holder = l.holder
  pending : u.pending = x.pending
  now : u.now = x.now

theorem fallenFrom_fields (p : PortId) (x : State) :
    (fallenFrom p x).intake = x.intake ∧ (fallenFrom p x).mgmt = x.mgmt ∧ (fallenFrom p x).pending = x.pending ∧
      (fallenFrom p x).now = x.now := by
  cases p <;> exact ⟨rfl, rfl, rfl, rfl⟩

theorem fallenFrom_port (p q : PortId) (x : State) :
    (fallenFrom p x).port q = if q = p then (x.port p).lost else x.port q := by
  split
  · rename_i own
    rw [own]
    exact port_setPort_same x p _
  · exact port_setPort_other x _ ‹_›

/-- The ports' law does not look at what the fallen port held, which is gone. -/
theorem portLaw_of_emptied (h : Emptied p (fallenFrom p x) u) (law : PortLaw x) : PortLaw u := by
  obtain ⟨up, down, waits, commands, lease⟩ := law
  obtain ⟨intake, mgmt, -, -⟩ := fallenFrom_fields p x
  have other : ∀ q, q ≠ p → PortStays (x.port q) (u.port q) := fun q hq => by
    simpa only [fallenFrom_port, if_neg hq] using h.port q
  have tx : ∀ q, ((x.port q).link ≠ .up → (x.port q).tx = []) → (u.port q).link ≠ .up → (u.port q).tx = [] := by
    intro q was notUp
    by_cases own : q = p
    · have lost := (h.port q).lasts
      rw [fallenFrom_port, if_pos own] at lost
      exact lost.tx nofun rfl
    · have lasts := (other q own).lasts
      rw [lasts.link] at notUp
      exact lasts.tx notUp (was notUp)
  have link : ∀ q, q ≠ p → (x.port q).link = .up → (u.port q).link = .up := fun q hq up =>
    (other q hq).lasts.link.trans up
  refine ⟨tx .up up, tx .down down, fun left => ?_, fun c hc => ?_, fun l hl => ?_⟩
  · obtain ⟨notUp, was⟩ := h.packets left
    exact link .up notUp.symm (waits (intake ▸ was))
  · obtain ⟨notOwn, was⟩ := h.commands c hc
    exact link _ notOwn (commands c (mgmt ▸ was))
  · obtain ⟨notOwn, l', was, holder⟩ := h.lease l hl
    exact link _ notOwn (holder ▸ lease l' (mgmt ▸ was))

theorem silent_of_emptied (h : Emptied p (fallenFrom p x) u) (head : HeadLaw x → HeadLaw u) : Silent x u := by
  obtain ⟨-, -, pending, now⟩ := fallenFrom_fields p x
  have sent : ∀ q, (u.port q).sent = (x.port q).sent := fun q => by
    rw [(h.port q).sent, fallenFrom_port]
    split
    · rename_i own
      rw [own]
      rfl
    · rfl
  refine ⟨⟨⟨fun q law => (h.port q).lasts.linkLaw ?_, head, portLaw_of_emptied h, h.pending.trans pending, fun q =>
    sent q ▸ ⟨[], List.append_nil _⟩⟩, h.now.trans now⟩, sent⟩
  rw [fallenFrom_port]
  split
  · exact ⟨by simp [Port.lost, Port.fallen], fun _ => rfl⟩
  · exact law

theorem lapseThrough_lease (p : PortId) (x : State) : ∀ l ∈ (lapseThrough p x).mgmt.lease, l.holder.port ≠ p := by
  intro l hl own
  cases held : x.mgmt.lease with
  | none =>
    rw [lapseThrough_of_none p held, held] at hl
    exact nomatch hl
  | some k =>
    by_cases through : k.holder.port = p
    · have ended : Stays (setLease none x) (lapseThrough p x) := by
        rw [lapseThrough, held]
        dsimp only
        rw [if_pos through, endLease, held]
        exact ((stays_cancelHeld _).trans (stays_noticeLeaseEnd _)).trans (stays_appendFault _ _)
      obtain ⟨_, none, _⟩ := ended.lease l hl
      exact nomatch none
    · rw [lapseThrough_of_other held (Ne.symm through), held] at hl
      exact through (Option.some.inj hl ▸ own)

theorem lapseAtFall_lease (x : State) : ∀ l ∈ (lapseAtFall x).mgmt.lease, l.holder.port ≠ .down := by
  intro l hl
  unfold lapseAtFall at hl
  split at hl
  · dsimp only at hl
    split at hl
    · exact lapseThrough_lease .down _ l hl
    · obtain ⟨l', held, same⟩ := (stays_endDrain _).lease l hl
      exact same ▸ lapseThrough_lease .down _ l' held
  · obtain ⟨l', held, same⟩ := (stays_takeDrainEnd _).lease l hl
    exact same ▸ lapseThrough_lease .down _ l' held

theorem purgeCommands_queue (p : PortId) (x : State) : ∀ c ∈ (purgeCommands p x).mgmt.queue, c.sender.port ≠ p :=
  fun _ hc => by simpa using (List.mem_filter.mp hc).2

/-- R40, R172 and R177: intake is emptied, the port's commands are removed, its lease lapses. -/
theorem silent_leaveUp_up (x : State) : Silent x (leaveUp .up x) := by
  have changed := stays_linkChanged .up (fallenFrom .up x)
  have purged := stays_purgeCommands .up (discardIntake (linkChanged .up (fallenFrom .up x)))
  have lapsed := stays_lapseThrough .up (purgeCommands .up (discardIntake (linkChanged .up (fallenFrom .up x))))
  have owners := purged.trans lapsed
  have empty : (leaveUp .up x).intake.queue = [] := owners.intake.queue
  refine silent_of_emptied (p := .up)
    ⟨fun q => (changed.port q).trans (owners.port q), fun waits => absurd empty waits,
      fun c hc => ⟨purgeCommands_queue .up _ c (lapsed.commands c hc), changed.commands c (owners.commands c hc)⟩,
      fun l hl => ⟨lapseThrough_lease .up _ l hl, ?_⟩, owners.pending.trans changed.pending,
      owners.now.trans changed.now⟩
    fun _ => headLaw_of_stays owners.intake
      ⟨fun waits => absurd rfl waits, fun stalled => absurd rfl stalled, nofun⟩
  obtain ⟨l', held', same'⟩ := owners.lease l hl
  obtain ⟨l'', held'', same''⟩ := changed.lease l' held'
  exact ⟨l'', held'', same''.trans same'⟩

/-- The downstream owners' parts before the lease's and the drain's: the slots, the FIFOs, the waiting commands. -/
def downstreamCleared (x : State) : State := purgeCommands .down (notifyHead (cutIssue (forSlots cutSlot x)))

theorem stays_downstreamCleared (x : State) : Stays x (downstreamCleared x) := by
  have cut : ∀ y, Stays y (cutIssue y) := fun _ => .same rfl
  exact ((stays_forSlots stays_cutSlot x).trans (cut _)).trans ((stays_notifyHead _).trans (stays_purgeCommands .down _))

theorem downstreamCleared_queue (x : State) : ∀ c ∈ (downstreamCleared x).mgmt.queue, c.sender.port ≠ .down :=
  purgeCommands_queue .down (notifyHead (cutIssue (forSlots cutSlot x)))

theorem leaveUp_down_eq (x : State) :
    leaveUp .down x = lapseAtFall (downstreamCleared (linkChanged .down (fallenFrom .down x))) := rfl

/-- R59, R172 and R177: the slots close, the port's commands are removed, its lease lapses. -/
theorem silent_leaveUp_down (x : State) : Silent x (leaveUp .down x) := by
  have changed := stays_linkChanged .down (fallenFrom .down x)
  have cleared := stays_downstreamCleared (linkChanged .down (fallenFrom .down x))
  have lapsed := stays_lapseAtFall (downstreamCleared (linkChanged .down (fallenFrom .down x)))
  have all := (changed.trans cleared).trans lapsed
  rw [leaveUp_down_eq]
  refine silent_of_emptied (p := .down)
    ⟨all.port, fun waits => ⟨nofun, ?_⟩,
      fun c hc => ⟨downstreamCleared_queue _ c (lapsed.commands c hc), all.commands c hc⟩,
      fun l hl => ⟨lapseAtFall_lease _ l hl, all.lease l hl⟩, all.pending, all.now⟩
    (headLaw_of_stays (x := x) all.intake)
  rw [← all.intake.queue]
  exact waits

theorem silent_leaveUp (p : PortId) (x : State) : Silent x (leaveUp p x) := by
  cases p with
  | up => exact silent_leaveUp_up x
  | down => exact silent_leaveUp_down x

theorem silent_takeInitWhileUp (p : PortId) (x : State) : Silent x (takeInitWhileUp p x) := by
  unfold takeInitWhileUp
  split
  · exact silent_leaveUp p x
  · exact .refl x

theorem silent_dropLink (p : PortId) (x : State) : Silent x (dropLink p x) := by
  unfold dropLink
  split
  · exact .refl x
  · exact silent_failTraining ‹_›
  · exact silent_leaveUp p x

/-! ## Packets that leave, and time -/

theorem maintains_passTime (n : Nat) (x : State) : Maintains x (passTime n x) := by
  have timer : ∀ o : Option Nat, (fallTimer n o).isSome = o.isSome := fun _ => Option.isSome_map
  refine Lasts.maintains ⟨fun p => ?_, .refl _, fun _ => id, fun l hl => ?_⟩ rfl fun p => ?_
  · cases p <;> exact ⟨rfl, timer _, timer _, fun _ => id⟩
  · obtain ⟨l', held, rfl⟩ := Option.map_eq_some_iff.mp hl
    exact ⟨l', held, rfl⟩
  · cases p <;> exact ⟨[], List.append_nil _⟩

theorem maintains_sendHeld (x : State) : Maintains x (sendHeld x) := by
  refine Lasts.maintains ⟨fun p => ?_, .refl _, fun _ => id, fun l hl => ⟨l, hl, rfl⟩⟩ rfl fun p => ?_
  · cases p <;> exact ⟨rfl, rfl, rfl, fun _ _ => rfl⟩
  · cases p <;> exact ⟨_, rfl⟩

theorem prompt_takePiece (x : State) : Prompt x (takePiece x) := by
  unfold takePiece
  split
  · have lasts : ∀ p, PortLasts (x.port p) (State.port { x with
        down := x.down.sendAll, issue := { x.issue with sendPathBusy := false } } p) := by
      intro p
      cases p with
      | up => exact (PortStays.refl _).lasts
      | down => exact ⟨rfl, rfl, rfl, fun _ _ => rfl⟩
    refine ⟨Lasts.maintains ⟨lasts, .refl _, fun _ => id, fun l hl => ⟨l, hl, rfl⟩⟩ rfl fun p => ?_, rfl⟩
    cases p with
    | up => exact ⟨[], List.append_nil _⟩
    | down => exact ⟨_, rfl⟩
  · exact (Silent.refl x).toPrompt

theorem prompt_grantNext (x : State) : Prompt x (grantNext x) := by
  unfold grantNext
  split
  · exact (Silent.refl x).toPrompt
  · exact (prompt_takePiece x).trans (stays_grantTo _ _).silent.toPrompt

theorem sendOldest_lasts (k : Port) : PortLasts k k.sendOldest ∧ k.sent <+: k.sendOldest.sent := by
  unfold Port.sendOldest
  split
  · exact ⟨(PortStays.refl k).lasts, ⟨[], List.append_nil _⟩⟩
  · rename_i holds
    exact ⟨⟨rfl, rfl, rfl, fun _ empty => nomatch holds.symm.trans empty⟩, ⟨_, rfl⟩⟩

theorem maintains_transmit (x : State) : Maintains x (transmit x) := by
  have ports : ∀ p, (transmit x).port p = (x.port p).sendOldest := fun p => by cases p <;> rfl
  refine Lasts.maintains ⟨fun p => ?_, .refl _, fun _ => id, fun l hl => ⟨l, hl, rfl⟩⟩ rfl fun p => ?_
  · exact ports p ▸ (sendOldest_lasts _).1
  · exact ports p ▸ (sendOldest_lasts _).2

theorem maintains_happen (e : TimedEvent) (x : State) (due : e.left x = some 0) : Maintains x (e.happen x) := by
  cases e with
  | fillStep =>
    have copied : Stays x (copyNext x) := .same rfl
    exact copied.silent.toMaintains
  | fillCompletion => exact (stays_completeFill x).silent.toMaintains
  | deadline i =>
    simp only [TimedEvent.happen, happenDeadline]
    split
    · exact (Silent.refl x).toMaintains
    · exact (stays_expireDeadline i _ x).silent.toMaintains
  | reclaim i =>
    simp only [TimedEvent.happen, happenReclaim]
    split
    · exact (Silent.refl x).toMaintains
    · exact (stays_expireReclaim i _ x).silent.toMaintains
  | resend => exact (stays_happenResend x).silent.toMaintains
  | lease => exact (stays_endLease _ x).silent.toMaintains
  | training p =>
    have link : (x.port p).link = .training := by
      by_contra other
      simp [TimedEvent.left, other] at due
    exact (silent_failTraining link).toMaintains
  | holdOff p =>
    have link : (x.port p).link = .down := by
      by_contra other
      simp [TimedEvent.left, other] at due
    exact (prompt_endHoldOff link).toMaintains

theorem maintains_takeTimed (e : TimedEvent) (x : State) : Maintains x (takeTimed e x) :=
  takeTimed_keeps (P := Maintains x) (fun e y h due => h.trans (maintains_happen e y due))
    (fun n y h => h.trans ((maintains_sendHeld y).trans (maintains_passTime n _))) e x (Silent.refl x).toMaintains

/-- A fill's completion comes at once or not at all (R125). -/
theorem silent_fillCompletion (x : State) : Silent x (takeTimed .fillCompletion x) := by
  by_cases full : x.commit.condition = .filling ∧ x.commit.fillProgress = 64
  · rw [takeTimed_of_due (by simp [TimedEvent.left, full])]
    exact (stays_completeFill x).silent
  · rw [takeTimed_of_stopped (by simp [TimedEvent.left, full])]
    exact .refl x

theorem now_le_takeTimed (e : TimedEvent) (x : State) : x.now ≤ (takeTimed e x).now :=
  takeTimed_keeps (P := fun y => x.now ≤ y.now) (fun e y h _ => (spares_happen e y).now ▸ h)
    (fun n y h => h.trans (Nat.le_add_right y.now n)) e x le_rfl

/-! ## Resets -/

theorem silent_warmIntake (x : State) : Silent x (warmIntake x) := by
  have emptied : Silent x { x with intake := coldIntake } := silent_emptyIntake rfl rfl rfl
  unfold warmIntake
  dsimp only
  split
  · exact emptied
  · exact emptied.trans (stays_produce .up _ _).silent

theorem silent_warmReset (a : Party) (x : State) : Silent x (warmReset a x) := by
  have issue : ∀ y, Stays y (warmIssue (cancelTimers y)) := fun _ => .same rfl
  have commit : ∀ y, Stays y (warmCommit y) := fun _ => .same rfl
  have counters : ∀ y, Stays y (zeroResponseCounters (zeroRequesterCounters y)) := fun _ => .same rfl
  have managers : ∀ y, Stays y (warmNotice (warmManagement y)) := fun _ => .dropped rfl nofun nofun
  have begun := (silent_warmIntake x).trans (stays_forSlots stays_warmSlot _).silent
  have units := begun.trans ((issue _).trans ((commit _).trans (counters _))).silent
  exact units.trans ((managers _).trans (stays_appendFault _ _)).silent

theorem silent_doPartReset (c : QueuedCommand) (x : State) : Silent x (doPartReset c x) :=
  (stays_answer c .ok .none x).silent.trans (silent_warmReset c.sender _)

/-- A cold reset leaves at a port what it has sent, and nothing to send (log entry 19). -/
theorem maintains_coldReset (x : State) : Maintains x (coldReset x) where
  links p _ := by cases p <;> exact ⟨⟨nofun, nofun⟩, nofun⟩
  head _ := ⟨fun waits => absurd rfl waits, fun stalled => absurd rfl stalled, nofun⟩
  ports _ := ⟨fun _ => rfl, fun _ => rfl, fun waits => absurd rfl waits, nofun, nofun⟩
  pending := rfl
  sent p := by cases p <;> exact ⟨[], List.append_nil _⟩

theorem stays_startPart (a : Straps) (x : State) : Stays x (startPart a x) := .same rfl

theorem maintains_powerUp (a : Straps) (high : Bool) (x : State) : Maintains x (powerUp a high x) := by
  unfold powerUp
  split
  · exact (maintains_coldReset x).trans (stays_startPart a _).silent.toMaintains
  · exact maintains_coldReset x

theorem powerUp_sent (a : Straps) (high : Bool) (x : State) (p : PortId) :
    ((powerUp a high x).port p).sent = (x.port p).sent := by
  cases high <;> cases p <;> rfl

theorem silent_releaseReset (a : Straps) (x : State) : Silent x (releaseReset a x) := by
  unfold releaseReset
  split
  · exact (stays_startPart a x).silent
  · exact .refl x

/-! ## Every command, and the step -/

/-- What a command keeps: the laws, the waiting commands and what was sent; with the packets sent, but for the commands
at which a port may send, and the timebase, but for the cold resets and the commands that let time pass. -/
structure Runs (c : Instr) (s t : State) : Prop extends Maintains s t where
  packets : maySend c = false → ∀ p, (t.port p).sent = (s.port p).sent
  clock : (∀ x h, c ≠ .resetNAssert ∧ c ≠ .powerUp x h) → s.now ≤ t.now ∧ (letsTimePass c = false → t.now = s.now)

variable {c : Instr}

theorem Silent.runs (h : Silent s u) : Runs c s u :=
  ⟨h.toMaintains, fun _ => h.packets, fun _ => ⟨h.clock.ge, fun _ => h.clock⟩⟩

theorem Prompt.runs (h : Prompt s u) (sends : maySend c = true) : Runs c s u :=
  ⟨h.toMaintains, fun silent => absurd sends (by simp [silent]), fun _ => ⟨h.clock.ge, fun _ => h.clock⟩⟩

theorem whenRunning_induct {P : State → Prop} {f : State → State} (h : whenRunning f s = .next u) (held : P s)
    (hf : P (f s)) : P u := by
  obtain rfl : (if s.resetHeld then s else f s) = u := Host.Outcome.next.inj h
  split
  · exact held
  · exact hf

theorem runs_silent {f : State → State} (h : whenRunning f s = .next u) (hf : Silent s (f s)) : Runs c s u :=
  (whenRunning_induct h (.refl s) hf).runs

theorem runs_command {k : Command} {body : QueuedCommand → State → State}
    (h : whenRunning (takeCommand k body) s = .next u) (hbody : ∀ c x, Stays x (body c x)) : Runs c s u :=
  runs_silent h (silent_takeCommand (fun c x _ => ((stays_popCommand x).trans (hbody c _)).silent) s)

theorem runs_timed {e : TimedEvent} (h : whenRunning (takeTimed e) s = .next u) (time : letsTimePass c = true) :
    Runs c s u := by
  have kept : Maintains s u ∧ s.now ≤ u.now :=
    whenRunning_induct (P := fun x => Maintains s x ∧ s.now ≤ x.now) h ⟨(Silent.refl s).toMaintains, le_rfl⟩
      ⟨maintains_takeTimed e s, now_le_takeTimed e s⟩
  exact ⟨kept.1, fun silent => by simp [maySend, time] at silent, fun _ => ⟨kept.2, fun still => by simp [time] at still⟩⟩

theorem exec_runs (h : exec c s = .next u) : Runs c s u := by
  cases c with
  | upstreamPacketArrival r => exact runs_silent h (silent_arriveUpstream r s)
  | upstreamStrayPacket _ r =>
    refine runs_silent h ?_
    unfold strayUpstream
    split
    · exact (stays_appendFault _ s).silent
    · exact .refl s
  | upstreamCretDiscard _ _ => exact runs_silent (f := fun x => x) h (.refl s)
  | headExamination => exact runs_silent h (silent_examineHead s)
  | mcmdAtHead => exact runs_silent h (silent_moveHead s)
  | grant => exact (whenRunning_induct h (Silent.refl s).toPrompt (prompt_grantNext s)).runs rfl
  | responseArrival r => exact runs_silent h (stays_takeResponse r s).silent
  | downstreamCret cls n => exact runs_silent h (stays_takeCret cls n s).silent
  | downstreamStrayPacket _ => exact runs_silent (f := fun x => x) h (.refl s)
  | downstreamMcmdArrival m => exact runs_silent h (silent_arriveDownstream m s)
  | deadlineExpiry i => exact runs_timed h rfl
  | reclaimExpiry i => exact runs_timed h rfl
  | drainEnd => exact runs_silent h (stays_takeDrainEnd s).silent
  | fillStep => exact runs_timed h rfl
  | fillCompletion => exact runs_silent h (silent_fillCompletion s)
  | resendExpiry => exact runs_timed h rfl
  | leaseTimerExpiry => exact runs_timed h rfl
  | identify => exact runs_command h fun c => stays_answer c _ _
  | status => exact runs_command h fun c x => stays_answer c _ _ x
  | claim => exact runs_silent h (silent_takeCommand (fun _ _ => silent_doClaim) s)
  | renew => exact runs_command h stays_doRenew
  | release => exact runs_command h stays_doRelease
  | rqRead => exact runs_command h stays_doRqRead
  | ortRead => exact runs_command h stays_doOrtRead
  | flogRead => exact runs_command h stays_doFlogRead
  | flogPop => exact runs_command h stays_doFlogPop
  | wtRead => exact runs_command h stays_doWtRead
  | wtWrite => exact runs_command h stays_doWtWrite
  | wtClear => exact runs_command h stays_doWtClear
  | commit => exact runs_command h stays_doCommit
  | commitCancel => exact runs_command h stays_doCommitCancel
  | rqWrite => exact runs_command h stays_doRqWrite
  | reinstate => exact runs_command h stays_doReinstate
  | noteAck => exact runs_command h stays_doNoteAck
  | configRead => exact runs_command h fun c x => stays_answer c _ _ x
  | configWrite => exact runs_command h stays_doConfigWrite
  | countersRead => exact runs_command h stays_doCountersRead
  | partReset =>
    exact runs_silent h (silent_takeCommand (fun c x _ =>
      (stays_popCommand x).silent.trans (silent_doPartReset c _)) s)
  | peerDetect p =>
    obtain rfl := Host.Outcome.next.inj h
    split
    · exact (silent_setSignal p true s).runs
    · exact (prompt_detectPeer p s).runs rfl
  | initReceived p n => exact runs_silent h (silent_takeInit p n s)
  | initWhileUp p => exact runs_silent h (silent_takeInitWhileUp p s)
  | trainingTimerExpiry p => exact runs_timed h rfl
  | holdOffExpiry p => exact runs_timed h rfl
  | lossOfSignal p =>
    obtain rfl := Host.Outcome.next.inj h
    split
    · exact (silent_setSignal p false s).runs
    · exact ((silent_setSignal p false s).trans (silent_dropLink p _)).runs
  | errorBurst p => exact runs_silent h (silent_dropLink p s)
  | resetNAssert =>
    obtain rfl := Host.Outcome.next.inj h
    exact ⟨maintains_coldReset s, fun _ p => by cases p <;> rfl, fun other => absurd rfl (other ⟨0, false⟩ false).1⟩
  | resetNRelease a =>
    obtain rfl := Host.Outcome.next.inj h
    exact (silent_releaseReset a s).runs
  | powerUp a high =>
    obtain rfl := Host.Outcome.next.inj h
    exact ⟨maintains_powerUp a high s, fun _ => powerUp_sent a high s, fun other => absurd rfl (other a high).2⟩
  | unknownCommand => exact runs_silent h (silent_takeUnknown s)

/-- The laws of the links, of intake's head and of the ports hold after if they held before. -/
structure HoldsLaws (s t : State) : Prop where
  links : ∀ p, LinkLaw (s.port p) → LinkLaw (t.port p)
  head : HeadLaw s → HeadLaw t
  ports : PortLaw s → PortLaw t

theorem Maintains.laws (h : Maintains s u) : HoldsLaws s u := ⟨h.links, h.head, h.ports⟩

/-- The laws do not look at the commands that wait. -/
theorem HoldsLaws.ofUpdate {rest : List Instr} (h : HoldsLaws { s with pending := rest } u) : HoldsLaws s u :=
  ⟨fun p => by cases p; exacts [h.links .up, h.links .down], h.head, h.ports⟩

theorem step_laws (h : step s = .next u) : HoldsLaws s u := by
  unfold step at h
  split at h
  · unfold idle at h
    split_ifs at h
    · exact Host.Outcome.next.inj h ▸ (Silent.refl s).toMaintains.laws
    · exact Host.Outcome.next.inj h ▸ (maintains_transmit s).laws
    · split at h
      · exact (exec_runs h).laws
      · obtain rfl := Host.Outcome.next.inj h
        exact (maintains_passTime 1 s).laws
  · exact (exec_runs h).laws.ofUpdate

/-- Settles O57: every step keeps each of the laws. -/
theorem linkHeadAndPortLawsAreKept : Obligations.LinkHeadAndPortLawsAreKept :=
  ⟨fun _ _ law h => (step_laws h).links .up law, fun _ _ law h => (step_laws h).links .down law,
    fun _ _ law h => (step_laws h).head law, fun _ _ law h => (step_laws h).ports law⟩

end Sys2Proof.Proofs
end

