-- ==== Sys2Proof/Proofs/EveryCommand.lean ====
section
/-! PROOFS. Every command answers a next state (R195): what it keeps, the commands without an effect while RESET_N is
low, and the part's own events whose conditions do not hold (log entry 1). -/

namespace Sys2Proof.Proofs

open Sys2Proof.Machine Sys2Proof.Safety Sys2Proof.Claims Sys2Proof.Laws

variable {s : State} {c : Instr} {e : TimedEvent}

/-! ## A next state -/

theorem exec_answers (c : Instr) (s : State) : ∃ t, exec c s = .next t := by
  cases c <;> exact ⟨_, rfl⟩

/-- While RESET_N is low (R195). -/
theorem whenRunning_of_held (f : State → State) (held : s.resetHeld = true) : whenRunning f s = .next s := by
  simp [whenRunning, held]

theorem exec_of_held (held : s.resetHeld = true) (notPin : pinCommand c = false) : exec c s = .next s := by
  cases c
  case resetNAssert => exact nomatch notPin
  case resetNRelease => exact nomatch notPin
  case powerUp => exact nomatch notPin
  case peerDetect => exact nomatch notPin
  case lossOfSignal => exact nomatch notPin
  case upstreamCretDiscard => exact whenRunning_of_held (fun x => x) held
  case downstreamStrayPacket => exact whenRunning_of_held (fun x => x) held
  all_goals exact whenRunning_of_held _ held

/-! ## Events whose conditions do not hold -/

theorem whenRunning_of_idle {f : State → State} (idle : f s = s) : whenRunning f s = .next s := by
  simp [whenRunning, idle]

theorem exec_of_stopped (stopped : e.left s = none) : exec e.command s = .next s := by
  rw [exec_command]
  exact whenRunning_of_idle (takeTimed_of_stopped stopped)

theorem deadline_stopped {i : SlotNum} (h : openAt s i = none ∨ ∀ n, pick s.timers i ≠ .deadline n) :
    (TimedEvent.deadline i).left s = none := by
  simp only [TimedEvent.left, deadlineLeft]
  split
  · rename_i opened timer
    obtain notOpen | notDeadline := h
    · exact nomatch notOpen.symm.trans opened
    · exact absurd timer (notDeadline _)
  all_goals rfl

theorem reclaim_stopped {i : SlotNum} (h : staleAt s i = none ∨ ∀ n, pick s.timers i ≠ .reclaim n) :
    (TimedEvent.reclaim i).left s = none := by
  simp only [TimedEvent.left, reclaimLeft]
  split
  · rename_i stale timer
    obtain notStale | notReclaim := h
    · exact nomatch notStale.symm.trans stale
    · exact absurd timer (notReclaim _)
  all_goals rfl

theorem resend_stopped (h : s.mgmt.lease = none ∨ s.notice.outstanding = none ∨ s.notice.resendTimer = none) :
    TimedEvent.resend.left s = none := by
  simp only [TimedEvent.left]
  split_ifs with waits
  · obtain unheld | none | stopped := h
    · simp [unheld] at waits
    · simp [none] at waits
    · exact stopped
  · rfl

theorem portTimer_stopped {link state : LinkState} {timer : Option Nat} (h : link ≠ state ∨ timer = none) :
    (if link = state then timer else none) = none := by
  split_ifs with own
  · exact h.resolve_left (not_not.mpr own)
  · rfl

theorem grantNext_of_none (h : chooseFifo s = none) : grantNext s = s := by
  rw [grantNext, h]

theorem takeDrainEnd_of_notDue (h : s.commit.drainingBank = none ∨ s.commit.drainingOpen ≠ 0) : takeDrainEnd s = s := by
  refine if_neg fun due => ?_
  simp only [drainDue, Bool.and_eq_true, beq_iff_eq] at due
  obtain ⟨drains, ended⟩ := due
  obtain none | opened := h
  · simp [none] at drains
  · exact opened ended

theorem examineHead_of_notDue (h : s.intake.examDue = false) : examineHead s = s := by
  unfold examineHead
  split
  · exact if_neg (by simp [h])
  all_goals rfl

theorem examineHead_of_command {m : Mcmd} {rest : List IntakePacket} (h : s.intake.queue = .mcmd m :: rest) :
    examineHead s = s := by
  rw [examineHead, h]

theorem moveHead_of_request {q : Request} {rest : List IntakePacket} (h : s.intake.queue = .request q :: rest) :
    moveHead s = s := by
  rw [moveHead, h]

theorem heads_of_empty (h : s.intake.queue = []) : examineHead s = s ∧ moveHead s = s := by
  rw [examineHead, moveHead, h]
  exact ⟨rfl, rfl⟩

/-- An event of the part's own whose condition does not hold changes nothing (log entry 1). -/
theorem idleEvents_changeNothing (s : State) :
    (chooseFifo s = none → exec .grant s = .next s) ∧
    (s.commit.drainingBank = none ∨ s.commit.drainingOpen ≠ 0 → exec .drainEnd s = .next s) ∧
    (s.intake.examDue = false → exec .headExamination s = .next s) ∧
    (∀ m rest, s.intake.queue = .mcmd m :: rest → exec .headExamination s = .next s) ∧
    (∀ q rest, s.intake.queue = .request q :: rest → exec .mcmdAtHead s = .next s) ∧
    (s.intake.queue = [] → exec .headExamination s = .next s ∧ exec .mcmdAtHead s = .next s) :=
  ⟨fun h => whenRunning_of_idle (grantNext_of_none h), fun h => whenRunning_of_idle (takeDrainEnd_of_notDue h),
    fun h => whenRunning_of_idle (examineHead_of_notDue h), fun _ _ h => whenRunning_of_idle (examineHead_of_command h),
    fun _ _ h => whenRunning_of_idle (moveHead_of_request h),
    fun h => ⟨whenRunning_of_idle (heads_of_empty h).1, whenRunning_of_idle (heads_of_empty h).2⟩⟩

/-- Settles O31: what each command keeps, and the conditions without which it changes nothing. -/
theorem everyCommandAnswersANextState : Obligations.EveryCommandAnswersANextState := by
  refine ⟨⟨fun c s => ?_, fun c s => exec_of_held⟩, fun s _ => ?_⟩
  · obtain ⟨t, next⟩ := exec_answers c s
    have runs := exec_runs next
    exact ⟨t, next, runs.pending, fun p => ⟨runs.sent p, fun silent => runs.packets silent p⟩, runs.clock⟩
  · obtain ⟨grant, drain, notDue, command, request, empty⟩ := idleEvents_changeNothing s
    refine ⟨grant, fun i h => exec_of_stopped (e := .deadline i) (deadline_stopped h),
      fun i h => exec_of_stopped (e := .reclaim i) (reclaim_stopped h), drain,
      fun h => exec_of_stopped (e := .fillStep) (if_neg ?_), fun h => exec_of_stopped (e := .fillCompletion) (if_neg ?_),
      fun h => exec_of_stopped (e := .resend) (resend_stopped h), fun h => exec_of_stopped (e := .lease) ?_, notDue,
      command, request, empty, fun p => ⟨fun h => exec_of_stopped (e := .training p) (portTimer_stopped h),
        fun h => exec_of_stopped (e := .holdOff p) (portTimer_stopped h)⟩⟩
    · exact fun fills => h.elim (absurd fills.1) (not_le.mpr fills.2)
    · exact fun fills => h.elim (absurd fills.1) (absurd fills.2)
    · simp [TimedEvent.left, h]

end Sys2Proof.Proofs
end

