-- ==== Sys2Proof/Proofs/ResetByPins.lean ====
section
/-! PROOFS. The resets by the pins (R195): the laws in the state in which RESET_N low holds the part, and the values
that the held state, the release of RESET_N and power-up leave. -/

namespace Sys2Proof.Proofs

open Sys2Proof.Machine Sys2Proof.Safety Sys2Proof.Claims Sys2Proof.Laws

/-! ## The laws in the held state -/

theorem reset_slot_free (i : SlotNum) : (pick State.reset.ort i).occ = .free := (slot_of_reset (.refl _) i).1

theorem fifoOf_reset (r : ReqNum) : fifoOf State.reset r = [] := pick_replicate _ r

theorem entryOf_reset (r : ReqNum) : entryOf State.reset r = coldRequester := pick_replicate _ r

theorem fifoLaw_reset : FifoLaw State.reset :=
  (fifoLaw_iff _).mpr (fifoOf_of_empty fifoOf_reset fun i _ opened => nomatch (reset_slot_free i).symm.trans opened)

theorem noticeLaw_reset : NoticeLaw State.reset := ⟨fun _ => ⟨rfl, rfl, nofun⟩, nofun⟩

theorem linkLaw_cold : LinkLaw coldPort := ⟨⟨nofun, nofun⟩, nofun⟩

theorem headLaw_reset : HeadLaw State.reset := ⟨fun waits => absurd rfl waits, fun stalled => absurd rfl stalled, nofun⟩

theorem portLaw_reset : PortLaw State.reset :=
  ⟨fun _ => rfl, fun _ => rfl, fun waits => absurd rfl waits, nofun, nofun⟩

theorem requesterLaw_reset : RequesterLaw State.reset := fun r => by
  rw [entryOf_reset]
  decide

/-- Settles O3: law by law; the windows, slots, timers and generations by what holds of every state at the cold
reset values. -/
theorem resetStateIsSound : Obligations.ResetStateIsSound where
  log := (logLaw_iff _).mpr ⟨Nat.zero_le _, rfl⟩
  notice := noticeLaw_reset
  windows := windowLaw_of_reset (.refl _)
  roles := (rolesLaw_iff _).mpr rolesOf_reset
  drain := drainOf_reset
  generations := (generationLaw_iff _).mpr (generationOf_reset (.refl _))
  targets := targetLaw_of_free reset_slot_free
  tags := tagLaw_of_reset (.refl _)
  timers := timerLaw_of_reset (.refl _)
  slots := slotLaw_of_reset (.refl _)
  pools := ⟨le_rfl, le_rfl, Nat.zero_le _, Nat.zero_le _, fun _ => ⟨rfl, rfl⟩⟩
  queues := ⟨Nat.zero_le _, Nat.zero_le _, fun r => by simp [fifoOf_reset]⟩
  fifos := fifoLaw_reset
  quarantine := fun r _ => fifoOf_reset r
  downstream := fun _ => ⟨reset_slot_free, fifoOf_reset⟩
  sendPath := ⟨rfl, fun _ => rfl⟩
  upLink := linkLaw_cold
  downLink := linkLaw_cold
  head := headLaw_reset
  ports := portLaw_reset
  requesters := requesterLaw_reset
  config := by decide

/-! ## What the pins do -/

theorem releaseReset_of_held {s : State} (x : Straps) (held : s.resetHeld = true) : releaseReset x s = startPart x s :=
  if_pos held

theorem releaseReset_of_running {s : State} (x : Straps) (running : s.resetHeld = false) : releaseReset x s = s :=
  if_neg (ne_true_of_eq_false running)

/-- Settles O35: the cold reset, the start of the part and the two commands that need a condition. -/
theorem pinsResetThePart : Obligations.PinsResetThePart :=
  ⟨fun _ => ⟨rfl, fun _ => rfl⟩, fun x s =>
    ⟨fun held => congrArg Host.Outcome.next (releaseReset_of_held x held),
      fun running => congrArg Host.Outcome.next (releaseReset_of_running x running), coldReset s, rfl, rfl⟩⟩

end Sys2Proof.Proofs
end

