-- ==== Sys2Proof/Proofs/LinkEvents.lean ====
section
/-! PROOFS. The events of the packet link (R187, R188, R190): a port's entry into TRAINING, its entry into UP, and a
training that fails. -/

namespace Sys2Proof.Proofs

open Sys2Proof.Machine Sys2Proof.Safety Sys2Proof.Claims Sys2Proof.Laws

variable {s : State} {p : PortId} {c : InitCounts} {f : State → State}

/-! ## The part after a transition -/

/-- After a downstream transition a stalled head is examined anew (R25, log entry 13). -/
theorem linkNotice_down (x : State) : linkNotice .down x = { x with intake := headNotified x.intake } := notifyHead_eq x

theorem failTraining_eq (p : PortId) (s : State) : failTraining p s = trainingFailed p s := by
  cases p with
  | up => rfl
  | down => exact linkNotice_down _

/-- The part with port `p` in TRAINING, its peer's signal present (R187, R188). -/
def trainingEntered (p : PortId) (s : State) : State :=
  linkNotice p (linkChanged p (s.setPort p { portTraining (initPacket p) (s.port p) with signal := true }))

theorem trainingEntered_down (s : State) :
    trainingEntered .down s =
      let x := linkEvent .down { s with down := { portTraining (.init .none 0 0) s.down with signal := true } }
      { x with intake := headNotified x.intake } := linkNotice_down _

/-- A port with its hold-off timer stopped and its signal present enters TRAINING. -/
theorem enterTraining_eq {x : Port} (stopped : x.holdOffTimer = none) (signal : x.signal = true) :
    enterTraining p (s.setPort p x) =
      linkNotice p (linkChanged p (s.setPort p { portTraining (initPacket p) x with signal := true })) := by
  obtain ⟨link, training, holdOff, present, tx, sent⟩ := x
  obtain rfl : holdOff = none := stopped
  obtain rfl : present = true := signal
  cases p <;> rfl

/-! ## A peer's signal -/

theorem exec_peerDetect (p : PortId) (running : Running s) : exec (.peerDetect p) s = .next (detectPeer p s) :=
  congrArg Host.Outcome.next (if_neg (ne_true_of_eq_false running))

theorem detectPeer_eq (p : PortId) (s : State) :
    detectPeer p s =
      if (s.port p).link = .down ∧ (s.port p).holdOffTimer = none then enterTraining p (setSignal p true s)
      else setSignal p true s := by
  cases p <;> rfl

theorem detectPeer_of_stopped (down : (s.port p).link = .down) (stopped : (s.port p).holdOffTimer = none) :
    detectPeer p s = trainingEntered p s := by
  rw [detectPeer_eq, if_pos ⟨down, stopped⟩]
  exact enterTraining_eq (x := { s.port p with signal := true }) stopped rfl

theorem detectPeer_of_other (other : (s.port p).link ≠ .down ∨ (s.port p).holdOffTimer ≠ none) :
    detectPeer p s = setSignal p true s := by
  rw [detectPeer_eq, if_neg (not_and_or.mpr other)]

/-! ## The hold-off timer's expiry -/

theorem exec_holdOffExpiry (running : Running s) (down : (s.port p).link = .down)
    (expired : (s.port p).holdOffTimer = some 0) : exec (.holdOffExpiry p) s = .next (endHoldOff p s) :=
  exec_command_of_due (e := .holdOff p) running ((if_pos down).trans expired)

theorem endHoldOff_of_signal (signal : (s.port p).signal = true) : endHoldOff p s = trainingEntered p s := by
  rw [endHoldOff, if_pos signal]
  exact enterTraining_eq (x := { s.port p with holdOffTimer := none }) rfl signal

theorem endHoldOff_of_noSignal (signal : (s.port p).signal = false) :
    endHoldOff p s = s.setPort p { s.port p with holdOffTimer := none } := by
  rw [endHoldOff, if_neg (ne_true_of_eq_false signal)]

/-! ## A received INIT -/

theorem takeInit_of_training (training : (s.port p).link = .training) :
    takeInit p c s = if initAccepted p c then enterUp p c s else trainingFailed p s := by
  rw [takeInit, if_pos training, failTraining_eq]

theorem initAccepted_down_iff (c : InitCounts) :
    initAccepted .down c = true ↔
      1 ≤ c.request.toNat ∧ c.request.toNat ≤ 255 ∧ 1 ≤ c.posted.toNat ∧ c.posted.toNat ≤ 255 := by
  simp [initAccepted, and_assoc]

/-- R75 and R29: both pools, and the link-down logged flag. -/
theorem enterUp_down (c : InitCounts) (s : State) :
    enterUp .down c s =
      let x := linkEvent .down { s with down := { s.down with link := .up, trainingTimer := none } }
      { x with
        intake := headNotified { x.intake with linkDownLogged := false }
        issue := { x.issue with
          requestPool := ⟨c.request.toNat, c.request.toNat⟩
          postedPool := ⟨c.posted.toNat, c.posted.toNat⟩ } } := linkNotice_down _

/-! ## A training that fails, and the reports at a port in DOWN -/

theorem exec_trainingTimerExpiry (running : Running s) (training : (s.port p).link = .training)
    (expired : (s.port p).trainingTimer = some 0) :
    exec (.trainingTimerExpiry p) s = .next (trainingFailed p s) :=
  (exec_command_of_due (e := .training p) running ((if_pos training).trans expired)).trans
    (congrArg Host.Outcome.next (failTraining_eq p s))

theorem dropLink_of_training (training : (s.port p).link = .training) : dropLink p s = trainingFailed p s := by
  rw [dropLink, training, ← failTraining_eq]

theorem dropLink_of_down (down : (s.port p).link = .down) : dropLink p s = s := by
  rw [dropLink, down]

theorem exec_lossOfSignal (p : PortId) (running : Running s) :
    exec (.lossOfSignal p) s = .next (dropLink p (setSignal p false s)) :=
  congrArg Host.Outcome.next (if_neg (ne_true_of_eq_false running))

theorem setSignal_link (p : PortId) (b : Bool) (s : State) : ((setSignal p b s).port p).link = (s.port p).link := by
  cases p <;> rfl

/-- A port that enters TRAINING (R187). -/
theorem portsEnterTraining (s : State) (running : Running s) (p : PortId) :
    ((s.port p).link = .down → (s.port p).holdOffTimer = none →
      exec (.peerDetect p) s = .next (trainingEntered p s)) ∧
    ((s.port p).link ≠ .down ∨ (s.port p).holdOffTimer ≠ none →
      exec (.peerDetect p) s = .next (setSignal p true s)) ∧
    ((s.port p).link = .down → (s.port p).holdOffTimer = some 0 →
      ((s.port p).signal = true → exec (.holdOffExpiry p) s = .next (trainingEntered p s)) ∧
      ((s.port p).signal = false →
        exec (.holdOffExpiry p) s = .next (s.setPort p { s.port p with holdOffTimer := none }))) := by
  refine ⟨fun down stopped => ?_, fun other => ?_, fun down expired => ⟨fun signal => ?_, fun signal => ?_⟩⟩
  · rw [exec_peerDetect p running, detectPeer_of_stopped down stopped]
  · rw [exec_peerDetect p running, detectPeer_of_other other]
  · rw [exec_holdOffExpiry running down expired, endHoldOff_of_signal signal]
  · rw [exec_holdOffExpiry running down expired, endHoldOff_of_noSignal signal]

/-- A port that is in TRAINING or in DOWN, at the reports and the INIT that end a training (R188). -/
theorem trainingEnds (c : InitCounts) (s : State) (running : Running s) (p : PortId) :
    ((s.port p).link ≠ .training → exec (.initReceived p c) s = .next s) ∧
    ((s.port p).link = .training →
      ((s.port p).trainingTimer = some 0 → exec (.trainingTimerExpiry p) s = .next (trainingFailed p s)) ∧
      exec (.errorBurst p) s = .next (trainingFailed p s) ∧
      exec (.lossOfSignal p) s = .next (trainingFailed p (setSignal p false s))) ∧
    ((s.port p).link = .down →
      exec (.errorBurst p) s = .next s ∧ exec (.lossOfSignal p) s = .next (setSignal p false s)) := by
  refine ⟨fun other => ?_, fun training => ⟨exec_trainingTimerExpiry running training, ?_, ?_⟩, fun down => ⟨?_, ?_⟩⟩
  · exact whenRunning_of_idle (if_neg other)
  · exact (whenRunning_of_running _ running).trans (congrArg _ (dropLink_of_training training))
  · rw [exec_lossOfSignal p running, dropLink_of_training ((setSignal_link p false s).trans training)]
  · exact whenRunning_of_idle (dropLink_of_down down)
  · rw [exec_lossOfSignal p running, dropLink_of_down ((setSignal_link p false s).trans down)]

/-- Settles O32: the entry into TRAINING at either port, then the ends of a training. -/
theorem portsTrainOrFail : Obligations.PortsTrainOrFail := by
  refine ⟨fun s running => ?_, fun c s running => ?_⟩
  · obtain ⟨upDetect, upNoted, upHoldOff⟩ := portsEnterTraining s running .up
    have enters := portsEnterTraining s running .down
    rw [trainingEntered_down] at enters
    obtain ⟨downDetect, downNoted, downHoldOff⟩ := enters
    exact ⟨upDetect, downDetect, upNoted, downNoted, upHoldOff, downHoldOff⟩
  · have taken : ∀ p, (s.port p).link = .training →
        exec (.initReceived p c) s = .next (if initAccepted p c then enterUp p c s else trainingFailed p s) :=
      fun p training => (whenRunning_of_running _ running).trans (congrArg _ (takeInit_of_training training))
    refine ⟨fun training => taken .up training, fun training good => ?_, fun training bad => ?_, trainingEnds c s running⟩
    · rw [taken .down training, if_pos ((initAccepted_down_iff c).mpr good), enterUp_down]
    · rw [taken .down training, if_neg (mt (initAccepted_down_iff c).mp bad)]

end Sys2Proof.Proofs
end

