-- ==== Sys2Proof/Proofs/LinkFalls.lean ====
section
/-! PROOFS. A port leaves UP (R189): what each owner does when the upstream port falls (R40, R172, R177), and when the
downstream port falls (R59, R76, R110, R118, R128): the slots one by one, the issue unit, the lease and the drain. -/

namespace Sys2Proof.Proofs

open Sys2Proof.Machine Sys2Proof.Safety Sys2Proof.Claims Sys2Proof.Laws

variable {s x : State} {p : PortId} {c : Instr} {i : SlotNum} {t : Tracked}

/-! ## The events at which a port leaves UP -/

theorem dropLink_of_up (up : (s.port p).link = .up) : dropLink p s = leaveUp p s := by
  rw [dropLink, up]

theorem unsignalled_of_other (other : c ≠ .lossOfSignal p) : unsignalled c p s = s := if_neg other

theorem exec_of_leavesUp (running : Running s) (leaves : c ∈ leavesUp p) (up : (s.port p).link = .up) :
    exec c s = .next (leaveUp p (unsignalled c p s)) := by
  simp only [leavesUp, List.mem_cons, List.not_mem_nil, or_false] at leaves
  obtain rfl | rfl | rfl := leaves
  · rw [exec_lossOfSignal p running, dropLink_of_up ((setSignal_link p false s).trans up), unsignalled, if_pos rfl]
    rfl
  · rw [unsignalled_of_other (c := .errorBurst p) nofun]
    exact (whenRunning_of_running _ running).trans (congrArg _ (dropLink_of_up up))
  · rw [unsignalled_of_other (c := .initWhileUp p) nofun]
    exact (whenRunning_of_running _ running).trans (congrArg _ (if_pos up))

/-- A report of signal loss changes nothing but the port's signal. -/
theorem unsignalled_shape (c : Instr) (p : PortId) (s : State) :
    ∃ u d, unsignalled c p s = { s with up := u, down := d } := by
  unfold unsignalled
  split
  · cases p <;> exact ⟨_, _, rfl⟩
  · exact ⟨_, _, rfl⟩

/-- The fall of a port and its LINK event change the ports, the notice unit and the fault log only. -/
theorem linkFallen_shape (p : PortId) (s : State) :
    ∃ u d n l, linkChanged p (fallenFrom p s) = { s with up := u, down := d, notice := n, flog := l } := by
  obtain ⟨_, _, _, _, changed⟩ := linkChanged_shape p (fallenFrom p s)
  rw [changed]
  cases p <;> exact ⟨_, _, _, _, rfl⟩

/-! ## The upstream port (R40, R172, R177) -/

theorem notUp_eq_isDown (p : PortId) : (p != .up) = (p == .down) := by cases p <;> rfl

theorem leaveUp_up_eq (s : State) :
    leaveUp .up s =
      let x := linkEvent .up { s with up := portLost s.up }
      lapseThrough .up { x with
        intake := { x.intake with queue := [], stall := .none, exhaustRaised := false, examDue := false }
        mgmt := { x.mgmt with queue := x.mgmt.queue.filter fun m => m.sender.port == .down } } := by
  simp only [← notUp_eq_isDown]
  rfl

/-- Settles O33: the three commands are one event, whose parts keep the slots, the timers and the issue unit. -/
theorem upstreamFallEmptiesIntake : Obligations.UpstreamFallEmptiesIntake := by
  intro c s running leaves up s0 x y
  have fallen : exec c s = .next (lapseThrough .up y) :=
    (exec_of_leavesUp running leaves up).trans (congrArg _ (leaveUp_up_eq s0))
  obtain ⟨_, _, _, _, _, _, _, lapsed⟩ := lapseThrough_shape .up y
  obtain ⟨_, _, _, _, changed⟩ := linkFallen_shape .up s0
  obtain ⟨_, _, reported⟩ := unsignalled_shape c .up s
  have same : x = _ := changed
  have was : s0 = _ := reported
  refine ⟨fallen, ?_, ?_, ?_⟩ <;> rw [lapsed] <;> simp only [y, same, was]

/-! ## The slots at the downstream fall (R59) -/

theorem cutRecord_eq (t : Tracked) : cutRecord t = cutOff t := by
  have piece : cutPiece = fun p => if p.state = .queued ∨ p.state = .issued then { p with state := .failed .linkDown }
      else p := by
    funext p
    unfold cutPiece
    cases p.state <;> rfl
  rw [cutRecord, piece]
  rfl

/-- The timer of a slot at the fall. -/
def timerCut (x : Slot) (z : SlotTimer) : SlotTimer := if x.occ = .free then z else .none

/-- The answer of an OPEN slot at the fall, of its Failure. -/
def cutAnswer (t : Tracked) : OutPacket := failureAnswer (cutOff t)

/-- The part after the slots of `l` have closed or become FREE, one after the other, and intake has been told. -/
def slotsCut (l : List SlotNum) (s : State) : State :=
  { s with
    up := answersTo s.up ((l.filterMap (openAt s)).map cutAnswer)
    commit := (l.filterMap (openAt s)).foldl (fun c t => released t.generation c) s.commit
    ort := mapAll (fun i x => if i ∈ l then slotWarmed x else x) s.ort
    timers := mapAll (fun i z => if i ∈ l then timerCut (pick s.ort i) z else z) s.timers
    intake := headNotified s.intake }

theorem mapAll_id {α : Type} {n : Nat} {f : Fin n → α → α} {v : Vector α n} (h : ∀ i, f i (pick v i) = pick v i) :
    mapAll f v = v := pick_ext fun i => by rw [pick_mapAll, h]

theorem mapAll_single {α : Type} {n : Nat} (f : Fin n → α → α) (i : Fin n) (v : Vector α n) :
    mapAll (fun j x => if j ∈ [i] then f j x else x) v = put v i (f i (pick v i)) := by
  refine pick_ext fun j => ?_
  by_cases same : j = i
  · subst same
    simp
  · simp [same, pick_put_other _ _ same]

theorem slotsCut_nil (s : State) : slotsCut [] s = notifyHead s := by
  have ort : mapAll (fun i x => if i ∈ [] then slotWarmed x else x) s.ort = s.ort := mapAll_id fun _ => by simp
  have timers : mapAll (fun i z => if i ∈ [] then timerCut (pick s.ort i) z else z) s.timers = s.timers :=
    mapAll_id fun _ => by simp
  rw [notifyHead_eq, slotsCut, ort, timers]
  simp only [List.filterMap_nil, List.map_nil, List.foldl_nil, answersTo_nil]

theorem slotsCut_single (i : SlotNum) (s : State) :
    slotsCut [i] s =
      { s with
        up := answersTo s.up ((openAt s i).toList.map cutAnswer)
        commit := (openAt s i).toList.foldl (fun c t => released t.generation c) s.commit
        ort := put s.ort i (slotWarmed (pick s.ort i))
        timers := put s.timers i (timerCut (pick s.ort i) (pick s.timers i))
        intake := headNotified s.intake } := by
  have records : [i].filterMap (openAt s) = (openAt s i).toList := by
    rw [List.filterMap_cons]
    cases openAt s i <;> rfl
  rw [slotsCut, records, mapAll_single (fun _ => slotWarmed), mapAll_single fun j => timerCut (pick s.ort j)]

/-- A cut slot, when intake has been told. -/
theorem notifyHead_cutSlot (i : SlotNum) (s : State) : notifyHead (cutSlot i s) = slotsCut [i] s := by
  rw [slotsCut_single, notifyHead_eq]
  cases occ : (pick s.ort i).occ with
  | free => simp [cutSlot, occ, openAt, Occupancy.openRecord, slotWarmed, timerCut, answersTo_nil]
  | stale t =>
    simp [cutSlot, occ, openAt, Occupancy.openRecord, slotWarmed, timerCut, answersTo_nil, freeSlot_eq,
      headNotified_idem]
  | opened t =>
    have answer : closingPacket (cutRecord t) = some (cutAnswer t) := by
      rw [cutRecord_eq]
      exact closingPacket_of_failure rfl
    have closed : cutSlot i s = slotClosed i t.generation (produce .up (cutAnswer t) s) := by
      rw [cutSlot, occ]
      exact closeSlot_of_some answer
    simp [closed, produce_up_eq, slotClosed, occ, openAt, Occupancy.openRecord, slotWarmed, timerCut, headNotified_idem]

theorem slotsCut_notifyHead (l : List SlotNum) (s : State) : slotsCut l (notifyHead s) = slotsCut l s := by
  have same : openAt (notifyHead s) = openAt s := by
    rw [notifyHead_eq]
    rfl
  rw [slotsCut, same, notifyHead_eq, headNotified_idem]
  rfl

theorem slotsCut_cons (l : List SlotNum) (notIn : i ∉ l) (s : State) :
    slotsCut l (slotsCut [i] s) = slotsCut (i :: l) s := by
  have others : l.filterMap (openAt (slotsCut [i] s)) = l.filterMap (openAt s) := by
    refine List.filterMap_congr fun j hj => ?_
    have other : j ≠ i := fun same => notIn (same ▸ hj)
    simp [openAt, slotsCut_single, pick_put_other _ _ other]
  have records : (i :: l).filterMap (openAt s) = (openAt s i).toList ++ l.filterMap (openAt s) := by
    rw [List.filterMap_cons]
    cases openAt s i <;> rfl
  have ort : mapAll (fun j x => if j ∈ l then slotWarmed x else x) (slotsCut [i] s).ort =
      mapAll (fun j x => if j ∈ i :: l then slotWarmed x else x) s.ort := by
    refine pick_ext fun j => ?_
    by_cases same : j = i
    · subst same
      simp [slotsCut_single, notIn]
    · simp [slotsCut_single, same, pick_put_other _ _ same]
  have timers :
      mapAll (fun j z => if j ∈ l then timerCut (pick (slotsCut [i] s).ort j) z else z) (slotsCut [i] s).timers =
        mapAll (fun j z => if j ∈ i :: l then timerCut (pick s.ort j) z else z) s.timers := by
    refine pick_ext fun j => ?_
    by_cases same : j = i
    · subst same
      simp [slotsCut_single, notIn]
    · simp [slotsCut_single, same, pick_put_other _ _ same]
  rw [slotsCut, others, ort, timers, slotsCut_single, slotsCut, records]
  simp only [answersTo_append, List.map_append, List.foldl_append, headNotified_idem]

/-- The slots' part of the fall, in the order of the slots. -/
theorem foldl_cutSlot (l : List SlotNum) (each : l.Nodup) (s : State) :
    notifyHead (l.foldl (fun x i => cutSlot i x) s) = slotsCut l s := by
  induction l generalizing s with
  | nil => exact (slotsCut_nil s).symm
  | cons i l ih =>
    obtain ⟨notIn, each⟩ := List.nodup_cons.mp each
    calc notifyHead (l.foldl (fun x i => cutSlot i x) (cutSlot i s))
        = slotsCut l (notifyHead (cutSlot i s)) := by rw [ih each, slotsCut_notifyHead]
      _ = slotsCut (i :: l) s := by rw [notifyHead_cutSlot, slotsCut_cons l notIn]

theorem notifyHead_forSlots_cutSlot (s : State) :
    notifyHead (forSlots cutSlot s) = slotsCut (List.finRange 128) s :=
  foldl_cutSlot (List.finRange 128) (List.nodup_finRange 128) s

/-! ## The downstream port -/

theorem notifyHead_cutIssue (s : State) : notifyHead (cutIssue s) = cutIssue (notifyHead s) := by
  rw [notifyHead_eq, notifyHead_eq]
  rfl

theorem notDown_eq_isUp (p : PortId) : (p != .down) = (p == .up) := by cases p <;> rfl

theorem downstreamCleared_eq (s : State) :
    downstreamCleared s =
      { slotsCut (List.finRange 128) s with
        issue := { s.issue with
          fifos := Vector.replicate 32 []
          requestPool := { s.issue.requestPool with available := 0 }
          postedPool := { s.issue.postedPool with available := 0 }
          sendPathBusy := false }
        mgmt := { s.mgmt with
          postedDiscards := s.mgmt.postedDiscards + BitVec.ofNat 32 (postedQueued s)
          queue := s.mgmt.queue.filter fun m => m.sender.port == .up } } := by
  rw [downstreamCleared, notifyHead_cutIssue, notifyHead_forSlots_cutSlot]
  simp only [← notDown_eq_isUp]
  rfl

/-! ## The lapse and the drain end (R118, R128, log entry 5) -/

theorem leaseThrough_iff (p : PortId) (s : State) :
    (s.mgmt.lease.any fun l => l.holder.port == p) = true ↔ ∃ l ∈ s.mgmt.lease, l.holder.port = p := by
  cases s.mgmt.lease <;> simp

theorem endDrain_eq_drained (h : drainDue s = true) : endDrain s = drained s := by
  rw [endDrain_of_due h, takeDrainEnd_eq]

theorem lapseAtFall_of_both (lease : ∃ l ∈ s.mgmt.lease, l.holder.port = .down) (due : drainDue s = true) :
    lapseAtFall s = drained (lapseThrough .down { s with freeCount := s.freeCount + 1 }) ∨
      lapseAtFall s = lapseThrough .down (drained { s with freeCount := s.freeCount + 1 }) := by
  have counted : drainDue { s with freeCount := s.freeCount + 1 } = true := due
  rw [lapseAtFall, if_pos (Bool.and_eq_true_iff.mpr ⟨(leaseThrough_iff .down s).mpr lease, due⟩)]
  dsimp only
  split
  · exact .inr (congrArg _ (endDrain_eq_drained counted))
  · exact .inl (endDrain_eq_drained ((drainDue_lapseThrough .down _).trans counted))

theorem lapseAtFall_of_notBoth (h : ¬((∃ l ∈ s.mgmt.lease, l.holder.port = .down) ∧ drainDue s = true)) :
    lapseAtFall s = drained (lapseThrough .down s) := by
  rw [lapseAtFall, if_neg (by rwa [Bool.and_eq_true, leaseThrough_iff]), takeDrainEnd_eq]

theorem lapseAtFall_eq (lease : x.mgmt.lease = s.mgmt.lease) :
    if (∃ l ∈ s.mgmt.lease, l.holder.port = .down) ∧ drainDue x = true then
      let x' : State := { x with freeCount := x.freeCount + 1 }
      lapseAtFall x = drained (lapseThrough .down x') ∨ lapseAtFall x = lapseThrough .down (drained x')
    else lapseAtFall x = drained (lapseThrough .down x) := by
  rw [← lease]
  split_ifs with both
  · exact lapseAtFall_of_both both.1 both.2
  · exact lapseAtFall_of_notBoth both

/-- Settles O34: the slots in ascending number, the issue unit and the commands, then the lapse and the drain end. -/
theorem downstreamFallClosesEverySlot : Obligations.DownstreamFallClosesEverySlot := by
  intro c s running leaves up s0 x posted
  obtain ⟨_, _, _, _, changed⟩ := linkFallen_shape .down s0
  obtain ⟨_, _, reported⟩ := unsignalled_shape c .down s
  have same : x = _ := changed
  have was : s0 = _ := reported
  have fallen : exec c s = .next (lapseAtFall (downstreamCleared x)) :=
    (exec_of_leavesUp running leaves up).trans (congrArg _ (leaveUp_down_eq s0))
  refine ⟨_, downstreamCleared x, fallen, ?_, ?_, ?_, ?_⟩
  · intro i
    rw [downstreamCleared_eq]
    simp [slotsCut, same, was, slotWarmed]
  · intro i
    rw [downstreamCleared_eq]
    simp [slotsCut, same, was, timerCut]
  · rw [downstreamCleared_eq]
    simp only [slotsCut, same, was]
    rfl
  · have lease : (downstreamCleared x).mgmt.lease = s.mgmt.lease := by
      rw [downstreamCleared_eq]
      simp only [same, was]
    exact lapseAtFall_eq lease

end Sys2Proof.Proofs
end

