-- ==== Sys2Proof/Proofs/WireLayout.lean ====
section
/-! PROOFS. The packets on the wire (R193, Tables 11-3 and 11-4): the sixteen header bytes field by field, and the frames
of the packets that the part sends. -/

namespace Sys2Proof.Proofs

open Sys2Proof.Machine Sys2Proof.Safety Sys2Proof.Claims Sys2Proof.Laws

/-! ## Fields of several bytes -/

theorem wire_append (n k : Nat) {w : Nat} (x : BitVec w) (y : BitVec (8 * k)) :
    wire (n + k) (x ++ y) = wire n x ++ wire k y := by
  induction n with
  | zero =>
    have low : ∀ j ∈ (List.range k).reverse, (x ++ y).extractLsb' (8 * j) 8 = y.extractLsb' (8 * j) 8 := fun j hj => by
      have below : j < k := by simpa using hj
      exact BitVec.extractLsb'_append_eq_of_add_le (by omega)
    rw [Nat.zero_add, wire, List.map_congr_left low]
    rfl
  | succ n ih =>
    have high : (x ++ y).extractLsb' (8 * (n + k)) 8 = x.extractLsb' (8 * n) 8 := by
      rw [BitVec.extractLsb'_append_eq_of_le (by omega), Nat.mul_add, Nat.add_sub_cancel]
    rw [Nat.add_right_comm, wire_succ, ih, wire_succ, high]
    rfl

theorem wire_byte (z : Byte) : wire 1 z = [z] := congrArg (fun b => [b]) (BitVec.extractLsb'_eq_self)

theorem wire_two_append (x y : Byte) : wire 2 (x ++ y) = [x, y] := by
  rw [wire_append 1 1 x y, wire_byte, wire_byte]
  rfl

theorem wire_zero (n w : Nat) : wire n (0#w) = List.replicate n 0#8 := by
  simp [wire]

theorem wire_two (x : BitVec 16) : wire 2 x = twoBytes x.toNat := by
  have high : x.extractLsb' 8 8 = BitVec.ofNat 8 (x.toNat / 256) := by
    rw [BitVec.extractLsb', Nat.shiftRight_eq_div_pow]
  have low : x.extractLsb' 0 8 = BitVec.ofNat 8 x.toNat := rfl
  exact congrArg₂ (fun a b => [a, b]) high low

theorem wire_len16 (n : Nat) : wire 2 (len16 n) = twoBytes n := by
  rw [wire_two, len16, BitVec.toNat_ofNat, twoBytes, twoBytes]
  have high : BitVec.ofNat 8 (n % 2 ^ 16 / 256) = BitVec.ofNat 8 (n / 256) := by
    apply BitVec.eq_of_toNat_eq
    simp only [BitVec.toNat_ofNat]
    omega
  have low : BitVec.ofNat 8 (n % 2 ^ 16) = BitVec.ofNat 8 n := by
    apply BitVec.eq_of_toNat_eq
    simp only [BitVec.toNat_ofNat]
    omega
  rw [high, low]

theorem toNat_dtagBits (g : DTag) :
    (dtagBits g).toNat = g.slot.val * 512 + g.piece.val * 256 + g.incarnation.val * 64 := by
  obtain ⟨slot, piece, incarnation⟩ := g
  simp only [dtagBits, BitVec.toNat_append, BitVec.toNat_ofNat]
  have hs : slot.val % 2 ^ 7 = slot.val := Nat.mod_eq_of_lt slot.isLt
  have hp : piece.val % 2 ^ 1 = piece.val := Nat.mod_eq_of_lt piece.isLt
  have hi : incarnation.val % 2 ^ 2 = incarnation.val := Nat.mod_eq_of_lt incarnation.isLt
  rw [hs, hp, hi, ← Nat.shiftLeft_add_eq_or_of_lt (by omega), ← Nat.shiftLeft_add_eq_or_of_lt (by omega),
    ← Nat.shiftLeft_add_eq_or_of_lt (by omega)]
  simp only [Nat.shiftLeft_eq]
  omega

/-- A downstream tag in bytes 2 and 3 (Table 11-4). -/
theorem wire_dtagBits (g : DTag) : wire 2 (dtagBits g) = tagBytes g := by
  rw [wire_two, toNat_dtagBits, twoBytes, tagBytes]
  have high : (g.slot.val * 512 + g.piece.val * 256 + g.incarnation.val * 64) / 256 = g.slot.val * 2 + g.piece.val := by
    omega
  have low : BitVec.ofNat 8 (g.slot.val * 512 + g.piece.val * 256 + g.incarnation.val * 64) =
      BitVec.ofNat 8 (g.incarnation.val * 64) := by
    apply BitVec.eq_of_toNat_eq
    simp only [BitVec.toNat_ofNat]
    omega
  rw [high, low]

theorem wire_address (a : Addr) : wire 6 a = addressBytes a := rfl

/-- The bytes 6 to 11 of a NOTE (Table 11-3). -/
theorem wire_note (x y z : Byte) : wire 6 (x ++ y ++ z ++ 0#24) = [x, y, z, 0#8, 0#8, 0#8] := by
  rw [wire_append 3 3 (x ++ y ++ z) 0#24, wire_append 2 1 (x ++ y) z, wire_two_append, wire_byte, wire_zero]
  rfl

/-! ## The header -/

theorem header_frame (h : HeaderFields) (payload : List Byte) :
    (h.frame payload).header.toList =
      [h.kind.code ++ (if h.final then 0x1#4 else 0x0#4), BitVec.ofNat 8 h.requester.val] ++ wire 2 h.tagBits
        ++ [h.byte4, h.byte5] ++ wire 6 h.address ++ wire 2 h.length ++ wire 2 h.posted := rfl

/-! ## The packets the part sends (Table 11-3) -/

/-- The header bytes of a packet the part sends. -/
def sentHeader (k : OutPacket) : List Byte := (frameOf k).header.toList

theorem sentHeader_rdrsp (r : ReqNum) (t : Tag) (off len : Nat) (data : List Byte) (final : Bool) :
    sentHeader (.rdrsp r t off len data final) =
      [if final then 0x41#8 else 0x40#8, BitVec.ofNat 8 r.val, t, BitVec.ofNat 8 off] ++ List.replicate 8 0#8
        ++ twoBytes len ++ List.replicate 2 0#8 := by
  simp only [sentHeader, frameOf, header_frame, tagWord, wire_two_append, wire_len16, wire_zero]
  cases final <;> simp [PacketKind.code, List.replicate]

theorem sentHeader_wrrsp (r : ReqNum) (t : Tag) :
    sentHeader (.wrrsp r t) = [0x51#8, BitVec.ofNat 8 r.val, t] ++ List.replicate 13 0#8 := by
  simp only [sentHeader, frameOf, header_frame, tagWord, wire_two_append, wire_zero]
  rfl

theorem sentHeader_errsp (r : ReqNum) (t : Tag) (c : ErrCode) :
    sentHeader (.errsp r t c) =
      [0x61#8, BitVec.ofNat 8 r.val, t, 0#8, c.byte, c.poolByte] ++ List.replicate 10 0#8 := by
  simp only [sentHeader, frameOf, header_frame, tagWord, wire_two_append, wire_zero]
  rfl

theorem sentHeader_note (r : ReqNum) (n : Byte) (cls : ClassSet) (count : Nat) (gen : Generation) :
    sentHeader (.note r n cls count gen) =
      [0xA0#8, BitVec.ofNat 8 r.val, 0#8, 0#8, n, 0#8, cls.setWidth 8, gen, BitVec.ofNat 8 count]
        ++ List.replicate 7 0#8 := by
  simp only [sentHeader, frameOf, header_frame, wire_note, wire_zero]
  simp [PacketKind.code, List.replicate]

theorem sentHeader_cret (n : Nat) :
    sentHeader (.cret n) =
      [0xC0#8] ++ List.replicate 3 0#8 ++ [0x01#8] ++ List.replicate 7 0#8 ++ twoBytes n ++ List.replicate 2 0#8 := by
  simp only [sentHeader, frameOf, header_frame, wire_len16, wire_zero]
  simp [PacketKind.code, creditClassByte, List.replicate]

theorem sentHeader_rdreq (g : DTag) (a : Addr) (len : Nat) :
    sentHeader (.rdreq g a len) =
      [0x10#8, 0#8] ++ tagBytes g ++ List.replicate 2 0#8 ++ addressBytes a ++ twoBytes len
        ++ List.replicate 2 0#8 := by
  simp only [sentHeader, frameOf, header_frame, wire_dtagBits, wire_address,
    wire_len16, wire_zero]
  simp [PacketKind.code, List.replicate]

theorem sentHeader_wrreq (g : DTag) (a : Addr) (len : Nat) (data : List Byte) :
    sentHeader (.wrreq g a len data) =
      [0x20#8, 0#8] ++ tagBytes g ++ List.replicate 2 0#8 ++ addressBytes a ++ twoBytes len
        ++ List.replicate 2 0#8 := by
  simp only [sentHeader, frameOf, header_frame, wire_dtagBits, wire_address,
    wire_len16, wire_zero]
  simp [PacketKind.code, List.replicate]

theorem sentHeader_pwreq (a : Addr) (len : Nat) (data : List Byte) :
    sentHeader (.pwreq a len data) =
      [0x30#8] ++ List.replicate 5 0#8 ++ addressBytes a ++ twoBytes len ++ List.replicate 2 0#8 := by
  simp only [sentHeader, frameOf, header_frame, wire_address, wire_len16, wire_zero]
  simp [PacketKind.code, List.replicate]

theorem sentHeader_mresp (r : ReqNum) (q : CmdSeq) (st : Status) (res : Results) :
    sentHeader (.mresp r q st res) =
      [0x90#8, BitVec.ofNat 8 r.val] ++ twoBytes q.toNat ++ [st.byte] ++ List.replicate 7 0#8
        ++ twoBytes (Config.resultPayload res).length ++ List.replicate 2 0#8 := by
  simp only [sentHeader, frameOf, header_frame, wire_two q, wire_len16, wire_zero]
  simp [PacketKind.code, List.replicate]

theorem resultPayload_length (res : Results) : (Config.resultPayload res).length ≤ 1024 := by
  unfold Config.resultPayload
  split
  · exact Nat.zero_le _
  · exact List.length_take_le _ _

/-- Settles O15, kind by kind. -/
theorem sentFramesFollowTheLayout : Obligations.SentFramesFollowTheLayout := by
  refine ⟨⟨fun _ _ _ _ _ _ => rfl, fun _ _ _ _ => rfl, fun _ _ _ => rfl, fun _ _ _ _ => rfl, fun _ _ => rfl,
      fun _ _ _ => rfl, fun _ _ _ _ _ => rfl, fun _ => rfl, fun _ _ _ => rfl, fun _ _ _ => rfl⟩,
    fun r t off len data final _ => sentHeader_rdrsp r t off len data final, sentHeader_wrrsp,
    fun r t c => sentHeader_errsp r t (.downstream c), fun r t c b listed => ?_,
    fun r n cls count gen _ => sentHeader_note r n cls count gen, sentHeader_cret, rfl, rfl, sentHeader_rdreq,
    sentHeader_wrreq, sentHeader_pwreq, fun r q st res => ⟨?_, resultPayload_length res, rfl⟩⟩
  · have code : c.byte = b ∧ c.poolByte = 0#8 := by
      revert listed
      simp only [List.mem_cons, Prod.mk.injEq, List.not_mem_nil, or_false]
      rintro (⟨rfl, rfl⟩ | ⟨rfl, rfl⟩ | ⟨rfl, rfl⟩ | ⟨rfl, rfl⟩ | ⟨rfl, rfl⟩ | ⟨rfl, rfl⟩ | ⟨rfl, rfl⟩ | ⟨rfl, rfl⟩ |
        ⟨rfl, rfl⟩ | ⟨rfl, rfl⟩) <;> exact ⟨rfl, rfl⟩
    obtain ⟨rfl, pool⟩ := code
    have header := sentHeader_errsp r t c
    rw [pool] at header
    exact header
  · refine (sentHeader_mresp r q st res).trans ?_
    cases st <;> rfl

end Sys2Proof.Proofs
end

