-- ==== Sys2Proof/Proofs/WireReading.lean ====
section
/-! PROOFS. Received frames (R193): the fields of a frame built from them, the commands that frames stand for, and the
frames that the peers form. -/

namespace Sys2Proof.Proofs

open Sys2Proof.Machine Sys2Proof.Safety Sys2Proof.Claims Sys2Proof.Laws

variable {link : LinkState} {f : Machine.Frame} {h : HeaderFields} {data : List Byte} {k : PacketKind}

/-! ## The fields of a built frame -/

theorem word_of_halves (x : BitVec 16) : x.extractLsb' 8 8 ++ x.extractLsb' 0 8 = x :=
  (BitVec.extractLsb'_append_extractLsb'_eq_extractLsb' rfl).trans BitVec.extractLsb'_eq_self

theorem kind_frame : (h.frame data).kind = h.kind.code :=
  BitVec.extractLsb'_append_eq_left (a := h.kind.code) (b := if h.final then 0x1#4 else 0x0#4)

theorem requester_frame : (h.frame data).requester = h.requester := by
  have below := h.requester.isLt
  apply Fin.ext
  show (BitVec.ofNat 8 h.requester.val).toNat % 32 = h.requester.val
  rw [BitVec.toNat_ofNat]
  omega

theorem tagBits_frame : (h.frame data).word 2 3 = h.tagBits := word_of_halves h.tagBits

theorem length_frame : (h.frame data).length = h.length := word_of_halves h.length

theorem posted_frame : (h.frame data).word 14 15 = h.posted := word_of_halves h.posted

theorem address_frame : (h.frame data).address = h.address := by
  show h.address.extractLsb' 40 8 ++ h.address.extractLsb' 32 8 ++ h.address.extractLsb' 24 8
    ++ h.address.extractLsb' 16 8 ++ h.address.extractLsb' 8 8 ++ h.address.extractLsb' 0 8 = h.address
  have joined : ∀ {m n k : Nat}, m = n + 8 → h.address.extractLsb' m k ++ h.address.extractLsb' n 8 =
      h.address.extractLsb' n (k + 8) := BitVec.extractLsb'_append_extractLsb'_eq_extractLsb'
  rw [joined (m := 40) rfl, joined (m := 32) rfl, joined (m := 24) rfl, joined (m := 16) rfl, joined (m := 8) rfl]
  exact BitVec.extractLsb'_eq_self

theorem dtagOf_eq (b : BitVec 16) :
    dtagOf b = ⟨Fin.ofNat 128 (b.toNat / 512), Fin.ofNat 2 (b.toNat / 256), Fin.ofNat 4 (b.toNat / 64)⟩ := by
  simp only [dtagOf, BitVec.toFin_extractLsb', Nat.shiftRight_eq_div_pow]

theorem dtagOf_dtagBits (g : DTag) : dtagOf (dtagBits g) = g := by
  obtain ⟨slot, piece, incarnation⟩ := g
  rw [dtagOf_eq, toNat_dtagBits]
  simp only [DTag.mk.injEq]
  refine ⟨Fin.ext ?_, Fin.ext ?_, Fin.ext ?_⟩ <;> simp only [Fin.val_ofNat] <;> omega

/-- The downstream tag in the bytes 2 and 3 of a received frame (Table 11-4). -/
theorem dtagOf_append (x y : Byte) :
    dtagOf (x ++ y) = ⟨Fin.ofNat 128 (x.toNat / 2), Fin.ofNat 2 x.toNat, Fin.ofNat 4 (y.toNat / 64)⟩ := by
  have below := y.isLt
  have joined : (x ++ y).toNat = x.toNat * 256 + y.toNat := by
    rw [BitVec.toNat_append, ← Nat.shiftLeft_add_eq_or_of_lt y.isLt, Nat.shiftLeft_eq]
  rw [dtagOf_eq, joined]
  simp only [DTag.mk.injEq]
  refine ⟨Fin.ext ?_, Fin.ext ?_, Fin.ext ?_⟩ <;> simp only [Fin.val_ofNat] <;> omega

theorem creditClassOf_byte (cls : CreditClass) : creditClassOf (creditClassByte cls) = cls := by
  cases cls <;> rfl

/-! ## The kind of a frame -/

theorem ofCode_code (k : PacketKind) : PacketKind.ofCode k.code = some k := by
  cases k <;> rfl

theorem ofCode_frame : PacketKind.ofCode (h.frame data).kind = some h.kind := by
  rw [kind_frame, ofCode_code]

theorem instrOfFrame_up (receives : link ≠ .down) (f : Machine.Frame) :
    instrOfFrame .up link f = some (upstreamInstr link f) := by
  cases link with
  | down => exact absurd rfl receives
  | training => rfl
  | up => rfl

theorem instrOfFrame_down (receives : link ≠ .down) (f : Machine.Frame) :
    instrOfFrame .down link f = some (downstreamInstr link f) := by
  cases link with
  | down => exact absurd rfl receives
  | training => rfl
  | up => rfl

/-! ## The frames the peers form -/

theorem upstream_request (link : LinkState) (q : Request) :
    upstreamInstr link (frameOfRequest q) = .upstreamPacketArrival (.request q) := by
  obtain ⟨kind, requester, tag, address, length, data⟩ := q
  have byte : (tagWord tag 0#8).extractLsb' 8 8 = tag := BitVec.extractLsb'_append_eq_left
  have read : ∀ (k : ReqKind) (h : HeaderFields), h.tagBits = tagWord tag 0#8 →
      requestOf k (h.frame data) = ⟨k, h.requester, tag, h.address, h.length, data⟩ := by
    intro k h tagged
    have second : (h.frame data).byte 2 = tag := by
      show h.tagBits.extractLsb' 8 8 = tag
      rw [tagged, byte]
    rw [requestOf, requester_frame, second, address_frame, length_frame]
    rfl
  cases kind <;> (rw [upstreamInstr, frameOfRequest, ofCode_frame]; exact congrArg _ (congrArg _ (read _ _ rfl)))

theorem mcmdOf_frame (m : Mcmd) : mcmdOf (frameOfMcmd m) = m := by
  rw [mcmdOf, frameOfMcmd, requester_frame, tagBits_frame]
  rfl

theorem upstream_mcmd (link : LinkState) (m : Mcmd) :
    upstreamInstr link (frameOfMcmd m) = .upstreamPacketArrival (.mcmd m) := by
  have kind : PacketKind.ofCode (frameOfMcmd m).kind = some .mcmd := ofCode_frame
  rw [upstreamInstr, kind]
  exact congrArg _ (congrArg _ (mcmdOf_frame m))

theorem downstream_mcmd (link : LinkState) (m : Mcmd) :
    downstreamInstr link (frameOfMcmd m) = .downstreamMcmdArrival m := by
  have kind : PacketKind.ofCode (frameOfMcmd m).kind = some .mcmd := ofCode_frame
  rw [downstreamInstr, kind]
  exact congrArg _ (mcmdOf_frame m)

theorem fields_frameOfCret (cls : CreditClass) (n : BitVec 16) :
    PacketKind.ofCode (frameOfCret cls n).kind = some .cret ∧
      creditClassOf ((frameOfCret cls n).byte 4) = cls ∧ (frameOfCret cls n).length = n :=
  ⟨ofCode_frame, creditClassOf_byte cls, length_frame⟩

theorem upstream_cret (link : LinkState) (cls : CreditClass) (n : BitVec 16) :
    upstreamInstr link (frameOfCret cls n) = .upstreamCretDiscard cls n := by
  obtain ⟨kind, byte, length⟩ := fields_frameOfCret cls n
  rw [upstreamInstr, kind]
  dsimp only
  rw [byte, length]

theorem downstream_cret (link : LinkState) (cls : CreditClass) (n : BitVec 16) :
    downstreamInstr link (frameOfCret cls n) = downstreamCretInstr cls n := by
  obtain ⟨kind, byte, length⟩ := fields_frameOfCret cls n
  rw [downstreamInstr, kind]
  dsimp only
  rw [byte, length]

theorem takenCount_iff (n : BitVec 16) : takenCount n = true ↔ 1 ≤ n.toNat ∧ n.toNat ≤ 255 := by
  simp [takenCount]

theorem downstream_response (link : LinkState) (r : Response) :
    downstreamInstr link (frameOfResponse r) = .responseArrival r := by
  obtain ⟨tag, body⟩ := r
  have read : ∀ (b : ResponseBody) (h : HeaderFields) (data : List Byte), h.tagBits = dtagBits tag →
      responseOf b (h.frame data) = ⟨tag, b⟩ := by
    intro b h data tagged
    rw [responseOf, tagBits_frame, tagged, dtagOf_dtagBits]
  cases body with
  | rdrsp length data =>
    rw [frameOfResponse, downstreamInstr, ofCode_frame]
    dsimp only
    rw [length_frame]
    exact congrArg _ (read _ _ _ rfl)
  | wrrsp =>
    rw [frameOfResponse, downstreamInstr, ofCode_frame]
    exact congrArg _ (read _ _ _ rfl)
  | errsp c =>
    rw [frameOfResponse, downstreamInstr, ofCode_frame]
    exact congrArg _ (read _ _ _ rfl)

theorem instrOfFrame_init (p : PortId) (receives : link ≠ .down) (cls : CreditClass) (c : InitCounts) :
    instrOfFrame p link (frameOfInit cls c) = some (initInstr p link (frameOfInit cls c)) := by
  have kind : PacketKind.ofCode (frameOfInit cls c).kind = some .init := ofCode_frame
  cases p with
  | up => rw [instrOfFrame_up receives, upstreamInstr, kind]
  | down => rw [instrOfFrame_down receives, downstreamInstr, kind]

theorem initCountsOf_frame (cls : CreditClass) (c : InitCounts) : initCountsOf (frameOfInit cls c) = c := by
  rw [initCountsOf, frameOfInit, length_frame, posted_frame]

theorem peerFrames_readBack :
    (∀ (link : LinkState), link ≠ .down →
     (∀ q, instrOfFrame .up link (frameOfRequest q) = some (.upstreamPacketArrival (.request q))) ∧
     (∀ m, instrOfFrame .up link (frameOfMcmd m) = some (.upstreamPacketArrival (.mcmd m))) ∧
     (∀ cls n, instrOfFrame .up link (frameOfCret cls n) = some (.upstreamCretDiscard cls n)) ∧
     (∀ m, instrOfFrame .down link (frameOfMcmd m) = some (.downstreamMcmdArrival m)) ∧
     (∀ r, instrOfFrame .down link (frameOfResponse r) = some (.responseArrival r)) ∧
     ∀ n, 1 ≤ n.toNat → n.toNat ≤ 255 →
       instrOfFrame .down link (frameOfCret .request n) = some (.downstreamCret .request n) ∧
       instrOfFrame .down link (frameOfCret .posted n) = some (.downstreamCret .posted n)) ∧
   (∀ p cls c, instrOfFrame p .training (frameOfInit cls c) = some (.initReceived p c) ∧
     instrOfFrame p .up (frameOfInit cls c) = some (.initWhileUp p)) ∧
   ∀ p f, instrOfFrame p .down f = none := by
  refine ⟨fun link receives => ?_, fun p cls c => ⟨?_, ?_⟩, fun _ _ => rfl⟩
  · have up := fun f => instrOfFrame_up receives f
    have down := fun f => instrOfFrame_down receives f
    refine ⟨fun q => ?_, fun m => ?_, fun cls n => ?_, fun m => ?_, fun r => ?_, fun n least most => ?_⟩
    · rw [up, upstream_request]
    · rw [up, upstream_mcmd]
    · rw [up, upstream_cret]
    · rw [down, downstream_mcmd]
    · rw [down, downstream_response]
    · have taken := (takenCount_iff n).mpr ⟨least, most⟩
      rw [down, down, downstream_cret, downstream_cret, downstreamCretInstr, downstreamCretInstr, if_pos taken,
        if_pos taken]
      exact ⟨rfl, rfl⟩
  · rw [instrOfFrame_init (link := .training) p nofun, initInstr, if_neg nofun, initCountsOf_frame]
  · rw [instrOfFrame_init (link := .up) p nofun, initInstr, if_pos rfl]

/-! ## Any received frame -/

/-- The kind code is the high half of byte 0. -/
theorem kind_eq (f : Machine.Frame) : f.kind = BitVec.ofNat 4 ((pick f.header 0).toNat / 16) := by
  rw [Machine.Frame.kind, Machine.Frame.byte, BitVec.extractLsb', Nat.shiftRight_eq_div_pow]

theorem kind_of_code {n : Nat} (code : (pick f.header 0).toNat / 16 = n) : f.kind = BitVec.ofNat 4 n :=
  code ▸ kind_eq f

theorem ofCode_of_code {n : Nat} (code : (pick f.header 0).toNat / 16 = n)
    (named : PacketKind.ofCode (BitVec.ofNat 4 n) = some k) : PacketKind.ofCode f.kind = some k := by
  rw [kind_of_code code, named]

theorem ofCode_unassigned {n : Nat} (listed : n ∈ [0x0, 0x7, 0xB, 0xE, 0xF]) :
    PacketKind.ofCode (BitVec.ofNat 4 n) = none := by
  simp only [List.mem_cons, List.not_mem_nil, or_false] at listed
  obtain rfl | rfl | rfl | rfl | rfl := listed <;> rfl

/-- A class that is not one of the pools' (R192). -/
theorem downstreamCretInstr_of_otherClass {cls : CreditClass} (n : BitVec 16) (request : cls ≠ .request)
    (posted : cls ≠ .posted) : downstreamCretInstr cls n = .downstreamStrayPacket (.cret cls n) := by
  unfold downstreamCretInstr
  split
  · cases cls with
    | none => rfl
    | intake => rfl
    | request => exact absurd rfl request
    | posted => exact absurd rfl posted
  · rfl

theorem creditClassOf_of_other {b : Byte} (request : b ≠ 0x02#8) (posted : b ≠ 0x03#8) :
    creditClassOf b ≠ .request ∧ creditClassOf b ≠ .posted := by
  unfold creditClassOf
  split_ifs <;> exact ⟨nofun, nofun⟩

theorem downstreamCretInstr_eq (b : Byte) (n : BitVec 16) :
    downstreamCretInstr (creditClassOf b) n =
      if 1 ≤ n.toNat ∧ n.toNat ≤ 255 ∧ b = 0x02#8 then .downstreamCret .request n
      else if 1 ≤ n.toNat ∧ n.toNat ≤ 255 ∧ b = 0x03#8 then .downstreamCret .posted n
      else .downstreamStrayPacket (.cret (classOfByte b) n) := by
  simp only [← and_assoc, ← takenCount_iff]
  by_cases taken : takenCount n = true
  · simp only [taken, true_and]
    by_cases request : b = 0x02#8
    · rw [request, if_pos rfl]
      exact if_pos taken
    · by_cases posted : b = 0x03#8
      · rw [posted, if_neg (by decide), if_pos rfl]
        exact if_pos taken
      · obtain ⟨notRequest, notPosted⟩ := creditClassOf_of_other request posted
        rw [if_neg request, if_neg posted]
        exact downstreamCretInstr_of_otherClass n notRequest notPosted
  · rw [if_neg (mt And.left taken), if_neg (mt And.left taken)]
    exact if_neg taken

theorem frames_readUpstream (receives : link ≠ .down) (f : Machine.Frame) : readsUpstream link f := by
  have reads : ∀ {n : Nat} {k : PacketKind} {c : Instr}, PacketKind.ofCode (BitVec.ofNat 4 n) = some k →
      (PacketKind.ofCode f.kind = some k → upstreamInstr link f = c) →
      (pick f.header 0).toNat / 16 = n → instrOfFrame .up link f = some c := fun named stands code => by
    rw [instrOfFrame_up receives, stands (ofCode_of_code code named)]
  have unassigned : ∀ n ∈ [0x0, 0x7, 0xB, 0xE, 0xF], (pick f.header 0).toNat / 16 = n →
      instrOfFrame .up link f = some (.upstreamStrayPacket (.unassigned (BitVec.ofNat 4 n)) f.requester) := by
    intro n listed code
    rw [instrOfFrame_up receives, upstreamInstr, kind_of_code code, ofCode_unassigned listed]
  refine ⟨reads rfl fun kind => ?_, reads rfl fun kind => ?_, reads rfl fun kind => ?_, reads rfl fun kind => ?_,
    reads rfl fun kind => ?_, reads rfl fun kind => ?_, reads rfl fun kind => ?_, reads rfl fun kind => ?_,
    reads rfl fun kind => ?_, reads rfl fun kind => ?_, reads rfl fun kind => ?_, unassigned⟩ <;>
  · rw [upstreamInstr, kind]
    rfl

theorem frames_readDownstream (receives : link ≠ .down) (f : Machine.Frame) : readsDownstream link f := by
  have reads : ∀ {n : Nat} {k : PacketKind} {c : Instr}, PacketKind.ofCode (BitVec.ofNat 4 n) = some k →
      (PacketKind.ofCode f.kind = some k → downstreamInstr link f = c) →
      (pick f.header 0).toNat / 16 = n → instrOfFrame .down link f = some c := fun named stands code => by
    rw [instrOfFrame_down receives, stands (ofCode_of_code code named)]
  have unassigned : ∀ n ∈ [0x0, 0x7, 0xB, 0xE, 0xF], (pick f.header 0).toNat / 16 = n →
      instrOfFrame .down link f = some (.downstreamStrayPacket (.unassigned (BitVec.ofNat 4 n))) := by
    intro n listed code
    rw [instrOfFrame_down receives, downstreamInstr, kind_of_code code, ofCode_unassigned listed]
  have tag : dtagOf (f.word 2 3) = _ := dtagOf_append (pick f.header 2) (pick f.header 3)
  have cret := downstreamCretInstr_eq (pick f.header 4) f.length
  refine ⟨reads rfl fun kind => ?_, reads rfl fun kind => ?_, reads rfl fun kind => ?_, reads rfl fun kind => ?_,
    reads rfl fun kind => ?_, reads rfl fun kind => ?_, reads rfl fun kind => ?_, reads rfl fun kind => ?_,
    reads rfl fun kind => ?_, reads rfl fun kind => ?_, reads rfl fun kind => ?_, unassigned⟩
  iterate 3
    · rw [downstreamInstr, kind]
      exact congrArg (fun g => Instr.responseArrival ⟨g, _⟩) tag
  · rw [downstreamInstr, kind]
    rfl
  · rw [downstreamInstr, kind]
    exact cret
  · rw [downstreamInstr, kind]
    rfl
  all_goals rw [downstreamInstr, kind]

end Sys2Proof.Proofs
end

