-- ==== Sys2Proof/Proofs/WirePayloads.lean ====
section
/-! PROOFS. The operands of the three long payloads come back as they were encoded (R194, Table 11-5). -/

namespace Sys2Proof.Proofs

open Sys2Proof.Machine Sys2Proof.Safety Sys2Proof.Claims Sys2Proof.Laws

/-! ## Numbers of several bytes -/

theorem wire_succ_low (n : Nat) {w : Nat} (x : BitVec w) : wire (n + 1) x = wire n (x >>> 8) ++ [x.extractLsb' 0 8] := by
  have shifted : ∀ k, x.extractLsb' (8 * (k + 1)) 8 = (x >>> 8).extractLsb' (8 * k) 8 := fun k => by
    ext i
    simp [Nat.mul_add, Nat.add_comm, Nat.add_left_comm]
  simp [wire, List.range_succ_eq_map, Function.comp_def, shifted]

theorem beBytes_toNat (n : Nat) {w : Nat} (x : BitVec w) : beBytes n x.toNat = wire n x := by
  induction n generalizing x with
  | zero => rfl
  | succ n ih =>
    have shifted : x.toNat / 256 = (x >>> 8).toNat := by
      rw [BitVec.toNat_ushiftRight, Nat.shiftRight_eq_div_pow]
    rw [beBytes, shifted, ih, wire_succ_low]
    rfl

theorem beBytes_eq_wire (n : Nat) {w x : Nat} (below : x < 2 ^ w) : beBytes n x = wire n (BitVec.ofNat w x) := by
  rw [← beBytes_toNat, BitVec.toNat_ofNat, Nat.mod_eq_of_lt below]

theorem beBytes_one (x : Nat) : beBytes 1 x = [BitVec.ofNat 8 x] := rfl

/-! ## Operands -/

theorem yesNoByte_ne_zero (x : Bool) : (yesNoByte x != 0#8) = x := by cases x <;> rfl

theorem actionNamed_byte (a : Action) : a.byte.toNat < 3 ∧ actionNamed a.byte = a := by
  cases a <;> exact ⟨by decide, rfl⟩

theorem classNamed_byte (d : DeadlineClass) : d.byte.toNat < 4 ∧ classNamed d.byte = d := by
  cases d <;> exact ⟨by decide, rfl⟩

theorem handling_byte (e : ErrorHandling) :
    e.byte.toNat < 2 ∧ (if e.byte = 0x00#8 then ErrorHandling.pass else .log) = e := by
  cases e <;> exact ⟨by decide, rfl⟩

theorem state_byte (x : StateOperand) :
    x.byte.toNat < 3 ∧
      (if x.byte = 0x00#8 then StateOperand.active else if x.byte = 0x01#8 then .disabled else .unchanged) = x := by
  cases x <;> exact ⟨by decide, rfl⟩

theorem mode_byte (m : ArbiterMode) :
    m.byte.toNat < 2 ∧ (if m.byte = 0x00#8 then ArbiterMode.fixed else .rotate) = m := by
  cases m <;> exact ⟨by decide, rfl⟩

theorem rights_byte (r : Rights) : (⟨r.byte.getLsbD 0, r.byte.getLsbD 1, r.byte.getLsbD 2⟩ : Rights) = r := by
  obtain ⟨read, write, posted⟩ := r
  cases read <;> cases write <;> cases posted <;> rfl

theorem mask_byte (m : ClassSet) : (m.setWidth 8).extractLsb' 0 6 = m := by
  rw [← BitVec.setWidth_eq_extractLsb' (by decide), BitVec.setWidth_setWidth_of_le _ (by decide), BitVec.setWidth_eq]

theorem ofNat_toNat_byte {n : Nat} (below : n < 256) : (BitVec.ofNat 8 n).toNat = n := by
  rw [BitVec.toNat_ofNat, Nat.mod_eq_of_lt below]

theorem index_byte {n : Nat} [NeZero n] (below : n ≤ 256) (i : Fin n) :
    (BitVec.ofNat 8 i.val).toNat < n ∧ Fin.ofNat n (BitVec.ofNat 8 i.val).toNat = i := by
  rw [ofNat_toNat_byte (i.isLt.trans_le below)]
  exact ⟨i.isLt, Fin.ext (Nat.mod_eq_of_lt i.isLt)⟩

/-! ## WT_WRITE -/

theorem wtWriteBytes_eq {e : WindowEntry} (i : WinIndex) (limit : e.limit ≤ 2 ^ 48) :
    wtWriteBytes i e =
      [BitVec.ofNat 8 i.val, yesNoByte e.valid] ++ wire 4 e.requesters ++ wire 6 e.base
        ++ wire 7 (BitVec.ofNat 56 e.limit) ++ wire 6 e.target
        ++ [e.rights.byte, e.violation.byte, yesNoByte e.logViolations, e.deadlineClass.byte, e.errorHandling.byte] := by
  rw [wtWriteBytes, beBytes_toNat, beBytes_toNat, beBytes_toNat, beBytes_eq_wire 7 (w := 56) (by omega), beBytes_one]
  rfl

theorem wtWrite_readsBack (i : WinIndex) (e : WindowEntry) (limit : e.limit ≤ 2 ^ 48) :
    (wtWriteBytes i e).length = 30 ∧ wtWriteOf (wtWriteBytes i e) = some (i, e) := by
  obtain ⟨index, indexed⟩ := index_byte (by decide) i
  obtain ⟨action, violation⟩ := actionNamed_byte e.violation
  obtain ⟨cls, deadline⟩ := classNamed_byte e.deadlineClass
  obtain ⟨code, handling⟩ := handling_byte e.errorHandling
  have number : (BitVec.ofNat 56 e.limit).toNat = e.limit := by
    rw [BitVec.toNat_ofNat]
    omega
  rw [wtWriteBytes_eq i limit]
  refine ⟨by simp [wire], ?_⟩
  rw [wtWriteOf_wire, if_pos ⟨index, number.le.trans limit, action, cls, code⟩]
  simp only [indexed, number, violation, deadline, handling, yesNoByte_ne_zero, rights_byte]

/-! ## RQ_WRITE -/

theorem rqWrite_readsBack (w : RqWrite) (openLeast : 1 ≤ w.openLimit) (openMost : w.openLimit ≤ 128)
    (strikeLeast : 1 ≤ w.strikeLimit) (strikeMost : w.strikeLimit ≤ 15) :
    (rqWriteBytes w).length = 7 ∧ rqWriteOf (rqWriteBytes w) = some w := by
  obtain ⟨index, requester⟩ := index_byte (by decide) w.requester
  obtain ⟨code, state⟩ := state_byte w.state
  obtain ⟨action, miss⟩ := actionNamed_byte w.missAction
  have openLimit : (BitVec.ofNat 8 w.openLimit).toNat = w.openLimit := ofNat_toNat_byte (by omega)
  have strikeLimit : (BitVec.ofNat 8 w.strikeLimit).toNat = w.strikeLimit := ofNat_toNat_byte (by omega)
  have bytes : rqWriteBytes w =
      [BitVec.ofNat 8 w.requester.val, w.state.byte, BitVec.ofNat 8 w.openLimit, BitVec.ofNat 8 w.strikeLimit,
        w.missAction.byte, yesNoByte w.mayManage, yesNoByte w.clearStrikes] := rfl
  refine ⟨rfl, ?_⟩
  rw [bytes, rqWriteOf_bytes, openLimit, strikeLimit,
    if_pos ⟨index, code, openLeast, openMost, strikeLeast, strikeMost, action⟩]
  simp only [requester, state, miss, yesNoByte_ne_zero]

/-! ## CONFIG_WRITE -/

/-- The ranges of the global configuration, operand by operand (Table 10-3). -/
structure ConfigRanges (c : GlobalConfig) : Prop where
  periods : ∀ t ∈ [c.t0, c.t1, c.t2, c.t3, c.reclaimPeriod], 1 ≤ t ∧ t ≤ 65535
  leaseLeast : 10 ≤ c.leasePeriod
  leaseMost : c.leasePeriod ≤ 10000
  spacing : c.minimumSpacing * 2 ≤ c.leasePeriod
  resendLeast : 1 ≤ c.resendPeriod
  resendMost : c.resendPeriod ≤ 255

theorem configWrite_readsBack {c : GlobalConfig} (ranges : ConfigRanges c) :
    (configWriteBytes c).length = 18 ∧ configWriteOf (configWriteBytes c) = some c := by
  obtain ⟨periods, leaseLeast, leaseMost, spacing, resendLeast, resendMost⟩ := ranges
  simp only [List.forall_mem_cons, List.not_mem_nil, false_implies, implies_true, and_true] at periods
  obtain ⟨⟨t0, t0'⟩, ⟨t1, t1'⟩, ⟨t2, t2'⟩, ⟨t3, t3'⟩, reclaim, reclaim'⟩ := periods
  obtain ⟨code, mode⟩ := mode_byte c.arbiterMode
  have word : ∀ {n : Nat}, n ≤ 65535 → beBytes 2 n = wire 2 (BitVec.ofNat 16 n) ∧ (BitVec.ofNat 16 n).toNat = n :=
    fun {n} most => ⟨beBytes_eq_wire 2 (by omega), by rw [BitVec.toNat_ofNat]; omega⟩
  obtain ⟨w0, n0⟩ := word t0'
  obtain ⟨w1, n1⟩ := word t1'
  obtain ⟨w2, n2⟩ := word t2'
  obtain ⟨w3, n3⟩ := word t3'
  obtain ⟨wr, nr⟩ := word reclaim'
  obtain ⟨wl, nl⟩ := word (n := c.leasePeriod) (by omega)
  obtain ⟨ws, ns⟩ := word (n := c.minimumSpacing) (by omega)
  have resend : (BitVec.ofNat 8 c.resendPeriod).toNat = c.resendPeriod := ofNat_toNat_byte (by omega)
  have bytes : configWriteBytes c =
      wire 2 (BitVec.ofNat 16 c.t0) ++ wire 2 (BitVec.ofNat 16 c.t1) ++ wire 2 (BitVec.ofNat 16 c.t2)
        ++ wire 2 (BitVec.ofNat 16 c.t3) ++ wire 2 (BitVec.ofNat 16 c.reclaimPeriod)
        ++ wire 2 (BitVec.ofNat 16 c.leasePeriod) ++ wire 2 (BitVec.ofNat 16 c.minimumSpacing)
        ++ [BitVec.ofNat 8 c.resendPeriod, c.classMask.setWidth 8, c.arbiterMode.byte,
          yesNoByte c.downstreamManagement] := by
    rw [configWriteBytes, w0, w1, w2, w3, wr, wl, ws, beBytes_one, List.append_assoc]
    rfl
  rw [bytes]
  refine ⟨by simp [wire], ?_⟩
  rw [configWriteOf_wire]
  simp only [n0, n1, n2, n3, nr, nl, ns, resend]
  rw [if_pos ⟨t0, t1, t2, t3, reclaim, leaseLeast, leaseMost, spacing, resendLeast, code⟩, mode, mask_byte,
    yesNoByte_ne_zero]

/-- Settles O16: the frames the peers form, any received frame, and the three payloads. -/
theorem payloadsAndFramesReadBack : Obligations.PayloadsAndFramesReadBack :=
  ⟨peerFrames_readBack, fun _ f receives => ⟨frames_readUpstream receives f, frames_readDownstream receives f⟩,
    wtWrite_readsBack, rqWrite_readsBack, fun _ periods leaseLeast leaseMost spacing resendLeast resendMost =>
      configWrite_readsBack ⟨periods, leaseLeast, leaseMost, spacing, resendLeast, resendMost⟩⟩

end Sys2Proof.Proofs
end

