-- ==== Sys2Proof/Proofs/QueueFront.lean ====
section
/-! PROOFS. The step on a queue that holds a command. Its counterpart on an empty queue is `step_of_empty`. -/

namespace Sys2Proof.Proofs

open Sys2Proof.Machine

/-- Settles O1, from the branch that `step` takes on a queue with a front. -/
theorem stepRunsTheFrontCommand : Obligations.StepRunsTheFrontCommand := by
  intro c rest s front
  rw [step, front]

end Sys2Proof.Proofs
end
